-- ==== Sys2Proof/Word.lean ====
section
/-! DEFINITION. The words a master and a bus partner see: bytes, 16-bit and 32-bit numbers, and the 4-bit reply
sequence. Byte orders and field layouts stand in Machine/Operands.lean. -/

namespace Sys2Proof

/-- One byte on the wire (R148); also a tag, an offer id or an edit id (00, "Tags"; R87; R106). -/
abbrev Byte := BitVec 8

/-- A lease (R1), a plan number (R121) or the frame field of a notice (R138). -/
abbrev Half := BitVec 16

/-- A frame number (R35). -/
abbrev Word := BitVec 32

end Sys2Proof
end

