-- ==== Sys2Proof/Syntax.lean ====
section
/-! DEFINITION. The commands of the part: one constructor for each row of spec/opcode_table.json.

A request row carries the port and the payload bytes of its transaction (R150, R166), so that a payload of the wrong
length or content is a command too (R163, R165). A row that stands for an event inside the part carries what tells one
such event from another. -/

namespace Sys2Proof

/-- The four control ports (00, "Ports"). -/
inductive Port where
  | a | b | c | d
deriving DecidableEq, Repr

/-- One row of the table of operations and events. -/
inductive Instr where
  /-- CS_ASSERTED: CSn of port `p` falls (R149). -/
  | csAsserted (p : Port)
  /-- TRANSACTION_IGNORED: CSn of `p` rises before a complete byte (R149). -/
  | transactionIgnored (p : Port)
  /-- TRANSACTION_REFUSED: CSn of `p` rises on a transaction of the complete bytes `bytes` that fails a check of R152;
  `partialByte` says that part of a further byte had been received. -/
  | transactionRefused (p : Port) (bytes : List Byte) (partialByte : Bool)
  /-- NONE: the read-only transaction, a first byte 0x00 and then `rest` (R153). -/
  | noneTransaction (p : Port) (rest : List Byte)
  /-- ATTACH (R157). -/
  | attach (p : Port) (payload : List Byte)
  /-- DETACH (R159). -/
  | detach (p : Port) (payload : List Byte)
  /-- POLL (R162). -/
  | poll (p : Port) (payload : List Byte)
  /-- SNAPSHOT (R45). -/
  | snapshot (p : Port) (payload : List Byte)
  /-- READ_SLOT (R26). -/
  | readSlot (p : Port) (payload : List Byte)
  /-- READ_MAP (R27). -/
  | readMap (p : Port) (payload : List Byte)
  /-- RENEW (R50). -/
  | renew (p : Port) (payload : List Byte)
  /-- RELEASE (R53). -/
  | release (p : Port) (payload : List Byte)
  /-- HOLDINGS (R62). -/
  | holdings (p : Port) (payload : List Byte)
  /-- RESERVE (R69). -/
  | reserve (p : Port) (payload : List Byte)
  /-- CANCEL (R80). -/
  | cancel (p : Port) (payload : List Byte)
  /-- READ_REQUESTS (R82). -/
  | readRequests (p : Port) (payload : List Byte)
  /-- OFFER (R89). -/
  | offer (p : Port) (payload : List Byte)
  /-- ACCEPT (R91). -/
  | accept (p : Port) (payload : List Byte)
  /-- DECLINE (R95). -/
  | decline (p : Port) (payload : List Byte)
  /-- WITHDRAW (R96). -/
  | withdraw (p : Port) (payload : List Byte)
  /-- SCHEDULE (R108). -/
  | schedule (p : Port) (payload : List Byte)
  /-- UNSCHEDULE (R115). -/
  | unschedule (p : Port) (payload : List Byte)
  /-- READ_EDITS (R116). -/
  | readEdits (p : Port) (payload : List Byte)
  /-- PROPOSE (R124). -/
  | propose (p : Port) (payload : List Byte)
  /-- CONFIRM (R126). -/
  | confirm (p : Port) (payload : List Byte)
  /-- REJECT (R127). -/
  | reject (p : Port) (payload : List Byte)
  /-- READ_PLAN (R136). -/
  | readPlan (p : Port) (payload : List Byte)
  /-- FETCH (R142). -/
  | fetch (p : Port) (payload : List Byte)
  /-- ATTENTION (R144). -/
  | attention (p : Port) (payload : List Byte)
  /-- FRAME_END: the frame in progress completes (R36). -/
  | frameEnd
  /-- LEASE_END: the lease of Staged entry `slot` reaches 0 (R48). -/
  | leaseEnd (slot : Nat)
  /-- TIMED_RELEASE: the timed edit at the head of the list, a due RELEASE, is applied (R112). -/
  | timedRelease
  /-- TIMED_RENEW: the timed edit at the head of the list, a due RENEW, is applied (R113). -/
  | timedRenew
  /-- TIMED_ENQUEUE: the timed edit at the head of the list, a due ENQUEUE, is applied (R114). -/
  | timedEnqueue
  /-- PLAN_APPLICATION: the due confirmed plan is applied (R131). -/
  | planApplication
  /-- WAIT_LAPSE: the walk over the records an allocator pass has left (R79). -/
  | waitLapse
  /-- OFFER_LAPSE: the frames remaining of the offer with this id reach 0 (R97). -/
  | offerLapse (id : Byte)
  /-- PROPOSAL_LAPSE: the deadline of the open proposal reaches 0 (R129). -/
  | proposalLapse
  /-- CLOCK_LOSS: the edge timer reaches 1024 while RUNNING (R38). -/
  | clockLoss
  /-- STALL_GAP: the edge timer reaches 1024 while STALLED (R37). -/
  | stallGap
  /-- CLOCK_RECOVERY: the sixteenth counted edge ends the stall (R40). -/
  | clockRecovery
  /-- RESET_ASSERTED (R46). -/
  | resetAsserted
  /-- RESET_NEGATED, with the levels of the four straps at that instant (R46, R122). -/
  | resetNegated (slt1 slt0 wid1 wid0 : Bool)
  /-- BIT_TIME_BEGINS: a rising edge of BCLK begins a bit time (R32). -/
  | bitTimeBegins
  /-- BCLK_EDGE: an edge, rising or falling, of the external BCLK input (R37). -/
  | bclkEdge
  /-- BYTE_RECEIVED: eight rising SCK edges on port `p`, with the level that SDI has at each of them in turn (R148,
  R149). -/
  | byteReceived (p : Port) (sdi : Vector Bool 8)
deriving DecidableEq, Repr

end Sys2Proof
end

