-- ==== Sys2Proof/Decode.lean ====
section
/-! DEFINITION. The command that a word spells by the bits of spec/opcode_table.json. No row of that table gives any
bits (each row's "fields" is empty and none has "fixed"), so no word spells a command (log 14). The bytes of a request
transaction are another matter: they are laid out and read in Machine/Operands.lean. -/

namespace Sys2Proof

/-- No row gives bits, so every word is refused. -/
def decodeTableWord (_nbits _w : Nat) : Option Instr := none

end Sys2Proof
end

