-- ==== Sys2Proof/Config.lean ====
section
/-! DEFINITION. The sizes the manual fixes, and the free choices it leaves open. -/

namespace Sys2Proof

/-- Records the request queue holds (R66). -/
def maxRequests : Nat := 16
/-- Records of one port in the request queue (R66). -/
def maxRequestsPerPort : Nat := 6
/-- Open offers the offer table holds (R87). -/
def maxOffers : Nat := 8
/-- Entries the timed edit list holds (R105). -/
def maxEdits : Nat := 24
/-- The farthest activation a SCHEDULE may name, in frames ahead (R109). -/
def maxDistance : Nat := 1048576
/-- Notices a notice queue holds (R137). -/
def maxNotices : Nat := 16
/-- Notices one FETCH reply holds (R142). -/
def maxFetched : Nat := 7
/-- REFCLK periods without a BCLK edge after which the clock counts as lost (R31, R37). -/
def edgeLimit : Nat := 1024
/-- BCLK edges that end a stall (R40). -/
def recoveryEdges : Nat := 16
/-- Bytes of a transaction that the receiver stores (R149). -/
def maxStored : Nat := 63
/-- Where the received-byte count stops (R149). -/
def maxCounted : Nat := 255

/-- FREE CHOICE (log 7): at which place among the seven commit steps of a frame end the OFFER_LAPSED notices of the
offer countdown join the queues; read modulo 8. R101 leaves the order open. -/
opaque Config.offerLapsePlace : Nat → Nat

/-- FREE CHOICE (log 7): the place of the PLAN_FAILED (LAPSED) notices of the deadline countdown among the commit steps
and the offer countdown of the same frame end; read modulo 9. R129 leaves the order open. -/
opaque Config.proposalLapsePlace : Nat → Nat

end Sys2Proof
end

