-- ==== Sys2Proof/Machine/State.lean ====
section
/-! DEFINITION. Every piece of state the spec gives the part, as plain data, and the state right after reset.
A field that the manual marks "present while" a state holds stands inside the constructor of that state. -/

namespace Sys2Proof.Machine

open Sys2Proof

/-- One value for each port. -/
structure PerPort (α : Type) where
  a : α
  b : α
  c : α
  d : α
deriving DecidableEq, Repr

/-- The value of port `p`. -/
def PerPort.get {α : Type} (v : PerPort α) : Port → α
  | .a => v.a
  | .b => v.b
  | .c => v.c
  | .d => v.d

/-- `v` with `x` as the value of port `p`. -/
def PerPort.set {α : Type} (v : PerPort α) (p : Port) (x : α) : PerPort α :=
  match p with
  | .a => { v with a := x }
  | .b => { v with b := x }
  | .c => { v with c := x }
  | .d => { v with d := x }

/-- The same value for every port. -/
def PerPort.all {α : Type} (x : α) : PerPort α := ⟨x, x, x, x⟩

/-- A set of ports (R165, "port set"). -/
abbrev PortSet := PerPort Bool

/-! ### The Slot Table (R1) -/

/-- The fields that a HELD and a SHARED entry have in common (R1): the lease of the slot, the tag of its grant, the
renewal waiting for the next commit, and the ports warned for the current lease. -/
structure Holding where
  lease : Half
  tag : Byte
  renewal : Option Half
  warned : PortSet
deriving DecidableEq, Repr

/-- One slot entry (R1). In every state other than HELD and SHARED the optional fields are absent, the tag is 0 and
the warned set empty (R2). -/
inductive Entry where
  | beacon
  | free
  | held (holder : Port) (h : Holding)
  | shared (members : List Port) (driver : Port) (h : Holding)
  | cooling
deriving DecidableEq, Repr

/-- A row of 64 slot entries, by slot position (R1). -/
abbrev Table := Vector Entry 64

/-! ### The plan and the geometry (R28, R120) -/

/-- The slot widths (R120). -/
inductive SlotWidth where
  | w16 | w24 | w32
deriving DecidableEq, Repr

/-- The clock sources (R28). -/
inductive ClockSource where
  | internal | external
deriving DecidableEq, Repr

/-- The FSYNC forms (R33). -/
inductive SyncForm where
  | pulse | span
deriving DecidableEq, Repr

/-- The level that represents asserted FSYNC (R28). -/
inductive SyncPolarity where
  | high | low
deriving DecidableEq, Repr

/-- The six geometry fields of a plan (R28). -/
structure Geometry where
  /-- S, the slots per frame. -/
  slots : Nat
  /-- W, the bit times per slot. -/
  width : SlotWidth
  source : ClockSource
  /-- D, the divider of the internal bit clock. -/
  divider : Byte
  form : SyncForm
  polarity : SyncPolarity
deriving DecidableEq, Repr

/-- A proposed plan: it carries no plan number (R123). -/
structure PlanTerms where
  geometry : Geometry
  quotas : PerPort Nat
deriving DecidableEq, Repr

/-- The plan in use (R120). -/
structure Plan where
  terms : PlanTerms
  number : Half
deriving DecidableEq, Repr

/-- What a proposal carries in either of its states (R123). -/
structure Proposal where
  proposer : Port
  terms : PlanTerms
  confirming : PortSet
  confirmed : PortSet
deriving DecidableEq, Repr

/-- The proposal state (R123): NONE; OPEN with its deadline; CONFIRMED with its application frame. -/
inductive ProposalState where
  | none
  | opened (pr : Proposal) (deadline : Nat)
  | agreed (pr : Proposal) (applicationFrame : Word)
deriving DecidableEq, Repr

/-! ### Requests, offers, timed edits (R67, R87, R106) -/

/-- Which slots satisfy a reservation (R68); only LIST has a slot list. -/
inductive Placement where
  | any
  | run
  | list (slots : List Nat)
deriving DecidableEq, Repr

/-- A reservation record without its port (R67, R106). -/
structure Reservation where
  tag : Byte
  placement : Placement
  count : Nat
  lease : Half
  wait : Nat
deriving DecidableEq, Repr

/-- A record of the request queue (R67). -/
structure Record where
  port : Port
  res : Reservation
deriving DecidableEq, Repr

/-- The offer kinds (R87). -/
inductive OfferKind where
  | handover | share
deriving DecidableEq, Repr

/-- An open offer (R87). -/
structure Offer where
  id : Byte
  giver : Port
  target : Port
  slot : Nat
  kind : OfferKind
  /-- frames remaining -/
  left : Nat
deriving DecidableEq, Repr

/-- The action of a timed edit with the fields it carries (R106). -/
inductive TimedAction where
  | release (slot : Nat)
  | renew (slot : Nat) (lease : Half)
  | enqueue (res : Reservation)
deriving DecidableEq, Repr

/-- An entry of the timed edit list (R106). -/
structure Edit where
  id : Byte
  issuer : Port
  activation : Word
  action : TimedAction
deriving DecidableEq, Repr

/-! ### Notices and replies (R138, R139, R167, R168) -/

/-- The 19 notice kinds (R139). -/
inductive NoticeKind where
  | granted | requestLapsed
  | leaseLow | leaseEnded | revoked
  | offerMade | offerTaken | offerRefused | offerVoid | offerLapsed
  | membersChanged
  | editDone | editFailed
  | planOpen | planAgreed | planFailed | planInForce
  | clockLost | clockBack
deriving DecidableEq, Repr

/-- The reasons, one space for all kinds (R168). -/
inductive Reason where
  | wait | plan | handover | share | declined | detached | withdrawn | released | lease | rejected | lapsed
  | releaseAction | renewAction | enqueueAction | notHolder | tagInUse | portLimit | queueFull
deriving DecidableEq, Repr

/-- A notice record (R138). -/
structure Notice where
  kind : NoticeKind
  reason : Option Reason
  tag : Option Byte
  slot : Option Nat
  count : Option Nat
  other : Option Port
  id : Option Byte
  frame : Half
deriving DecidableEq, Repr

/-- The reply codes (R167). -/
inductive ReplyCode where
  | ok | reset | framing | checksum | unknown
  | notAttached | alreadyAttached | badField
  | notHolder | tagInUse | overQuota | portLimit | queueFull | noRequest
  | slotOffered | alreadyMember | membersFull | targetDetached | tableFull | noOffer
  | past | tooFar | listFull | noEdit
  | proposalOpen | noProposal | notConfirmer
deriving DecidableEq, Repr

/-! ### The ports (R149, R154, R156, R137) -/

/-- A port's receiver (R149): IDLE, or RECEIVING with the count of received bytes, the stored bytes, and the bytes
captured at the CSn fall for SDO (R151). -/
inductive Receiver where
  | idle
  | receiving (count : Nat) (stored : List Byte) (sending : List Byte)
deriving DecidableEq, Repr

/-- What a port has while ATTACHED (R156, R137): its warn threshold and its attention mask, bit 0 GRANT to bit 6 CLOCK
(R165). -/
structure Attachment where
  warn : Byte
  mask : BitVec 7
deriving DecidableEq, Repr

/-- The Port Interface and the notice queue of one port. -/
structure PortState where
  /-- CSn is asserted (driven low). -/
  selected : Bool
  receiver : Receiver
  replyCode : ReplyCode
  replyBody : List Byte
  replySequence : BitVec 4
  /-- Present while the port is ATTACHED. -/
  attachment : Option Attachment
  notices : List Notice
  lost : Bool
deriving DecidableEq, Repr

/-! ### The Frame Generator (R37) -/

/-- The stall causes (R37). -/
inductive StallCause where
  | lost | switch
deriving DecidableEq, Repr

/-- The bit position while RUNNING (R37): the wait for the edge that begins the lead-in (R33), the lead-in bit time, or a
bit time of the frame. -/
inductive BitPosition where
  | leadInWait
  | leadIn
  | bit (n : Nat)
deriving DecidableEq, Repr

/-- The frame state (R37): RUNNING, or STALLED with its cause and the abandoned slot index. -/
inductive FrameState where
  | running (position : BitPosition)
  | stalled (cause : StallCause) (abandoned : Nat)
deriving DecidableEq, Repr

/-! ### The whole state -/

/-- Everything the part holds, the queue of commands that wait, and the number of the next free choice. -/
structure State where
  /-- Commands waiting, first in first out. -/
  pending : List Instr
  /-- RESETn is asserted. -/
  resetAsserted : Bool
  active : Table
  staged : Table
  generation : Byte
  geometry : Geometry
  frame : FrameState
  frameCounter : Word
  changed : Bool
  driveCut : PortSet
  edgeTimer : Nat
  recoveryCount : Nat
  /-- REFCLK periods since the last rising edge of the internal bit clock (R30). -/
  clockPhase : Nat
  /-- The bytes of the beacon word while slot 0 is under way, none otherwise (R42). -/
  beacon : List Byte
  requests : List Record
  offers : List Offer
  offerCounter : Byte
  edits : List Edit
  editCounter : Byte
  plan : Plan
  proposal : ProposalState
  ports : PerPort PortState
  /-- MODEL: the number of the next free choice (log 7, 12). -/
  choiceIndex : Nat
deriving DecidableEq, Repr

/-- Why the part would stop. The manual names no such event (INVENTORY.md, Faults), so there is no fault: no command
and no meaning can raise one. -/
inductive Fault where
deriving DecidableEq, Repr

/-- Why the model would refuse a command. -/
inductive Refusal where
  /-- Raised by an arm of `exec` for a command that has no meaning yet; safe. Every command has its meaning, so no arm
  raises it. -/
  | notModelled (mnemonic : String)
deriving DecidableEq, Repr

/-! ### Reset -/

/-- Both tables at reset (R1). -/
def Table.atReset : Table := (Vector.replicate 64 Entry.free).set 0 Entry.beacon

/-- A port at reset (R164, R147). -/
def PortState.atReset : PortState where
  selected := false
  receiver := .idle
  replyCode := .reset
  replyBody := []
  replySequence := 0
  attachment := none
  notices := []
  lost := false

/-- The reset plan for the S and W that the straps select (R122). -/
def Plan.atReset (slots : Nat) (width : SlotWidth) : Plan where
  terms :=
    { geometry :=
        { slots := slots, width := width, source := .internal, divider := 15, form := .pulse, polarity := .high }
      quotas := PerPort.all 63 }
  number := 0

/-- The machine right after the negation of RESETn with no strap driven (R46, R170; log 8): the reset plan has S = 8
and W = 16. -/
def State.reset : State where
  pending := []
  resetAsserted := false
  active := Table.atReset
  staged := Table.atReset
  generation := 0
  geometry := (Plan.atReset 8 .w16).terms.geometry
  frame := .running .leadInWait
  frameCounter := 0
  changed := false
  driveCut := PerPort.all false
  edgeTimer := 0
  recoveryCount := 0
  clockPhase := 16
  beacon := []
  requests := []
  offers := []
  offerCounter := 1
  edits := []
  editCounter := 1
  plan := Plan.atReset 8 .w16
  proposal := .none
  ports := PerPort.all PortState.atReset
  choiceIndex := 0

end Sys2Proof.Machine
end

