-- ==== Sys2Proof/Machine/Operands.lean ====
section
/-! DEFINITION. The field encodings of chapter 10 (R165 to R169): how a number, a code, a record or a notice is laid
out in bytes, and how the fields of a request payload are read. -/

namespace Sys2Proof.Machine

open Sys2Proof

/-! ### Numbers (R165: most significant byte first) -/

/-- A number below 256 as a byte. -/
def byteOf (n : Nat) : Byte := BitVec.ofNat 8 n

/-- A 16-bit number in two bytes. -/
def halfBytes (x : Half) : List Byte := [x.extractLsb' 8 8, x.extractLsb' 0 8]

/-- A 32-bit number in four bytes. -/
def wordBytes (x : Word) : List Byte :=
  [x.extractLsb' 24 8, x.extractLsb' 16 8, x.extractLsb' 8 8, x.extractLsb' 0 8]

/-- The 16-bit number of two bytes. -/
def halfOf (hi lo : Byte) : Half := hi ++ lo

/-- The 32-bit number of four bytes. -/
def wordOf (b3 b2 b1 b0 : Byte) : Word := b3 ++ b2 ++ b1 ++ b0

/-- The 8-bit sum of bytes (R150, R151). -/
def byteSum (l : List Byte) : Byte := l.foldl (· + ·) 0

/-- `l` cut or filled with `x` to `n` places (R165: an absent field is carried as 0). -/
def fillTo {α : Type} (n : Nat) (x : α) (l : List α) : List α := (l ++ List.replicate n x).take n

/-! ### Bits on the wire (R148: most significant bit first) -/

/-- A shift register of one byte after the level `level` is shifted in: the earlier bits move up by one place. -/
def shiftIn (b : Byte) (level : Bool) : Byte := b <<< 1 ||| (if level then 1 else 0)

/-- The byte of eight levels, sampled in turn, the most significant bit first (R148). -/
def byteOfLevels (levels : Vector Bool 8) : Byte := levels.toList.foldl shiftIn 0

/-- The eight levels in which a byte goes over the wire, the most significant bit first (R148). -/
def levelsOf (b : Byte) : Vector Bool 8 :=
  #v[b.getMsbD 0, b.getMsbD 1, b.getMsbD 2, b.getMsbD 3, b.getMsbD 4, b.getMsbD 5, b.getMsbD 6, b.getMsbD 7]

/-- The level on the wire at bit `n` of a row of bytes: bytes in order, each most significant bit first (R42, R148,
R169). -/
def wireBit (bytes : List Byte) (n : Nat) : Option Bool := (bytes[n / 8]?).map (fun b => b.getMsbD (n % 8))

/-! ### Codes (R165) -/

/-- Port code; 0 is NONE. -/
def portCode : Port → Byte
  | .a => 1
  | .b => 2
  | .c => 3
  | .d => 4

/-- Port code, NONE for an absent port. -/
def portCode? : Option Port → Byte
  | none => 0
  | some p => portCode p

/-- A port field that must name a port. -/
def readPort (b : Byte) : Option Port :=
  if b = 1 then some .a
  else if b = 2 then some .b
  else if b = 3 then some .c
  else if b = 4 then some .d
  else none

/-- One bit as a byte at bit position `k`. -/
def bitAt (k : Nat) (v : Bool) : Byte := if v then 1 <<< k else 0

/-- A port set in one byte: bit 0 A to bit 3 D. -/
def portSetByte (v : PortSet) : Byte := bitAt 0 v.a ||| bitAt 1 v.b ||| bitAt 2 v.c ||| bitAt 3 v.d

/-- A class mask field: the seven classes, or none when bit 7 is set. -/
def readMask (b : Byte) : Option (BitVec 7) := if b.getLsbD 7 then none else some (b.extractLsb' 0 7)

/-- A class mask in one byte. -/
def maskByte (m : BitVec 7) : Byte := m.setWidth 8

/-- Slot state code. -/
def Entry.stateCode : Entry → Byte
  | .beacon => 0
  | .free => 1
  | .held _ _ => 2
  | .shared _ _ _ => 3
  | .cooling => 4

/-- The selector of RENEW and RELEASE with its value (R50, R53). -/
inductive Selector where
  | slot (n : Nat)
  | tag (t : Byte)
deriving DecidableEq, Repr

/-- Selector and value of RENEW and RELEASE: a slot 1 to S-1, or a tag 1 to 255. -/
def readSelector (slots : Nat) (selector value : Byte) : Option Selector :=
  if selector = 0 then
    if 1 ≤ value.toNat ∧ value.toNat < slots then some (.slot value.toNat) else none
  else if selector = 1 then
    if value ≠ 0 then some (.tag value) else none
  else none

/-- Offer kind code. -/
def OfferKind.code : OfferKind → Byte
  | .handover => 0
  | .share => 1

/-- Offer kind field. -/
def readKind (b : Byte) : Option OfferKind :=
  if b = 0 then some .handover else if b = 1 then some .share else none

/-- The reason that names an offer kind (R139). -/
def OfferKind.reason : OfferKind → Reason
  | .handover => .handover
  | .share => .share

/-- Timed action code. -/
def TimedAction.code : TimedAction → Byte
  | .release _ => 0
  | .renew _ _ => 1
  | .enqueue _ => 2

/-- The reason that names a timed action (R111). -/
def TimedAction.reason : TimedAction → Reason
  | .release _ => .releaseAction
  | .renew _ _ => .renewAction
  | .enqueue _ => .enqueueAction

/-- Placement code. -/
def Placement.code : Placement → Byte
  | .any => 0
  | .run => 1
  | .list _ => 2

/-- The slot list of a placement, empty where it is absent. -/
def Placement.slots : Placement → List Nat
  | .any | .run => []
  | .list l => l

/-- The bit times of a slot (R120). -/
def SlotWidth.bits : SlotWidth → Nat
  | .w16 => 16
  | .w24 => 24
  | .w32 => 32

/-- The W field. -/
def readWidth (b : Byte) : Option SlotWidth :=
  if b = 16 then some .w16 else if b = 24 then some .w24 else if b = 32 then some .w32 else none

/-- The effect of a detach on the proposal (R159). -/
inductive DetachEffect where
  | none | leftSet | confirmed | withdrawn
deriving DecidableEq, Repr

/-- Proposal effect code. -/
def DetachEffect.code : DetachEffect → Byte
  | .none => 0
  | .leftSet => 1
  | .confirmed => 2
  | .withdrawn => 3

/-- Frame state code: RUNNING, STALLED with cause LOST, STALLED with cause SWITCH. -/
def FrameState.code : FrameState → Byte
  | .running _ => 0
  | .stalled .lost _ => 1
  | .stalled .switch _ => 2

/-- Proposal state code. -/
def ProposalState.code : ProposalState → Byte
  | .none => 0
  | .opened _ _ => 1
  | .agreed _ _ => 2

/-- Reply codes (R167). -/
def ReplyCode.code : ReplyCode → Byte
  | .ok => 0x00
  | .reset => 0x01
  | .framing => 0x02
  | .checksum => 0x03
  | .unknown => 0x04
  | .notAttached => 0x10
  | .alreadyAttached => 0x11
  | .badField => 0x12
  | .notHolder => 0x20
  | .tagInUse => 0x21
  | .overQuota => 0x22
  | .portLimit => 0x23
  | .queueFull => 0x24
  | .noRequest => 0x25
  | .slotOffered => 0x30
  | .alreadyMember => 0x31
  | .membersFull => 0x32
  | .targetDetached => 0x33
  | .tableFull => 0x34
  | .noOffer => 0x35
  | .past => 0x40
  | .tooFar => 0x41
  | .listFull => 0x42
  | .noEdit => 0x43
  | .proposalOpen => 0x50
  | .noProposal => 0x51
  | .notConfirmer => 0x52

/-- Notice kind codes (R168); the high nibble is the class, 1 to 7. -/
def NoticeKind.code : NoticeKind → Byte
  | .granted => 0x10
  | .requestLapsed => 0x11
  | .leaseLow => 0x20
  | .leaseEnded => 0x21
  | .revoked => 0x22
  | .offerMade => 0x30
  | .offerTaken => 0x31
  | .offerRefused => 0x32
  | .offerVoid => 0x33
  | .offerLapsed => 0x34
  | .membersChanged => 0x40
  | .editDone => 0x50
  | .editFailed => 0x51
  | .planOpen => 0x60
  | .planAgreed => 0x61
  | .planFailed => 0x62
  | .planInForce => 0x63
  | .clockLost => 0x70
  | .clockBack => 0x71

/-- The bit of a notice's class in a class mask (R165): the high nibble of the kind code less 1. -/
def NoticeKind.classBit (k : NoticeKind) : Nat := k.code.toNat / 16 - 1

/-- Reason codes (R168). -/
def Reason.code : Reason → Byte
  | .wait => 1
  | .plan => 2
  | .handover => 3
  | .share => 4
  | .declined => 5
  | .detached => 6
  | .withdrawn => 7
  | .released => 8
  | .lease => 9
  | .rejected => 10
  | .lapsed => 11
  | .releaseAction => 12
  | .renewAction => 13
  | .enqueueAction => 14
  | .notHolder => 15
  | .tagInUse => 16
  | .portLimit => 17
  | .queueFull => 18

/-- Request codes (R166). -/
inductive RequestCode where
  | attach | detach | poll | snapshot | readSlot | readMap | renew | release | holdings | reserve | cancel
  | readRequests | offer | accept | decline | withdraw | schedule | unschedule | readEdits | propose | confirm
  | reject | readPlan | fetch | attention
deriving DecidableEq, Repr

/-- The first byte of a request's transaction (R166). -/
def RequestCode.code : RequestCode → Byte
  | .attach => 0x01
  | .detach => 0x02
  | .poll => 0x03
  | .snapshot => 0x08
  | .readSlot => 0x10
  | .readMap => 0x11
  | .renew => 0x12
  | .release => 0x13
  | .holdings => 0x14
  | .reserve => 0x20
  | .cancel => 0x21
  | .readRequests => 0x22
  | .offer => 0x30
  | .accept => 0x31
  | .decline => 0x32
  | .withdraw => 0x33
  | .schedule => 0x40
  | .unschedule => 0x41
  | .readEdits => 0x42
  | .propose => 0x50
  | .confirm => 0x51
  | .reject => 0x52
  | .readPlan => 0x53
  | .fetch => 0x60
  | .attention => 0x61

/-- Every request but NONE, in the order of R166. -/
def RequestCode.list : List RequestCode :=
  [.attach, .detach, .poll, .snapshot, .readSlot, .readMap, .renew, .release, .holdings, .reserve, .cancel,
   .readRequests, .offer, .accept, .decline, .withdraw, .schedule, .unschedule, .readEdits, .propose, .confirm,
   .reject, .readPlan, .fetch, .attention]

/-- A request code is named by the table of R166. -/
def knownCode (b : Byte) : Bool := RequestCode.list.any (fun r => r.code == b)

/-! ### The reservation record (R165, R70) -/

/-- The slot list of a reservation: exactly `count` distinct slots 1 to S-1 for LIST, none for ANY and RUN (R70). -/
def readPlacement (slots count : Nat) (code : Byte) (listed : List Byte) : Option Placement :=
  let l := listed.map BitVec.toNat
  if code = 0 then (if l = [] then some .any else none)
  else if code = 1 then (if l = [] then some .run else none)
  else if code = 2 then
    (if l.length = count ∧ l.all (fun n => 1 ≤ n && n < slots) ∧ l.Nodup then some (.list l) else none)
  else none

/-- The fields of a reservation record, when every condition of R70 holds for the slot count `slots`. -/
def readReservation (slots : Nat) : List Byte → Option Reservation
  | tag :: code :: count :: l1 :: l0 :: w1 :: w0 :: listed =>
    if tag ≠ 0 ∧ 1 ≤ count.toNat ∧ count.toNat ≤ 8 ∧ count.toNat < slots ∧ halfOf l1 l0 ≠ 0
        ∧ (halfOf w1 w0).toNat ≤ 4095 then
      (readPlacement slots count.toNat code listed).map fun pl =>
        { tag := tag, placement := pl, count := count.toNat, lease := halfOf l1 l0, wait := (halfOf w1 w0).toNat }
    else none
  | _ => none

/-- The first seven bytes of a reservation record. -/
def reservationBytes (r : Reservation) : List Byte :=
  [r.tag, r.placement.code, byteOf r.count] ++ halfBytes r.lease ++ halfBytes (BitVec.ofNat 16 r.wait)

/-- The slot list of a placement in eight bytes, filled with 0 (R165). -/
def slotListBytes (pl : Placement) : List Byte := fillTo 8 0 (pl.slots.map byteOf)

/-! ### The plan record (R165, R124) -/

/-- The flags byte of a plan record. -/
def geometryFlags (g : Geometry) : Byte :=
  bitAt 0 (g.source == .external) ||| bitAt 1 (g.form == .span) ||| bitAt 2 (g.polarity == .low)

/-- The first eight bytes of a plan record. -/
def termsBytes (t : PlanTerms) : List Byte :=
  [byteOf t.geometry.slots, byteOf t.geometry.width.bits, geometryFlags t.geometry, t.geometry.divider,
   byteOf t.quotas.a, byteOf t.quotas.b, byteOf t.quotas.c, byteOf t.quotas.d]

/-- A plan record of ten bytes. -/
def planBytes (t : PlanTerms) (number : Half) : List Byte := termsBytes t ++ halfBytes number

/-- The proposed plan and the deadline of a PROPOSE payload, when they pass the range checks of R124. The two plan
number bytes are not read (R166). -/
def readProposal : List Byte → Option (PlanTerms × Nat)
  | [s, w, f, dv, qa, qb, qc, qd, _, _, d1, d0] =>
    let deadline := (halfOf d1 d0).toNat
    if 4 ≤ s.toNat ∧ s.toNat ≤ 64 ∧ f.toNat < 8 ∧ qa.toNat ≤ 63 ∧ qb.toNat ≤ 63 ∧ qc.toNat ≤ 63 ∧ qd.toNat ≤ 63
        ∧ 1 ≤ deadline ∧ deadline ≤ 4095 then
      (readWidth w).map fun width =>
        ({ geometry :=
             { slots := s.toNat, width := width
               source := if f.getLsbD 0 then .external else .internal
               divider := dv
               form := if f.getLsbD 1 then .span else .pulse
               polarity := if f.getLsbD 2 then .low else .high }
           quotas := ⟨qa.toNat, qb.toNat, qc.toNat, qd.toNat⟩ }, deadline)
    else none
  | _ => none

/-! ### Other request payloads (R166) -/

/-- A payload of one byte within a range. -/
def readRanged (lo hi : Nat) : List Byte → Option Nat
  | [b] => if lo ≤ b.toNat ∧ b.toNat ≤ hi then some b.toNat else none
  | _ => none

/-- A payload of one byte that is a tag, an offer id or an edit id: 1 to 255. -/
def readName : List Byte → Option Byte
  | [b] => if b ≠ 0 then some b else none
  | _ => none

/-- The payload of RENEW: selector, value, lease (R50). -/
def readRenew (slots : Nat) : List Byte → Option (Selector × Half)
  | [sel, v, l1, l0] =>
    if halfOf l1 l0 = 0 then none else (readSelector slots sel v).map (fun x => (x, halfOf l1 l0))
  | _ => none

/-- The payload of RELEASE: selector, value (R53). -/
def readRelease (slots : Nat) : List Byte → Option Selector
  | [sel, v] => readSelector slots sel v
  | _ => none

/-- The fields of an OFFER in range (R89, check 2). -/
structure OfferFields where
  target : Port
  slot : Nat
  kind : OfferKind
  frames : Nat
deriving DecidableEq, Repr

/-- The payload of OFFER by `giver`: target, slot, kind, frames (R89, check 2). -/
def readOffer (slots : Nat) (giver : Port) : List Byte → Option OfferFields
  | [t, n, k, f] =>
    match readPort t, readKind k with
    | some target, some kind =>
      if target ≠ giver ∧ 1 ≤ n.toNat ∧ n.toNat < slots ∧ f ≠ 0 then
        some { target := target, slot := n.toNat, kind := kind, frames := f.toNat }
      else none
    | _, _ => none
  | _ => none

/-- The action of a SCHEDULE payload (R108, check 2): the bytes after the activation frame. -/
def readAction (slots : Nat) : List Byte → Option TimedAction
  | code :: rest =>
    if code = 0 then
      match rest with
      | [n] => if 1 ≤ n.toNat ∧ n.toNat < slots then some (.release n.toNat) else none
      | _ => none
    else if code = 1 then
      match rest with
      | [n, l1, l0] =>
        if 1 ≤ n.toNat ∧ n.toNat < slots ∧ halfOf l1 l0 ≠ 0 then some (.renew n.toNat (halfOf l1 l0)) else none
      | _ => none
    else if code = 2 then (readReservation slots rest).map .enqueue
    else none
  | [] => none

/-- The payload of SCHEDULE: activation frame and action (R108, R166). -/
def readSchedule (slots : Nat) : List Byte → Option (Word × TimedAction)
  | b3 :: b2 :: b1 :: b0 :: rest => (readAction slots rest).map (fun act => (wordOf b3 b2 b1 b0, act))
  | _ => none

/-- The payload of ATTACH: warn threshold and class mask (R157). -/
def readAttach : List Byte → Option Attachment
  | [w, m] => (readMask m).map (fun mask => { warn := w, mask := mask })
  | _ => none

/-- The payload of ATTENTION: the class mask (R144). -/
def readAttention : List Byte → Option (BitVec 7)
  | [m] => readMask m
  | _ => none

/-! ### Transactions (R150) -/

/-- The bytes of a well-formed request transaction: code, payload length, payload, checksum. -/
def requestBytes (code : Byte) (payload : List Byte) : List Byte :=
  let body := code :: byteOf payload.length :: payload
  body ++ [-(byteSum body)]

/-! ### Records in replies (R167, R168) -/

/-- The notice record of ten bytes (R168). -/
def noticeBytes (n : Notice) : List Byte :=
  [n.kind.code, (n.reason.map Reason.code).getD 0, n.tag.getD 0, byteOf (n.slot.getD 0)]
    ++ halfBytes (BitVec.ofNat 16 (n.count.getD 0))
    ++ [portCode? n.other, n.id.getD 0] ++ halfBytes n.frame

/-- A request record of READ_REQUESTS, sixteen bytes (R167). -/
def recordBytes (position : Nat) (r : Record) : List Byte :=
  byteOf position :: (reservationBytes r.res ++ slotListBytes r.res.placement)

/-- A timed edit of READ_EDITS, twenty-three bytes; what the action does not carry is 0 (R116, R167). -/
def editBytes (position : Nat) (e : Edit) : List Byte :=
  [e.id, byteOf position] ++ wordBytes e.activation ++ [e.action.code] ++
    match e.action with
    | .release n => byteOf n :: List.replicate 15 0
    | .renew n l => byteOf n :: (halfBytes l ++ List.replicate 13 0)
    | .enqueue r =>
      0 :: (halfBytes r.lease ++ [r.tag, r.placement.code, byteOf r.count] ++ halfBytes (BitVec.ofNat 16 r.wait)
        ++ slotListBytes r.placement)

end Sys2Proof.Machine
end

