-- ==== Sys2Proof/Machine/Ops.lean ====
section
/-! DEFINITION. The named operations over the state that the commands share: reading and writing an entry, a port and
a port set; the rotation mark; sending a notice; answering a request; ending a transaction. -/

namespace Sys2Proof.Machine

open Sys2Proof

/-! ### Ports and port sets -/

/-- The four ports in order. -/
def portList : List Port := [.a, .b, .c, .d]

/-- The ports of a set, in order. -/
def PerPort.elems (v : PortSet) : List Port := portList.filter v.get

/-- `v` with `p` added. -/
def PerPort.insert (v : PortSet) (p : Port) : PortSet := v.set p true

/-- `v` without `p`. -/
def PerPort.erase (v : PortSet) (p : Port) : PortSet := v.set p false

/-- How many ports are in a set. -/
def PerPort.size (v : PortSet) : Nat := (PerPort.elems v).length

/-- The set of one port. -/
def PerPort.single (p : Port) : PortSet := (PerPort.all false).set p true

/-- The interface and notice queue of port `p`. -/
def State.port (s : State) (p : Port) : PortState := s.ports.get p

/-- `s` with `x` as the interface and notice queue of port `p`. -/
def State.setPort (s : State) (p : Port) (x : PortState) : State := { s with ports := s.ports.set p x }

/-- The port is ATTACHED (R156). -/
def State.attached (s : State) (p : Port) : Bool := (s.port p).attachment.isSome

/-- The set of the ATTACHED ports. -/
def State.attachedSet (s : State) : PortSet :=
  ⟨s.attached .a, s.attached .b, s.attached .c, s.attached .d⟩

/-! ### The plan in use -/

/-- S of the plan in use (R13, R120). -/
def State.slots (s : State) : Nat := s.plan.terms.geometry.slots

/-- The port's quota in the plan in use (R120). -/
def State.quota (s : State) (p : Port) : Nat := s.plan.terms.quotas.get p

/-- The frame field of every notice of a commit and of a request: the low 16 bits of the frame number plus 1 (R20,
R61, R90, R124). -/
def State.nextFrame (s : State) : Half := s.frameCounter.extractLsb' 0 16 + 1

/-- The Frame Generator is RUNNING (R37). -/
def FrameState.isRunning : FrameState → Bool
  | .running _ => true
  | .stalled _ _ => false

/-- Frames run: RESETn is negated and the Frame Generator is RUNNING. Nothing that the frame-end event starts takes
place otherwise (R41, R46). -/
def State.framesRun (s : State) : Bool := !s.resetAsserted && s.frame.isRunning

/-! ### Slot entries (R1 to R3) -/

/-- The slot positions of a table. -/
def slotNumbers : List Nat := List.range 64

/-- The entry at slot position `n`. -/
def entryAt (t : Table) (n : Nat) : Entry := if h : n < 64 then t[n] else .free

/-- `s` with `e` as the Staged entry at position `n`. -/
def State.setStaged (s : State) (n : Nat) (e : Entry) : State := { s with staged := s.staged.setIfInBounds n e }

/-- The ports that hold or share the slot: the holder, or the members in list order. -/
def Entry.parties : Entry → List Port
  | .held p _ => [p]
  | .shared ms _ _ => ms
  | .beacon | .free | .cooling => []

/-- The port is the holder of a HELD entry or a member of a SHARED one (R15). -/
def Entry.names (e : Entry) (p : Port) : Bool := e.parties.contains p

/-- The common fields of a HELD or SHARED entry. -/
def Entry.holding? : Entry → Option Holding
  | .held _ h | .shared _ _ h => some h
  | .beacon | .free | .cooling => none

/-- The tag of an entry, 0 in every state other than HELD and SHARED (R1). -/
def Entry.tag (e : Entry) : Byte := (e.holding?.map Holding.tag).getD 0

/-- `e` with its common fields replaced. -/
def Entry.withHolding (e : Entry) (h : Holding) : Entry :=
  match e with
  | .held p _ => .held p h
  | .shared ms dr _ => .shared ms dr h
  | .beacon => .beacon
  | .free => .free
  | .cooling => .cooling

/-- The port that drives the slot: the holder of a HELD entry, the driver of a SHARED one (R24). -/
def Entry.drivenBy : Entry → Option Port
  | .held p _ => some p
  | .shared _ dr _ => some dr
  | .beacon | .free | .cooling => none

/-- The schedule of an entry: its state, its holder and its member list in order (R22). -/
def Entry.schedule (e : Entry) : Byte × List Port := (e.stateCode, e.parties)

/-- The member that stands after `x` in the list, wrapping from the last to the first (R3). -/
def memberAfter (l : List Port) (x : Port) : Port :=
  match l.dropWhile (· != x) with
  | _ :: y :: _ => y
  | _ => l.headD x

/-- The member that stands before `x` in the list, wrapping from the first to the last (R3). -/
def memberBefore (l : List Port) (x : Port) : Port := memberAfter l.reverse x

/-- A SHARED entry after port `p` has left it (R3, R54): the rotation mark passes to the member before a leaver it
named, the leaver leaves the warned set, and a list of one falls to HELD. -/
def leaveShared (p : Port) (ms : List Port) (driver : Port) (h : Holding) : Entry :=
  let rest := ms.filter (· != p)
  let h' := { h with warned := h.warned.erase p }
  match rest with
  | [q] => .held q h'
  | _ => .shared rest (if driver = p then memberBefore ms p else driver) h'

/-- The entry after port `p` has given the slot up (R53): a HELD entry cools, a SHARED one loses a member. An entry
that does not name the port is left as it is. -/
def Entry.without (e : Entry) (p : Port) : Entry :=
  match e with
  | .held q h => if q = p then .cooling else .held q h
  | .shared ms dr h => if ms.contains p then leaveShared p ms dr h else .shared ms dr h
  | .beacon => .beacon
  | .free => .free
  | .cooling => .cooling

/-- The entry is COOLING. -/
def Entry.isCooling (e : Entry) : Bool := e == .cooling

/-- The entry is SHARED. -/
def Entry.isShared : Entry → Bool
  | .shared _ _ _ => true
  | .beacon | .free | .held _ _ | .cooling => false

/-- The holding count of a port (R15). -/
def State.holdingCount (s : State) (p : Port) : Nat := s.staged.toList.countP (fun e => e.names p)

/-- The slots whose Staged entry names the port, ascending. -/
def State.ownSlots (s : State) (p : Port) : List Nat := slotNumbers.filter (fun n => (entryAt s.staged n).names p)

/-- The pending count of a port (R66). -/
def State.pendingCount (s : State) (p : Port) : Nat := s.requests.countP (fun r => r.port == p)

/-- The port has a record with this tag in the request queue (R71). -/
def State.tagPending (s : State) (p : Port) (t : Byte) : Bool :=
  s.requests.any (fun r => r.port == p && r.res.tag == t)

/-! ### Notices (R137 to R141) -/

/-- A notice of this kind with no optional field, for the next frame. -/
def State.notice (s : State) (k : NoticeKind) : Notice where
  kind := k
  reason := none
  tag := none
  slot := none
  count := none
  other := none
  id := none
  frame := s.nextFrame

/-- A notice queue after a notice addressed to it (R140, R141): it joins the tail of a queue with room, and is
discarded at a full queue, which sets LOST. -/
def PortState.takeNotice (x : PortState) (n : Notice) : PortState :=
  if x.notices.length < maxNotices then { x with notices := x.notices ++ [n] } else { x with lost := true }

/-- A notice addressed to port `p`: produced only while the port is ATTACHED (R140). -/
def State.notify (s : State) (p : Port) (n : Notice) : State :=
  if s.attached p then s.setPort p ((s.port p).takeNotice n) else s

/-- The same notice to several ports. -/
def State.notifyAll (s : State) (ps : List Port) (n : Notice) : State := ps.foldl (fun s p => s.notify p n) s

/-- Notices with their ports, in the order produced. -/
def State.deliver (s : State) (l : List (Port × Notice)) : State := l.foldl (fun s x => s.notify x.1 x.2) s

/-! ### Offers (R87, R100) -/

/-- The open offer on a slot, if there is one. -/
def State.offerOn (s : State) (n : Nat) : Option Offer := s.offers.find? (fun o => o.slot == n)

/-- The open offer that carries an id, if there is one. -/
def State.offerWithId (s : State) (i : Byte) : Option Offer := s.offers.find? (fun o => o.id == i)

/-- `s` without the offer with this id. -/
def State.dropOffer (s : State) (i : Byte) : State := { s with offers := s.offers.filter (fun o => o.id != i) }

/-- A notice of the offer kinds: id, slot, the slot's tag and the other party (R139). -/
def State.offerNotice (s : State) (k : NoticeKind) (o : Offer) (tag : Byte) (other : Port) (why : Reason) : Notice :=
  { s.notice k with reason := some why, tag := some tag, slot := some o.slot, other := some other, id := some o.id }

/-- Voids an offer (R100): it leaves the table, and OFFER_VOID goes to its target with the tag the entry had. -/
def State.voidOffer (s : State) (o : Offer) (tag : Byte) (why : Reason) : State :=
  (s.dropOffer o.id).notify o.target (s.offerNotice .offerVoid o tag o.giver why)

/-- Voids the open offer on slot `n`, whoever made it; nothing where no offer names the slot. -/
def State.voidOfferOn (s : State) (n : Nat) (tag : Byte) (why : Reason) : State :=
  match s.offerOn n with
  | some o => s.voidOffer o tag why
  | none => s

/-- Voids the open offer on slot `n` that port `p` made (R100). -/
def State.voidOfferBy (s : State) (p : Port) (n : Nat) (tag : Byte) (why : Reason) : State :=
  match s.offerOn n with
  | some o => if o.giver = p then s.voidOffer o tag why else s
  | none => s

/-! ### Giving slots up (R53, R54, R63, R160) -/

/-- MEMBERS_CHANGED for slot `n` to the ports that remain in the entry `e`, naming the port `who` (R61). -/
def State.tellMembers (s : State) (n : Nat) (e : Entry) (who : Port) (ps : List Port) : State :=
  s.notifyAll ps
    { s.notice .membersChanged with
      slot := some n, tag := some e.tag, count := some e.parties.length, other := some who }

/-- Port `p` gives up Staged slot `n`: the entry is edited, MEMBERS_CHANGED goes to the members that remain, and an
open offer the port made on the slot is voided with reason `why` (R53, R54, R100, R160 part 1). -/
def State.giveUpSlot (s : State) (p : Port) (why : Reason) (n : Nat) : State :=
  let e := entryAt s.staged n
  let e' := e.without p
  ((s.setStaged n e').tellMembers n e' p e'.parties).voidOfferBy p n e.tag why

/-- Port `p` gives up several slots, in the order listed. -/
def State.giveUpSlots (s : State) (p : Port) (why : Reason) (ns : List Nat) : State :=
  ns.foldl (fun s n => s.giveUpSlot p why n) s

/-- How many of the slots listed are HELD by the port, and so cool when it gives them up. -/
def State.heldAmong (s : State) (ns : List Nat) : Nat :=
  ns.countP (fun n => !(entryAt s.staged n).isShared)

/-! ### Answers (R154, R163) -/

/-- What a block answers to a request: a refusal with its body, which leaves the state as it was but for the reply, or
OK with the state after the request's edits and the reply body. -/
inductive Answer where
  | refuse (code : ReplyCode) (body : List Byte)
  | ok (s : State) (body : List Byte)

/-- A refusal with an empty body (R154). -/
def refuseWith (code : ReplyCode) : Answer := .refuse code []

/-- Replaces a port's reply buffer and advances its reply sequence (R154). -/
def State.reply (s : State) (p : Port) (code : ReplyCode) (body : List Byte) : State :=
  let x := s.port p
  s.setPort p { x with replyCode := code, replyBody := body, replySequence := x.replySequence + 1 }

/-- The answer placed in the reply buffer of the port. -/
def State.settle (s : State) (p : Port) : Answer → State
  | .refuse code body => s.reply p code body
  | .ok s' body => s'.reply p .ok body

/-- A request that only an ATTACHED port is served (R156, R163). -/
def State.whenAttached (s : State) (p : Port) (k : Answer) : Answer :=
  if s.attached p then k else refuseWith .notAttached

/-- The fields of the payload, or BAD_FIELD (R163, R165). -/
def withFields {α : Type} (fields : Option α) (k : α → Answer) : Answer :=
  match fields with
  | some x => k x
  | none => refuseWith .badField

/-- A request that carries no fields: a payload that is not empty is refused BAD_FIELD (R165). -/
def readEmpty (payload : List Byte) : Option Unit := if payload = [] then some () else none

/-! ### Transactions (R148 to R153, R164) -/

/-- CSn of the port is low, but its receiver is IDLE: the transaction was begun or discarded under reset (R164). -/
def PortState.discarding (x : PortState) : Bool := x.selected && x.receiver == .idle

/-- The receiver may be ending a transaction of exactly these bytes: what it has received is how they begin (log 2).
An IDLE receiver has received nothing. -/
def Receiver.agrees (r : Receiver) (bytes : List Byte) : Bool :=
  match r with
  | .idle => true
  | .receiving count stored _ => count ≤ bytes.length && stored == bytes.take (min count maxStored)

/-- CSn of the port rises: the receiver becomes IDLE (R149). -/
def State.deselect (s : State) (p : Port) : State :=
  s.setPort p { s.port p with selected := false, receiver := .idle }

/-- The rise of CSn that ends a transaction of the complete bytes `bytes` (log 2). A transaction begun or discarded
under reset ends without effect, and none is taken while RESETn is asserted (R164). A receiver that holds other bytes
is not ending this transaction, so the event does not occur (log 1). -/
def State.endTransaction (s : State) (p : Port) (bytes : List Byte) (act : State → State) : State :=
  if (s.port p).discarding then s.deselect p
  else if s.resetAsserted then s
  else if (s.port p).receiver.agrees bytes then act (s.deselect p)
  else s

/-- The rise of CSn at which a request is taken: a well-formed transaction has a payload of 0 to 60 bytes (R150, R152).
The owning block judges it at that moment and the reply enters the buffer (R163). -/
def State.takeRequest (s : State) (p : Port) (r : RequestCode) (payload : List Byte) (judge : State → Answer) : State :=
  if payload.length ≤ 60 then
    s.endTransaction p (requestBytes r.code payload) (fun s => s.settle p (judge s))
  else s

end Sys2Proof.Machine
end

