-- ==== Sys2Proof/Machine/Flags.lean ====
section
/-! DEFINITION. The flags the part shows: the port status byte (R155, R167), the bytes captured for SDO (R151), the
level of SDO (R148), the attention line (R145), the slot index in progress (R32) and the beacon word (R42, R43, R169). -/

namespace Sys2Proof.Machine

open Sys2Proof

/-- The port status byte as it stands (R155, R167): bit 7 ATTACHED, bit 6 ATTN_PENDING, bit 5 LOST, bit 4 STALLED,
bits 3 to 0 the reply sequence. -/
def State.statusByte (s : State) (p : Port) : Byte :=
  let x := s.port p
  bitAt 7 x.attachment.isSome ||| bitAt 6 (!x.notices.isEmpty) ||| bitAt 5 x.lost ||| bitAt 4 (!s.frame.isRunning)
    ||| x.replySequence.setWidth 8

/-- The whole reply as it is fixed at the fall of CSn (R151): status, code, sequence, body length, body, checksum. -/
def State.captureReply (s : State) (p : Port) : List Byte :=
  let x := s.port p
  let l := [s.statusByte p, x.replyCode.code, x.replySequence.setWidth 8, byteOf x.replyBody.length] ++ x.replyBody
  l ++ [-(byteSum l)]

/-- The byte the part clocks out while the master clocks byte `k` in, counted from 0; 0x00 past the reply checksum and
absent while SDO is at high impedance (R148, R151). -/
def State.sdoByte (s : State) (p : Port) (k : Nat) : Option Byte :=
  match (s.port p).receiver with
  | .idle => none
  | .receiving _ _ sending => some (sending.getD k 0)

/-- The level of SDO after SCK has fallen `falls` times in the transaction under way, absent while SDO is at high
impedance (R148): each byte goes out most significant bit first, one bit for each falling edge. With no fall yet it is the
first bit of the first byte, which the fall of CSn puts there. -/
def State.sdo (s : State) (p : Port) (falls : Nat) : Option Bool :=
  (s.sdoByte p (falls / 8)).map (fun b => b.getMsbD (falls % 8))

/-- The attention mask of an attached port names the class of the notice (R144). -/
def maskNames (m : BitVec 7) (n : Notice) : Bool := m.getLsbD n.kind.classBit

/-- ATTNn of the port is asserted (R145): the port is ATTACHED and its queue holds a notice of a masked class. -/
def State.attn (s : State) (p : Port) : Bool :=
  match (s.port p).attachment with
  | none => false
  | some x => !s.resetAsserted && (s.port p).notices.any (maskNames x.mask)

/-- The bit times of a frame under a geometry (R28). -/
def Geometry.frameBits (g : Geometry) : Nat := g.slots * g.width.bits

/-- The slot index that SNAPSHOT reports (R45): the slot in progress while RUNNING, 0 before the first bit time, and
the abandoned slot index while STALLED. -/
def State.slotIndex (s : State) : Nat :=
  match s.frame with
  | .stalled _ abandoned => abandoned
  | .running (.bit n) => n / s.geometry.width.bits
  | .running .leadInWait | .running .leadIn => 0

/-- A confirmed plan is due: it will be applied at the end of this frame (R130). -/
def State.planDue (s : State) : Bool :=
  match s.proposal with
  | .agreed _ applicationFrame => s.frameCounter == applicationFrame
  | .none | .opened _ _ => false

/-- The flags byte of the beacon (R43, R169). -/
def State.beaconFlags (s : State) : Byte :=
  bitAt 7 s.changed ||| bitAt 6 s.planDue ||| portSetByte s.attachedSet

/-- The beacon word as it is captured at the start of slot 0 (R42, R169). -/
def State.beaconWord (s : State) : List Byte :=
  let low := s.frameCounter.extractLsb' 0 8
  match s.geometry.width with
  | .w16 => [low, s.generation]
  | .w24 => [low, s.generation, s.beaconFlags]
  | .w32 => [low, s.generation, s.beaconFlags, s.frameCounter.extractLsb' 8 8]

end Sys2Proof.Machine
end

