-- ==== Sys2Proof/Machine/Slots.lean ====
section
/-! DEFINITION. The Slot Table (chapters 1 and 3): READ_SLOT, READ_MAP, RENEW, RELEASE, HOLDINGS, the commit steps 1, 2,
3 and 7, and LEASE_END. -/

namespace Sys2Proof.Machine

open Sys2Proof

/-! ### Reading the schedule (R26, R27) -/

/-- The slot entry read-out of twelve bytes (R167). -/
def entryBytes (e : Entry) : List Byte :=
  let h := e.holding?
  let holder := match e with
    | .held p _ => some p
    | .beacon | .free | .shared _ _ _ | .cooling => none
  let members := if e.isShared then e.parties else []
  let driver := if e.isShared then e.drivenBy else none
  [e.stateCode, portCode? holder, byteOf members.length] ++ fillTo 4 0 (members.map portCode)
    ++ [portCode? driver] ++ halfBytes ((h.map Holding.lease).getD 0)
    ++ [e.tag, portSetByte ((h.map Holding.warned).getD (PerPort.all false))]

/-- The Staged read-out: two more bytes, the renewal (R167). -/
def stagedBytes (e : Entry) : List Byte :=
  entryBytes e ++ halfBytes ((e.holding?.bind Holding.renewal).getD 0)

/-- READ_SLOT: both views of one entry (R26). -/
def judgeReadSlot (payload : List Byte) (s : State) : Answer :=
  withFields (readRanged 0 (s.slots - 1) payload) fun n =>
    .ok s ([byteOf n, s.generation] ++ entryBytes (entryAt s.active n) ++ stagedBytes (entryAt s.staged n))

/-- READ_SLOT (R26). -/
def execReadSlot (p : Port) (payload : List Byte) (s : State) : Host.Outcome State Fault Refusal :=
  .next (s.takeRequest p .readSlot payload (judgeReadSlot payload))

/-- A map summary byte for the requesting port (R27, R167). -/
def mapByte (p : Port) (e : Entry) : Byte :=
  e.stateCode
    ||| (match e.drivenBy with
        | some q => (portCode q - 1) <<< 3
        | none => 0)
    ||| (if e.isShared then (byteOf e.parties.length - 1) <<< 5 else 0)
    ||| bitAt 7 (e.names p)

/-- READ_MAP: a summary byte for every slot of a view (R27). -/
def judgeReadMap (p : Port) (payload : List Byte) (s : State) : Answer :=
  withFields (readRanged 0 1 payload) fun view =>
    let t := if view = 0 then s.active else s.staged
    .ok s ([byteOf view, byteOf s.slots, s.generation] ++ (t.toList.take s.slots).map (mapByte p))

/-- READ_MAP (R27). -/
def execReadMap (p : Port) (payload : List Byte) (s : State) : Host.Outcome State Fault Refusal :=
  .next (s.takeRequest p .readMap payload (judgeReadMap p payload))

/-! ### RENEW and RELEASE (R50, R53) -/

/-- The entries that qualify for the port, ascending: the named slot, or every slot with the tag (R50, R51). -/
def State.qualifying (s : State) (p : Port) : Selector → List Nat
  | .slot n => if (entryAt s.staged n).names p then [n] else []
  | .tag t => (s.ownSlots p).filter (fun n => (entryAt s.staged n).tag == t)

/-- Sets the pending renewal of a Staged entry (R50). -/
def State.setRenewal (s : State) (l : Half) (n : Nat) : State :=
  let e := entryAt s.staged n
  match e.holding? with
  | some h => s.setStaged n (e.withHolding { h with renewal := some l })
  | none => s

/-- RENEW: check 2 and the effect (R50). -/
def judgeRenew (p : Port) (payload : List Byte) (s : State) : Answer :=
  s.whenAttached p <| withFields (readRenew s.slots payload) fun (sel, l) =>
    match s.qualifying p sel with
    | [] => refuseWith .notHolder
    | n :: ns => .ok ((n :: ns).foldl (fun s n => s.setRenewal l n) s) [byteOf (n :: ns).length, byteOf n]

/-- RENEW (R50 to R52). -/
def execRenew (p : Port) (payload : List Byte) (s : State) : Host.Outcome State Fault Refusal :=
  .next (s.takeRequest p .renew payload (judgeRenew p payload))

/-- RELEASE: check 2 and the effect (R53, R56). -/
def judgeRelease (p : Port) (payload : List Byte) (s : State) : Answer :=
  s.whenAttached p <| withFields (readRelease s.slots payload) fun sel =>
    match s.qualifying p sel with
    | [] => refuseWith .notHolder
    | n :: ns =>
      .ok (s.giveUpSlots p .released (n :: ns))
        [byteOf (n :: ns).length, byteOf (s.heldAmong (n :: ns)), byteOf n]

/-- RELEASE (R53 to R57). -/
def execRelease (p : Port) (payload : List Byte) (s : State) : Host.Outcome State Fault Refusal :=
  .next (s.takeRequest p .release payload (judgeRelease p payload))

/-! ### HOLDINGS (R62) -/

/-- A holding of HOLDINGS, four bytes (R167). -/
def holdingBytes (s : State) (n : Nat) : List Byte :=
  let e := entryAt s.staged n
  let count := if e.isShared then byteOf e.parties.length - 1 else 0
  [byteOf n ||| count <<< 6, e.tag] ++ halfBytes ((e.holding?.map Holding.lease).getD 0)

/-- HOLDINGS: a page of up to 16 of the port's Staged holdings (R62). -/
def judgeHoldings (p : Port) (payload : List Byte) (s : State) : Answer :=
  s.whenAttached p <| withFields (readRanged 0 62 payload) fun start =>
    let page := ((s.ownSlots p).drop start).take 16
    .ok s ([byteOf (s.holdingCount p), byteOf start, byteOf page.length] ++ page.flatMap (holdingBytes s))

/-- HOLDINGS (R62). -/
def execHoldings (p : Port) (payload : List Byte) (s : State) : Host.Outcome State Fault Refusal :=
  .next (s.takeRequest p .holdings payload (judgeHoldings p payload))

/-! ### Commit steps 1, 2, 3 and 7 (R19, R48, R49, R58, R21, R22) -/

/-- Commit step 1 for one slot: an entry COOLING in the Active table becomes FREE in the Staged table (R19). -/
def State.coolSlot (s : State) (n : Nat) : State :=
  if (entryAt s.active n).isCooling then s.setStaged n .free else s

/-- Commit step 1 (R19). -/
def State.commitCooling (s : State) : State := slotNumbers.foldl State.coolSlot s

/-- The end of a holding in commit step 2 (R48): the entry becomes COOLING, LEASE_ENDED goes to the holder or to every
member with the tag the entry had, and an open offer on the slot is voided with reason LEASE (R100). -/
def State.endLease (s : State) (n : Nat) : State :=
  let e := entryAt s.staged n
  ((s.setStaged n .cooling).notifyAll e.parties
      { s.notice .leaseEnded with slot := some n, tag := some e.tag }).voidOfferOn n e.tag .lease

/-- A port is due a LEASE_LOW for a holding (R49): its warn threshold is not 0 and equals the lease, and it is not in
the warned set. -/
def State.dueWarning (s : State) (h : Holding) (p : Port) : Bool :=
  match (s.port p).attachment with
  | none => false
  | some x => x.warn != 0 && h.lease == x.warn.setWidth 16 && !(h.warned.get p)

/-- The warning check of R49 on an entry that is still HELD or SHARED: each port due a warning joins the warned set and
is sent LEASE_LOW. -/
def State.warnSlot (s : State) (n : Nat) : State :=
  let e := entryAt s.staged n
  match e.holding? with
  | none => s
  | some h =>
    let due := e.parties.filter (s.dueWarning h)
    (s.setStaged n (e.withHolding { h with warned := due.foldl PerPort.insert h.warned })).notifyAll due
      { s.notice .leaseLow with slot := some n, tag := some h.tag, count := some h.lease.toNat }

/-- The lease of an entry after the countdown and the renewal of R48: the lease less 1, replaced by a pending renewal,
which also empties the warned set. -/
def Holding.counted (h : Holding) : Holding :=
  match h.renewal with
  | none => { h with lease := h.lease - 1 }
  | some l => { h with lease := l, renewal := none, warned := PerPort.all false }

/-- Commit step 2 for one slot (R48). -/
def State.countLease (s : State) (n : Nat) : State :=
  let e := entryAt s.staged n
  match e.holding? with
  | none => s
  | some h =>
    if h.counted.lease = 0 then s.endLease n
    else (s.setStaged n (e.withHolding h.counted)).warnSlot n

/-- Commit step 2 (R48): every slot in ascending order. -/
def State.commitLeases (s : State) : State := slotNumbers.foldl State.countLease s

/-- Commit step 3 for one slot: the driver moves to the member after the rotation mark (R58). -/
def State.rotateSlot (s : State) (n : Nat) : State :=
  match entryAt s.staged n with
  | .shared ms dr h => s.setStaged n (.shared ms (memberAfter ms dr) h)
  | .beacon | .free | .held _ _ | .cooling => s

/-- Commit step 3 (R58). -/
def State.commitRotation (s : State) : State := slotNumbers.foldl State.rotateSlot s

/-- The schedule of two tables differs in some entry (R22). -/
def schedulesDiffer (t u : Table) : Bool := t.toList.map Entry.schedule != u.toList.map Entry.schedule

/-- `t` becomes the Active table, and the generation number increases by 1 when the schedule of some entry changed
(R22). -/
def State.publishTable (s : State) (t : Table) : State :=
  { s with
    active := t
    generation := if schedulesDiffer s.active t then s.generation + 1 else s.generation }

/-- Commit step 7 (R21, R22): the Active table becomes a copy of the Staged table. -/
def State.publish (s : State) : State := s.publishTable s.staged

/-! ### LEASE_END (R48) -/

/-- The lease of Staged entry `n` reaches 0 at the countdown: it stands at 1 and no renewal is pending (R48, R52). -/
def State.leaseRunsOut (s : State) (n : Nat) : Bool :=
  match (entryAt s.staged n).holding? with
  | some h => h.counted.lease == 0
  | none => false

/-- LEASE_END: the part of commit step 2 that ends the holding of one slot (R48; alone, log 4). An offer on the slot is
voided whatever its frames remaining: no countdown goes with the command alone (DESIGN CHOICE beside R101, log 4). -/
def execLeaseEnd (slot : Nat) (s : State) : Host.Outcome State Fault Refusal :=
  .next (if s.framesRun && s.leaseRunsOut slot then s.endLease slot else s)

end Sys2Proof.Machine
end

