-- ==== Sys2Proof/Machine/Allocator.lean ====
section
/-! DEFINITION. The Request Queue and Allocator (chapter 4): RESERVE, CANCEL, READ_REQUESTS, the allocator pass of
commit step 6, and WAIT_LAPSE. -/

namespace Sys2Proof.Machine

open Sys2Proof

/-! ### RESERVE, CANCEL, READ_REQUESTS (R69, R80, R82) -/

/-- A record joins the tail of the request queue (R66). -/
def State.enqueue (s : State) (p : Port) (r : Reservation) : State :=
  { s with requests := s.requests ++ [{ port := p, res := r }] }

/-- The records of a port in queue order, each with its position counted from 1 (R66, R82). -/
def State.ownRecords (s : State) (p : Port) : List (Nat × Record) :=
  ((s.requests.zipIdx 1).filter (fun x => x.1.port == p)).map (fun x => (x.2, x.1))

/-- RESERVE: checks 3 to 6 and the effect (R69, R71, R72). -/
def judgeReserve (p : Port) (payload : List Byte) (s : State) : Answer :=
  s.whenAttached p <| withFields (readReservation s.slots payload) fun r =>
    if s.tagPending p r.tag then refuseWith .tagInUse
    else if s.quota p < r.count then refuseWith .overQuota
    else if maxRequestsPerPort ≤ s.pendingCount p then refuseWith .portLimit
    else if maxRequests ≤ s.requests.length then refuseWith .queueFull
    else
      let s' := s.enqueue p r
      .ok s' [byteOf s'.requests.length, byteOf (s'.pendingCount p)]

/-- RESERVE (R69 to R72). -/
def execReserve (p : Port) (payload : List Byte) (s : State) : Host.Outcome State Fault Refusal :=
  .next (s.takeRequest p .reserve payload (judgeReserve p payload))

/-- CANCEL: check 3 and the effect (R80). -/
def judgeCancel (p : Port) (payload : List Byte) (s : State) : Answer :=
  s.whenAttached p <| withFields (readName payload) fun t =>
    match (s.ownRecords p).find? (fun x => x.2.res.tag == t) with
    | none => refuseWith .noRequest
    | some (position, r) =>
      .ok { s with requests := s.requests.erase r } (byteOf position :: halfBytes (BitVec.ofNat 16 r.res.wait))

/-- CANCEL (R80, R81). -/
def execCancel (p : Port) (payload : List Byte) (s : State) : Host.Outcome State Fault Refusal :=
  .next (s.takeRequest p .cancel payload (judgeCancel p payload))

/-- READ_REQUESTS: a page of up to 4 of the port's records (R82). -/
def judgeReadRequests (p : Port) (payload : List Byte) (s : State) : Answer :=
  s.whenAttached p <| withFields (readRanged 0 5 payload) fun start =>
    let page := ((s.ownRecords p).drop start).take 4
    .ok s ([byteOf (s.pendingCount p), byteOf start, byteOf page.length]
      ++ page.flatMap (fun x => recordBytes x.1 x.2))

/-- READ_REQUESTS (R82). -/
def execReadRequests (p : Port) (payload : List Byte) (s : State) : Host.Outcome State Fault Refusal :=
  .next (s.takeRequest p .readRequests payload (judgeReadRequests p payload))

/-! ### The allocator pass (R73 to R78) -/

/-- The slots below which the allocator may grant: S of the plan in use, and the smaller S' of a confirmed plan that
waits (R74). -/
def State.grantLimit (s : State) : Nat :=
  match s.proposal with
  | .agreed pr _ => min s.slots pr.terms.geometry.slots
  | .none | .opened _ _ => s.slots

/-- A slot is available to the allocator (R74). -/
def State.available (s : State) (n : Nat) : Bool :=
  (entryAt s.staged n == .free) && 1 ≤ n && n < s.grantLimit

/-- The consecutive slots of a run (R68). -/
def runFrom (n count : Nat) : List Nat := (List.range count).map (n + ·)

/-- The slots that meet a reservation's placement in full, or none (R68, R75). -/
def State.findSlots (s : State) (r : Reservation) : Option (List Nat) :=
  match r.placement with
  | .any =>
    let l := (slotNumbers.filter s.available).take r.count
    if l.length = r.count then some l else none
  | .run => (slotNumbers.find? (fun n => 1 ≤ n && (runFrom n r.count).all s.available)).map (runFrom · r.count)
  | .list l => if l.all s.available then some l else none

/-- The entry that a grant makes (R7, R77). -/
def grantedEntry (p : Port) (r : Reservation) : Entry :=
  .held p { lease := r.lease, tag := r.tag, renewal := none, warned := PerPort.all false }

/-- The lowest number of a list of slots. -/
def lowestSlot (l : List Nat) : Nat := l.foldl min 63

/-- A grant (R77): the slots become HELD by the record's port, the record leaves the queue, and GRANTED goes to the
port. -/
def State.grant (s : State) (r : Record) (l : List Nat) : State :=
  let s' := l.foldl (fun s n => s.setStaged n (grantedEntry r.port r.res)) s
  { s' with requests := s'.requests.erase r }.notify r.port
    { s.notice .granted with tag := some r.res.tag, slot := some (lowestSlot l), count := some l.length }

/-- One visit of the allocator (R73): the placement test, then the quota test (R76), then the grant; a record that
fails a test is passed over (R78). -/
def State.visit (s : State) (r : Record) : State :=
  match s.findSlots r.res with
  | none => s
  | some l => if s.holdingCount r.port + r.res.count ≤ s.quota r.port then s.grant r l else s

/-- The visits of one pass, in queue order as step 6 finds the queue (R73). -/
def State.visitAll (s : State) : State := s.requests.foldl State.visit s

/-- REQUEST_LAPSED for a record (R79, R83). -/
def State.lapseNotice (s : State) (r : Record) (why : Reason) : Port × Notice :=
  (r.port, { s.notice .requestLapsed with reason := some why, tag := some r.res.tag, count := some r.res.count })

/-- Removes the records that `gone` picks, with REQUEST_LAPSED for each in queue order. -/
def State.lapseRecords (s : State) (gone : Record → Bool) (why : Reason) : State :=
  { s with requests := s.requests.filter (fun r => !gone r) }.deliver
    ((s.requests.filter gone).map (fun r => s.lapseNotice r why))

/-- A record after a pass that has left it in the queue (R67): wait decreased by 1. -/
def Record.waited (r : Record) : Record := { r with res := { r.res with wait := r.res.wait - 1 } }

/-- The walk of R79: records with wait 0 lapse, the waits of the others decrease by 1. -/
def State.countWaits (s : State) : State :=
  let s' := s.lapseRecords (fun r => r.res.wait == 0) .wait
  { s' with requests := s'.requests.map Record.waited }

/-- Commit step 6 (R73, R79). -/
def State.commitAllocator (s : State) : State := s.visitAll.countWaits

/-- WAIT_LAPSE: the walk that ends an allocator pass (R79; alone, log 4). -/
def execWaitLapse (s : State) : Host.Outcome State Fault Refusal :=
  .next (if s.framesRun then s.countWaits else s)

end Sys2Proof.Machine
end

