-- ==== Sys2Proof/Machine/Offers.lean ====
section
/-! DEFINITION. The Offer Table (chapter 5): OFFER, ACCEPT, DECLINE, WITHDRAW, the offer countdown of a frame end, and
OFFER_LAPSE. -/

namespace Sys2Proof.Machine

open Sys2Proof

/-! ### Identifiers (R88, R107) -/

/-- The value after an id: 255 is followed by 1 (R88, R107). -/
def nextId (i : Byte) : Byte := if i = 255 then 1 else i + 1

/-- The first value from `i` on that is not in use, looking at no more than `fuel` values (R88, R107). -/
def freeId (used : Byte → Bool) : Nat → Byte → Byte
  | 0, i => i
  | fuel + 1, i => if used i then freeId used fuel (nextId i) else i

/-- The id a new offer takes (R88): at most 8 values are passed over. -/
def State.newOfferId (s : State) : Byte :=
  freeId (fun i => s.offers.any (fun o => o.id == i)) 255 s.offerCounter

/-! ### OFFER (R89, R90) -/

/-- The offer joins the table, which is kept in ascending order of the offered slot (R87). -/
def insertOffer (o : Offer) : List Offer → List Offer
  | [] => [o]
  | x :: xs => if o.slot < x.slot then o :: x :: xs else x :: insertOffer o xs

/-- OFFER: checks 3 to 8 and the effect (R89, R90). -/
def judgeOffer (p : Port) (payload : List Byte) (s : State) : Answer :=
  s.whenAttached p <| withFields (readOffer s.slots p payload) fun f =>
    let e := entryAt s.staged f.slot
    if !e.names p then refuseWith .notHolder
    else if !s.attached f.target then refuseWith .targetDetached
    else if (s.offerOn f.slot).isSome then refuseWith .slotOffered
    else if e.names f.target then refuseWith .alreadyMember
    else if f.kind = .share ∧ 4 ≤ e.parties.length then refuseWith .membersFull
    else if maxOffers ≤ s.offers.length then refuseWith .tableFull
    else
      let o : Offer :=
        { id := s.newOfferId, giver := p, target := f.target, slot := f.slot, kind := f.kind, left := f.frames }
      .ok
        ({ s with offers := insertOffer o s.offers, offerCounter := nextId o.id }.notify f.target
          { s.offerNotice .offerMade o e.tag p f.kind.reason with count := some f.frames })
        [o.id]

/-- OFFER (R89, R90). -/
def execOffer (p : Port) (payload : List Byte) (s : State) : Host.Outcome State Fault Refusal :=
  .next (s.takeRequest p .offer payload (judgeOffer p payload))

/-! ### ACCEPT (R91 to R94) -/

/-- A warned set after an acceptance (R92): a giver that is replaced leaves it, and the target is not in it. -/
def acceptWarned (o : Offer) (w : PortSet) : PortSet :=
  match o.kind with
  | .handover => (w.erase o.giver).erase o.target
  | .share => w.erase o.target

/-- The entry after an acceptance (R92); an entry that names nobody is left as it is. -/
def Entry.accepted (e : Entry) (o : Offer) : Entry :=
  match e with
  | .held g h =>
    let h' := { h with warned := acceptWarned o h.warned }
    match o.kind with
    | .handover => .held o.target h'
    | .share => .shared [g, o.target] g h'
  | .shared ms dr h =>
    let h' := { h with warned := acceptWarned o h.warned }
    match o.kind with
    | .handover =>
      .shared (ms.map (fun q => if q = o.giver then o.target else q)) (if dr = o.giver then o.target else dr) h'
    | .share => .shared (ms ++ [o.target]) dr h'
  | .beacon => .beacon
  | .free => .free
  | .cooling => .cooling

/-- The effect of an acceptance (R92, R93): the Staged entry is edited, the offer leaves the table, OFFER_TAKEN goes to
the giver and MEMBERS_CHANGED to every other member. -/
def State.acceptOffer (s : State) (o : Offer) : State :=
  let e' := (entryAt s.staged o.slot).accepted o
  let others := e'.parties.filter (fun q => q != o.giver && q != o.target)
  ((((s.setStaged o.slot e').dropOffer o.id).notify o.giver
      { s.offerNotice .offerTaken o e'.tag o.target o.kind.reason with count := some e'.parties.length })).tellMembers
    o.slot e' o.target others

/-- ACCEPT: checks 3 and 4 and the effect (R91, R92). -/
def judgeAccept (p : Port) (payload : List Byte) (s : State) : Answer :=
  s.whenAttached p <| withFields (readName payload) fun i =>
    match s.offerWithId i with
    | none => refuseWith .noOffer
    | some o =>
      if o.target ≠ p then refuseWith .noOffer
      else if s.quota p < s.holdingCount p + 1 then refuseWith .overQuota
      else
        let e' := (entryAt s.staged o.slot).accepted o
        .ok (s.acceptOffer o) [byteOf o.slot, o.kind.code, e'.tag, byteOf e'.parties.length]

/-- ACCEPT (R91 to R94). -/
def execAccept (p : Port) (payload : List Byte) (s : State) : Host.Outcome State Fault Refusal :=
  .next (s.takeRequest p .accept payload (judgeAccept p payload))

/-! ### DECLINE and WITHDRAW (R95, R96) -/

/-- The tag of the offered slot as the Staged table has it. -/
def State.slotTag (s : State) (n : Nat) : Byte := (entryAt s.staged n).tag

/-- Removes an offer with OFFER_REFUSED to its giver (R95, R102). -/
def State.refuseOffer (s : State) (o : Offer) (why : Reason) : State :=
  (s.dropOffer o.id).notify o.giver (s.offerNotice .offerRefused o (s.slotTag o.slot) o.target why)

/-- DECLINE: check 3 and the effect (R95). -/
def judgeDecline (p : Port) (payload : List Byte) (s : State) : Answer :=
  s.whenAttached p <| withFields (readName payload) fun i =>
    match s.offerWithId i with
    | none => refuseWith .noOffer
    | some o => if o.target ≠ p then refuseWith .noOffer else .ok (s.refuseOffer o .declined) []

/-- DECLINE (R95). -/
def execDecline (p : Port) (payload : List Byte) (s : State) : Host.Outcome State Fault Refusal :=
  .next (s.takeRequest p .decline payload (judgeDecline p payload))

/-- WITHDRAW: check 3 and the effect (R96). -/
def judgeWithdraw (p : Port) (payload : List Byte) (s : State) : Answer :=
  s.whenAttached p <| withFields (readName payload) fun i =>
    match s.offerWithId i with
    | none => refuseWith .noOffer
    | some o => if o.giver ≠ p then refuseWith .noOffer else .ok (s.voidOffer o (s.slotTag o.slot) .withdrawn) []

/-- WITHDRAW (R96). -/
def execWithdraw (p : Port) (payload : List Byte) (s : State) : Host.Outcome State Fault Refusal :=
  .next (s.takeRequest p .withdraw payload (judgeWithdraw p payload))

/-! ### Lapse (R97, R101) -/

/-- The countdown brings the offer to 0 at this frame end (R97). -/
def Offer.lapses (o : Offer) : Bool := o.left ≤ 1

/-- OFFER_LAPSED to both parties, the giver's first (R97). -/
def State.offerLapseNotices (s : State) (o : Offer) : List (Port × Notice) :=
  [(o.giver, s.offerNotice .offerLapsed o (s.slotTag o.slot) o.target o.kind.reason),
   (o.target, s.offerNotice .offerLapsed o (s.slotTag o.slot) o.giver o.kind.reason)]

/-- The notices of the offers that lapse at this frame end, in ascending slot order (R97). -/
def State.offerLapses (s : State) : List (Port × Notice) := (s.offers.filter Offer.lapses).flatMap s.offerLapseNotices

/-- The offer countdown (R97): an offer that reaches 0 is removed, every other one has one frame less. -/
def State.countOffers (s : State) : State :=
  { s with offers := (s.offers.filter (fun o => !o.lapses)).map (fun o => { o with left := o.left - 1 }) }

/-- OFFER_LAPSE: the part of the offer countdown that removes one offer (R97; alone, log 4). -/
def execOfferLapse (id : Byte) (s : State) : Host.Outcome State Fault Refusal :=
  .next
    (match s.offerWithId id with
    | none => s
    | some o => if s.framesRun && o.lapses then (s.dropOffer o.id).deliver (s.offerLapseNotices o) else s)

end Sys2Proof.Machine
end

