-- ==== Sys2Proof/Machine/TimedEdits.lean ====
section
/-! DEFINITION. The Timed Edit List (chapter 6): SCHEDULE, UNSCHEDULE, READ_EDITS, commit step 4, and TIMED_RELEASE,
TIMED_RENEW, TIMED_ENQUEUE. -/

namespace Sys2Proof.Machine

open Sys2Proof

/-! ### SCHEDULE (R108 to R110) -/

/-- The forward distance of a frame from the frame counter, modulo 2^32 (R105, R109). -/
def State.distance (s : State) (f : Word) : Nat := (f - s.frameCounter).toNat

/-- The id a new entry takes (R107): at most 24 values are passed over. -/
def State.newEditId (s : State) : Byte :=
  freeId (fun i => s.edits.any (fun e => e.id == i)) 255 s.editCounter

/-- The entry joins behind every entry whose activation frame is as near or nearer (R110). -/
def State.insertEdit (s : State) (e : Edit) : List Edit → List Edit
  | [] => [e]
  | x :: xs => if s.distance e.activation < s.distance x.activation then e :: x :: xs else x :: s.insertEdit e xs

/-- How many entries of the list a port issued (R105). -/
def State.editCount (s : State) (p : Port) : Nat := s.edits.countP (fun e => e.issuer == p)

/-- A port's entries in list order, each with its position counted from 1 (R105, R116). -/
def State.ownEdits (s : State) (p : Port) : List (Nat × Edit) :=
  ((s.edits.zipIdx 1).filter (fun x => x.1.issuer == p)).map (fun x => (x.2, x.1))

/-- SCHEDULE: checks 3 to 5 and the effect (R108 to R110). -/
def judgeSchedule (p : Port) (payload : List Byte) (s : State) : Answer :=
  s.whenAttached p <| withFields (readSchedule s.slots payload) fun (activation, action) =>
    if s.distance activation = 0 then .refuse .past (wordBytes s.frameCounter)
    else if maxDistance < s.distance activation then .refuse .tooFar (wordBytes s.frameCounter)
    else if maxEdits ≤ s.edits.length then refuseWith .listFull
    else
      let e : Edit := { id := s.newEditId, issuer := p, activation := activation, action := action }
      let s' := { s with edits := s.insertEdit e s.edits, editCounter := nextId e.id }
      .ok s' [e.id, byteOf (s'.edits.findIdx (fun x => x.id == e.id) + 1), byteOf (s'.editCount p)]

/-- SCHEDULE (R108 to R110). -/
def execSchedule (p : Port) (payload : List Byte) (s : State) : Host.Outcome State Fault Refusal :=
  .next (s.takeRequest p .schedule payload (judgeSchedule p payload))

/-! ### UNSCHEDULE and READ_EDITS (R115, R116) -/

/-- UNSCHEDULE: check 3 and the effect (R115). -/
def judgeUnschedule (p : Port) (payload : List Byte) (s : State) : Answer :=
  s.whenAttached p <| withFields (readName payload) fun i =>
    match s.edits.find? (fun e => e.id == i && e.issuer == p) with
    | none => refuseWith .noEdit
    | some e => .ok { s with edits := s.edits.erase e } (wordBytes e.activation ++ [e.action.code])

/-- UNSCHEDULE (R115). -/
def execUnschedule (p : Port) (payload : List Byte) (s : State) : Host.Outcome State Fault Refusal :=
  .next (s.takeRequest p .unschedule payload (judgeUnschedule p payload))

/-- READ_EDITS: a page of up to 3 of the port's entries (R116). -/
def judgeReadEdits (p : Port) (payload : List Byte) (s : State) : Answer :=
  s.whenAttached p <| withFields (readRanged 0 23 payload) fun start =>
    let page := ((s.ownEdits p).drop start).take 3
    .ok s ([byteOf (s.editCount p), byteOf start, byteOf page.length]
      ++ page.flatMap (fun x => editBytes x.1 x.2))

/-- READ_EDITS (R116). -/
def execReadEdits (p : Port) (payload : List Byte) (s : State) : Host.Outcome State Fault Refusal :=
  .next (s.takeRequest p .readEdits payload (judgeReadEdits p payload))

/-! ### Application (R111 to R114) -/

/-- What EDIT_FAILED carries besides its reason (R111): the slot for RELEASE and RENEW, the reservation's tag and count
for ENQUEUE. -/
def State.editFailedNotice (s : State) (e : Edit) (why : Reason) : Notice :=
  let n := { s.notice .editFailed with reason := some why, id := some e.id }
  match e.action with
  | .release slot | .renew slot _ => { n with slot := some slot }
  | .enqueue r => { n with tag := some r.tag, count := some r.count }

/-- What EDIT_DONE carries for a RELEASE or a RENEW (R111): the action as reason, the slot, and the tag of the entry
edited. -/
def State.editDoneNotice (s : State) (e : Edit) (slot : Nat) (tag : Byte) : Notice :=
  { s.notice .editDone with reason := some e.action.reason, id := some e.id, slot := some slot, tag := some tag }

/-- EDIT_FAILED to the issuer (R111). -/
def State.failEdit (s : State) (e : Edit) (why : Reason) : State := s.notify e.issuer (s.editFailedNotice e why)

/-- A due RELEASE applied (R112): judged as a RELEASE by SLOT of the issuer would be. -/
def State.applyRelease (s : State) (e : Edit) (slot : Nat) : State :=
  let x := entryAt s.staged slot
  if x.names e.issuer then
    (s.giveUpSlot e.issuer .released slot).notify e.issuer (s.editDoneNotice e slot x.tag)
  else s.failEdit e .notHolder

/-- A due RENEW applied (R113): the lease is set at once and the warned set emptied. -/
def State.applyRenew (s : State) (e : Edit) (slot : Nat) (lease : Half) : State :=
  let x := entryAt s.staged slot
  match x.holding? with
  | some h =>
    if x.names e.issuer then
      (s.setStaged slot (x.withHolding { h with lease := lease, warned := PerPort.all false })).notify e.issuer
        (s.editDoneNotice e slot x.tag)
    else s.failEdit e .notHolder
  | none => s.failEdit e .notHolder

/-- A due ENQUEUE applied (R114): three checks, then the record joins the tail of the request queue. -/
def State.applyEnqueue (s : State) (e : Edit) (r : Reservation) : State :=
  if s.tagPending e.issuer r.tag then s.failEdit e .tagInUse
  else if maxRequestsPerPort ≤ s.pendingCount e.issuer then s.failEdit e .portLimit
  else if maxRequests ≤ s.requests.length then s.failEdit e .queueFull
  else
    (s.enqueue e.issuer r).notify e.issuer
      { s.notice .editDone with
        reason := some .enqueueAction, id := some e.id, tag := some r.tag, count := some r.count }

/-- A due entry applied (R111); it has left the list. -/
def State.applyEdit (s : State) (e : Edit) : State :=
  match e.action with
  | .release slot => s.applyRelease e slot
  | .renew slot lease => s.applyRenew e slot lease
  | .enqueue r => s.applyEnqueue e r

/-- An entry is due at the commit that ends the frame before its activation frame (R111). -/
def State.editDue (s : State) (e : Edit) : Bool := e.activation == s.frameCounter + 1

/-- The head of the list leaves it and is applied (R111). -/
def State.applyHead (s : State) (e : Edit) : State := { s with edits := s.edits.tail }.applyEdit e

/-- Commit step 4 (R111): the due entries, which stand at the head, one at a time in list order. -/
def State.commitEdits (s : State) : State := (s.edits.takeWhile s.editDue).foldl State.applyHead s

/-- The entry at the head of the list, when it is due at the coming frame end. -/
def State.dueHead (s : State) : Option Edit :=
  match s.edits with
  | [] => none
  | e :: _ => if s.framesRun && s.editDue e then some e else none

/-- TIMED_RELEASE: a due RELEASE at the head of the list is applied (R112; alone, log 4). An offer of the issuer on the
slot is voided whatever its frames remaining: no countdown goes with the command alone (DESIGN CHOICE beside R101,
log 4). -/
def execTimedRelease (s : State) : Host.Outcome State Fault Refusal :=
  .next
    (match s.dueHead with
    | some ⟨i, p, f, .release n⟩ => { s with edits := s.edits.tail }.applyRelease ⟨i, p, f, .release n⟩ n
    | some ⟨_, _, _, .renew _ _⟩ | some ⟨_, _, _, .enqueue _⟩ | none => s)

/-- TIMED_RENEW: a due RENEW at the head of the list is applied (R113; alone, log 4). -/
def execTimedRenew (s : State) : Host.Outcome State Fault Refusal :=
  .next
    (match s.dueHead with
    | some ⟨i, p, f, .renew n l⟩ => { s with edits := s.edits.tail }.applyRenew ⟨i, p, f, .renew n l⟩ n l
    | some ⟨_, _, _, .release _⟩ | some ⟨_, _, _, .enqueue _⟩ | none => s)

/-- TIMED_ENQUEUE: a due ENQUEUE at the head of the list is applied (R114; alone, log 4). -/
def execTimedEnqueue (s : State) : Host.Outcome State Fault Refusal :=
  .next
    (match s.dueHead with
    | some ⟨i, p, f, .enqueue r⟩ => { s with edits := s.edits.tail }.applyEnqueue ⟨i, p, f, .enqueue r⟩ r
    | some ⟨_, _, _, .release _⟩ | some ⟨_, _, _, .renew _ _⟩ | none => s)

end Sys2Proof.Machine
end

