-- ==== Sys2Proof/Machine/PlanUnit.lean ====
section
/-! DEFINITION. The Plan Unit (chapter 7): PROPOSE, CONFIRM, REJECT, READ_PLAN, the deadline countdown, commit step 5,
PROPOSAL_LAPSE, and the loading of a geometry (R28, R29, R39, R132) with PLAN_APPLICATION. -/

namespace Sys2Proof.Machine

open Sys2Proof

/-! ### Confirmation (R124 to R128) -/

/-- Every member of the confirming set has confirmed (R126). -/
def Proposal.complete (pr : Proposal) : Bool := pr.confirmed == pr.confirming

/-- The members of the confirming set that have yet to confirm (R126). -/
def Proposal.missing (pr : Proposal) : Nat :=
  (portList.filter (fun q => pr.confirming.get q && !pr.confirmed.get q)).length

/-- PLAN_AGREED, carrying the proposer; its frame field is that of the application frame (R126). -/
def State.agreedNotice (s : State) (pr : Proposal) : Notice := { s.notice .planAgreed with other := some pr.proposer }

/-- The proposal as it stands after a confirmation or a leaving (R126, R128): CONFIRMED with the next frame as
application frame, and PLAN_AGREED to every ATTACHED port, when every member has confirmed; otherwise still OPEN. -/
def State.judgeProposal (s : State) (pr : Proposal) (deadline : Nat) : State :=
  if pr.complete then
    { s with proposal := .agreed pr (s.frameCounter + 1) }.notifyAll portList (s.agreedNotice pr)
  else { s with proposal := .opened pr deadline }

/-- PLAN_FAILED for each member of the confirming set (R127, R128, R129). -/
def State.failNotices (s : State) (pr : Proposal) (why : Reason) (who : Port) : List (Port × Notice) :=
  pr.confirming.elems.map (fun q => (q, { s.notice .planFailed with reason := some why, other := some who }))

/-- The open proposal fails: it is removed and PLAN_FAILED goes to the confirming set. -/
def State.failProposal (s : State) (pr : Proposal) (why : Reason) (who : Port) : State :=
  { s with proposal := .none }.deliver (s.failNotices pr why who)

/-- PROPOSE: check 3 and the effect (R124, R125). -/
def judgePropose (p : Port) (payload : List Byte) (s : State) : Answer :=
  s.whenAttached p <| withFields (readProposal payload) fun (terms, deadline) =>
    match s.proposal with
    | .opened _ _ | .agreed _ _ => refuseWith .proposalOpen
    | .none =>
      let pr : Proposal :=
        { proposer := p, terms := terms, confirming := s.attachedSet, confirmed := PerPort.single p }
      let s' := s.judgeProposal pr deadline
      let s'' := if pr.complete then s' else
        s'.notifyAll (pr.confirming.elems.filter (· != p))
          { s.notice .planOpen with other := some p, count := some deadline }
      .ok s'' [s''.proposal.code, byteOf pr.confirming.size]

/-- PROPOSE (R124, R125). -/
def execPropose (p : Port) (payload : List Byte) (s : State) : Host.Outcome State Fault Refusal :=
  .next (s.takeRequest p .propose payload (judgePropose p payload))

/-- Checks 3 and 4 of CONFIRM and REJECT (R126, R127): an OPEN proposal, and a member of its confirming set. -/
def State.asMember (s : State) (p : Port) (k : Proposal → Nat → Answer) : Answer :=
  match s.proposal with
  | .none | .agreed _ _ => refuseWith .noProposal
  | .opened pr deadline => if pr.confirming.get p then k pr deadline else refuseWith .notConfirmer

/-- CONFIRM: the effect (R126). A member that has already confirmed changes nothing. -/
def judgeConfirm (p : Port) (payload : List Byte) (s : State) : Answer :=
  s.whenAttached p <| withFields (readEmpty payload) fun _ =>
    s.asMember p fun pr deadline =>
      if pr.confirmed.get p then .ok s [s.proposal.code, byteOf pr.missing]
      else
        let pr' := { pr with confirmed := pr.confirmed.insert p }
        let s' := s.judgeProposal pr' deadline
        .ok s' [s'.proposal.code, byteOf pr'.missing]

/-- CONFIRM (R126). -/
def execConfirm (p : Port) (payload : List Byte) (s : State) : Host.Outcome State Fault Refusal :=
  .next (s.takeRequest p .confirm payload (judgeConfirm p payload))

/-- REJECT: the effect (R127). -/
def judgeReject (p : Port) (payload : List Byte) (s : State) : Answer :=
  s.whenAttached p <| withFields (readEmpty payload) fun _ =>
    s.asMember p fun pr _ => .ok (s.failProposal pr .rejected p) []

/-- REJECT (R127). -/
def execReject (p : Port) (payload : List Byte) (s : State) : Host.Outcome State Fault Refusal :=
  .next (s.takeRequest p .reject payload (judgeReject p payload))

/-- The work of a detach on the proposal, with its effect (R128, R159, R160 part 5). -/
def State.leaveProposal (s : State) (p : Port) : State × DetachEffect :=
  match s.proposal with
  | .none | .agreed _ _ => (s, .none)
  | .opened pr deadline =>
    if !pr.confirming.get p then (s, .none)
    else
      let pr' := { pr with confirming := pr.confirming.erase p, confirmed := pr.confirmed.erase p }
      if pr.proposer = p then (s.failProposal pr' .withdrawn p, .withdrawn)
      else (s.judgeProposal pr' deadline, if pr'.complete then .confirmed else .leftSet)

/-! ### READ_PLAN (R136) -/

/-- The eighteen bytes of READ_PLAN that report the proposal (R167). -/
def proposalBytes : ProposalState → List Byte
  | .none => List.replicate 18 0
  | .opened pr deadline => ProposalState.code (.opened pr deadline) :: standing pr (BitVec.ofNat 32 deadline)
  | .agreed pr f => ProposalState.code (.agreed pr f) :: standing pr f
where
  /-- Proposer, proposed plan with plan number 0, confirming set, confirmed set, and the deadline or the application
  frame. -/
  standing (pr : Proposal) (last : Word) : List Byte :=
    portCode pr.proposer :: (planBytes pr.terms 0 ++ [portSetByte pr.confirming, portSetByte pr.confirmed]
      ++ wordBytes last)

/-- READ_PLAN: the plan in use and the proposal (R136). -/
def judgeReadPlan (payload : List Byte) (s : State) : Answer :=
  withFields (readEmpty payload) fun _ =>
    .ok s (planBytes s.plan.terms s.plan.number ++ proposalBytes s.proposal)

/-- READ_PLAN (R136). -/
def execReadPlan (p : Port) (payload : List Byte) (s : State) : Host.Outcome State Fault Refusal :=
  .next (s.takeRequest p .readPlan payload (judgeReadPlan payload))

/-! ### The deadline (R129) -/

/-- The proposal that lapses at this frame end: it is OPEN and its deadline reaches 0 (R129). -/
def State.lapsingProposal (s : State) : Option Proposal :=
  match s.proposal with
  | .opened pr deadline => if deadline ≤ 1 then some pr else none
  | .none | .agreed _ _ => none

/-- The notices of a proposal that lapses at this frame end (R129). -/
def State.proposalLapses (s : State) : List (Port × Notice) :=
  match s.lapsingProposal with
  | some pr => s.failNotices pr .lapsed pr.proposer
  | none => []

/-- The deadline countdown (R129): an OPEN proposal whose deadline reaches 0 is removed. -/
def State.countDeadline (s : State) : State :=
  match s.proposal with
  | .opened pr deadline => { s with proposal := if deadline ≤ 1 then .none else .opened pr (deadline - 1) }
  | .none | .agreed _ _ => s

/-- PROPOSAL_LAPSE: the open proposal lapses (R129; alone, log 4). -/
def execProposalLapse (s : State) : Host.Outcome State Fault Refusal :=
  .next
    (match s.lapsingProposal with
    | some pr => if s.framesRun then s.failProposal pr .lapsed pr.proposer else s
    | none => s)

/-! ### Application (R131 to R133) -/

/-- Part 2 of step 5 for one slot (R133, R103): its holders are told, the entry becomes FREE, an offer on it is
voided. -/
def State.revokeSlot (s : State) (n : Nat) : State :=
  let e := entryAt s.staged n
  ((s.setStaged n .free).notifyAll e.parties
      { s.notice .revoked with reason := some .plan, slot := some n, tag := some e.tag }).voidOfferOn n e.tag .plan

/-- The slots a plan takes away: from the new S to the old S less 1, ascending (R131). -/
def revokedSlots (old new : Nat) : List Nat := slotNumbers.filter (fun n => new ≤ n && n < old)

/-- A reservation that can no longer be met with `slots` slots per frame (R83, R118). -/
def Reservation.beyond (slots : Nat) (r : Reservation) : Bool :=
  match r.placement with
  | .list l => l.any (fun n => slots ≤ n)
  | .any | .run => slots ≤ r.count

/-- A timed edit that names a slot position a frame of `slots` slots does not have (R118). -/
def Edit.beyond (slots : Nat) (e : Edit) : Bool :=
  match e.action with
  | .release n | .renew n _ => slots ≤ n
  | .enqueue r => r.beyond slots

/-- Part 3 of step 5: the request queue removes what the smaller plan cannot meet (R83). -/
def State.dropRequests (s : State) (slots : Nat) : State := s.lapseRecords (fun r => r.res.beyond slots) .plan

/-- Part 4 of step 5: the timed edit list removes what the smaller plan lacks (R118). -/
def State.dropEdits (s : State) (slots : Nat) : State :=
  { s with edits := s.edits.filter (fun e => !e.beyond slots) }.deliver
    ((s.edits.filter (Edit.beyond slots)).map (fun (e : Edit) => (e.issuer, s.editFailedNotice e .plan)))

/-- Part 5 of step 5: PLAN_IN_FORCE to every ATTACHED port, with its quota in the new plan (R131). -/
def State.announcePlan (s : State) : State :=
  s.deliver (portList.map (fun q => (q, { s.notice .planInForce with count := some (s.quota q) })))

/-- Parts 2 to 4 of step 5, when the new S is smaller than the old (R131). -/
def State.shrink (s : State) (old new : Nat) : State :=
  if new < old then (((revokedSlots old new).foldl State.revokeSlot s).dropRequests new).dropEdits new else s

/-- A confirmed proposal applied (R131). -/
def State.applyPlan (s : State) (terms : PlanTerms) : State :=
  ({ s with
      plan := { terms := terms, number := s.plan.number + 1 }
      proposal := .none }.shrink s.slots terms.geometry.slots).announcePlan

/-- The proposed plan that is due at this frame end (R130). -/
def State.dueTerms (s : State) : Option PlanTerms :=
  match s.proposal with
  | .agreed pr f => if s.frameCounter = f then some pr.terms else none
  | .none | .opened _ _ => none

/-- Commit step 5 (R130, R131). -/
def State.commitPlan (s : State) : State :=
  match s.dueTerms with
  | some terms => s.applyPlan terms
  | none => s

/-! ### The geometry (R28, R29, R39, R132) -/

/-- The first bit time of slot 0 begins, and the beacon word is captured (R32, R42). -/
def State.beginFrame (s : State) : State := { s with frame := .running (.bit 0), beacon := s.beaconWord }

/-- The Frame Generator loads the geometry of the plan in use at a frame end, and the bit clock passes to its new
setting (R28, R29). From INTERNAL to EXTERNAL it enters STALLED with cause SWITCH (R39); otherwise the frame end is also
the instant at which the next frame's first bit time begins, in either clock mode (R29, R32). -/
def State.loadGeometry (s : State) : State :=
  let t := { s with geometry := s.plan.terms.geometry, edgeTimer := 0, clockPhase := 0 }
  if s.geometry.source = .internal ∧ t.geometry.source = .external then
    { t with frame := .stalled .switch 0, recoveryCount := 0, beacon := [] }
  else t.beginFrame

/-- The Active table with the positions at and beyond S turned to FREE (R6). -/
def State.activeWithin (s : State) : Table :=
  (slotNumbers.filter (fun n => s.slots ≤ n)).foldl (fun t n => t.setIfInBounds n .free) s.active

/-- The positions at and beyond S become FREE in the Active table as well (R6), with the generation number that R22 gives
the change; the CHANGED mark is set when the number changed and kept otherwise (R43). DESIGN CHOICE (log 4): this is the
share of the publish step that PLAN_APPLICATION alone carries out. -/
def State.publishRevoked (s : State) : State :=
  let t := s.publishTable s.activeWithin
  { t with changed := s.changed || t.generation != s.generation }

/-- PLAN_APPLICATION: a due plan is applied and its geometry loaded (R131, R132; alone, log 4). The positions from the new
S on become FREE in both tables at once (R6); the rest of the Staged table is published by the next FRAME_END. The offers
on the slots it revokes are voided whatever their frames remaining: no countdown goes with the command alone (DESIGN CHOICE
beside R101, log 4). -/
def execPlanApplication (s : State) : Host.Outcome State Fault Refusal :=
  .next
    (match s.dueTerms with
    | some terms => if s.framesRun then (s.applyPlan terms).publishRevoked.loadGeometry else s
    | none => s)

end Sys2Proof.Machine
end

