-- ==== Sys2Proof/Machine/FrameGen.lean ====
section
/-! DEFINITION. The Frame Generator (chapter 2): SNAPSHOT, BIT_TIME_BEGINS, FRAME_END with the whole commit, the stall
(CLOCK_LOSS, STALL_GAP, CLOCK_RECOVERY, BCLK_EDGE), reset, and one REFCLK period. -/

namespace Sys2Proof.Machine

open Sys2Proof

/-! ### SNAPSHOT (R45) -/

/-- The nine bytes of the snapshot values (R45, R167). -/
def State.snapshotBytes (s : State) : List Byte :=
  wordBytes s.frameCounter ++ [s.frame.code, byteOf s.slotIndex, s.generation] ++ halfBytes s.plan.number

/-- SNAPSHOT: the values captured together (R45). -/
def judgeSnapshot (payload : List Byte) (s : State) : Answer :=
  withFields (readEmpty payload) fun _ => .ok s s.snapshotBytes

/-- SNAPSHOT (R45). -/
def execSnapshot (p : Port) (payload : List Byte) (s : State) : Host.Outcome State Fault Refusal :=
  .next (s.takeRequest p .snapshot payload (judgeSnapshot payload))

/-! ### The frame end (R17, R36) -/

/-- The seven commit steps in their order (R17). -/
def commitSteps : List (State → State) :=
  [State.commitCooling, State.commitLeases, State.commitRotation, State.commitEdits, State.commitPlan,
   State.commitAllocator, State.publish]

/-- The place the notices `l` take among `places` places: a free choice, asked for only when there are notices
(log 7). -/
def placeOf (choice : Nat → Nat) (index places : Nat) (l : List (Port × Notice)) : Nat :=
  if l.isEmpty then 0 else choice index % places

/-- The work of a frame end in the order it reaches the notice queues: the seven commit steps, with the notices of the
offer countdown and of the deadline countdown at free places among them (R97, R101, R129; log 7). -/
def State.frameEndWork (s : State) : List (State → State) :=
  let offers := s.offerLapses
  let proposal := s.proposalLapses
  (commitSteps.insertIdx (placeOf Config.offerLapsePlace s.choiceIndex 8 offers) (fun t => t.deliver offers)).insertIdx
    (placeOf Config.proposalLapsePlace s.choiceIndex 9 proposal) (fun t => t.deliver proposal)

/-- The countdowns and the commit of a frame end (R36). The countdowns decide first which offers and which proposal
lapse, so that a commit step finds no offer that the countdown brings to 0 (R101). -/
def State.commit (s : State) : State := s.frameEndWork.foldl (fun t f => f t) s.countOffers.countDeadline

/-- The Frame Generator's own work at a frame end, after the publish step (R35, R25, R43, R28, R32): the counter
advances, the drive-cut marks clear, the CHANGED mark tells whether the generation `before` the commit has changed, the
geometry is loaded, and the next frame's first bit time begins unless the part stalls. -/
def State.finishFrame (s : State) (before : Byte) : State :=
  { s with
    frameCounter := s.frameCounter + 1
    driveCut := PerPort.all false
    changed := s.generation != before
    choiceIndex := s.choiceIndex + 1 }.loadGeometry

/-- The frame-end event (R36). -/
def State.endFrame (s : State) : State := s.commit.finishFrame s.generation

/-- FRAME_END: the frame in progress completes (R36), and the next frame's first bit time begins with it (R32, log 5).
What is left of its bit times elapses (log 3); no frame ends while STALLED or in reset (R41, R46). -/
def execFrameEnd (s : State) : Host.Outcome State Fault Refusal :=
  .next (if s.framesRun then s.endFrame else s)

/-! ### Bit times (R32, R34, R42) -/

/-- The bit time `n` of the frame begins; the beacon word is gone once slot 0 is over (R44). -/
def State.beginBit (s : State) (n : Nat) : State :=
  { s with frame := .running (.bit n), beacon := if n < s.geometry.width.bits then s.beacon else [] }

/-- The next bit time begins at a rising edge of BCLK, from the bit position `pos` (R32, R34). The edge that ends the
last bit time is the frame end (R32). -/
def State.nextBit (s : State) (pos : BitPosition) : State :=
  match pos with
  | .leadInWait => { s with frame := .running .leadIn }
  | .leadIn => s.beginFrame
  | .bit n =>
    if n + 1 < s.geometry.frameBits then s.beginBit (n + 1) else s.endFrame

/-- A rising edge of BCLK begins a bit time while RUNNING (R32). The edge starts a BCLK period (R30) and restarts the
edge timer (R31). -/
def State.risingEdge (s : State) : State :=
  match s.frame with
  | .stalled _ _ => s
  | .running pos => { s with edgeTimer := 0, clockPhase := 0 }.nextBit pos

/-- BIT_TIME_BEGINS (R32, R34). As a command it is the next rising edge of BCLK at any clock phase and any value of the
edge timer: in INTERNAL mode what is left of the 2(D+1) REFCLK periods of R30 elapses with it, and the divider starts
a new period there. DESIGN CHOICE (log 3): the table names the edge and not the time to it. -/
def execBitTimeBegins (s : State) : Host.Outcome State Fault Refusal :=
  .next (if s.framesRun then s.risingEdge else s)

/-! ### The stall (R37 to R41) -/

/-- The clock source in use is EXTERNAL. -/
def State.external (s : State) : Bool := s.geometry.source == .external

/-- The clock is lost (R38): the frame is abandoned, the part is STALLED with cause LOST, and CLOCK_LOST goes to every
ATTACHED port with the number of the abandoned frame and the slot index in progress. -/
def State.loseClock (s : State) : State :=
  { s with frame := .stalled .lost s.slotIndex, beacon := [], edgeTimer := 0, recoveryCount := 0 }.notifyAll portList
    { s.notice .clockLost with slot := some s.slotIndex, frame := s.frameCounter.extractLsb' 0 16 }

/-- CLOCK_LOSS (R38): in EXTERNAL mode while RUNNING; what the edge timer has left to 1024 elapses (log 3). -/
def execClockLoss (s : State) : Host.Outcome State Fault Refusal :=
  .next (if s.framesRun && s.external then s.loseClock else s)

/-- The Frame Generator is STALLED and RESETn is negated. -/
def State.inStall (s : State) : Bool := !s.resetAsserted && !s.frame.isRunning

/-- The edge timer reaches 1024 while STALLED (R37): the recovery count starts again, and the timer too. -/
def State.stallGap (s : State) : State := { s with edgeTimer := 0, recoveryCount := 0 }

/-- STALL_GAP (R37). -/
def execStallGap (s : State) : Host.Outcome State Fault Refusal :=
  .next (if s.inStall && s.external then s.stallGap else s)

/-- The stall ends (R40): RUNNING with the lead-in to come, and CLOCK_BACK to every ATTACHED port after a stall with
cause LOST. -/
def State.recover (s : State) : State :=
  let s' := { s with frame := .running .leadInWait, edgeTimer := 0, recoveryCount := recoveryEdges }
  match s.frame with
  | .stalled .lost _ =>
    s'.notifyAll portList { s.notice .clockBack with frame := s.frameCounter.extractLsb' 0 16 }
  | .stalled .switch _ | .running _ => s'

/-- CLOCK_RECOVERY (R40): the sixteenth counted edge; what the recovery count has left to it elapses (log 3). -/
def execClockRecovery (s : State) : Host.Outcome State Fault Refusal :=
  .next (if s.inStall && s.external then s.recover else s)

/-- An edge of the external BCLK input (R37): the edge timer starts again, and while STALLED the recovery count rises
by 1; the sixteenth edge ends the stall (R40). -/
def State.clockEdge (s : State) : State :=
  if s.frame.isRunning then { s with edgeTimer := 0 }
  else if s.recoveryCount + 1 < recoveryEdges then
    { s with edgeTimer := 0, recoveryCount := s.recoveryCount + 1 }
  else s.recover

/-- BCLK_EDGE (R31, R37): BCLK is an input in EXTERNAL mode alone. -/
def execBclkEdge (s : State) : Host.Outcome State Fault Refusal :=
  .next (if !s.resetAsserted && s.external then s.clockEdge else s)

/-! ### Reset (R46, R122) -/

/-- A port at reset; the level of its CSn pin is the master's (R164). -/
def PortState.resetPort (x : PortState) : PortState := { PortState.atReset with selected := x.selected }

/-- All state at its reset value, with a reset plan of `slots` slots of width `width` (R46, R122). What is not the
part's stays: the CSn levels, the waiting commands and the number of the next free choice. -/
def State.resetAll (s : State) (slots : Nat) (width : SlotWidth) : State :=
  { State.reset with
    pending := s.pending
    geometry := (Plan.atReset slots width).terms.geometry
    plan := Plan.atReset slots width
    ports := ⟨s.ports.a.resetPort, s.ports.b.resetPort, s.ports.c.resetPort, s.ports.d.resetPort⟩
    choiceIndex := s.choiceIndex }

/-- S from the straps SLT1 and SLT0 (R122). -/
def strapSlots (slt1 slt0 : Bool) : Nat :=
  match slt1, slt0 with
  | false, false => 8
  | false, true => 16
  | true, false => 32
  | true, true => 64

/-- W from the straps WID1 and WID0 (R122). -/
def strapWidth (wid1 wid0 : Bool) : SlotWidth :=
  match wid1, wid0 with
  | false, false => .w16
  | false, true => .w24
  | true, false => .w32
  | true, true => .w16

/-- RESET_ASSERTED (R46, R164): all state is reset, and nothing runs until RESETn is negated. The reset plan's S and W
stand at the values of undriven straps until the straps are sampled (log 9). -/
def execResetAsserted (s : State) : Host.Outcome State Fault Refusal :=
  .next { s.resetAll 8 .w16 with resetAsserted := true }

/-- RESET_NEGATED (R46, R122): the straps are sampled and the reset plan is loaded; nothing happens at a RESETn that is
not asserted (log 1). -/
def execResetNegated (slt1 slt0 wid1 wid0 : Bool) (s : State) : Host.Outcome State Fault Refusal :=
  .next (if s.resetAsserted then s.resetAll (strapSlots slt1 slt0) (strapWidth wid1 wid0) else s)

/-! ### One REFCLK period (R30, R31, R37; log 6) -/

/-- REFCLK periods of one period of the internal bit clock (R30). -/
def Geometry.bitPeriod (g : Geometry) : Nat := 2 * (g.divider.toNat + 1)

/-- One REFCLK period of the internal bit clock (R30): the next rising edge comes after 2(D+1) periods. -/
def State.internalTick (s : State) : State :=
  if s.clockPhase + 1 < s.geometry.bitPeriod then { s with clockPhase := s.clockPhase + 1 } else s.risingEdge

/-- One REFCLK period of the stall detector (R37, R38). -/
def State.externalTick (s : State) : State :=
  if s.edgeTimer + 1 < edgeLimit then { s with edgeTimer := s.edgeTimer + 1 }
  else if s.frame.isRunning then s.loseClock
  else s.stallGap

/-- One REFCLK period in which no command comes. -/
def State.refclkTick (s : State) : State :=
  if s.resetAsserted then s else if s.external then s.externalTick else s.internalTick

end Sys2Proof.Machine
end

