-- ==== Sys2Proof/Machine/Ports.lean ====
section
/-! DEFINITION. The Port Interfaces and the Notice Queues (chapters 8 and 9): CS_ASSERTED, BYTE_RECEIVED,
TRANSACTION_IGNORED, TRANSACTION_REFUSED, NONE, ATTACH, DETACH, POLL, FETCH and ATTENTION. -/

namespace Sys2Proof.Machine

open Sys2Proof

/-! ### The receiver (R148, R149, R151) -/

/-- CS_ASSERTED: the receiver becomes RECEIVING and the reply is captured; under reset CSn is ignored (R149, R151,
R164). A CSn that is low already does not fall (log 1). -/
def execCsAsserted (p : Port) (s : State) : Host.Outcome State Fault Refusal :=
  let x := s.port p
  .next
    (if x.selected then s
    else s.setPort p
      { x with
        selected := true
        receiver := if s.resetAsserted then .idle else .receiving 0 [] (s.captureReply p) })

/-- A receiver after one more complete byte (R149): stored up to the 63rd, counted up to 255. -/
def Receiver.receive (r : Receiver) (byte : Byte) : Receiver :=
  match r with
  | .idle => .idle
  | .receiving count stored sending =>
    .receiving (min (count + 1) maxCounted) (if stored.length < maxStored then stored ++ [byte] else stored) sending

/-- BYTE_RECEIVED: the eight levels of SDI make one byte, the most significant bit first (R148, R149); SCK edges at an
IDLE receiver are ignored (R148). -/
def execByteReceived (p : Port) (sdi : Vector Bool 8) (s : State) : Host.Outcome State Fault Refusal :=
  .next (s.setPort p { s.port p with receiver := (s.port p).receiver.receive (byteOfLevels sdi) })

/-- TRANSACTION_IGNORED: CSn rises before a complete byte (R149). -/
def execTransactionIgnored (p : Port) (s : State) : Host.Outcome State Fault Refusal :=
  .next (s.endTransaction p [] id)

/-- NONE: the reply buffer and the sequence stay as they are (R153). -/
def execNoneTransaction (p : Port) (rest : List Byte) (s : State) : Host.Outcome State Fault Refusal :=
  .next (s.endTransaction p (0 :: rest) id)

/-- The framing check of R152: at least two bytes, a length byte not above 60, exactly L+3 complete bytes, and no part
of a byte. -/
def wellFramed (bytes : List Byte) (partialByte : Bool) : Bool :=
  match bytes with
  | _ :: l :: _ => l.toNat ≤ 60 && bytes.length == l.toNat + 3 && !partialByte
  | _ => false

/-- The reply to a transaction that fails a check of R152, or none when it passes all three. -/
def refusalOf (bytes : List Byte) (partialByte : Bool) : Option (ReplyCode × List Byte) :=
  if !wellFramed bytes partialByte then some (.framing, [byteOf (min bytes.length maxCounted)])
  else if byteSum bytes ≠ 0 then some (.checksum, [])
  else if !knownCode (bytes.headD 0) then some (.unknown, [bytes.headD 0])
  else none

/-- The bytes begin a transaction that R152 checks: at least one byte, and the first is not 0x00 (R149). -/
def isChecked (bytes : List Byte) : Bool :=
  match bytes with
  | [] => false
  | b :: _ => b != 0

/-- TRANSACTION_REFUSED (R152, R154). Bytes that are ignored, that are a NONE or that pass every check are no refused
transaction, so the event does not occur (log 1). -/
def execTransactionRefused (p : Port) (bytes : List Byte) (partialByte : Bool) (s : State) :
    Host.Outcome State Fault Refusal :=
  .next
    (if isChecked bytes then
      match refusalOf bytes partialByte with
      | some (code, body) => s.endTransaction p bytes (fun s => s.reply p code body)
      | none => s
    else s)

/-! ### ATTACH (R157) -/

/-- ATTACH: its checks and its effect (R157); the ALREADY_ATTACHED check comes first (R163). -/
def judgeAttach (p : Port) (payload : List Byte) (s : State) : Answer :=
  if s.attached p then refuseWith .alreadyAttached
  else
    withFields (readAttach payload) fun x =>
      .ok (s.setPort p { s.port p with attachment := some x }) (s.snapshotBytes ++ [byteOf (s.quota p)])

/-- ATTACH (R157, R158). -/
def execAttach (p : Port) (payload : List Byte) (s : State) : Host.Outcome State Fault Refusal :=
  .next (s.takeRequest p .attach payload (judgeAttach p payload))

/-! ### DETACH (R159, R160) -/

/-- A detach at the port's own interface (R159): DETACHED, threshold and mask discarded, the notice queue emptied, LOST
cleared, and the drive-cut mark set. -/
def State.detachPort (s : State) (p : Port) : State :=
  { s.setPort p { s.port p with attachment := none, notices := [], lost := false } with
    driveCut := s.driveCut.insert p }

/-- Part 2 of a detach: the offers that name the port as target are removed, in ascending slot order (R102, R160). -/
def State.dropTargetOffers (s : State) (p : Port) : State :=
  (s.offers.filter (fun o => o.target == p)).foldl (fun s o => s.refuseOffer o .detached) s

/-- Parts 3 and 4 of a detach: the port's records and timed edits leave without notice (R85, R119, R160). -/
def State.dropOwn (s : State) (p : Port) : State :=
  { s with
    requests := s.requests.filter (fun r => r.port != p)
    edits := s.edits.filter (fun e => e.issuer != p) }

/-- DETACH: its effect and the counts of what it removed (R159, R160). -/
def judgeDetach (p : Port) (payload : List Byte) (s : State) : Answer :=
  s.whenAttached p <| withFields (readEmpty payload) fun _ =>
    let own := s.ownSlots p
    let (s', effect) := ((((s.detachPort p).giveUpSlots p .detached own).dropTargetOffers p).dropOwn p).leaveProposal p
    .ok s'
      [byteOf own.length, byteOf (s.heldAmong own), byteOf (s.pendingCount p), byteOf (s.editCount p),
       byteOf (s.offers.countP (fun o => o.giver == p)), byteOf (s.offers.countP (fun o => o.target == p)),
       effect.code]

/-- DETACH (R159 to R161). -/
def execDetach (p : Port) (payload : List Byte) (s : State) : Host.Outcome State Fault Refusal :=
  .next (s.takeRequest p .detach payload (judgeDetach p payload))

/-! ### POLL (R162) -/

/-- POLL: the port's share of the tables (R162). -/
def judgePoll (p : Port) (payload : List Byte) (s : State) : Answer :=
  withFields (readEmpty payload) fun _ =>
    .ok s
      [byteOf (s.holdingCount p), byteOf (s.pendingCount p), byteOf (s.offers.countP (fun o => o.giver == p)),
       byteOf (s.offers.countP (fun o => o.target == p)), byteOf (s.editCount p),
       byteOf (s.port p).notices.length, byteOf (s.quota p)]

/-- POLL (R162). -/
def execPoll (p : Port) (payload : List Byte) (s : State) : Host.Outcome State Fault Refusal :=
  .next (s.takeRequest p .poll payload (judgePoll p payload))

/-! ### FETCH and ATTENTION (R142, R144) -/

/-- FETCH: the first notices leave the queue, and LOST is reported and cleared (R142). The first byte of the body has
LOST in bit 7 and n in bits 2 to 0 (R167); its bits 6 to 3, which the manual does not name, are sent as 0 (DESIGN CHOICE,
log 20). -/
def judgeFetch (p : Port) (payload : List Byte) (s : State) : Answer :=
  s.whenAttached p <| withFields (readRanged 1 8 payload) fun max =>
    let x := s.port p
    let n := min (min max x.notices.length) maxFetched
    .ok (s.setPort p { x with notices := x.notices.drop n, lost := false })
      ([bitAt 7 x.lost ||| byteOf n, byteOf (x.notices.length - n)] ++ (x.notices.take n).flatMap noticeBytes)

/-- FETCH (R142, R143). -/
def execFetch (p : Port) (payload : List Byte) (s : State) : Host.Outcome State Fault Refusal :=
  .next (s.takeRequest p .fetch payload (judgeFetch p payload))

/-- ATTENTION: the mask is replaced (R144). -/
def judgeAttention (p : Port) (payload : List Byte) (s : State) : Answer :=
  let x := s.port p
  match x.attachment with
  | none => refuseWith .notAttached
  | some at_ =>
    withFields (readAttention payload) fun m =>
      .ok (s.setPort p { x with attachment := some { at_ with mask := m } })
        [maskByte m, byteOf (x.notices.countP (maskNames m))]

/-- ATTENTION (R144). -/
def execAttention (p : Port) (payload : List Byte) (s : State) : Host.Outcome State Fault Refusal :=
  .next (s.takeRequest p .attention payload (judgeAttention p payload))

end Sys2Proof.Machine
end

