-- ==== Sys2Proof/Machine/Pins.lean ====
section
/-! DEFINITION. The bus pins as functions of the state: DEN_A to DEN_D (R24), FSYNC (R33), BDAT (R44) and BCLK (R30,
R46). The attention lines stand in Flags.lean. -/

namespace Sys2Proof.Machine

open Sys2Proof

/-- DEN of port `p` is asserted (R24): a bit time of a slot from 1 to S-1 is under way, the Active entry names the port
as HELD holder or as SHARED driver, the port is ATTACHED, and it has no drive-cut mark. -/
def State.den (s : State) (p : Port) : Bool :=
  match s.frame with
  | .running (.bit _) =>
    !s.resetAsserted && 1 ≤ s.slotIndex && s.slotIndex < s.geometry.slots
      && (entryAt s.active s.slotIndex).drivenBy == some p && s.attached p && !s.driveCut.get p
  | .running .leadInWait | .running .leadIn | .stalled _ _ => false

/-- FSYNC is asserted (R33). -/
def State.fsyncAsserted (s : State) : Bool :=
  !s.resetAsserted &&
    match s.frame, s.geometry.form with
    | .running .leadIn, .pulse => true
    | .running (.bit n), .pulse => n + 1 == s.geometry.frameBits
    | .running (.bit n), .span => n < s.geometry.width.bits
    | .running .leadIn, .span | .running .leadInWait, _ | .stalled _ _, _ => false

/-- The level of FSYNC: the polarity gives the level that represents asserted (R28, R33). -/
def State.fsyncLevel (s : State) : Bool :=
  match s.geometry.polarity with
  | .high => s.fsyncAsserted
  | .low => !s.fsyncAsserted

/-- BDAT: the bit driven in slot 0, absent while tri-stated (R42, R44). -/
def State.bdat (s : State) : Option Bool :=
  match s.frame with
  | .running (.bit n) => if n < s.geometry.width.bits then wireBit s.beacon n else none
  | .running .leadInWait | .running .leadIn | .stalled _ _ => none

/-- The level the part drives on BCLK, absent while BCLK is an input (R30, R31, R46): low in reset, and high for the
first D+1 REFCLK periods of an internal bit time. -/
def State.bclk (s : State) : Option Bool :=
  if s.resetAsserted then some false
  else if s.external then none
  else some (s.clockPhase < s.geometry.divider.toNat + 1)

end Sys2Proof.Machine
end

