-- ==== Sys2Proof/Machine/Dispatch.lean ====
section
/-! DEFINITION. One arm for each command: the direct call of its meaning. -/

namespace Sys2Proof.Machine

open Sys2Proof

def exec (i : Instr) (s : State) : Host.Outcome State Fault Refusal :=
  match i with
  | .csAsserted p => Sys2Proof.Machine.execCsAsserted p s
  | .transactionIgnored p => Sys2Proof.Machine.execTransactionIgnored p s
  | .transactionRefused p bytes partialByte => Sys2Proof.Machine.execTransactionRefused p bytes partialByte s
  | .noneTransaction p rest => Sys2Proof.Machine.execNoneTransaction p rest s
  | .attach p payload => Sys2Proof.Machine.execAttach p payload s
  | .detach p payload => Sys2Proof.Machine.execDetach p payload s
  | .poll p payload => Sys2Proof.Machine.execPoll p payload s
  | .snapshot p payload => Sys2Proof.Machine.execSnapshot p payload s
  | .readSlot p payload => Sys2Proof.Machine.execReadSlot p payload s
  | .readMap p payload => Sys2Proof.Machine.execReadMap p payload s
  | .renew p payload => Sys2Proof.Machine.execRenew p payload s
  | .release p payload => Sys2Proof.Machine.execRelease p payload s
  | .holdings p payload => Sys2Proof.Machine.execHoldings p payload s
  | .reserve p payload => Sys2Proof.Machine.execReserve p payload s
  | .cancel p payload => Sys2Proof.Machine.execCancel p payload s
  | .readRequests p payload => Sys2Proof.Machine.execReadRequests p payload s
  | .offer p payload => Sys2Proof.Machine.execOffer p payload s
  | .accept p payload => Sys2Proof.Machine.execAccept p payload s
  | .decline p payload => Sys2Proof.Machine.execDecline p payload s
  | .withdraw p payload => Sys2Proof.Machine.execWithdraw p payload s
  | .schedule p payload => Sys2Proof.Machine.execSchedule p payload s
  | .unschedule p payload => Sys2Proof.Machine.execUnschedule p payload s
  | .readEdits p payload => Sys2Proof.Machine.execReadEdits p payload s
  | .propose p payload => Sys2Proof.Machine.execPropose p payload s
  | .confirm p payload => Sys2Proof.Machine.execConfirm p payload s
  | .reject p payload => Sys2Proof.Machine.execReject p payload s
  | .readPlan p payload => Sys2Proof.Machine.execReadPlan p payload s
  | .fetch p payload => Sys2Proof.Machine.execFetch p payload s
  | .attention p payload => Sys2Proof.Machine.execAttention p payload s
  | .frameEnd => Sys2Proof.Machine.execFrameEnd s
  | .leaseEnd slot => Sys2Proof.Machine.execLeaseEnd slot s
  | .timedRelease => Sys2Proof.Machine.execTimedRelease s
  | .timedRenew => Sys2Proof.Machine.execTimedRenew s
  | .timedEnqueue => Sys2Proof.Machine.execTimedEnqueue s
  | .planApplication => Sys2Proof.Machine.execPlanApplication s
  | .waitLapse => Sys2Proof.Machine.execWaitLapse s
  | .offerLapse id => Sys2Proof.Machine.execOfferLapse id s
  | .proposalLapse => Sys2Proof.Machine.execProposalLapse s
  | .clockLoss => Sys2Proof.Machine.execClockLoss s
  | .stallGap => Sys2Proof.Machine.execStallGap s
  | .clockRecovery => Sys2Proof.Machine.execClockRecovery s
  | .resetAsserted => Sys2Proof.Machine.execResetAsserted s
  | .resetNegated slt1 slt0 wid1 wid0 => Sys2Proof.Machine.execResetNegated slt1 slt0 wid1 wid0 s
  | .bitTimeBegins => Sys2Proof.Machine.execBitTimeBegins s
  | .bclkEdge => Sys2Proof.Machine.execBclkEdge s
  | .byteReceived p sdi => Sys2Proof.Machine.execByteReceived p sdi s

end Sys2Proof.Machine
end

