-- ==== Sys2Proof/Safety.lean ====
section
/-! DEFINITION. What a safe run means for this part, in the terms the statements use: when a request is taken, and the
properties the manual says every state has. -/

namespace Sys2Proof.Machine

open Sys2Proof

/-! ### When a transaction ends here -/

/-- The port can end a transaction of these bytes now: RESETn is negated, no transaction is being discarded, and the
receiver has received a beginning of the bytes, or nothing (R149, R164). -/
def State.canEnd (s : State) (p : Port) (bytes : List Byte) : Bool :=
  !s.resetAsserted && !(s.port p).discarding && (s.port p).receiver.agrees bytes

/-- The request of this code and payload is taken now (R152): its transaction is well formed and can end. -/
def State.takes (s : State) (p : Port) (r : RequestCode) (payload : List Byte) : Bool :=
  payload.length ≤ 60 && s.canEnd p (requestBytes r.code payload)

/-! ### How a request is answered -/

/-- A port after a request of its own was answered: CSn is high, the receiver is IDLE, the reply buffer holds the
answer, and the reply sequence is one further (R149, R154). -/
def PortState.answered (x : PortState) (code : ReplyCode) (body : List Byte) : PortState :=
  { x with
    selected := false
    receiver := .idle
    replyCode := code
    replyBody := body
    replySequence := x.replySequence + 1 }

/-- `s` after a request of port `p` that changed nothing but its own reply. -/
def State.answered (s : State) (p : Port) (code : ReplyCode) (body : List Byte) : State :=
  s.setPort p ((s.port p).answered code body)

/-- A port after the notices `l` were addressed to it in this order: none is produced while it is DETACHED, each joins
the tail of a queue with room, and a full queue sets LOST (R140, R141). -/
def PortState.told (x : PortState) (l : List Notice) : PortState :=
  if x.attachment.isSome then l.foldl PortState.takeNotice x else x

/-- The request a command stands for: its port, its code and its payload; none for a command that is no request. -/
def requestOf : Instr → Option (Port × RequestCode × List Byte)
  | .attach p l => some (p, .attach, l)
  | .detach p l => some (p, .detach, l)
  | .poll p l => some (p, .poll, l)
  | .snapshot p l => some (p, .snapshot, l)
  | .readSlot p l => some (p, .readSlot, l)
  | .readMap p l => some (p, .readMap, l)
  | .renew p l => some (p, .renew, l)
  | .release p l => some (p, .release, l)
  | .holdings p l => some (p, .holdings, l)
  | .reserve p l => some (p, .reserve, l)
  | .cancel p l => some (p, .cancel, l)
  | .readRequests p l => some (p, .readRequests, l)
  | .offer p l => some (p, .offer, l)
  | .accept p l => some (p, .accept, l)
  | .decline p l => some (p, .decline, l)
  | .withdraw p l => some (p, .withdraw, l)
  | .schedule p l => some (p, .schedule, l)
  | .unschedule p l => some (p, .unschedule, l)
  | .readEdits p l => some (p, .readEdits, l)
  | .propose p l => some (p, .propose, l)
  | .confirm p l => some (p, .confirm, l)
  | .reject p l => some (p, .reject, l)
  | .readPlan p l => some (p, .readPlan, l)
  | .fetch p l => some (p, .fetch, l)
  | .attention p l => some (p, .attention, l)
  | .csAsserted _ | .transactionIgnored _ | .transactionRefused _ _ _ | .noneTransaction _ _ | .frameEnd
  | .leaseEnd _ | .timedRelease | .timedRenew | .timedEnqueue | .planApplication | .waitLapse | .offerLapse _
  | .proposalLapse | .clockLoss | .stallGap | .clockRecovery | .resetAsserted | .resetNegated _ _ _ _
  | .bitTimeBegins | .bclkEdge | .byteReceived _ _ => none

/-- The requests that a DETACHED port is refused (R156, 9.8). -/
def RequestCode.needsAttached : RequestCode → Bool
  | .attach | .poll | .snapshot | .readSlot | .readMap | .readPlan => false
  | .detach | .renew | .release | .holdings | .reserve | .cancel | .readRequests | .offer | .accept | .decline
  | .withdraw | .schedule | .unschedule | .readEdits | .propose | .confirm | .reject | .fetch | .attention => true

/-- The payload lengths that the layouts of R166 allow. -/
def RequestCode.lengths : RequestCode → List Nat
  | .detach | .poll | .snapshot | .confirm | .reject | .readPlan => [0]
  | .readSlot | .readMap | .holdings | .cancel | .readRequests | .accept | .decline | .withdraw | .unschedule
  | .readEdits | .fetch | .attention => [1]
  | .attach | .release => [2]
  | .renew | .offer => [4]
  | .reserve => [7, 8, 9, 10, 11, 12, 13, 14, 15]
  | .schedule => [6, 8, 12, 13, 14, 15, 16, 17, 18, 19, 20]
  | .propose => [12]

/-- The commands at the rise of a port's CSn (R149): the requests and the other ends of a transaction. -/
def endsTransaction : Instr → Option Port
  | .transactionIgnored p | .transactionRefused p _ _ | .noneTransaction p _ => some p
  | c => (requestOf c).map Prod.fst

/-- The commands one after another. -/
def runs : List Instr → State → Host.Outcome State Fault Refusal
  | [], s => .next s
  | c :: cs, s =>
    match exec c s with
    | .next t => runs cs t
    | .fault r => .fault r
    | .refused r => .refused r

/-- The bytes of the selector and value fields of RENEW and RELEASE (R165, R166). -/
def Selector.bytes : Selector → List Byte
  | .slot n => [0, byteOf n]
  | .tag t => [1, t]

/-- The value is in the range its selector allows (R50). -/
def Selector.InRange (slots : Nat) : Selector → Prop
  | .slot n => 1 ≤ n ∧ n < slots ∧ n < 64
  | .tag t => t ≠ 0

/-- An entry after a renewal of lease `l` was set pending on it (R50). -/
def Entry.renewed (e : Entry) (l : Half) : Entry :=
  match e.holding? with
  | some h => e.withHolding { h with renewal := some l }
  | none => e

/-- The Staged entry `e` at position `n` qualifies for port `p` (R50). -/
def Selector.picks (sel : Selector) (p : Port) (n : Nat) (e : Entry) : Bool :=
  match sel with
  | .slot m => n == m && e.names p
  | .tag t => e.names p && e.tag == t

/-! ### Payloads in range (R70, R108, R124) -/

/-- A placement meets R70 with `slots` slots per frame. -/
def Placement.Fits (slots count : Nat) : Placement → Prop
  | .any | .run => True
  | .list l => l.length = count ∧ l.Nodup ∧ ∀ n ∈ l, 1 ≤ n ∧ n < slots

/-- A reservation meets every condition of R70 with `slots` slots per frame. -/
def Reservation.Fits (slots : Nat) (r : Reservation) : Prop :=
  r.tag ≠ 0 ∧ 1 ≤ r.count ∧ r.count ≤ 8 ∧ r.count < slots ∧ r.lease ≠ 0 ∧ r.wait ≤ 4095
    ∧ r.placement.Fits slots r.count

/-- The bytes of a reservation in a request (R165): the seven fixed bytes, then one byte for each listed slot. -/
def Reservation.payload (r : Reservation) : List Byte :=
  [r.tag, r.placement.code, byteOf r.count] ++ halfBytes r.lease ++ halfBytes (BitVec.ofNat 16 r.wait)
    ++ r.placement.slots.map byteOf

/-- A timed action meets check 2 of R108 with `slots` slots per frame. -/
def TimedAction.Fits (slots : Nat) : TimedAction → Prop
  | .release n => 1 ≤ n ∧ n < slots
  | .renew n l => 1 ≤ n ∧ n < slots ∧ l ≠ 0
  | .enqueue r => r.Fits slots

/-- The bytes of a SCHEDULE payload after the activation frame (R166). -/
def TimedAction.payload : TimedAction → List Byte
  | .release n => [0, byteOf n]
  | .renew n l => [1, byteOf n] ++ halfBytes l
  | .enqueue r => 2 :: r.payload

/-- The payload of a PROPOSE (R165, R166): the plan record with any plan number `n1 n0`, then the deadline. -/
def PlanTerms.payload (t : PlanTerms) (n1 n0 : Byte) (deadline : Nat) : List Byte :=
  termsBytes t ++ [n1, n0] ++ halfBytes (BitVec.ofNat 16 deadline)

/-! ### What the replies show (R167) -/

/-- The twelve bytes in which READ_SLOT shows an entry, state by state (R26, R167). -/
def Entry.shown : Entry → List Byte
  | .beacon => [0, 0, 0, 0, 0, 0, 0, 0, 0, 0, 0, 0]
  | .free => [1, 0, 0, 0, 0, 0, 0, 0, 0, 0, 0, 0]
  | .held p h => [2, portCode p, 0, 0, 0, 0, 0, 0] ++ halfBytes h.lease ++ [h.tag, portSetByte h.warned]
  | .shared ms dr h =>
    [3, 0, byteOf ms.length] ++ fillTo 4 0 (ms.map portCode) ++ [portCode dr] ++ halfBytes h.lease
      ++ [h.tag, portSetByte h.warned]
  | .cooling => [4, 0, 0, 0, 0, 0, 0, 0, 0, 0, 0, 0]

/-- The renewal that the Staged view adds: two bytes, 0 when none is pending (R167). -/
def Entry.shownRenewal : Entry → List Byte
  | .held _ h | .shared _ _ h => halfBytes (h.renewal.getD 0)
  | .beacon | .free | .cooling => [0, 0]

/-- The class of a notice kind by its bit in a class mask (R139, R165): GRANT 0, LEASE 1, OFFER 2, SHARE 3, EDIT 4,
PLAN 5, CLOCK 6. -/
def NoticeKind.classIndex : NoticeKind → Nat
  | .granted | .requestLapsed => 0
  | .leaseLow | .leaseEnded | .revoked => 1
  | .offerMade | .offerTaken | .offerRefused | .offerVoid | .offerLapsed => 2
  | .membersChanged => 3
  | .editDone | .editFailed => 4
  | .planOpen | .planAgreed | .planFailed | .planInForce => 5
  | .clockLost | .clockBack => 6

/-! ### What a frame end makes of an entry (R19, R48, R49, R58) -/

/-- The lease after the countdown of a frame end: a pending renewal, or one frame less (R48). -/
def Holding.nextLease (h : Holding) : Half :=
  match h.renewal with
  | some l => l
  | none => h.lease - 1

/-- The port is warned of a lease of `l` frames: it is ATTACHED and `l` is its warn threshold, which is not 0 (R49). -/
def State.warns (s : State) (q : Port) (l : Half) : Bool :=
  match (s.port q).attachment with
  | some x => x.warn != 0 && l == x.warn.setWidth 16
  | none => false

/-- The port is sent LEASE_LOW for the holding `h` that it is a party to (R49). -/
def State.warnsFor (s : State) (q : Port) (h : Holding) : Bool :=
  s.warns q h.nextLease && !(h.renewal == none && h.warned.get q)

/-- The holding after the countdown, when its lease has not run out, for the parties `ps` (R48, R49). -/
def State.countedHolding (s : State) (ps : List Port) (h : Holding) : Holding :=
  let warned (q : Port) : Bool := (h.renewal == none && h.warned.get q) || (ps.contains q && s.warns q h.nextLease)
  { h with
    lease := h.nextLease
    renewal := none
    warned := ⟨warned .a, warned .b, warned .c, warned .d⟩ }

/-- The entry at position `n` after a frame end that brings neither an edit, a plan nor a grant to it. -/
def State.entryAfterFrame (s : State) (n : Nat) : Entry :=
  if entryAt s.active n = .cooling then .free
  else
    match entryAt s.staged n with
    | .held p h => if h.nextLease = 0 then .cooling else .held p (s.countedHolding [p] h)
    | .shared ms dr h =>
      if h.nextLease = 0 then .cooling else .shared ms (memberAfter ms dr) (s.countedHolding ms h)
    | .beacon => .beacon
    | .free => .free
    | .cooling => .cooling

/-- The notices about slot `n` that a frame end sends to port `q` from commit step 2 (R48, R49). -/
def State.leaseNotices (s : State) (q : Port) (n : Nat) : List Notice :=
  match (entryAt s.staged n).holding? with
  | none => []
  | some h =>
    if !(entryAt s.staged n).names q then []
    else if h.nextLease = 0 then [⟨.leaseEnded, none, some h.tag, some n, none, none, none, s.nextFrame⟩]
    else if s.warnsFor q h then
      [⟨.leaseLow, none, some h.tag, some n, some h.nextLease.toNat, none, none, s.nextFrame⟩]
    else []

/-! ### The laws of the slot tables (R2, R6) -/

/-- An entry obeys R2: a SHARED entry has 2 to 4 distinct members with the driver among them, and a HELD or SHARED
entry has a lease of at least 1. -/
def Entry.Ok : Entry → Prop
  | .held _ h => h.lease ≠ 0
  | .shared ms dr h => 2 ≤ ms.length ∧ ms.length ≤ 4 ∧ ms.Nodup ∧ dr ∈ ms ∧ h.lease ≠ 0
  | .beacon | .free | .cooling => True

/-- A table obeys R2 and R6: entry 0, and it alone, is BEACON, and every entry obeys R2. -/
def Table.Ok (t : Table) : Prop :=
  entryAt t 0 = .beacon ∧ ∀ n, n < 64 → 1 ≤ n → entryAt t n ≠ .beacon ∧ (entryAt t n).Ok

/-! ### The laws of the queues (R66, R105, R137) -/

/-- A slot list in the ranges of R67: `count` distinct slots, none of them slot 0. -/
def Placement.Ok (count : Nat) : Placement → Prop
  | .any | .run => True
  | .list l => l.length = count ∧ l.Nodup ∧ ∀ n ∈ l, 1 ≤ n

/-- A reservation in the ranges of R67, apart from what depends on S. -/
def Reservation.Ok (r : Reservation) : Prop :=
  r.tag ≠ 0 ∧ 1 ≤ r.count ∧ r.count ≤ 8 ∧ r.lease ≠ 0 ∧ r.wait ≤ 4095 ∧ r.placement.Ok r.count

/-- A timed action in the ranges of R106. -/
def TimedAction.Ok : TimedAction → Prop
  | .release n => 1 ≤ n
  | .renew n l => 1 ≤ n ∧ l ≠ 0
  | .enqueue r => r.Ok

/-- The request queue (R66): at most 16 records, at most 6 for each port, distinct tags within a port. -/
def State.RequestsOk (s : State) : Prop :=
  s.requests.length ≤ 16 ∧ (∀ p, s.pendingCount p ≤ 6)
    ∧ s.requests.Pairwise (fun x y => x.port ≠ y.port ∨ x.res.tag ≠ y.res.tag)
    ∧ (∀ r ∈ s.requests, r.res.Ok) ∧ (∀ e ∈ s.edits, e.action.Ok)

/-- The timed edit list (R105, R109, R117): at most 24 entries, nearest first, each 1 to 1048576 frames ahead. -/
def State.EditsOk (s : State) : Prop :=
  s.edits.length ≤ 24
    ∧ s.edits.Pairwise (fun x y => s.distance x.activation ≤ s.distance y.activation)
    ∧ ∀ e ∈ s.edits, 1 ≤ s.distance e.activation ∧ s.distance e.activation ≤ 1048576

/-- The notice queues (R137, R146): at most 16 notices, and none and no LOST at a DETACHED port. -/
def State.NoticesOk (s : State) : Prop :=
  ∀ p, (s.port p).notices.length ≤ 16
    ∧ (s.attached p = false → (s.port p).notices = [] ∧ (s.port p).lost = false)

/-- The open offers carry distinct ids, none of them 0, and there are at most 8 (R87, R88). -/
def State.OfferIdsOk (s : State) : Prop :=
  s.offers.length ≤ 8 ∧ (s.offers.map Offer.id).Nodup ∧ (∀ o ∈ s.offers, o.id ≠ 0) ∧ s.offerCounter ≠ 0

/-- The timed edits carry distinct ids, none of them 0, and there are at most 24 (R105, R107). -/
def State.EditIdsOk (s : State) : Prop :=
  s.edits.length ≤ 24 ∧ (s.edits.map Edit.id).Nodup ∧ (∀ e ∈ s.edits, e.id ≠ 0) ∧ s.editCounter ≠ 0

/-! ### The laws of the plan and the Frame Generator (R28, R37, R120) -/

/-- A plan's terms in the ranges of R120. -/
def PlanTerms.Ok (t : PlanTerms) : Prop :=
  4 ≤ t.geometry.slots ∧ t.geometry.slots ≤ 64 ∧ ∀ p, t.quotas.get p ≤ 63

/-- A proposal state in the ranges of R123: its plan is in range, and the confirmed set is within the confirming set. -/
def ProposalState.Ok : ProposalState → Prop
  | .none => True
  | .opened pr d => pr.terms.Ok ∧ 1 ≤ d ∧ d ≤ 4095 ∧ ∀ p, pr.confirmed.get p = true → pr.confirming.get p = true
  | .agreed pr _ => pr.terms.Ok ∧ ∀ p, pr.confirmed.get p = true → pr.confirming.get p = true

/-- A frame state in the ranges of R37 under a geometry; the part stalls in EXTERNAL mode alone (R30). -/
def FrameState.Ok (g : Geometry) : FrameState → Prop
  | .running (.bit n) => n < g.frameBits
  | .running .leadInWait | .running .leadIn => True
  | .stalled _ abandoned => abandoned < 64 ∧ g.source = .external

/-- The Frame Generator and the Plan Unit: the geometry in use is that of the plan in use (R28), and every item is in
its range (R37, R120, R123). -/
def State.TimingOk (s : State) : Prop :=
  s.geometry = s.plan.terms.geometry ∧ s.plan.terms.Ok ∧ s.proposal.Ok ∧ s.frame.Ok s.geometry
    ∧ s.edgeTimer < 1024 ∧ s.recoveryCount ≤ 16 ∧ s.clockPhase < s.geometry.bitPeriod

/-- The beacon word is W bits long while slot 0 is under way, and none is held at any other time (R42, R44). -/
def State.BeaconOk (s : State) : Prop :=
  match s.frame with
  | .running (.bit n) =>
    if n < s.geometry.width.bits then s.beacon.length * 8 = s.geometry.width.bits else s.beacon = []
  | .running .leadInWait | .running .leadIn | .stalled _ _ => s.beacon = []

/-! ### The bookkeeping of a holding (R1, R4, R5) -/

/-- A HELD or SHARED entry has a tag of at least 1, and only its parties are in its warned set. -/
def Entry.Kept (e : Entry) : Prop :=
  ∀ h, e.holding? = some h → h.tag ≠ 0 ∧ ∀ p, h.warned.get p = true → p ∈ e.parties

/-- Every holding of both tables is kept, the Active table carries no renewal (R4), and what may still become a holding
has a tag. -/
def State.BookkeepingOk (s : State) : Prop :=
  (∀ n, n < 64 → (entryAt s.active n).Kept ∧ (entryAt s.staged n).Kept)
    ∧ (∀ n, n < 64 → ∀ h, (entryAt s.active n).holding? = some h → h.renewal = none)
    ∧ (∀ r ∈ s.requests, r.res.tag ≠ 0) ∧ (∀ e ∈ s.edits, e.action.Ok)

/-! ### The laws of the schedule (R2, R6, R14, R87) -/

/-- An open offer obeys R87 to R89 in a Staged table: its giver holds or shares the slot, its target does not, and a
SHARE finds room. -/
def Offer.Ok (t : Table) (o : Offer) : Prop :=
  o.slot < 64 ∧ 1 ≤ o.left ∧ o.giver ∈ (entryAt t o.slot).parties ∧ o.target ∉ (entryAt t o.slot).parties
    ∧ (o.kind = .share → (entryAt t o.slot).parties.length < 4)

/-- The offer table (R87): ascending by slot, no slot named twice, each offer in order. -/
def State.OffersOk (s : State) : Prop :=
  s.offers.Pairwise (fun x y => x.slot < y.slot) ∧ ∀ o ∈ s.offers, o.Ok s.staged

/-- No block names a DETACHED port (R14, R85, R102, R119). -/
def State.RosterOk (s : State) : Prop :=
  (∀ n, n < 64 → ∀ p, p ∈ (entryAt s.staged n).parties → s.attached p = true)
    ∧ (∀ r ∈ s.requests, s.attached r.port = true)
    ∧ (∀ o ∈ s.offers, s.attached o.giver = true ∧ s.attached o.target = true)
    ∧ (∀ e ∈ s.edits, s.attached e.issuer = true)

/-- The schedule as a whole: both tables obey R2, an entry COOLING in the Active table names no port in the Staged table
(R9, R19), the positions at and beyond S are FREE in both tables (R6), the offers are in order (R87), no block names a
DETACHED port (R14), and what may still edit the tables is in range. -/
def State.ScheduleOk (s : State) : Prop :=
  Table.Ok s.active ∧ Table.Ok s.staged
    ∧ (∀ n, n < 64 → entryAt s.active n = .cooling → (entryAt s.staged n).parties = [])
    ∧ (∀ n, s.slots ≤ n → n < 64 → entryAt s.active n = .free ∧ entryAt s.staged n = .free)
    ∧ s.OffersOk ∧ s.RosterOk
    ∧ (∀ r ∈ s.requests, r.res.lease ≠ 0) ∧ (∀ e ∈ s.edits, e.action.Ok)
    ∧ 4 ≤ s.slots ∧ s.proposal.Ok

end Sys2Proof.Machine
end

