-- ==== Sys2Proof/Certificates/Slice0/Obligations.lean ====
section
/-! DEFINITION. The statements about the part. Each says in its docstring which rule or section it formalises; what the
model adds to the manual is named there with its log entry. A statement that a command completes gives the whole next
state: a field that is not named as changed is unchanged. -/

open Sys2Proof Sys2Proof.Machine

/-! ### One step -/

/-- The command at the front of the queue runs on the state with the queue's rest. -/
def Obligations.StepRunsTheFrontCommand : Prop :=
  ∀ (c : Instr) (rest : List Instr) (s : State),
    step { s with pending := c :: rest } = exec c { s with pending := rest }

/-- The model's choice (log 6): with no command waiting, one REFCLK period passes. In EXTERNAL mode the edge timer
counts, and the clock is lost or the recovery starts again when it reaches 1024 (R37, R38). In INTERNAL mode a bit time
begins every 2(D+1) periods (R30). -/
def Obligations.IdleStepIsOneReferencePeriod : Prop :=
  ∀ s : State, s.pending = [] →
    (s.resetAsserted = true → step s = .next s)
    ∧ (s.resetAsserted = false → s.geometry.source = .external →
        (s.edgeTimer + 1 < 1024 → step s = .next { s with edgeTimer := s.edgeTimer + 1 })
        ∧ (1024 ≤ s.edgeTimer + 1 → ∀ pos, s.frame = .running pos → step s = exec .clockLoss s)
        ∧ (1024 ≤ s.edgeTimer + 1 → ∀ cause k, s.frame = .stalled cause k → step s = exec .stallGap s))
    ∧ (s.resetAsserted = false → s.geometry.source = .internal →
        (s.clockPhase + 1 < 2 * (s.geometry.divider.toNat + 1) →
          step s = .next { s with clockPhase := s.clockPhase + 1 })
        ∧ (2 * (s.geometry.divider.toNat + 1) ≤ s.clockPhase + 1 → step s = exec .bitTimeBegins s))

/-! ### The link (chapter 9) -/

/-- 9.1, 9.2, 9.3, 10.3 (R148, R151): a fall of CSn in IDLE captures one whole reply, led by the status byte and closed by
a checksum that makes the sum 0, and that is what SDO carries, 0x00 after it: each byte most significant bit first, the
first bit at the fall of CSn and the next at each fall of SCK. While RESETn is asserted the receiver stays IDLE; an IDLE
port leaves SDO at high impedance. A CSn that is low already does not fall (log 1). -/
def Obligations.CsFallCapturesOneWholeReply : Prop :=
  ∀ (s : State) (p : Port),
    (s.resetAsserted = false → (s.port p).selected = false →
      ∃ (status check : Byte) (sent : List Byte) (t : State),
        sent = status :: (s.port p).replyCode.code :: (s.port p).replySequence.setWidth 8
            :: byteOf (s.port p).replyBody.length :: ((s.port p).replyBody ++ [check])
        ∧ byteSum sent = 0
        ∧ status.getLsbD 7 = (s.port p).attachment.isSome
        ∧ status.getLsbD 6 = !(s.port p).notices.isEmpty
        ∧ status.getLsbD 5 = (s.port p).lost
        ∧ status.getLsbD 4 = !s.frame.isRunning
        ∧ status.extractLsb' 0 4 = (s.port p).replySequence
        ∧ exec (.csAsserted p) s = .next t
        ∧ t = s.setPort p { s.port p with selected := true, receiver := .receiving 0 [] sent }
        ∧ ∀ falls, t.sdo p falls = some ((sent.getD (falls / 8) 0).getMsbD (falls % 8)))
    ∧ (s.resetAsserted = true → (s.port p).selected = false →
      exec (.csAsserted p) s = .next (s.setPort p { s.port p with selected := true, receiver := .idle }))
    ∧ ((s.port p).selected = true → exec (.csAsserted p) s = .next s)
    ∧ ∀ falls, (s.port p).receiver = .idle → s.sdo p falls = none

/-- 9.1, 9.2, 9.3 (R148, R149): eight levels of SDI make one byte, the most significant bit first, while what SDO carries
stays as it was captured. Of the bytes received in one transaction the first 63 are stored, and the count stops at 255;
at an IDLE receiver SCK edges are ignored. A port with CSn high that is clocked the bytes of a request, bit by bit in that
order, can then take that request at the rise of its CSn; until then nothing but its own link has moved. -/
def Obligations.BytesMakeATransaction : Prop :=
  (∀ (s : State) (p : Port),
    (∀ (count : Nat) (stored sent : List Byte) (sdi : Vector Bool 8) (b : Byte),
      (s.port p).receiver = .receiving count stored sent → stored.length < 63 → count < 255 →
      (∀ (k : Nat) (h : k < 8), b.getMsbD k = sdi[k]) →
        exec (.byteReceived p sdi) s = .next
          (s.setPort p { s.port p with receiver := .receiving (count + 1) (stored ++ [b]) sent }))
    ∧ (∀ (b : Byte) (k : Nat) (h : k < 8), (levelsOf b)[k] = b.getMsbD k)
    ∧ (∀ (sent l : List Byte), (s.port p).receiver = .receiving 0 [] sent →
        runs (l.map (fun b => Instr.byteReceived p (levelsOf b))) s = .next
          (s.setPort p { s.port p with receiver := .receiving (min l.length 255) (l.take 63) sent }))
    ∧ ∀ sdi, (s.port p).receiver = .idle → exec (.byteReceived p sdi) s = .next s)
  ∧ (∀ (s : State) (p : Port) (r : RequestCode) (payload : List Byte),
    s.resetAsserted = false → (s.port p).selected = false → payload.length ≤ 60 →
    ∃ (t : State) (rec : Receiver),
      runs (.csAsserted p :: (requestBytes r.code payload).map (fun b => Instr.byteReceived p (levelsOf b))) s = .next t
      ∧ t = s.setPort p { s.port p with selected := true, receiver := rec }
      ∧ t.takes p r payload = true)

/-- 9.2, 10.2: the bytes of a request transaction are its code, its length, its payload and a checksum that makes their
sum 0 (R150); they pass all checks of R152, and name one request of R166 and one payload. -/
def Obligations.RequestBytesNameOneRequest : Prop :=
  (∀ (r : RequestCode) (payload : List Byte), payload.length ≤ 60 →
    (∃ check : Byte, requestBytes r.code payload = r.code :: byteOf payload.length :: (payload ++ [check]))
    ∧ byteSum (requestBytes r.code payload) = 0
    ∧ refusalOf (requestBytes r.code payload) false = none)
  ∧ (∀ (r r' : RequestCode) (l l' : List Byte), l.length ≤ 60 → l'.length ≤ 60 →
    requestBytes r.code l = requestBytes r'.code l' → r = r' ∧ l = l')
  ∧ ∀ bytes : List Byte, isChecked bytes = true → refusalOf bytes false = none →
      ∃ (r : RequestCode) (l : List Byte), l.length ≤ 60 ∧ bytes = requestBytes r.code l

/-- 9.1, 9.2, 9.7 (R149, R153, R164): a transaction without a complete byte and the read-only transaction NONE leave the
reply, its sequence and everything else but the link as they were. While RESETn is asserted, and for a transaction begun
or discarded under it, the rise of CSn has no effect but the end of the transaction. -/
def Obligations.EndsWithoutARequestLeaveTheReply : Prop :=
  (∀ (s : State) (p : Port),
    (s.canEnd p [] = true →
      exec (.transactionIgnored p) s = .next (s.setPort p { s.port p with selected := false, receiver := .idle }))
    ∧ ∀ rest : List Byte, s.canEnd p (0 :: rest) = true →
        exec (.noneTransaction p rest) s = .next (s.setPort p { s.port p with selected := false, receiver := .idle }))
  ∧ (∀ (c : Instr) (s : State) (p : Port), endsTransaction c = some p →
    s.resetAsserted = true ∨ (s.port p).discarding = true →
    exec c s = .next s ∨ exec c s = .next (s.setPort p { s.port p with selected := false, receiver := .idle }))

/-- R152: the three checks in their order, each with its reply; a transaction that passes them is one of the requests,
which is taken, and in every case the sequence advances by 1. -/
def Obligations.TransactionChecksInOrder : Prop :=
  ∀ (s : State) (p : Port) (b : Byte) (rest : List Byte) (cut : Bool),
    b ≠ 0 → s.canEnd p (b :: rest) = true →
    let bytes := b :: rest
    let framed := ∃ l more, rest = l :: more ∧ l.toNat ≤ 60 ∧ bytes.length = l.toNat + 3 ∧ cut = false
    (¬ framed → exec (.transactionRefused p bytes cut) s
        = .next (s.answered p .framing [byteOf (min bytes.length 255)]))
    ∧ (framed → byteSum bytes ≠ 0 →
        exec (.transactionRefused p bytes cut) s = .next (s.answered p .checksum []))
    ∧ (framed → byteSum bytes = 0 → (∀ r : RequestCode, r.code ≠ b) →
        exec (.transactionRefused p bytes cut) s = .next (s.answered p .unknown [b]))
    ∧ (framed → byteSum bytes = 0 → ∀ r : RequestCode, r.code = b →
        ∃ (c : Instr) (payload : List Byte),
          requestOf c = some (p, r, payload) ∧ bytes = requestBytes r.code payload ∧ s.takes p r payload = true
          ∧ ∃ t, exec c s = .next t ∧ (t.port p).replySequence = (s.port p).replySequence + 1)

/-- 9.3, 9.7, 1.3 (R154, R163, R12): a request that is taken is answered at once, with a body of at most 72 bytes and the
next sequence. A refusal leaves everything but the reply as it was, and its body is empty but for PAST and TOO_FAR. No
request moves the Active table, the plan in use or the Frame Generator's counts, nor another port's link or
attachment. -/
def Obligations.EveryTakenRequestIsAnswered : Prop :=
  ∀ (c : Instr) (s : State) (p : Port) (r : RequestCode) (payload : List Byte),
    requestOf c = some (p, r, payload) → s.takes p r payload = true →
    ∃ t, exec c s = .next t
      ∧ (t.port p).selected = false ∧ (t.port p).receiver = .idle
      ∧ (t.port p).replySequence = (s.port p).replySequence + 1
      ∧ (t.port p).replyBody.length ≤ 72
      ∧ (t.port p).replyCode ∉ [ReplyCode.reset, .framing, .checksum, .unknown]
      ∧ ((t.port p).replyCode ≠ .ok →
          t = s.answered p (t.port p).replyCode (t.port p).replyBody
          ∧ ((t.port p).replyBody = [] ∨ (t.port p).replyCode = .past ∨ (t.port p).replyCode = .tooFar))
      ∧ { t with
            staged := s.staged, requests := s.requests, offers := s.offers, offerCounter := s.offerCounter
            edits := s.edits, editCounter := s.editCounter, proposal := s.proposal, driveCut := s.driveCut
            ports := s.ports } = s
      ∧ ∀ q, q ≠ p →
          (t.port q).selected = (s.port q).selected ∧ (t.port q).receiver = (s.port q).receiver
          ∧ (t.port q).replyCode = (s.port q).replyCode ∧ (t.port q).replyBody = (s.port q).replyBody
          ∧ (t.port q).replySequence = (s.port q).replySequence
          ∧ (t.port q).attachment = (s.port q).attachment

/-- 9.4, 9.7, 9.8, 10.1, 10.2 (R156, R163, R165, R166): a DETACHED port is refused NOT_ATTACHED before any other check, for every request
but ATTACH, POLL, SNAPSHOT, READ_SLOT, READ_MAP and READ_PLAN, which it is served. An ATTACHED port's ATTACH is refused
ALREADY_ATTACHED. A payload whose length is not one that the request's layout gives is refused BAD_FIELD. -/
def Obligations.PortStateAndLengthAreCheckedFirst : Prop :=
  (∀ (c : Instr) (s : State) (p : Port) (r : RequestCode) (payload : List Byte),
    requestOf c = some (p, r, payload) → s.takes p r payload = true →
    ((s.port p).attachment = none → r ∉ [RequestCode.attach, .poll, .snapshot, .readSlot, .readMap, .readPlan] →
      exec c s = .next (s.answered p .notAttached []))
    ∧ ((s.port p).attachment = none → r ∈ [RequestCode.attach, .poll, .snapshot, .readSlot, .readMap, .readPlan] →
      ∃ t, exec c s = .next t ∧ ((t.port p).replyCode = .ok ∨ (t.port p).replyCode = .badField))
    ∧ ((s.port p).attachment ≠ none → r = .attach → exec c s = .next (s.answered p .alreadyAttached [])))
  ∧ (∀ (c : Instr) (s : State) (p : Port) (r : RequestCode) (payload : List Byte),
    requestOf c = some (p, r, payload) → s.takes p r payload = true → payload.length ∉ r.lengths →
    (r = .attach → (s.port p).attachment = none) →
    (r.needsAttached = true → (s.port p).attachment ≠ none) →
    exec c s = .next (s.answered p .badField []))

/-! ### Requests that only read -/

/-- R162: POLL counts the port's share of every table at one instant; the payload must be empty; a DETACHED port, in the
states that keep the laws of the schedule and the queues, reads 0 everywhere but in its quota. -/
def Obligations.PollReportsThePortsShare : Prop :=
  ∀ (s : State) (p : Port) (l : List Byte), s.takes p .poll l = true →
    let counts : List Nat :=
      [(s.ownSlots p).length, (s.requests.filter (fun (r : Record) => r.port == p)).length,
       (s.offers.filter (fun (o : Offer) => o.giver == p)).length, (s.offers.filter (fun (o : Offer) => o.target == p)).length,
       (s.edits.filter (fun (e : Edit) => e.issuer == p)).length, (s.port p).notices.length]
    (l = [] → exec (.poll p l) s
        = .next (s.answered p .ok (counts.map byteOf ++ [byteOf (s.plan.terms.quotas.get p)])))
    ∧ (l ≠ [] → exec (.poll p l) s = .next (s.answered p .badField []))
    ∧ (s.ScheduleOk → s.NoticesOk → (s.port p).attachment = none → counts = [0, 0, 0, 0, 0, 0])

/-- R45: SNAPSHOT answers the frame number, the frame state, the slot index, the generation and the plan number
together, to DETACHED and ATTACHED ports alike; a payload is refused BAD_FIELD; and the attach reply carries the same
five values. -/
def Obligations.SnapshotValuesAreTakenTogether : Prop :=
  ∀ (s : State) (p : Port) (l : List Byte),
    let place : Byte × Nat :=
      match s.frame with
      | .running (.bit n) => (0, n / s.geometry.width.bits)
      | .running .leadInWait | .running .leadIn => (0, 0)
      | .stalled .lost k => (1, k)
      | .stalled .switch k => (2, k)
    let values := wordBytes s.frameCounter ++ [place.1, byteOf place.2, s.generation] ++ halfBytes s.plan.number
    (s.takes p .snapshot l = true → l = [] → exec (.snapshot p l) s = .next (s.answered p .ok values))
    ∧ (s.takes p .snapshot l = true → l ≠ [] → exec (.snapshot p l) s = .next (s.answered p .badField []))
    ∧ ∀ w m t, l = [w, m] → m.getLsbD 7 = false → s.takes p .attach l = true → (s.port p).attachment = none →
        exec (.attach p l) s = .next t → (t.port p).replyBody.take 9 = values

/-- R26: READ_SLOT shows both views of one slot, with the renewal in the Staged view; slot 0 reads BEACON in both; a
number outside 0 to S-1, or another payload length, is refused BAD_FIELD. -/
def Obligations.ReadSlotShowsBothViews : Prop :=
  ∀ (s : State) (p : Port) (l : List Byte), s.plan.terms.Ok → s.takes p .readSlot l = true →
    (∀ n, l = [byteOf n] → n < s.plan.terms.geometry.slots →
      exec (.readSlot p l) s = .next
        (s.answered p .ok ([byteOf n, s.generation] ++ (entryAt s.active n).shown ++ (entryAt s.staged n).shown
          ++ (entryAt s.staged n).shownRenewal)))
    ∧ (Table.Ok s.active → Table.Ok s.staged → l = [0] →
      exec (.readSlot p l) s = .next (s.answered p .ok (0 :: s.generation :: List.replicate 26 0)))
    ∧ ((∀ n, n < s.plan.terms.geometry.slots → l ≠ [byteOf n]) →
      exec (.readSlot p l) s = .next (s.answered p .badField []))

/-- R27: READ_MAP gives one summary byte for each slot of the view asked for; a DETACHED port sees its own-slot flag
clear throughout the Staged view; a view other than ACTIVE (0) or STAGED (1) is refused BAD_FIELD. -/
def Obligations.ReadMapSummarisesAView : Prop :=
  ∀ (s : State) (p : Port) (l : List Byte), s.plan.terms.Ok → Table.Ok s.active → Table.Ok s.staged →
    s.takes p .readMap l = true →
    (∀ (v : Byte) (view : Table), (v = 0 ∧ view = s.active) ∨ (v = 1 ∧ view = s.staged) → l = [v] →
      ∃ summary : List Byte,
        exec (.readMap p l) s = .next
          (s.answered p .ok ([v, byteOf s.plan.terms.geometry.slots, s.generation] ++ summary))
        ∧ summary.length = s.plan.terms.geometry.slots
        ∧ ∀ n b, summary[n]? = some b →
            b.extractLsb' 0 3 = (entryAt view n).stateCode.extractLsb' 0 3
            ∧ b.extractLsb' 3 2 = (match (entryAt view n).drivenBy with
                | some .b => 1
                | some .c => 2
                | some .d => 3
                | some .a | none => 0)
            ∧ (b.extractLsb' 5 2).toNat = (if (entryAt view n).isShared then (entryAt view n).parties.length - 1 else 0)
            ∧ (b.getLsbD 7 = true ↔ p ∈ (entryAt view n).parties)
            ∧ (s.ScheduleOk → (s.port p).attachment = none → v = 1 → b.getLsbD 7 = false))
    ∧ (l ≠ [0] → l ≠ [1] → exec (.readMap p l) s = .next (s.answered p .badField []))

/-- R62, R82 and R116: HOLDINGS returns up to 16 of the port's Staged holdings in ascending slot order, READ_REQUESTS up to
4 of its own records in queue order, each with its position in the whole queue, and READ_EDITS up to 3 of its own timed
edits in list order, each with its position in the whole list and 0 for what its action does not carry; each from the
start that the payload names. -/
def Obligations.OwnListsArePaged : Prop :=
  (∀ (s : State) (p : Port) (l : List Byte), s.takes p .holdings l = true →
    ((s.port p).attachment = none → exec (.holdings p l) s = .next (s.answered p .notAttached []))
    ∧ ((s.port p).attachment ≠ none → ∀ start : Nat, start ≤ 62 → l = [byteOf start] →
        let page := ((s.ownSlots p).drop start).take 16
        let item (n : Nat) : List Byte :=
          match entryAt s.staged n with
          | .held _ h => [byteOf n, h.tag] ++ halfBytes h.lease
          | .shared ms _ h => [byteOf n ||| (byteOf ms.length - 1) <<< 6, h.tag] ++ halfBytes h.lease
          | .beacon | .free | .cooling => []
        exec (.holdings p l) s = .next
          (s.answered p .ok ([byteOf (s.ownSlots p).length, byteOf start, byteOf page.length] ++ page.flatMap item)))
    ∧ ((s.port p).attachment ≠ none → (∀ start : Nat, start ≤ 62 → l ≠ [byteOf start]) →
        exec (.holdings p l) s = .next (s.answered p .badField [])))
  ∧ (∀ (s : State) (p : Port) (l : List Byte), s.takes p .readRequests l = true →
    ((s.port p).attachment = none → exec (.readRequests p l) s = .next (s.answered p .notAttached []))
    ∧ ((s.port p).attachment ≠ none → ∀ start : Nat, start ≤ 5 → l = [byteOf start] →
        let own := (s.requests.zipIdx).filter (fun x => x.1.port == p)
        let page := (own.drop start).take 4
        let item (x : Record × Nat) : List Byte :=
          [byteOf (x.2 + 1), x.1.res.tag, x.1.res.placement.code, byteOf x.1.res.count] ++ halfBytes x.1.res.lease
            ++ halfBytes (BitVec.ofNat 16 x.1.res.wait)
            ++ (x.1.res.placement.slots.map byteOf ++ List.replicate 8 0).take 8
        exec (.readRequests p l) s = .next
          (s.answered p .ok ([byteOf own.length, byteOf start, byteOf page.length] ++ page.flatMap item)))
    ∧ ((s.port p).attachment ≠ none → (∀ start : Nat, start ≤ 5 → l ≠ [byteOf start]) →
        exec (.readRequests p l) s = .next (s.answered p .badField [])))
  ∧ (∀ (s : State) (p : Port) (l : List Byte), s.takes p .readEdits l = true →
    ((s.port p).attachment = none → exec (.readEdits p l) s = .next (s.answered p .notAttached []))
    ∧ ((s.port p).attachment ≠ none → ∀ start : Nat, start ≤ 23 → l = [byteOf start] →
        let own := (s.edits.zipIdx).filter (fun x => x.1.issuer == p)
        let page := (own.drop start).take 3
        let fields (a : TimedAction) : List Byte :=
          match a with
          | .release n => [0, byteOf n] ++ List.replicate 15 0
          | .renew n h => [1, byteOf n] ++ halfBytes h ++ List.replicate 13 0
          | .enqueue r =>
            [2, 0] ++ halfBytes r.lease ++ [r.tag, r.placement.code, byteOf r.count]
              ++ halfBytes (BitVec.ofNat 16 r.wait) ++ (r.placement.slots.map byteOf ++ List.replicate 8 0).take 8
        let item (x : Edit × Nat) : List Byte :=
          [x.1.id, byteOf (x.2 + 1)] ++ wordBytes x.1.activation ++ fields x.1.action
        exec (.readEdits p l) s = .next
          (s.answered p .ok ([byteOf own.length, byteOf start, byteOf page.length] ++ page.flatMap item)))
    ∧ ((s.port p).attachment ≠ none → (∀ start : Nat, start ≤ 23 → l ≠ [byteOf start]) →
        exec (.readEdits p l) s = .next (s.answered p .badField [])))

/-- R136: READ_PLAN answers the plan in use and the proposal as they stand, to DETACHED and ATTACHED ports alike: 18 zero
bytes for no proposal, and the deadline or the application frame at the end of an OPEN or a CONFIRMED one. -/
def Obligations.ReadPlanShowsPlanAndProposal : Prop :=
  ∀ (s : State) (p : Port) (l : List Byte), s.takes p .readPlan l = true →
    let flag (k : Nat) (on : Bool) : Nat := if on then 2 ^ k else 0
    let terms (t : PlanTerms) : List Byte :=
      [byteOf t.geometry.slots, byteOf t.geometry.width.bits,
       byteOf (flag 0 (t.geometry.source == .external) + flag 1 (t.geometry.form == .span)
         + flag 2 (t.geometry.polarity == .low)),
       t.geometry.divider, byteOf t.quotas.a, byteOf t.quotas.b, byteOf t.quotas.c, byteOf t.quotas.d]
    let ports (v : PortSet) : Byte := byteOf (flag 0 v.a + flag 1 v.b + flag 2 v.c + flag 3 v.d)
    let standing (pr : Proposal) : List Byte :=
      portCode pr.proposer :: (terms pr.terms ++ [0, 0, ports pr.confirming, ports pr.confirmed])
    let proposal : List Byte :=
      match s.proposal with
      | .none => List.replicate 18 0
      | .opened pr d => 1 :: (standing pr ++ [0, 0] ++ halfBytes (BitVec.ofNat 16 d))
      | .agreed pr f => 2 :: (standing pr ++ wordBytes f)
    ((∀ pr d, s.proposal = .opened pr d → d ≤ 4095) → l = [] →
      exec (.readPlan p l) s
        = .next (s.answered p .ok (terms s.plan.terms ++ halfBytes s.plan.number ++ proposal)))
    ∧ (l ≠ [] → exec (.readPlan p l) s = .next (s.answered p .badField []))

/-! ### Holding slots -/

/-- R50: RENEW sets the pending renewal of every entry that qualifies and touches nothing else; with none it is refused
NOT_HOLDER, with a field out of range BAD_FIELD. -/
def Obligations.RenewSetsThePendingRenewal : Prop :=
  ∀ (s : State) (p : Port) (payload : List Byte), s.plan.terms.Ok → s.takes p .renew payload = true →
    ((s.port p).attachment = none → exec (.renew p payload) s = .next (s.answered p .notAttached []))
    ∧ ((s.port p).attachment ≠ none →
        (∀ (sel : Selector) (l : Half), sel.InRange s.plan.terms.geometry.slots → l ≠ 0 →
          payload = sel.bytes ++ halfBytes l →
          let picked := (List.range 64).filter (fun n => sel.picks p n (entryAt s.staged n))
          (picked = [] → exec (.renew p payload) s = .next (s.answered p .notHolder []))
          ∧ ∀ lowest rest, picked = lowest :: rest →
              ∃ t, exec (.renew p payload) s = .next t
                ∧ { t with staged := s.staged, ports := s.ports } = s
                ∧ t.ports = s.ports.set p ((s.port p).answered .ok [byteOf picked.length, byteOf lowest])
                ∧ ∀ n, n < 64 → entryAt t.staged n =
                    if n ∈ picked then (entryAt s.staged n).renewed l else entryAt s.staged n)
        ∧ ((∀ (sel : Selector) (l : Half), sel.InRange s.plan.terms.geometry.slots → l ≠ 0 →
              payload ≠ sel.bytes ++ halfBytes l) →
            exec (.renew p payload) s = .next (s.answered p .badField [])))

/-- 3.4, 3.6, 5.6 (R53, R54, R56, R61, R100): RELEASE gives up every entry that qualifies, in ascending slot order. The
other ports are told of each slot in turn: MEMBERS_CHANGED to those that remain, then OFFER_VOID (RELEASED) to the target
of an offer the port had made on it. -/
def Obligations.ReleaseGivesTheSlotsUp : Prop :=
  ∀ (s : State) (p : Port) (payload : List Byte),
    s.ScheduleOk → s.OfferIdsOk → s.plan.terms.Ok → (s.port p).attachment ≠ none →
    s.takes p .release payload = true →
    (∀ sel : Selector, sel.InRange s.plan.terms.geometry.slots → payload = sel.bytes →
      let picked := (List.range 64).filter (fun n => sel.picks p n (entryAt s.staged n))
      let cooled := picked.filter (fun n => ((entryAt s.staged n).without p).isCooling)
      let told (q : Port) : List Notice := picked.flatMap fun n =>
        let e := entryAt s.staged n
        (if q ∈ (e.without p).parties then
          [⟨.membersChanged, none, some e.tag, some n, some ((e.without p).parties.length), some p, none,
            s.nextFrame⟩] else [])
        ++ (s.offers.filter (fun o => o.slot == n && o.giver == p && o.target == q)).map (fun o =>
            (⟨.offerVoid, some .released, some e.tag, some n, none, some p, some o.id, s.nextFrame⟩ : Notice))
      (picked = [] → exec (.release p payload) s = .next (s.answered p .notHolder []))
      ∧ ∀ lowest rest, picked = lowest :: rest →
          ∃ t, exec (.release p payload) s = .next t
            ∧ { t with staged := s.staged, offers := s.offers, ports := s.ports } = s
            ∧ t.offers = s.offers.filter (fun o => !(o.giver == p && picked.contains o.slot))
            ∧ t.port p = (s.port p).answered .ok [byteOf picked.length, byteOf cooled.length, byteOf lowest]
            ∧ (∀ q, q ≠ p → t.port q = (s.port q).told (told q))
            ∧ ∀ n, n < 64 → entryAt t.staged n =
                if n ∈ picked then (entryAt s.staged n).without p else entryAt s.staged n)
    ∧ ((∀ sel : Selector, sel.InRange s.plan.terms.geometry.slots → payload ≠ sel.bytes) →
        exec (.release p payload) s = .next (s.answered p .badField []))

/-- R54 with the rotation mark of R3: what is left of an entry after a port has given it up. -/
def Obligations.LeavingKeepsOrderAndMark : Prop :=
  (∀ (p : Port) (h : Holding), (Entry.held p h).without p = .cooling)
  ∧ ∀ (pre post : List Port) (p mark : Port) (h : Holding),
      (pre ++ p :: post).Nodup → mark ∈ pre ++ p :: post → 2 ≤ (pre ++ p :: post).length →
      let e := (Entry.shared (pre ++ p :: post) mark h).without p
      let h' := { h with warned := h.warned.set p false }
      (∀ q, pre ++ post = [q] → e = .held q h')
      ∧ (2 ≤ (pre ++ post).length → mark ≠ p → e = .shared (pre ++ post) mark h')
      ∧ (2 ≤ (pre ++ post).length → mark = p →
          ∃ mark', e = .shared (pre ++ post) mark' h'
            ∧ (post ++ pre).getLast? = some mark'
            ∧ memberAfter (pre ++ post) mark' = (post ++ pre).headD p)
      ∧ (memberAfter (pre ++ p :: post) p = (post ++ pre).headD p)

/-! ### Reservation requests and the allocator -/

/-- R69, with the field check of R70 and the effect of R72: the checks of RESERVE in their order, and the record that
joins the tail of the queue when all of them pass. -/
def Obligations.ReserveChecksThenJoinsTheTail : Prop :=
  ∀ (s : State) (p : Port) (payload : List Byte), s.plan.terms.Ok → s.takes p .reserve payload = true →
    ((s.port p).attachment = none → exec (.reserve p payload) s = .next (s.answered p .notAttached []))
    ∧ ((s.port p).attachment ≠ none →
        (∀ r : Reservation, r.Fits s.plan.terms.geometry.slots → payload = r.payload →
          let mine := s.requests.filter (fun x => x.port == p)
          exec (.reserve p payload) s = .next
            (if ∃ x ∈ mine, x.res.tag = r.tag then s.answered p .tagInUse []
            else if s.plan.terms.quotas.get p < r.count then s.answered p .overQuota []
            else if 6 ≤ mine.length then s.answered p .portLimit []
            else if 16 ≤ s.requests.length then s.answered p .queueFull []
            else
              { s with requests := s.requests ++ [(⟨p, r⟩ : Record)] }.answered p .ok
                [byteOf (s.requests.length + 1), byteOf (mine.length + 1)]))
        ∧ ((∀ r : Reservation, r.Fits s.plan.terms.geometry.slots → payload ≠ r.payload) →
            exec (.reserve p payload) s = .next (s.answered p .badField [])))

/-- R70 and the reservation record of R165: for a plan of 4 to 64 slots a payload is read as a reservation exactly when it
is the bytes of that reservation and every condition of R70 holds. -/
def Obligations.ReservationReadsExactlyItsBytes : Prop :=
  ∀ (slots : Nat) (payload : List Byte) (r : Reservation), slots ≤ 64 →
    (readReservation slots payload = some r ↔ r.Fits slots ∧ payload = r.payload)

/-- R80: CANCEL removes the port's own record with the tag and answers its position and the wait it had left. -/
def Obligations.CancelRemovesTheOwnRecord : Prop :=
  ∀ (s : State) (p : Port) (payload : List Byte), s.takes p .cancel payload = true →
    ((s.port p).attachment = none → exec (.cancel p payload) s = .next (s.answered p .notAttached []))
    ∧ ((s.port p).attachment ≠ none →
        (∀ (tag : Byte) (ahead behind : List Record) (r : Reservation), tag ≠ 0 → payload = [tag] →
          s.requests = ahead ++ ⟨p, r⟩ :: behind → r.tag = tag →
          (∀ x ∈ ahead, x.port = p → x.res.tag ≠ tag) →
          exec (.cancel p payload) s = .next
            ({ s with requests := ahead ++ behind }.answered p .ok
              (byteOf (ahead.length + 1) :: halfBytes (BitVec.ofNat 16 r.wait))))
        ∧ (∀ tag : Byte, tag ≠ 0 → payload = [tag] → (∀ x ∈ s.requests, x.port = p → x.res.tag ≠ tag) →
            exec (.cancel p payload) s = .next (s.answered p .noRequest []))
        ∧ ((∀ tag : Byte, tag ≠ 0 → payload ≠ [tag]) →
            exec (.cancel p payload) s = .next (s.answered p .badField [])))

/-- R74 and R75 with the placements of R68: which slots are available to the allocator, and which of them a record
takes. -/
def Obligations.PlacementTakesTheLowestSlots : Prop :=
  ∀ (s : State) (r : Reservation), s.plan.terms.Ok →
    (∀ n, s.available n = true ↔
      entryAt s.staged n = .free ∧ 1 ≤ n ∧ n < s.plan.terms.geometry.slots
      ∧ ∀ pr f, s.proposal = .agreed pr f → n < pr.terms.geometry.slots)
    ∧ ∀ l : List Nat, s.findSlots r = some l ↔
        match r.placement with
        | .any =>
          l.length = r.count ∧ l.Pairwise (· < ·) ∧ (∀ n ∈ l, s.available n = true)
            ∧ ∀ m, s.available m = true → m ∉ l → ∀ n ∈ l, n < m
        | .run =>
          ∃ n, 1 ≤ n ∧ l = (List.range r.count).map (n + ·) ∧ (∀ k, k < r.count → s.available (n + k) = true)
            ∧ ∀ m, 1 ≤ m → m < n → ∃ k, k < r.count ∧ s.available (m + k) = false
        | .list listed => l = listed ∧ ∀ n ∈ listed, s.available n = true

/-- 4.3 (R73, R76, R77, R78): one visit of the allocator. The record is passed over when a test fails. Otherwise its slots
become HELD with the record's lease and tag, it leaves the queue, and GRANTED goes to its port. -/
def Obligations.VisitGrantsOrPassesOver : Prop :=
  ∀ (s : State) (r : Record), s.plan.terms.Ok →
    (s.findSlots r.res = none → s.visit r = s)
    ∧ ∀ l, s.findSlots r.res = some l →
        (s.plan.terms.quotas.get r.port < (s.ownSlots r.port).length + r.res.count → s.visit r = s)
        ∧ ((s.ownSlots r.port).length + r.res.count ≤ s.plan.terms.quotas.get r.port →
            { s.visit r with staged := s.staged, requests := s.requests, ports := s.ports } = s
            ∧ (s.visit r).requests = s.requests.erase r
            ∧ (∀ n, n < 64 → entryAt (s.visit r).staged n =
                if n ∈ l then .held r.port ⟨r.res.lease, r.res.tag, none, PerPort.all false⟩
                else entryAt s.staged n)
            ∧ (∀ lowest, lowest ∈ l → (∀ n ∈ l, lowest ≤ n) →
                (s.visit r).port r.port = (s.port r.port).told
                  [⟨.granted, none, some r.res.tag, some lowest, some l.length, none, none, s.nextFrame⟩])
            ∧ ∀ q, q ≠ r.port → (s.visit r).port q = s.port q)

/-- R79 for the walk of one commit, as the command WAIT_LAPSE makes it (log 4): every record with wait 0 leaves with
REQUEST_LAPSED (WAIT) in queue order, and the waits of the others fall by 1. Commit step 6 is that walk after one visit
of the allocator for each record, in queue order (R73). -/
def Obligations.WaitWalkLapsesAndCounts : Prop :=
  ∀ s : State, s.framesRun = true →
    let lapsed (x : Record) : Notice :=
      ⟨.requestLapsed, some .wait, some x.res.tag, none, some x.res.count, none, none, s.nextFrame⟩
    let told (q : Port) : PortState :=
      (s.port q).told ((s.requests.filter (fun x => x.port == q && x.res.wait == 0)).map lapsed)
    exec .waitLapse s = .next
      { s with
        requests := (s.requests.filter (fun x => x.res.wait != 0)).map
          (fun x => { x with res := { x.res with wait := x.res.wait - 1 } })
        ports := ⟨told .a, told .b, told .c, told .d⟩ }
    ∧ exec .waitLapse (s.requests.foldl State.visit s) = .next s.commitAllocator

/-! ### Offers -/

/-- R89 with the effect of R90: the checks of OFFER in their order, and the offer that joins the table, in ascending slot
order, when all of them pass; OFFER_MADE goes to the target. -/
def Obligations.OfferChecksThenJoinsTheTable : Prop :=
  ∀ (s : State) (p : Port) (payload : List Byte),
    s.plan.terms.Ok → s.offers.Pairwise (fun x y => x.slot < y.slot) → s.takes p .offer payload = true →
    ((s.port p).attachment = none → exec (.offer p payload) s = .next (s.answered p .notAttached []))
    ∧ ((s.port p).attachment ≠ none →
        (∀ (q : Port) (n : Nat) (k : OfferKind) (f : Nat),
          q ≠ p → 1 ≤ n → n < s.plan.terms.geometry.slots → 1 ≤ f → f ≤ 255 →
          payload = [portCode q, byteOf n, k.code, byteOf f] →
          let e := entryAt s.staged n
          let o : Offer := ⟨s.newOfferId, p, q, n, k, f⟩
          let made : Notice := ⟨.offerMade, some k.reason, some e.tag, some n, some f, some p, some o.id, s.nextFrame⟩
          exec (.offer p payload) s = .next
            (if p ∉ e.parties then s.answered p .notHolder []
            else if (s.port q).attachment = none then s.answered p .targetDetached []
            else if ∃ x ∈ s.offers, x.slot = n then s.answered p .slotOffered []
            else if q ∈ e.parties then s.answered p .alreadyMember []
            else if k = .share ∧ 4 ≤ e.parties.length then s.answered p .membersFull []
            else if 8 ≤ s.offers.length then s.answered p .tableFull []
            else
              { s with
                offers := s.offers.filter (fun x => x.slot < n) ++ o :: s.offers.filter (fun x => n < x.slot)
                offerCounter := if o.id = 255 then 1 else o.id + 1
                ports := (s.ports.set q ((s.port q).told [made])).set p ((s.port p).answered .ok [o.id]) }))
        ∧ ((∀ (q : Port) (n : Nat) (k : OfferKind) (f : Nat),
              q ≠ p → 1 ≤ n → n < s.plan.terms.geometry.slots → 1 ≤ f → f ≤ 255 →
              payload ≠ [portCode q, byteOf n, k.code, byteOf f]) →
            exec (.offer p payload) s = .next (s.answered p .badField [])))

/-- R91 with the effects of R92 and R93: the checks of ACCEPT in their order, a refusal for quota leaving the offer as it
was; and when all of them pass, the edit of the entry, the notices it sends, and the offer gone from the table. -/
def Obligations.AcceptMovesOrSharesTheSlot : Prop :=
  (∀ (s : State) (p : Port) (payload : List Byte), s.takes p .accept payload = true →
    ((s.port p).attachment = none → exec (.accept p payload) s = .next (s.answered p .notAttached []))
    ∧ ((s.port p).attachment ≠ none →
        (∀ i : Byte, i ≠ 0 → payload = [i] →
          ((∀ o ∈ s.offers, o.id = i → o.target ≠ p) →
            exec (.accept p payload) s = .next (s.answered p .noOffer []))
          ∧ (∀ o ∈ s.offers, o.id = i → o.target = p → (∀ x ∈ s.offers, x.id = i → x = o) →
              s.plan.terms.quotas.get p < (s.ownSlots p).length + 1 →
              exec (.accept p payload) s = .next (s.answered p .overQuota [])))
        ∧ ((∀ i : Byte, i ≠ 0 → payload ≠ [i]) → exec (.accept p payload) s = .next (s.answered p .badField []))))
  ∧ (∀ (s : State) (o : Offer), s.ScheduleOk → s.OfferIdsOk → o ∈ s.offers →
    s.takes o.target .accept [o.id] = true →
    (s.ownSlots o.target).length + 1 ≤ s.plan.terms.quotas.get o.target →
    ∃ (t : State) (e : Entry),
      (∀ h, entryAt s.staged o.slot = .held o.giver h → o.kind = .handover →
        e = .held o.target { h with warned := (h.warned.set o.giver false).set o.target false })
      ∧ (∀ h, entryAt s.staged o.slot = .held o.giver h → o.kind = .share →
        e = .shared [o.giver, o.target] o.giver { h with warned := h.warned.set o.target false })
      ∧ (∀ pre post mark h, entryAt s.staged o.slot = .shared (pre ++ o.giver :: post) mark h → o.kind = .handover →
        e = .shared (pre ++ o.target :: post) (if mark = o.giver then o.target else mark)
          { h with warned := (h.warned.set o.giver false).set o.target false })
      ∧ (∀ ms mark h, entryAt s.staged o.slot = .shared ms mark h → o.kind = .share →
        e = .shared (ms ++ [o.target]) mark { h with warned := h.warned.set o.target false })
      ∧ exec (.accept o.target [o.id]) s = .next t
      ∧ { t with staged := s.staged, offers := s.offers, ports := s.ports } = s
      ∧ t.offers = s.offers.filter (fun x => x.id != o.id)
      ∧ (∀ n, n < 64 → entryAt t.staged n = if n = o.slot then e else entryAt s.staged n)
      ∧ t.port o.target =
          (s.port o.target).answered .ok [byteOf o.slot, o.kind.code, e.tag, byteOf e.parties.length]
      ∧ t.port o.giver = (s.port o.giver).told
          [⟨.offerTaken, some o.kind.reason, some e.tag, some o.slot, some e.parties.length, some o.target, some o.id,
            s.nextFrame⟩]
      ∧ ∀ q, q ≠ o.target → q ≠ o.giver → t.port q = (s.port q).told
          (if q ∈ e.parties then
            [⟨.membersChanged, none, some e.tag, some o.slot, some e.parties.length, some o.target, none,
              s.nextFrame⟩] else []))

/-- R95 and R96: DECLINE by the target and WITHDRAW by the giver remove the offer and tell the other party; any other
port is refused NO_OFFER, an id of 0 or another payload length BAD_FIELD. -/
def Obligations.DeclineAndWithdrawRemoveTheOffer : Prop :=
  ∀ (s : State) (p : Port) (payload : List Byte), s.OfferIdsOk →
    let told (o : Offer) (k : NoticeKind) (why : Reason) : Notice :=
      ⟨k, some why, some (entryAt s.staged o.slot).tag, some o.slot, none, some p, some o.id, s.nextFrame⟩
    (s.takes p .decline payload = true →
      ((s.port p).attachment = none → exec (.decline p payload) s = .next (s.answered p .notAttached []))
      ∧ ((s.port p).attachment ≠ none →
        (∀ o ∈ s.offers, payload = [o.id] → o.target = p → o.giver ≠ p →
          exec (.decline p payload) s = .next
            { s with
              offers := s.offers.filter (fun x => x.id != o.id)
              ports := (s.ports.set o.giver ((s.port o.giver).told [told o .offerRefused .declined])).set p
                ((s.port p).answered .ok []) })
        ∧ (∀ i : Byte, i ≠ 0 → payload = [i] → (∀ o ∈ s.offers, o.id = i → o.target ≠ p) →
            exec (.decline p payload) s = .next (s.answered p .noOffer []))
        ∧ ((∀ i : Byte, i ≠ 0 → payload ≠ [i]) → exec (.decline p payload) s = .next (s.answered p .badField []))))
    ∧ (s.takes p .withdraw payload = true →
      ((s.port p).attachment = none → exec (.withdraw p payload) s = .next (s.answered p .notAttached []))
      ∧ ((s.port p).attachment ≠ none →
        (∀ o ∈ s.offers, payload = [o.id] → o.giver = p → o.target ≠ p →
          exec (.withdraw p payload) s = .next
            { s with
              offers := s.offers.filter (fun x => x.id != o.id)
              ports := (s.ports.set o.target ((s.port o.target).told [told o .offerVoid .withdrawn])).set p
                ((s.port p).answered .ok []) })
        ∧ (∀ i : Byte, i ≠ 0 → payload = [i] → (∀ o ∈ s.offers, o.id = i → o.giver ≠ p) →
            exec (.withdraw p payload) s = .next (s.answered p .noOffer []))
        ∧ ((∀ i : Byte, i ≠ 0 → payload ≠ [i]) → exec (.withdraw p payload) s = .next (s.answered p .badField []))))

/-- R88 and R107: a new id is the first value from the counter on, 255 followed by 1 and never 0, that no open offer (no
timed edit) carries; at most 8 (at most 24) values are passed over. -/
def Obligations.NewIdsAreTheFirstFree : Prop :=
  ∀ s : State,
    let after (i : Byte) : Byte := if i = 255 then 1 else i + 1
    (s.OfferIdsOk → ∃ k, k ≤ 8 ∧ s.newOfferId = after^[k] s.offerCounter ∧ s.newOfferId ≠ 0
      ∧ (∀ o ∈ s.offers, o.id ≠ s.newOfferId)
      ∧ ∀ j, j < k → ∃ o ∈ s.offers, o.id = after^[j] s.offerCounter)
    ∧ (s.EditIdsOk → ∃ k, k ≤ 24 ∧ s.newEditId = after^[k] s.editCounter ∧ s.newEditId ≠ 0
      ∧ (∀ e ∈ s.edits, e.id ≠ s.newEditId)
      ∧ ∀ j, j < k → ∃ e ∈ s.edits, e.id = after^[j] s.editCounter)

/-- 5.4 and 7.5 (R97, R129) for one offer and for the proposal, as the commands OFFER_LAPSE and PROPOSAL_LAPSE make it (log 4): the
offer that this frame end brings to 0 is removed, and OFFER_LAPSED goes to both parties with the kind as reason; the OPEN
proposal whose deadline it brings to 0 is removed, and PLAN_FAILED (LAPSED) goes to every member of the confirming
set. -/
def Obligations.LapsesTellTheirParties : Prop :=
  (∀ (s : State) (o : Offer), s.OfferIdsOk → s.framesRun = true → o ∈ s.offers → o.left ≤ 1 → o.giver ≠ o.target →
    let told (other : Port) : List Notice :=
      [⟨.offerLapsed, some o.kind.reason, some (entryAt s.staged o.slot).tag, some o.slot, none, some other, some o.id,
        s.nextFrame⟩]
    exec (.offerLapse o.id) s = .next
      { s with
        offers := s.offers.filter (fun x => x.id != o.id)
        ports := (s.ports.set o.giver ((s.port o.giver).told (told o.target))).set o.target
          ((s.port o.target).told (told o.giver)) })
  ∧ (∀ (s : State) (pr : Proposal) (d : Nat), s.framesRun = true → s.proposal = .opened pr d → d ≤ 1 →
    let told (q : Port) : PortState :=
      if pr.confirming.get q = true then
        (s.port q).told [⟨.planFailed, some .lapsed, none, none, none, some pr.proposer, none, s.nextFrame⟩]
      else s.port q
    exec .proposalLapse s = .next
      { s with proposal := .none, ports := ⟨told .a, told .b, told .c, told .d⟩ })

/-! ### Timed edits -/

/-- R108 with R109 and R110: the checks of SCHEDULE in their order, with the frame counter in the body of PAST and
TOO_FAR, and the entry that joins behind every entry as near or nearer when all of them pass. -/
def Obligations.ScheduleChecksThenJoinsTheList : Prop :=
  ∀ (s : State) (p : Port) (payload : List Byte), s.plan.terms.Ok → s.EditsOk → s.takes p .schedule payload = true →
    ((s.port p).attachment = none → exec (.schedule p payload) s = .next (s.answered p .notAttached []))
    ∧ ((s.port p).attachment ≠ none →
        (∀ (f : Word) (act : TimedAction), act.Fits s.plan.terms.geometry.slots → payload = wordBytes f ++ act.payload →
          let ahead := (f - s.frameCounter).toNat
          let e : Edit := ⟨s.newEditId, p, f, act⟩
          let nearer := s.edits.filter (fun x => (x.activation - s.frameCounter).toNat ≤ ahead)
          let farther := s.edits.filter (fun x => ahead < (x.activation - s.frameCounter).toNat)
          exec (.schedule p payload) s = .next
            (if ahead = 0 then s.answered p .past (wordBytes s.frameCounter)
            else if 1048576 < ahead then s.answered p .tooFar (wordBytes s.frameCounter)
            else if 24 ≤ s.edits.length then s.answered p .listFull []
            else
              { s with
                edits := nearer ++ e :: farther
                editCounter := if e.id = 255 then 1 else e.id + 1 }.answered p .ok
                [e.id, byteOf (nearer.length + 1), byteOf ((s.edits.filter (fun (x : Edit) => x.issuer == p)).length + 1)]))
        ∧ ((∀ (f : Word) (act : TimedAction), act.Fits s.plan.terms.geometry.slots →
              payload ≠ wordBytes f ++ act.payload) →
            exec (.schedule p payload) s = .next (s.answered p .badField [])))

/-- R115: UNSCHEDULE removes the port's own entry with the id and answers its activation frame and its action. -/
def Obligations.UnscheduleRemovesTheOwnEdit : Prop :=
  ∀ (s : State) (p : Port) (payload : List Byte), s.takes p .unschedule payload = true →
    ((s.port p).attachment = none → exec (.unschedule p payload) s = .next (s.answered p .notAttached []))
    ∧ ((s.port p).attachment ≠ none →
        (∀ (ahead behind : List Edit) (e : Edit), e.id ≠ 0 → payload = [e.id] → e.issuer = p →
          s.edits = ahead ++ e :: behind → (∀ x ∈ ahead, x.issuer = p → x.id ≠ e.id) →
          exec (.unschedule p payload) s = .next
            ({ s with edits := ahead ++ behind }.answered p .ok (wordBytes e.activation ++
              [match e.action with
                | .release _ => (0 : Byte)
                | .renew _ _ => 1
                | .enqueue _ => 2])))
        ∧ (∀ i : Byte, i ≠ 0 → payload = [i] → (∀ x ∈ s.edits, x.issuer = p → x.id ≠ i) →
            exec (.unschedule p payload) s = .next (s.answered p .noEdit []))
        ∧ ((∀ i : Byte, i ≠ 0 → payload ≠ [i]) →
            exec (.unschedule p payload) s = .next (s.answered p .badField [])))

/-- R112 and R113 with the notices of R111, as the commands TIMED_RELEASE and TIMED_RENEW make it (log 4): the due entry at
the head of the list leaves it and gives the slot up as a RELEASE by SLOT of its issuer would, or sets the lease at once
and empties the warned set; or it fails with NOT_HOLDER. -/
def Obligations.TimedReleaseAndRenewActOnTheSlot : Prop :=
  (∀ (s : State) (e : Edit) (rest : List Edit) (n : Nat), s.ScheduleOk → s.OfferIdsOk → s.framesRun = true →
    s.edits = e :: rest → e.action = .release n → e.activation = s.frameCounter + 1 →
    let x := entryAt s.staged n
    (e.issuer ∉ x.parties →
      exec .timedRelease s = .next
        { s with
          edits := rest
          ports := s.ports.set e.issuer ((s.port e.issuer).told
            [⟨.editFailed, some .notHolder, none, some n, none, none, some e.id, s.nextFrame⟩]) })
    ∧ (e.issuer ∈ x.parties →
      ∃ t, exec .timedRelease s = .next t
        ∧ { t with edits := s.edits, staged := s.staged, offers := s.offers, ports := s.ports } = s
        ∧ t.edits = rest
        ∧ t.offers = s.offers.filter (fun o => !(o.giver == e.issuer && o.slot == n))
        ∧ (∀ m, m < 64 → entryAt t.staged m = if m = n then x.without e.issuer else entryAt s.staged m)
        ∧ t.port e.issuer = (s.port e.issuer).told
            [⟨.editDone, some .releaseAction, some x.tag, some n, none, none, some e.id, s.nextFrame⟩]
        ∧ ∀ q, q ≠ e.issuer → t.port q = (s.port q).told
            ((if q ∈ (x.without e.issuer).parties then
              [⟨.membersChanged, none, some x.tag, some n, some ((x.without e.issuer).parties.length),
                some e.issuer, none, s.nextFrame⟩] else [])
            ++ (s.offers.filter (fun o => o.slot == n && o.giver == e.issuer && o.target == q)).map (fun o =>
              (⟨.offerVoid, some .released, some x.tag, some n, none, some e.issuer, some o.id, s.nextFrame⟩ : Notice)))))
  ∧ (∀ (s : State) (e : Edit) (rest : List Edit) (n : Nat) (l : Half), s.framesRun = true →
    s.edits = e :: rest → e.action = .renew n l → e.activation = s.frameCounter + 1 → n < 64 →
    let x := entryAt s.staged n
    (e.issuer ∉ x.parties →
      exec .timedRenew s = .next
        { s with
          edits := rest
          ports := s.ports.set e.issuer ((s.port e.issuer).told
            [⟨.editFailed, some .notHolder, none, some n, none, none, some e.id, s.nextFrame⟩]) })
    ∧ (e.issuer ∈ x.parties →
      ∃ t, exec .timedRenew s = .next t
        ∧ { t with edits := s.edits, staged := s.staged, ports := s.ports } = s
        ∧ t.edits = rest
        ∧ (∀ m, m < 64 → m ≠ n → entryAt t.staged m = entryAt s.staged m)
        ∧ (∀ q h, x = .held q h → entryAt t.staged n = .held q ⟨l, h.tag, h.renewal, PerPort.all false⟩)
        ∧ (∀ ms mark h, x = .shared ms mark h →
            entryAt t.staged n = .shared ms mark ⟨l, h.tag, h.renewal, PerPort.all false⟩)
        ∧ t.ports = s.ports.set e.issuer ((s.port e.issuer).told
            [⟨.editDone, some .renewAction, some x.tag, some n, none, none, some e.id, s.nextFrame⟩])))

/-- R114 with the notices of R111, as the command TIMED_ENQUEUE makes it (log 4): the three checks in their order, and the
record that joins the tail of the request queue for the issuer when all of them pass. Commit step 4 is the three commands
TIMED_RELEASE, TIMED_RENEW and TIMED_ENQUEUE, one for each due entry at the head of the list, in list order (R111). -/
def Obligations.TimedEnqueueChecksThenJoinsTheTail : Prop :=
  (∀ (s : State) (e : Edit) (rest : List Edit) (r : Reservation), s.framesRun = true →
    s.edits = e :: rest → e.action = .enqueue r → e.activation = s.frameCounter + 1 →
    let mine := s.requests.filter (fun x => x.port == e.issuer)
    let told (k : NoticeKind) (why : Reason) : PerPort PortState :=
      s.ports.set e.issuer ((s.port e.issuer).told
        [⟨k, some why, some r.tag, none, some r.count, none, some e.id, s.nextFrame⟩])
    exec .timedEnqueue s = .next
      (if ∃ x ∈ mine, x.res.tag = r.tag then { s with edits := rest, ports := told .editFailed .tagInUse }
      else if 6 ≤ mine.length then { s with edits := rest, ports := told .editFailed .portLimit }
      else if 16 ≤ s.requests.length then { s with edits := rest, ports := told .editFailed .queueFull }
      else
        { s with
          edits := rest
          requests := s.requests ++ [⟨e.issuer, r⟩]
          ports := told .editDone .enqueueAction }))
  ∧ (∀ s : State, s.framesRun = true →
    let command (e : Edit) : Instr :=
      match e.action with
      | .release _ => .timedRelease
      | .renew _ _ => .timedRenew
      | .enqueue _ => .timedEnqueue
    runs ((s.edits.takeWhile (fun e => e.activation == s.frameCounter + 1)).map command) s = .next s.commitEdits)

/-! ### The plan -/

/-- R124: the checks of PROPOSE in their order. A proposer that is attached alone has its plan CONFIRMED at once, with
PLAN_AGREED to itself; otherwise the proposal is OPEN and PLAN_OPEN goes to every other attached port. -/
def Obligations.ProposeOpensOrConfirms : Prop :=
  ∀ (s : State) (p : Port) (payload : List Byte), s.takes p .propose payload = true →
    ((s.port p).attachment = none → exec (.propose p payload) s = .next (s.answered p .notAttached []))
    ∧ ((s.port p).attachment ≠ none →
        (∀ (terms : PlanTerms) (n1 n0 : Byte) (d : Nat), terms.Ok → 1 ≤ d → d ≤ 4095 →
          payload = terms.payload n1 n0 d →
          let all : PortSet := ⟨(s.port .a).attachment.isSome, (s.port .b).attachment.isSome,
            (s.port .c).attachment.isSome, (s.port .d).attachment.isSome⟩
          let others := portList.filter (fun q => q != p && all.get q)
          let pr : Proposal := ⟨p, terms, all, PerPort.single p⟩
          (s.proposal ≠ .none → exec (.propose p payload) s = .next (s.answered p .proposalOpen []))
          ∧ (s.proposal = .none → others = [] →
              exec (.propose p payload) s = .next
                ({ s with
                    proposal := .agreed pr (s.frameCounter + 1)
                    ports := s.ports.set p ((s.port p).told
                      [⟨.planAgreed, none, none, none, none, some p, none, s.nextFrame⟩]) }.answered p .ok [2, 1]))
          ∧ (s.proposal = .none → others ≠ [] →
              let told (q : Port) : PortState :=
                if q = p then s.port q
                else (s.port q).told [⟨.planOpen, none, none, none, some d, some p, none, s.nextFrame⟩]
              exec (.propose p payload) s = .next
                ({ s with
                    proposal := .opened pr d
                    ports := ⟨told .a, told .b, told .c, told .d⟩ }.answered p .ok [1, byteOf (others.length + 1)])))
        ∧ ((∀ (terms : PlanTerms) (n1 n0 : Byte) (d : Nat), terms.Ok → 1 ≤ d → d ≤ 4095 →
              payload ≠ terms.payload n1 n0 d) →
            exec (.propose p payload) s = .next (s.answered p .badField [])))

/-- R126: the checks of CONFIRM in their order, and the confirmation: recorded, or final with the application frame one
ahead and PLAN_AGREED to every ATTACHED port. A member that has confirmed already changes nothing. -/
def Obligations.ConfirmRecordsOrCompletes : Prop :=
  ∀ (s : State) (p : Port) (payload : List Byte), s.takes p .confirm payload = true →
    ((s.port p).attachment = none → exec (.confirm p payload) s = .next (s.answered p .notAttached []))
    ∧ ((s.port p).attachment ≠ none → payload ≠ [] → exec (.confirm p payload) s = .next (s.answered p .badField []))
    ∧ ((s.port p).attachment ≠ none → payload = [] →
        ((∀ pr d, s.proposal ≠ .opened pr d) → exec (.confirm p payload) s = .next (s.answered p .noProposal []))
        ∧ ∀ pr d, s.proposal = .opened pr d →
            let pr' := { pr with confirmed := pr.confirmed.set p true }
            let waiting (x : Proposal) := portList.filter (fun q => x.confirming.get q && !x.confirmed.get q)
            let told (q : Port) : PortState :=
              (s.port q).told [⟨.planAgreed, none, none, none, none, some pr.proposer, none, s.nextFrame⟩]
            (pr.confirming.get p = false → exec (.confirm p payload) s = .next (s.answered p .notConfirmer []))
            ∧ (pr.confirming.get p = true → pr.confirmed.get p = true →
                exec (.confirm p payload) s = .next (s.answered p .ok [1, byteOf (waiting pr).length]))
            ∧ (pr.confirming.get p = true → pr.confirmed.get p = false → pr'.confirmed ≠ pr.confirming →
                exec (.confirm p payload) s = .next
                  ({ s with proposal := .opened pr' d }.answered p .ok [1, byteOf (waiting pr').length]))
            ∧ (pr.confirming.get p = true → pr.confirmed.get p = false → pr'.confirmed = pr.confirming →
                exec (.confirm p payload) s = .next
                  ({ s with
                      proposal := .agreed pr' (s.frameCounter + 1)
                      ports := ⟨told .a, told .b, told .c, told .d⟩ }.answered p .ok [2, 0])))

/-- R127: the checks of REJECT in the order of R126, and the failure: no proposal is left, and PLAN_FAILED (REJECTED)
goes to every member of the confirming set. -/
def Obligations.RejectFailsTheProposal : Prop :=
  ∀ (s : State) (p : Port) (payload : List Byte), s.takes p .reject payload = true →
    ((s.port p).attachment = none → exec (.reject p payload) s = .next (s.answered p .notAttached []))
    ∧ ((s.port p).attachment ≠ none → payload ≠ [] → exec (.reject p payload) s = .next (s.answered p .badField []))
    ∧ ((s.port p).attachment ≠ none → payload = [] →
        ((∀ pr d, s.proposal ≠ .opened pr d) → exec (.reject p payload) s = .next (s.answered p .noProposal []))
        ∧ ∀ pr d, s.proposal = .opened pr d →
            let told (q : Port) : PortState :=
              if pr.confirming.get q = true then
                (s.port q).told [⟨.planFailed, some .rejected, none, none, none, some p, none, s.nextFrame⟩]
              else s.port q
            (pr.confirming.get p = false → exec (.reject p payload) s = .next (s.answered p .notConfirmer []))
            ∧ (pr.confirming.get p = true → exec (.reject p payload) s = .next
                ({ s with
                    proposal := .none
                    ports := ⟨told .a, told .b, told .c, told .d⟩ }.answered p .ok [])))

/-- R131 with R83, R103, R118 and R133, as the command PLAN_APPLICATION makes it (log 4): the plan is replaced and numbered,
the slots from the new S on become FREE, in the Active table as well (R6), and with them go their offers and the requests
and timed edits that the new plan cannot meet; every port is told in the order of the five parts. The generation number
rises, and CHANGED is set with it, when an Active entry was not FREE there, and both keep their values otherwise: that the
command alone publishes these positions is the model's choice (log 4). The geometry is loaded at the same time (R132), and a first bit time begins
with its beacon word unless the part stalls (R29, R39). Commit step 5 is the same without the load of the geometry and with
the Active side as it was when a plan is due, and nothing when none is (R130). -/
def Obligations.PlanApplicationRevokesAndTells : Prop :=
  ∀ (s : State) (pr : Proposal), s.ScheduleOk → s.OfferIdsOk → s.framesRun = true →
    s.proposal = .agreed pr s.frameCounter →
    let old := s.plan.terms.geometry.slots
    let new := pr.terms.geometry.slots
    let gone (n : Nat) : Bool := new ≤ n && n < old
    let lost (r : Reservation) : Bool :=
      match r.placement with
      | .list l => l.any (fun n => new ≤ n)
      | .any | .run => new - 1 < r.count
    let missing (a : TimedAction) : Bool :=
      match a with
      | .release n | .renew n _ => new ≤ n
      | .enqueue r => lost r
    let failed (e : Edit) : Notice :=
      match e.action with
      | .release n | .renew n _ => ⟨.editFailed, some .plan, none, some n, none, none, some e.id, s.nextFrame⟩
      | .enqueue r => ⟨.editFailed, some .plan, some r.tag, none, some r.count, none, some e.id, s.nextFrame⟩
    let told (q : Port) : List Notice :=
      (if new < old then
        ((List.range 64).filter gone).flatMap (fun n =>
          (if q ∈ (entryAt s.staged n).parties then
            [⟨.revoked, some .plan, some (entryAt s.staged n).tag, some n, none, none, none, s.nextFrame⟩] else [])
          ++ (s.offers.filter (fun o => o.slot == n && o.target == q)).map (fun o =>
            (⟨.offerVoid, some .plan, some (entryAt s.staged n).tag, some n, none, some o.giver, some o.id,
              s.nextFrame⟩ : Notice)))
        ++ (s.requests.filter (fun x => x.port == q && lost x.res)).map (fun x =>
          (⟨.requestLapsed, some .plan, some x.res.tag, none, some x.res.count, none, none, s.nextFrame⟩ : Notice))
        ++ (s.edits.filter (fun e => e.issuer == q && missing e.action)).map failed
      else [])
      ++ [⟨.planInForce, none, none, none, some (pr.terms.quotas.get q), none, none, s.nextFrame⟩]
    ∃ t, exec .planApplication s = .next t
      ∧ t.plan = ⟨pr.terms, s.plan.number + 1⟩ ∧ t.proposal = .none ∧ t.geometry = pr.terms.geometry
      ∧ t.frame = (if s.geometry.source = .internal ∧ pr.terms.geometry.source = .external then .stalled .switch 0
          else .running (.bit 0))
      ∧ t.beacon = (if t.frame.isRunning then t.beaconWord else [])
      ∧ t.recoveryCount = (if t.frame.isRunning then s.recoveryCount else 0) ∧ t.edgeTimer = 0 ∧ t.clockPhase = 0
      ∧ (∀ n, n < 64 → entryAt t.staged n = if gone n then .free else entryAt s.staged n)
      ∧ (∀ n, n < 64 → entryAt t.active n = if new ≤ n then .free else entryAt s.active n)
      ∧ ((∃ n, n < 64 ∧ new ≤ n ∧ entryAt s.active n ≠ .free) → t.generation = s.generation + 1 ∧ t.changed = true)
      ∧ ((∀ n, n < 64 → new ≤ n → entryAt s.active n = .free) →
          t.generation = s.generation ∧ t.changed = s.changed)
      ∧ t.requests = (if new < old then s.requests.filter (fun x => !lost x.res) else s.requests)
      ∧ t.edits = (if new < old then s.edits.filter (fun e => !missing e.action) else s.edits)
      ∧ t.offers = s.offers.filter (fun o => !gone o.slot)
      ∧ (∀ q, t.port q = (s.port q).told (told q))
      ∧ { t with
            plan := s.plan, proposal := s.proposal, geometry := s.geometry, staged := s.staged
            active := s.active, generation := s.generation, changed := s.changed
            requests := s.requests, edits := s.edits, offers := s.offers, ports := s.ports
            frame := s.frame, recoveryCount := s.recoveryCount, edgeTimer := s.edgeTimer
            clockPhase := s.clockPhase, beacon := s.beacon } = s
      ∧ s.commitPlan =
          { t with
            active := s.active, generation := s.generation, changed := s.changed
            geometry := s.geometry, frame := s.frame, recoveryCount := s.recoveryCount, edgeTimer := s.edgeTimer
            clockPhase := s.clockPhase, beacon := s.beacon }
      ∧ ∀ u : State, (∀ x, u.proposal ≠ .agreed x u.frameCounter) → u.commitPlan = u

/-! ### Ports and notices -/

/-- R157: the checks of ATTACH in their order, and the port that becomes ATTACHED with the threshold and the mask given;
its attention line stays negated and its drive-cut mark is kept. The body is that of SNAPSHOT and the port's quota. -/
def Obligations.AttachTakesThresholdAndMask : Prop :=
  ∀ (s : State) (p : Port) (payload : List Byte), s.takes p .attach payload = true →
    ((s.port p).attachment ≠ none → exec (.attach p payload) s = .next (s.answered p .alreadyAttached []))
    ∧ ((s.port p).attachment = none →
        (∀ w m : Byte, payload = [w, m] → m.getLsbD 7 = false →
          ∃ t, exec (.attach p payload) s = .next t
            ∧ t = s.setPort p
                ({ s.port p with attachment := some ⟨w, m.extractLsb' 0 7⟩ }.answered .ok
                  (s.snapshotBytes ++ [byteOf (s.plan.terms.quotas.get p)]))
            ∧ (s.NoticesOk → t.attn p = false))
        ∧ ((∀ w m : Byte, m.getLsbD 7 = false → payload ≠ [w, m]) →
            exec (.attach p payload) s = .next (s.answered p .badField [])))

/-- 9.5 with 3.8, 4.6, 5.7, 6.5, 7.4 and 8.7 (R159, R160, R63, R85, R102, R119, R128, R146): a DETACH takes the port out of
every table at once and answers what it removed and what became of the proposal; the other ports find the notices in the
order of the five parts. -/
def Obligations.DetachLeavesEveryTable : Prop :=
  (∀ (s : State) (p : Port), s.ScheduleOk → s.OfferIdsOk → (s.port p).attachment ≠ none →
    s.takes p .detach [] = true →
    let cools := (s.ownSlots p).filter (fun n => ((entryAt s.staged n).without p).isCooling)
    ∃ (t : State) (effect : Byte), exec (.detach p []) s = .next t
      ∧ t.port p =
          { s.port p with attachment := none, notices := [], lost := false }.answered .ok
            [byteOf (s.ownSlots p).length, byteOf cools.length,
             byteOf (s.requests.filter (fun (r : Record) => r.port == p)).length,
             byteOf (s.edits.filter (fun (e : Edit) => e.issuer == p)).length,
             byteOf (s.offers.filter (fun (o : Offer) => o.giver == p)).length,
             byteOf (s.offers.filter (fun (o : Offer) => o.target == p)).length, effect]
      ∧ (∀ n, n < 64 → entryAt t.staged n =
          if p ∈ (entryAt s.staged n).parties then (entryAt s.staged n).without p else entryAt s.staged n)
      ∧ t.requests = s.requests.filter (fun r => r.port != p)
      ∧ t.edits = s.edits.filter (fun e => e.issuer != p)
      ∧ t.offers = s.offers.filter (fun o => o.giver != p && o.target != p)
      ∧ t.driveCut = s.driveCut.set p true
      ∧ { t with
            staged := s.staged, requests := s.requests, edits := s.edits, offers := s.offers
            driveCut := s.driveCut, proposal := s.proposal, ports := s.ports } = s)
  ∧ (∀ (s : State) (p : Port), s.ScheduleOk → s.OfferIdsOk → (s.port p).attachment ≠ none →
    s.takes p .detach [] = true →
    let leave (pr : Proposal) : Proposal :=
      { pr with confirming := pr.confirming.set p false, confirmed := pr.confirmed.set p false }
    let final : Proposal → Bool := fun pr => (leave pr).confirmed == (leave pr).confirming
    let outcome : ProposalState × Byte :=
      match s.proposal with
      | .none => (.none, 0)
      | .agreed pr f => (.agreed pr f, 0)
      | .opened pr d =>
        if pr.confirming.get p = false then (.opened pr d, 0)
        else if pr.proposer = p then (.none, 3)
        else if final pr then (.agreed (leave pr) (s.frameCounter + 1), 2)
        else (.opened (leave pr) d, 1)
    let proposalNotices (q : Port) : List Notice :=
      match s.proposal with
      | .none | .agreed _ _ => []
      | .opened pr _ =>
        if pr.confirming.get p = false then []
        else if pr.proposer = p then
          (if pr.confirming.get q = true then
            [⟨.planFailed, some .withdrawn, none, none, none, some p, none, s.nextFrame⟩] else [])
        else if final pr then [⟨.planAgreed, none, none, none, none, some pr.proposer, none, s.nextFrame⟩]
        else []
    ∃ t, exec (.detach p []) s = .next t
      ∧ t.proposal = outcome.1 ∧ (t.port p).replyBody.getLast? = some outcome.2
      ∧ ∀ q, q ≠ p → t.port q = (s.port q).told
          ((s.ownSlots p).flatMap (fun n =>
            (if q ∈ ((entryAt s.staged n).without p).parties then
              [⟨.membersChanged, none, some (entryAt s.staged n).tag, some n,
                some (((entryAt s.staged n).without p).parties.length), some p, none, s.nextFrame⟩] else [])
            ++ (s.offers.filter (fun o => o.slot == n && o.giver == p && o.target == q)).map (fun o =>
              (⟨.offerVoid, some .detached, some (entryAt s.staged n).tag, some n, none, some p, some o.id,
                s.nextFrame⟩ : Notice)))
          ++ (s.offers.filter (fun o => o.target == p && o.giver == q)).map (fun o =>
              (⟨.offerRefused, some .detached, some (entryAt s.staged o.slot).tag, some o.slot, none, some p, some o.id,
                s.nextFrame⟩ : Notice))
          ++ proposalNotices q))

/-- R140 and R141: a notice is produced for an ATTACHED port alone; it joins the tail of a queue with room; a full queue
keeps what it holds and sets LOST. -/
def Obligations.NoticesJoinTheTailUntilFull : Prop :=
  ∀ (s : State) (p : Port) (n : Notice) (x : PortState) (l : List Notice),
    s.notify p n = s.setPort p ((s.port p).told [n])
    ∧ (x.attachment = none → x.told l = x)
    ∧ (x.attachment ≠ none → x.notices.length ≤ 16 →
        x.told l =
          { x with
            notices := (x.notices ++ l).take 16
            lost := x.lost || decide (16 < (x.notices ++ l).length) })

/-- 8.4, 10.3, 10.4 (R142, R168): FETCH takes the first notices of the queue, as many as the smallest of max, the depth and
7, and reports and clears LOST. That bits 6 to 3 of the first byte of its body are 0 is the model's choice (log 20). -/
def Obligations.FetchTakesFromTheHead : Prop :=
  ∀ (s : State) (p : Port) (payload : List Byte), s.takes p .fetch payload = true →
    ((s.port p).attachment = none → exec (.fetch p payload) s = .next (s.answered p .notAttached []))
    ∧ ((s.port p).attachment ≠ none →
        (∀ max : Nat, 1 ≤ max → max ≤ 8 → payload = [byteOf max] → (s.port p).notices.length ≤ 16 →
          let n := min max (min (s.port p).notices.length 7)
          let record (x : Notice) : List Byte :=
            [x.kind.code, (x.reason.map Reason.code).getD 0, x.tag.getD 0, byteOf (x.slot.getD 0)]
              ++ halfBytes (BitVec.ofNat 16 (x.count.getD 0)) ++ [portCode? x.other, x.id.getD 0] ++ halfBytes x.frame
          exec (.fetch p payload) s = .next
            (s.setPort p
              ({ s.port p with notices := (s.port p).notices.drop n, lost := false }.answered .ok
                ([byteOf ((if (s.port p).lost then 128 else 0) + n), byteOf ((s.port p).notices.length - n)]
                  ++ ((s.port p).notices.take n).flatMap record))))
        ∧ ((∀ max : Nat, 1 ≤ max → max ≤ 8 → payload ≠ [byteOf max]) →
            exec (.fetch p payload) s = .next (s.answered p .badField [])))

/-- 8.5 (R144, R145): ATTENTION replaces the mask and answers it with the number of queued notices whose class it names. The
attention line is asserted exactly while the port is ATTACHED and its queue holds a notice whose class is in its mask; it
is negated in reset. -/
def Obligations.AttentionLineFollowsQueueAndMask : Prop :=
  (∀ (s : State) (p : Port) (payload : List Byte), s.takes p .attention payload = true →
    ((s.port p).attachment = none → exec (.attention p payload) s = .next (s.answered p .notAttached []))
    ∧ ∀ x, (s.port p).attachment = some x →
        (∀ m : BitVec 7, payload = [m.setWidth 8] →
          exec (.attention p payload) s = .next
            (s.setPort p
              ({ s.port p with attachment := some { x with mask := m } }.answered .ok
                [m.setWidth 8,
                 byteOf ((s.port p).notices.filter (fun (n : Notice) => m.getLsbD n.kind.classIndex)).length])))
        ∧ ((∀ m : BitVec 7, payload ≠ [m.setWidth 8]) →
            exec (.attention p payload) s = .next (s.answered p .badField [])))
  ∧ (∀ (s : State) (p : Port),
    (s.attn p = true ↔
      s.resetAsserted = false
        ∧ ∃ x, (s.port p).attachment = some x
          ∧ ∃ n ∈ (s.port p).notices, x.mask.getLsbD n.kind.classIndex = true))

/-! ### The frame end and its commit -/

/-- R21 with R17, R22, R25, R28, R32, R35, R39, R43, R97, R129 and R130: a frame end. It comes from any bit position (log 3).
The offer table and the open proposal are counted down first; then the seven commit steps act in their order, and the
tables, the generation, the queues, the lists, the plan and the proposal are as they leave them. The frame end publishes
the Staged table, advances the generation exactly when the schedule of some entry changed, keeps that as the CHANGED mark,
advances the frame counter by one, clears the drive-cut marks and loads the geometry of the plan in use. From INTERNAL to
EXTERNAL the part is then STALLED with cause SWITCH; otherwise the next frame's first bit time begins at the same instant,
with its beacon word. The timers start from 0 and a stalled part holds no beacon word (log 13); the recovery count keeps
its value while RUNNING (log 16). Every port's link and attachment and the id counters stay. An offer is in the table after it
exactly when it stood there before with one frame more, was not brought to 0, and its giver still holds or shares the slot.
An OPEN proposal has a deadline one less, or has lapsed at 0; a due plan is in use, and nothing else changes the plan.
OFFER_LAPSED, with the slot's tag from before the commit (log 17), and PLAN_FAILED (LAPSED) are among the notices each port
is sent, at a place the manual leaves open (log 7); where nothing lapses, the ports are as the commit steps leave them. -/
def Obligations.FrameEndPublishesTheStagedTable : Prop :=
  (∀ s : State, s.framesRun = true →
    ∃ t, exec .frameEnd s = .next t
      ∧ t.active = t.staged
      ∧ ((∃ n, n < 64 ∧ ((entryAt t.active n).stateCode ≠ (entryAt s.active n).stateCode
            ∨ (entryAt t.active n).parties ≠ (entryAt s.active n).parties)) →
          t.generation = s.generation + 1 ∧ t.changed = true)
      ∧ ((∀ n, n < 64 → (entryAt t.active n).stateCode = (entryAt s.active n).stateCode
            ∧ (entryAt t.active n).parties = (entryAt s.active n).parties) →
          t.generation = s.generation ∧ t.changed = false)
      ∧ t.frameCounter = s.frameCounter + 1
      ∧ (∀ p, t.driveCut.get p = false)
      ∧ t.geometry = t.plan.terms.geometry
      ∧ (s.geometry.source = .internal → t.plan.terms.geometry.source = .external →
          t.frame = .stalled .switch 0 ∧ t.recoveryCount = 0 ∧ t.beacon = [])
      ∧ (¬ (s.geometry.source = .internal ∧ t.plan.terms.geometry.source = .external) →
          t.frame = .running (.bit 0) ∧ t.recoveryCount = s.recoveryCount ∧ t.beacon = t.beaconWord)
      ∧ t.edgeTimer = 0 ∧ t.clockPhase = 0
      ∧ (∀ q, { t.port q with notices := (s.port q).notices, lost := (s.port q).lost } = s.port q)
      ∧ t.pending = s.pending ∧ t.resetAsserted = false ∧ t.offerCounter = s.offerCounter
      ∧ t.editCounter = s.editCounter)
  ∧ (∀ s : State, s.framesRun = true →
    ∃ t, exec .frameEnd s = .next t
      ∧ (∀ o ∈ t.offers, ∃ o' ∈ s.offers, 2 ≤ o'.left ∧ o = { o' with left := o'.left - 1 })
      ∧ (s.ScheduleOk → s.OfferIdsOk → ∀ o ∈ s.offers,
          { o with left := o.left - 1 } ∈ t.offers ↔
            2 ≤ o.left ∧ o.giver ∈ (entryAt t.staged o.slot).parties)
      ∧ t.proposal =
          (match s.proposal with
          | .none => .none
          | .opened pr d => if d ≤ 1 then .none else .opened pr (d - 1)
          | .agreed pr f => if s.frameCounter = f then .none else .agreed pr f)
      ∧ ((∀ pr, s.proposal ≠ .agreed pr s.frameCounter) → t.plan = s.plan)
      ∧ ∀ pr, s.proposal = .agreed pr s.frameCounter → t.plan = ⟨pr.terms, s.plan.number + 1⟩)
  ∧ (∀ s : State, s.framesRun = true →
    let counted : State :=
      { s with
        offers := (s.offers.filter (fun o => 2 ≤ o.left)).map (fun o => { o with left := o.left - 1 })
        proposal :=
          match s.proposal with
          | .none => .none
          | .opened pr d => if d ≤ 1 then .none else .opened pr (d - 1)
          | .agreed pr f => .agreed pr f }
    let u := counted.commitCooling.commitLeases.commitRotation.commitEdits.commitPlan.commitAllocator.publish
    let lapsed (q : Port) : List Notice :=
      (s.offers.filter (fun o => o.left ≤ 1)).flatMap (fun o =>
        let notice (other : Port) : Notice :=
          ⟨.offerLapsed, some o.kind.reason, some (entryAt s.staged o.slot).tag, some o.slot, none, some other,
            some o.id, s.nextFrame⟩
        (if q = o.giver then [notice o.target] else []) ++ (if q = o.target then [notice o.giver] else []))
    let failed (q : Port) : List Notice :=
      match s.proposal with
      | .none | .agreed _ _ => []
      | .opened pr d =>
        if d ≤ 1 ∧ pr.confirming.get q = true then
          [⟨.planFailed, some .lapsed, none, none, none, some pr.proposer, none, s.nextFrame⟩]
        else []
    ∃ t, exec .frameEnd s = .next t
      ∧ t.active = u.active ∧ t.staged = u.staged ∧ t.generation = u.generation ∧ t.requests = u.requests
      ∧ t.offers = u.offers ∧ t.edits = u.edits ∧ t.plan = u.plan ∧ t.proposal = u.proposal
      ∧ (∀ q, ∃ l, t.port q = (s.port q).told l ∧ (lapsed q).Sublist l ∧ (failed q).Sublist l)
      ∧ ((∀ o ∈ s.offers, 2 ≤ o.left) → (∀ pr d, s.proposal = .opened pr d → 2 ≤ d) → t.ports = u.ports))

/-- Commit steps 1, 2, 3 and 7 (R19, R48, R49, R58, R21) for a frame end with no timed edit due, no plan due, and no
request, offer or open proposal: what becomes of each entry, and which notices each port is sent, in ascending slot
order. (Steps 4, 5 and 6: O33, O37, O24; the frame end comes from any bit position, log 3.) -/
def Obligations.QuietFrameEndCountsAndRotates : Prop :=
  ∀ s : State, s.framesRun = true → s.ScheduleOk →
    (∀ e ∈ s.edits, e.activation ≠ s.frameCounter + 1) → (∀ pr, s.proposal ≠ .agreed pr s.frameCounter) →
    s.requests = [] → s.offers = [] → (∀ pr d, s.proposal ≠ .opened pr d) →
    ∃ t, exec .frameEnd s = .next t
      ∧ (∀ n, n < 64 → entryAt t.active n = s.entryAfterFrame n ∧ entryAt t.staged n = s.entryAfterFrame n)
      ∧ (∀ q, t.port q = (s.port q).told ((List.range 64).flatMap (s.leaseNotices q)))
      ∧ t.requests = [] ∧ t.offers = [] ∧ t.edits = s.edits ∧ t.plan = s.plan ∧ t.proposal = s.proposal

/-- 3.1, 5.6 (R48, R100), as the command LEASE_END makes it (log 4): a lease at 1 with no renewal pending runs out. The entry
cools, its parties are told LEASE_ENDED with the tag it had, and an offer on the slot is voided with reason LEASE, whatever
its frames remaining (beside R101 that is the model's choice: log 4). -/
def Obligations.LeaseEndCoolsTheSlot : Prop :=
  ∀ (s : State) (n : Nat) (h : Holding), s.framesRun = true → s.ScheduleOk → s.OfferIdsOk → n < 64 →
    (entryAt s.staged n).holding? = some h → h.lease = 1 → h.renewal = none →
    ∃ t, exec (.leaseEnd n) s = .next t
      ∧ { t with staged := s.staged, offers := s.offers, ports := s.ports } = s
      ∧ (∀ m, m < 64 → entryAt t.staged m = if m = n then .cooling else entryAt s.staged m)
      ∧ t.offers = s.offers.filter (fun o => o.slot != n)
      ∧ ∀ q, t.port q = (s.port q).told
          ((if q ∈ (entryAt s.staged n).parties then
            [⟨.leaseEnded, none, some h.tag, some n, none, none, none, s.nextFrame⟩] else [])
          ++ (s.offers.filter (fun o => o.slot == n && o.target == q)).map (fun o =>
            (⟨.offerVoid, some .lease, some h.tag, some n, none, some o.giver, some o.id, s.nextFrame⟩ : Notice)))

/-- R36 and R41 with R46: while the part is STALLED or RESETn is asserted, nothing that the frame-end event starts takes
place, no bit time begins and no clock is lost; a command that stands for such an event has no effect then (log 1). -/
def Obligations.NoFrameWorkWhileStalledOrReset : Prop :=
  ∀ s : State, (s.resetAsserted = true ∨ ∃ cause k, s.frame = .stalled cause k) →
    exec .frameEnd s = .next s ∧ (∀ n, exec (.leaseEnd n) s = .next s) ∧ exec .timedRelease s = .next s
    ∧ exec .timedRenew s = .next s ∧ exec .timedEnqueue s = .next s ∧ exec .planApplication s = .next s
    ∧ exec .waitLapse s = .next s ∧ (∀ i, exec (.offerLapse i) s = .next s) ∧ exec .proposalLapse s = .next s
    ∧ exec .bitTimeBegins s = .next s ∧ exec .clockLoss s = .next s

/-! ### Bit times, the stall and reset -/

/-- 2.2, 2.3, 2.6, 2.8 (R30, R32, R34, R42, R46): the lead-in comes first, then the bit times of the frame in turn, with
the beacon word captured as slot 0 begins and dropped once it is over (log 13); the edge that ends the last bit time is the
frame end, and the next frame's first bit time begins at that same edge, unless the part stalls, whichever of the two
commands stands for the edge (log 5). The command is obeyed at any clock phase and any
value of the edge timer and starts both afresh: the model's choice as well (log 3). BCLK is driven low in reset and is an
input in EXTERNAL mode; in INTERNAL mode it is high for the first D+1 REFCLK periods of a bit time and low for the rest, so
the edge that begins a bit time is a rising one. -/
def Obligations.BitTimesFollowOneAnother : Prop :=
  (∀ s : State,
    (s.resetAsserted = true → s.bclk = some false)
    ∧ (s.resetAsserted = false → s.geometry.source = .external → s.bclk = none)
    ∧ (s.resetAsserted = false → s.geometry.source = .internal →
        (s.clockPhase < s.geometry.divider.toNat + 1 → s.bclk = some true)
        ∧ (s.geometry.divider.toNat + 1 ≤ s.clockPhase → s.bclk = some false)))
  ∧ (∀ s t : State, s.framesRun = true → exec .bitTimeBegins s = .next t →
    t.clockPhase = 0 ∧ (t.geometry.source = .internal → t.bclk = some true))
  ∧ ∀ s : State, s.resetAsserted = false →
    let edge := { s with edgeTimer := 0, clockPhase := 0 }
    let begun (u : State) : State := { u with frame := .running (.bit 0), beacon := u.beaconWord }
    (s.frame = .running .leadInWait →
      exec .bitTimeBegins s = .next { edge with frame := .running .leadIn })
    ∧ (s.frame = .running .leadIn → exec .bitTimeBegins s = .next (begun edge))
    ∧ ∀ k, s.frame = .running (.bit k) →
        (k + 1 < s.geometry.slots * s.geometry.width.bits →
          exec .bitTimeBegins s = .next
            { edge with
              frame := .running (.bit (k + 1))
              beacon := if k + 1 < s.geometry.width.bits then s.beacon else [] })
        ∧ (s.geometry.slots * s.geometry.width.bits ≤ k + 1 →
            ∃ u, exec .frameEnd edge = .next u ∧ exec .bitTimeBegins s = .next u
              ∧ (u.frame.isRunning = true → begun u = u))

/-- R38: the frame is abandoned with the slot index in progress, the timer and the recovery count start from 0, and
CLOCK_LOST goes to every ATTACHED port with the number of the frame and that slot; nothing else moves but the beacon word,
which is dropped (log 13). The slot index is 0 in the lead-in and in the wait before it. The command comes at any value of the edge timer (log 3). It is a loss in EXTERNAL mode
alone, and has no effect in INTERNAL mode (log 1). -/
def Obligations.ClockLossAbandonsTheFrame : Prop :=
  ∀ (s : State) (pos : BitPosition), s.resetAsserted = false → s.frame = .running pos →
    (s.geometry.source = .internal → exec .clockLoss s = .next s)
    ∧ (s.geometry.source = .external →
        let index : Nat :=
          match pos with
          | .bit n => n / s.geometry.width.bits
          | .leadInWait | .leadIn => 0
        let told (q : Port) : PortState :=
          (s.port q).told [⟨.clockLost, none, none, some index, none, none, none, s.frameCounter.extractLsb' 0 16⟩]
        exec .clockLoss s = .next
          { s with
            frame := .stalled .lost index, beacon := [], edgeTimer := 0, recoveryCount := 0
            ports := ⟨told .a, told .b, told .c, told .d⟩ })

/-- 2.2, 2.5 (R31, R37, R40): while STALLED a gap of 1024 REFCLK periods sets the recovery count and the timer to 0, each edge
adds 1 to the count, and the sixteenth ends the stall: RUNNING with the lead-in to come, and CLOCK_BACK to every ATTACHED
port after a stall with cause LOST alone. That the stall is left in the wait before the lead-in, also when the sixteenth
edge rises, is the model's choice (log 5), and so is CLOCK_RECOVERY at any recovery count and STALL_GAP at any value of the
timer (log 3), and the recovery count of 16 that stands afterwards (log 16). While RUNNING an edge restarts the timer, and
STALL_GAP and CLOCK_RECOVERY, which do not occur then, have no effect (log 1). BCLK is an output in INTERNAL mode and in
reset, so its edges and gaps reach the stall detector in neither (log 1). -/
def Obligations.SixteenEdgesEndTheStall : Prop :=
  (∀ s : State, s.resetAsserted = false → s.geometry.source = .external →
    ((∃ pos, s.frame = .running pos) →
      exec .bclkEdge s = .next { s with edgeTimer := 0 } ∧ exec .stallGap s = .next s
      ∧ exec .clockRecovery s = .next s)
    ∧ ∀ cause k, s.frame = .stalled cause k →
        let told (q : Port) : PortState :=
          match cause with
          | .lost => (s.port q).told
              [⟨.clockBack, none, none, none, none, none, none, s.frameCounter.extractLsb' 0 16⟩]
          | .switch => s.port q
        let back : State :=
          { s with
            frame := .running .leadInWait, edgeTimer := 0, recoveryCount := 16
            ports := ⟨told .a, told .b, told .c, told .d⟩ }
        exec .stallGap s = .next { s with edgeTimer := 0, recoveryCount := 0 }
        ∧ exec .clockRecovery s = .next back
        ∧ (s.recoveryCount < 15 →
            exec .bclkEdge s = .next { s with edgeTimer := 0, recoveryCount := s.recoveryCount + 1 })
        ∧ (15 ≤ s.recoveryCount → exec .bclkEdge s = .next back))
  ∧ (∀ s : State, (s.resetAsserted = true ∨ s.geometry.source = .internal) →
    exec .bclkEdge s = .next s ∧ exec .stallGap s = .next s ∧ exec .clockRecovery s = .next s
    ∧ exec .clockLoss s = .next s)

/-- 1.1, 2.8, 3.8, 4.6, 5.7, 6.5, 7.1, 7.2, 7.8, 8.7, 9.7 (R1, R46, R65, R86, R104, R119, R122, R123, R135, R147, R164): at
the negation of RESETn the plan in use is the reset plan, with S and W as the four straps say and its other fields fixed; and
what reset leaves. The CSn levels are the masters' and stay; the waiting commands and the number of the next free choice
are the model's own. At RESET_NEGATED the receiver is IDLE as well, so a transaction begun under reset is ignored whole.
RESETn that is not asserted is not negated (log 1). -/
def Obligations.ResetClearsEverything : Prop :=
  (∀ (s : State) (slt1 slt0 wid1 wid0 : Bool), s.resetAsserted = true →
    ∃ t, exec (.resetNegated slt1 slt0 wid1 wid0) s = .next t
      ∧ t.plan =
          { terms :=
              { geometry :=
                  { slots := 8 * 2 ^ (2 * slt1.toNat + slt0.toNat)
                    width := if wid1 = false ∧ wid0 = true then .w24 else if wid1 = true ∧ wid0 = false then .w32
                      else .w16
                    source := .internal, divider := 15, form := .pulse, polarity := .high }
                quotas := ⟨63, 63, 63, 63⟩ }
            number := 0 }
      ∧ t.geometry = t.plan.terms.geometry)
  ∧ (∀ (s : State) (slt1 slt0 wid1 wid0 : Bool),
    (s.resetAsserted = false → exec (.resetNegated slt1 slt0 wid1 wid0) s = .next s)
    ∧ ∃ t u, exec .resetAsserted s = .next t ∧ exec (.resetNegated slt1 slt0 wid1 wid0) t = .next u
      ∧ t.resetAsserted = true ∧ u.resetAsserted = false
      ∧ ∀ v, v = t ∨ v = u →
          (∀ n, n < 64 → entryAt v.active n = (if n = 0 then .beacon else .free)
            ∧ entryAt v.staged n = (if n = 0 then .beacon else .free))
          ∧ v.generation = 0 ∧ v.frame = .running .leadInWait ∧ v.frameCounter = 0 ∧ v.changed = false
          ∧ (∀ p, v.driveCut.get p = false) ∧ v.edgeTimer = 0 ∧ v.recoveryCount = 0
          ∧ v.geometry.source = .internal ∧ v.requests = [] ∧ v.offers = [] ∧ v.offerCounter = 1 ∧ v.edits = []
          ∧ v.editCounter = 1 ∧ v.plan.number = 0 ∧ v.proposal = .none
          ∧ ∀ p, v.port p = { selected := (s.port p).selected, receiver := .idle, replyCode := .reset, replyBody := []
                              replySequence := 0, attachment := none, notices := [], lost := false })

/-! ### The pins -/

/-- R24: DEN of a port is asserted exactly in the bit times of a slot from 1 to S-1 whose Active entry it drives, while
it is ATTACHED with no drive-cut mark; and at most one DEN is asserted. -/
def Obligations.DriveEnablesFollowTheActiveTable : Prop :=
  ∀ (s : State) (p q : Port),
    (s.den p = true ↔
      s.resetAsserted = false ∧ ∃ k, s.frame = .running (.bit k)
        ∧ (let n := k / s.geometry.width.bits
          1 ≤ n ∧ n < s.geometry.slots
          ∧ ((∃ h, entryAt s.active n = .held p h) ∨ ∃ ms h, entryAt s.active n = .shared ms p h)
          ∧ (s.port p).attachment ≠ none ∧ s.driveCut.get p = false))
    ∧ (s.den p = true → s.den q = true → p = q)

/-- R33: FSYNC is asserted in the last bit time of a frame and in the lead-in in PULSE form, in slot 0 in SPAN form, and
negated at every other time; the polarity gives the level. -/
def Obligations.FrameSyncMarksTheFrame : Prop :=
  ∀ s : State,
    (s.fsyncLevel = (s.fsyncAsserted == (s.geometry.polarity == .high)))
    ∧ (s.resetAsserted = true → s.fsyncAsserted = false)
    ∧ (∀ cause k, s.frame = .stalled cause k → s.fsyncAsserted = false)
    ∧ (s.frame = .running .leadInWait → s.fsyncAsserted = false)
    ∧ (s.resetAsserted = false → s.frame = .running .leadIn → (s.fsyncAsserted = true ↔ s.geometry.form = .pulse))
    ∧ ∀ k, s.resetAsserted = false → s.frame = .running (.bit k) →
        (s.geometry.form = .pulse →
          (s.fsyncAsserted = true ↔ k + 1 = s.geometry.slots * s.geometry.width.bits))
        ∧ (s.geometry.form = .span → (s.fsyncAsserted = true ↔ k < s.geometry.width.bits))

/-- 2.6, 10.5 (R42, R43, R44, R169): the word that slot 0 captures, byte by byte for each width, goes out on BDAT most significant
bit first, one bit in each bit time of slot 0. It is captured at the edge that begins the first bit time, after a lead-in
as at a frame end. BDAT is tri-stated outside slot 0 of a RUNNING frame, and in every state that holds the
beacon word in slot 0 alone (`BeaconOk`, log 13) it is driven throughout slot 0. -/
def Obligations.BeaconWordIsCapturedAndShifted : Prop :=
  (∀ (c : Instr) (s t : State), s.framesRun = true → (c = .bitTimeBegins ∨ c = .frameEnd) →
    exec c s = .next t → t.frame = .running (.bit 0) →
    ∃ flags : Byte,
      flags.getLsbD 7 = t.changed
      ∧ (flags.getLsbD 6 = true ↔ ∃ pr, t.proposal = .agreed pr t.frameCounter)
      ∧ flags.extractLsb' 4 2 = 0
      ∧ flags.getLsbD 3 = (t.port .d).attachment.isSome ∧ flags.getLsbD 2 = (t.port .c).attachment.isSome
      ∧ flags.getLsbD 1 = (t.port .b).attachment.isSome ∧ flags.getLsbD 0 = (t.port .a).attachment.isSome
      ∧ t.beacon =
          ([t.frameCounter.extractLsb' 0 8, t.generation, flags, t.frameCounter.extractLsb' 8 8] : List Byte).take
            (t.geometry.width.bits / 8)
      ∧ ∀ k, k < t.geometry.width.bits →
          ({ t with frame := .running (.bit k) } : State).bdat = some ((t.beacon.getD (k / 8) 0).getMsbD (k % 8)))
  ∧ (∀ s : State, s.BeaconOk →
    (s.bdat.isSome = true ↔ ∃ k, s.frame = .running (.bit k) ∧ k < s.geometry.width.bits))

/-! ### The laws that hold at all times -/

/-- 1.1, 1.2, 1.3, 5.1, 9.4 (R2, R6, R14, R87, R156): the laws of the schedule hold after every step that starts from a state
in which they hold, whatever command waits. Of R6 they say that entry 0 alone is BEACON and that the
positions at and beyond S are FREE, in both tables. -/
def Obligations.EveryStepKeepsTheSchedule : Prop :=
  ∀ s t : State, s.ScheduleOk → step s = .next t → t.ScheduleOk

/-- Chapters 4, 5, 6 and 8 (R66, R87, R88, R105, R107, R109, R117, R137, R146): the laws of the request queue, the timed
edit list, the notice queues and the ids hold after every step that starts from a state in which they hold. -/
def Obligations.EveryStepKeepsTheQueues : Prop :=
  (∀ s t : State, s.RequestsOk → step s = .next t → t.RequestsOk)
  ∧ (∀ s t : State, s.EditsOk → step s = .next t → t.EditsOk)
  ∧ (∀ s t : State, s.NoticesOk → step s = .next t → t.NoticesOk)
  ∧ (∀ s t : State, s.OfferIdsOk → step s = .next t → t.OfferIdsOk)
  ∧ (∀ s t : State, s.EditIdsOk → step s = .next t → t.EditIdsOk)

/-- Chapters 2 and 7 (R28, R37, R42, R44, R120, R123): the geometry in use is that of the plan in use, and the timers, the
plan and the proposal stay in their ranges, after every step that starts from a state in which this holds. So does
`BeaconOk`: a beacon word of W bits is held throughout slot 0, and none is held outside it, which is the model's inference
(log 13). -/
def Obligations.EveryStepKeepsTheTiming : Prop :=
  ∀ s t : State, s.TimingOk → step s = .next t → t.TimingOk ∧ (s.BeaconOk → t.BeaconOk)

/-- Chapter 1 (R1, R4, R5): every holding keeps a tag and a warned set within its parties, and the Active table carries no
renewal, after every step that starts from a state in which this and the laws of the schedule hold. -/
def Obligations.EveryStepKeepsTheBookkeeping : Prop :=
  ∀ s t : State, s.ScheduleOk → s.BookkeepingOk → step s = .next t → t.BookkeepingOk

/-- 1.1, 2.8 and the reset values of every chapter: the machine after reset obeys all these laws. -/
def Obligations.ResetObeysEveryLaw : Prop :=
  State.reset.ScheduleOk ∧ State.reset.RequestsOk ∧ State.reset.EditsOk ∧ State.reset.NoticesOk
    ∧ State.reset.OfferIdsOk ∧ State.reset.EditIdsOk ∧ State.reset.TimingOk ∧ State.reset.BeaconOk
    ∧ State.reset.BookkeepingOk

/-- 3.8, 4.3, 5.3, 7.7 (R64, R76, R91, R134): no command takes a port's holding count above its quota. A count that is above
it already, after a plan with a smaller quota, does not rise. -/
def Obligations.NoCommandExceedsAQuota : Prop :=
  ∀ (c : Instr) (s : State) (p : Port), s.RequestsOk →
    ∃ t, exec c s = .next t
      ∧ (t.holdingCount p ≤ s.holdingCount p ∨ t.holdingCount p ≤ t.plan.terms.quotas.get p)

/-- 1.2, 1.3, 1.4 (R10, R12, R19): a port becomes a party to a Staged entry by its ACCEPT of an offer on that slot, or at a
frame end into an entry that was FREE or has been COOLING for a frame; it becomes a party to an Active entry at a frame
end alone, and then as the Staged entry has it. -/
def Obligations.AStrangerJoinsASlotInTwoWays : Prop :=
  ∀ (c : Instr) (s : State), s.ScheduleOk → s.OfferIdsOk →
    ∃ t, exec c s = .next t
      ∧ ∀ n, n < 64 → ∀ p,
          (p ∈ (entryAt t.staged n).parties → p ∈ (entryAt s.staged n).parties
            ∨ (∃ o ∈ s.offers, o.slot = n ∧ o.target = p ∧ c = .accept p [o.id])
            ∨ ((c = .frameEnd ∨ c = .bitTimeBegins)
                ∧ (entryAt s.staged n = .free ∨ entryAt s.active n = .cooling)))
          ∧ (p ∈ (entryAt t.active n).parties → p ∈ (entryAt s.active n).parties
            ∨ ((c = .frameEnd ∨ c = .bitTimeBegins) ∧ entryAt t.active n = entryAt t.staged n))
end

