-- ==== Sys2Proof/Laws/State.lean ====
section
/-! SUPPORT. The small lemmas of the state: values per port, and each field after each of the two updates that all
other operations are made of, `State.setPort` and `State.setStaged`. -/

namespace Sys2Proof.Machine

open Sys2Proof

/-! ### Values per port -/

variable {α : Type}

@[simp] theorem PerPort.get_set_self (v : PerPort α) (p : Port) (x : α) : (v.set p x).get p = x := by
  cases p <;> rfl

theorem PerPort.get_set_ne (v : PerPort α) {p q : Port} (h : q ≠ p) (x : α) : (v.set p x).get q = v.get q := by
  cases p <;> cases q <;> first | rfl | exact absurd rfl h

theorem PerPort.get_set (v : PerPort α) (p q : Port) (x : α) :
    (v.set p x).get q = if q = p then x else v.get q := by
  split
  · subst q; simp
  · exact v.get_set_ne ‹_› x

@[simp] theorem PerPort.get_all (x : α) (p : Port) : (PerPort.all x).get p = x := by cases p <;> rfl

/-- Two values per port are equal when they agree at every port. -/
theorem PerPort.eq_of_get {v w : PerPort α} (h : ∀ p, v.get p = w.get p) : v = w := by
  have a := h .a; have b := h .b; have c := h .c; have d := h .d
  simp only [PerPort.get] at a b c d
  cases v; cases w; simp_all

@[simp] theorem PerPort.set_get (v : PerPort α) (p : Port) : v.set p (v.get p) = v := by cases p <;> rfl

@[simp] theorem PerPort.set_set (v : PerPort α) (p : Port) (x y : α) : (v.set p x).set p y = v.set p y := by
  cases p <;> rfl

@[simp] theorem PerPort.get_insert (v : PortSet) (p q : Port) :
    (PerPort.insert v p).get q = (q == p || v.get q) := by
  cases p <;> cases q <;> simp [PerPort.insert, PerPort.get, PerPort.set]

@[simp] theorem PerPort.get_erase (v : PortSet) (p q : Port) :
    (PerPort.erase v p).get q = (q != p && v.get q) := by
  cases p <;> cases q <;> simp [PerPort.erase, PerPort.get, PerPort.set]

@[simp] theorem PerPort.get_single (p q : Port) : (PerPort.single p).get q = (q == p) := by
  cases p <;> cases q <;> rfl

@[simp] theorem mem_portList (p : Port) : p ∈ portList := by cases p <;> simp [portList]

theorem portList_nodup : portList.Nodup := by decide

theorem PerPort.mem_elems {v : PortSet} {p : Port} : p ∈ PerPort.elems v ↔ v.get p = true := by
  simp [PerPort.elems]

theorem PerPort.elems_nodup (v : PortSet) : (PerPort.elems v).Nodup := portList_nodup.filter _

@[simp] theorem State.attachedSet_get (s : State) (p : Port) : s.attachedSet.get p = s.attached p := by
  cases p <;> rfl

/-! ### One port replaced -/

/-- Every field but the ports is as it was. -/
@[simp] theorem State.setPort_fields (s : State) (p : Port) (x : PortState) :
    (s.setPort p x).pending = s.pending ∧ (s.setPort p x).resetAsserted = s.resetAsserted
      ∧ (s.setPort p x).active = s.active ∧ (s.setPort p x).staged = s.staged
      ∧ (s.setPort p x).generation = s.generation ∧ (s.setPort p x).geometry = s.geometry
      ∧ (s.setPort p x).frame = s.frame ∧ (s.setPort p x).frameCounter = s.frameCounter
      ∧ (s.setPort p x).changed = s.changed ∧ (s.setPort p x).driveCut = s.driveCut
      ∧ (s.setPort p x).edgeTimer = s.edgeTimer ∧ (s.setPort p x).recoveryCount = s.recoveryCount
      ∧ (s.setPort p x).clockPhase = s.clockPhase ∧ (s.setPort p x).beacon = s.beacon
      ∧ (s.setPort p x).requests = s.requests ∧ (s.setPort p x).offers = s.offers
      ∧ (s.setPort p x).offerCounter = s.offerCounter ∧ (s.setPort p x).edits = s.edits
      ∧ (s.setPort p x).editCounter = s.editCounter ∧ (s.setPort p x).plan = s.plan
      ∧ (s.setPort p x).proposal = s.proposal ∧ (s.setPort p x).choiceIndex = s.choiceIndex :=
  ⟨rfl, rfl, rfl, rfl, rfl, rfl, rfl, rfl, rfl, rfl, rfl, rfl, rfl, rfl, rfl, rfl, rfl, rfl, rfl, rfl, rfl, rfl⟩

@[simp] theorem State.port_setPort_self (s : State) (p : Port) (x : PortState) : (s.setPort p x).port p = x := by
  simp [State.port, State.setPort]

theorem State.port_setPort_ne (s : State) {p q : Port} (h : q ≠ p) (x : PortState) :
    (s.setPort p x).port q = s.port q := by
  simp [State.port, State.setPort, PerPort.get_set_ne, h]

theorem State.port_setPort (s : State) (p q : Port) (x : PortState) :
    (s.setPort p x).port q = if q = p then x else s.port q := by
  simp [State.port, State.setPort, PerPort.get_set]

@[simp] theorem State.setPort_port (s : State) (p : Port) : s.setPort p (s.port p) = s := by
  simp [State.port, State.setPort]

@[simp] theorem State.setPort_setPort (s : State) (p : Port) (x y : PortState) :
    (s.setPort p x).setPort p y = s.setPort p y := by
  simp [State.setPort]

@[simp] theorem State.setPort_frame (s : State) (p : Port) (x : PortState) :
    { s.setPort p x with ports := s.ports } = s := rfl

theorem State.attached_setPort (s : State) (p q : Port) (x : PortState) :
    (s.setPort p x).attached q = if q = p then x.attachment.isSome else s.attached q := by
  unfold State.attached
  rw [State.port_setPort]
  split <;> rfl

/-- Replacing a port by one with the same attachment attaches and detaches nobody. -/
theorem State.attached_setPort_same (s : State) (p q : Port) (x : PortState)
    (h : x.attachment = (s.port p).attachment) : (s.setPort p x).attached q = s.attached q := by
  rw [State.attached_setPort]
  split
  · subst q; rw [h]; rfl
  · rfl

/-- Two states that agree but for their ports, and in each port, are equal. -/
theorem State.eq_of_ports {s t : State} (h : { t with ports := s.ports } = s) (hp : ∀ p, t.port p = s.port p) :
    t = s := by
  have : t.ports = s.ports := PerPort.eq_of_get hp
  rw [← h, ← this]

/-! ### One Staged entry replaced -/

/-- Every field but the Staged table is as it was. -/
@[simp] theorem State.setStaged_fields (s : State) (n : Nat) (e : Entry) :
    (s.setStaged n e).pending = s.pending ∧ (s.setStaged n e).resetAsserted = s.resetAsserted
      ∧ (s.setStaged n e).active = s.active ∧ (s.setStaged n e).generation = s.generation
      ∧ (s.setStaged n e).geometry = s.geometry ∧ (s.setStaged n e).frame = s.frame
      ∧ (s.setStaged n e).frameCounter = s.frameCounter ∧ (s.setStaged n e).changed = s.changed
      ∧ (s.setStaged n e).driveCut = s.driveCut ∧ (s.setStaged n e).edgeTimer = s.edgeTimer
      ∧ (s.setStaged n e).recoveryCount = s.recoveryCount ∧ (s.setStaged n e).clockPhase = s.clockPhase
      ∧ (s.setStaged n e).beacon = s.beacon ∧ (s.setStaged n e).requests = s.requests
      ∧ (s.setStaged n e).offers = s.offers ∧ (s.setStaged n e).offerCounter = s.offerCounter
      ∧ (s.setStaged n e).edits = s.edits ∧ (s.setStaged n e).editCounter = s.editCounter
      ∧ (s.setStaged n e).plan = s.plan ∧ (s.setStaged n e).proposal = s.proposal
      ∧ (s.setStaged n e).ports = s.ports ∧ (s.setStaged n e).choiceIndex = s.choiceIndex :=
  ⟨rfl, rfl, rfl, rfl, rfl, rfl, rfl, rfl, rfl, rfl, rfl, rfl, rfl, rfl, rfl, rfl, rfl, rfl, rfl, rfl, rfl, rfl⟩

@[simp] theorem State.setStaged_port (s : State) (n : Nat) (e : Entry) (p : Port) :
    (s.setStaged n e).port p = s.port p := rfl

@[simp] theorem State.setStaged_attached (s : State) (n : Nat) (e : Entry) (p : Port) :
    (s.setStaged n e).attached p = s.attached p := rfl

@[simp] theorem State.setStaged_frame (s : State) (n : Nat) (e : Entry) :
    { s.setStaged n e with staged := s.staged } = s := rfl

/-- The entry at `m` after the Staged entry at `n` was replaced. -/
theorem State.entryAt_setStaged (s : State) (n m : Nat) (e : Entry) :
    entryAt (s.setStaged n e).staged m = if m = n ∧ n < 64 then e else entryAt s.staged m := by
  unfold entryAt State.setStaged
  by_cases hm : m < 64
  · by_cases h : n = m
    · subst h; simp [hm]
    · have h' : ¬ m = n := fun h'' => h h''.symm
      simp [hm, h, h']
  · have : ¬ (m = n ∧ n < 64) := by omega
    simp [hm, this]

theorem State.entryAt_setStaged_ne (s : State) {n m : Nat} (h : m ≠ n) (e : Entry) :
    entryAt (s.setStaged n e).staged m = entryAt s.staged m := by
  simp [State.entryAt_setStaged, h]

theorem State.entryAt_setStaged_self (s : State) {n : Nat} (h : n < 64) (e : Entry) :
    entryAt (s.setStaged n e).staged n = e := by
  simp [State.entryAt_setStaged, h]

theorem entryAt_of_le (t : Table) {n : Nat} (h : 64 ≤ n) : entryAt t n = .free := by
  simp [entryAt, Nat.not_lt.mpr h]

/-- Two tables are equal when they agree at every slot position. -/
theorem Table.eq_of_entryAt {t u : Table} (h : ∀ n, n < 64 → entryAt t n = entryAt u n) : t = u := by
  apply Vector.ext
  intro n hn
  simpa [entryAt, hn] using h n hn

@[simp] theorem mem_slotNumbers {n : Nat} : n ∈ slotNumbers ↔ n < 64 := by simp [slotNumbers]

theorem slotNumbers_nodup : slotNumbers.Nodup := List.nodup_range

/-! ### Folds over operations -/

/-- A field that no operation of a fold changes is the same after the fold. -/
theorem foldl_keeps {β γ : Type} (f : State → β → State) (get : State → γ) (l : List β) (s : State)
    (h : ∀ s b, b ∈ l → get (f s b) = get s) : get (l.foldl f s) = get s := by
  induction l generalizing s with
  | nil => rfl
  | cons b l ih =>
    rw [List.foldl_cons, ih _ (fun s c hc => h s c (List.mem_cons_of_mem b hc)), h s b (List.mem_cons_self ..)]

/-- An invariant that each operation of a fold keeps holds after the fold. -/
theorem foldl_invariant {β : Type} (f : State → β → State) (P : State → Prop) (l : List β) (s : State) (h0 : P s)
    (h : ∀ s b, b ∈ l → P s → P (f s b)) : P (l.foldl f s) := by
  induction l generalizing s with
  | nil => exact h0
  | cons b l ih =>
    exact ih _ (h s b (List.mem_cons_self ..) h0) (fun s c hc => h s c (List.mem_cons_of_mem b hc))

end Sys2Proof.Machine
end

