-- ==== Sys2Proof/Laws/Ops.lean ====
section
/-! SUPPORT. What each shared operation can do, said once: the fields it leaves, the entries and the ports after it.
The operations are those of Machine/Ops.lean. -/

namespace Sys2Proof.Machine

open Sys2Proof

/-! ### A notice queue (R140, R141) -/

/-- Taking a notice touches the queue and LOST alone. -/
@[simp] theorem PortState.takeNotice_fields (x : PortState) (n : Notice) :
    (x.takeNotice n).selected = x.selected ∧ (x.takeNotice n).receiver = x.receiver
      ∧ (x.takeNotice n).replyCode = x.replyCode ∧ (x.takeNotice n).replyBody = x.replyBody
      ∧ (x.takeNotice n).replySequence = x.replySequence ∧ (x.takeNotice n).attachment = x.attachment := by
  unfold PortState.takeNotice
  split <;> simp

theorem PortState.takeNotice_length (x : PortState) (n : Notice) (h : x.notices.length ≤ 16) :
    (x.takeNotice n).notices.length ≤ 16 := by
  unfold PortState.takeNotice maxNotices
  split
  · simp; omega
  · exact h

theorem PortState.foldl_takeNotice_attachment (l : List Notice) (x : PortState) :
    (l.foldl PortState.takeNotice x).attachment = x.attachment := by
  induction l generalizing x with
  | nil => rfl
  | cons n l ih => rw [List.foldl_cons, ih]; simp

/-- Being told touches the queue and LOST alone. -/
@[simp] theorem PortState.told_fields (x : PortState) (l : List Notice) :
    (x.told l).selected = x.selected ∧ (x.told l).receiver = x.receiver ∧ (x.told l).replyCode = x.replyCode
      ∧ (x.told l).replyBody = x.replyBody ∧ (x.told l).replySequence = x.replySequence
      ∧ (x.told l).attachment = x.attachment := by
  unfold PortState.told
  split
  · induction l generalizing x with
    | nil => simp
    | cons n l ih => simpa using ih (x.takeNotice n) (by simpa using ‹_›)
  · simp

@[simp] theorem PortState.told_nil (x : PortState) : x.told [] = x := by simp [PortState.told]

/-- A DETACHED port is told nothing. -/
theorem PortState.told_of_detached (x : PortState) (l : List Notice) (h : x.attachment = none) : x.told l = x := by
  simp [PortState.told, h]

/-- One list of notices after another is the two in a row. -/
theorem PortState.told_told (x : PortState) (l m : List Notice) : (x.told l).told m = x.told (l ++ m) := by
  unfold PortState.told
  by_cases h : x.attachment.isSome = true
  · simp [h, PortState.foldl_takeNotice_attachment, List.foldl_append]
  · simp [h]

theorem PortState.told_length (x : PortState) (l : List Notice) (h : x.notices.length ≤ 16) :
    (x.told l).notices.length ≤ 16 := by
  unfold PortState.told
  split
  · clear * - h
    induction l generalizing x with
    | nil => exact h
    | cons n l ih => exact ih _ (x.takeNotice_length n h)
  · exact h

/-! ### Sending notices -/

/-- A notice touches the ports alone. -/
@[simp] theorem State.notify_fields (s : State) (p : Port) (n : Notice) :
    (s.notify p n).pending = s.pending ∧ (s.notify p n).resetAsserted = s.resetAsserted
      ∧ (s.notify p n).active = s.active ∧ (s.notify p n).staged = s.staged
      ∧ (s.notify p n).generation = s.generation ∧ (s.notify p n).geometry = s.geometry
      ∧ (s.notify p n).frame = s.frame ∧ (s.notify p n).frameCounter = s.frameCounter
      ∧ (s.notify p n).changed = s.changed ∧ (s.notify p n).driveCut = s.driveCut
      ∧ (s.notify p n).edgeTimer = s.edgeTimer ∧ (s.notify p n).recoveryCount = s.recoveryCount
      ∧ (s.notify p n).clockPhase = s.clockPhase ∧ (s.notify p n).beacon = s.beacon
      ∧ (s.notify p n).requests = s.requests ∧ (s.notify p n).offers = s.offers
      ∧ (s.notify p n).offerCounter = s.offerCounter ∧ (s.notify p n).edits = s.edits
      ∧ (s.notify p n).editCounter = s.editCounter ∧ (s.notify p n).plan = s.plan
      ∧ (s.notify p n).proposal = s.proposal ∧ (s.notify p n).choiceIndex = s.choiceIndex := by
  unfold State.notify
  split <;> simp

/-- The ports after a notice to `p`. -/
theorem State.port_notify (s : State) (p q : Port) (n : Notice) :
    (s.notify p n).port q = if q = p then (s.port q).told [n] else s.port q := by
  unfold State.notify PortState.told State.attached
  by_cases h : q = p
  · subst h
    by_cases ha : (s.port q).attachment.isSome = true <;> simp [ha]
  · by_cases ha : (s.port p).attachment.isSome = true <;> simp [ha, h, State.port_setPort]

@[simp] theorem State.attached_notify (s : State) (p q : Port) (n : Notice) :
    (s.notify p n).attached q = s.attached q := by
  unfold State.attached
  rw [State.port_notify]
  split <;> simp

/-- The same notice to several ports touches the ports alone. -/
@[simp] theorem State.notifyAll_fields (s : State) (ps : List Port) (n : Notice) :
    (s.notifyAll ps n).pending = s.pending ∧ (s.notifyAll ps n).resetAsserted = s.resetAsserted
      ∧ (s.notifyAll ps n).active = s.active ∧ (s.notifyAll ps n).staged = s.staged
      ∧ (s.notifyAll ps n).generation = s.generation ∧ (s.notifyAll ps n).geometry = s.geometry
      ∧ (s.notifyAll ps n).frame = s.frame ∧ (s.notifyAll ps n).frameCounter = s.frameCounter
      ∧ (s.notifyAll ps n).changed = s.changed ∧ (s.notifyAll ps n).driveCut = s.driveCut
      ∧ (s.notifyAll ps n).edgeTimer = s.edgeTimer ∧ (s.notifyAll ps n).recoveryCount = s.recoveryCount
      ∧ (s.notifyAll ps n).clockPhase = s.clockPhase ∧ (s.notifyAll ps n).beacon = s.beacon
      ∧ (s.notifyAll ps n).requests = s.requests ∧ (s.notifyAll ps n).offers = s.offers
      ∧ (s.notifyAll ps n).offerCounter = s.offerCounter ∧ (s.notifyAll ps n).edits = s.edits
      ∧ (s.notifyAll ps n).editCounter = s.editCounter ∧ (s.notifyAll ps n).plan = s.plan
      ∧ (s.notifyAll ps n).proposal = s.proposal ∧ (s.notifyAll ps n).choiceIndex = s.choiceIndex := by
  unfold State.notifyAll
  induction ps generalizing s with
  | nil => simp
  | cons p ps ih => simpa using ih (s.notify p n)

/-- The ports after the same notice to several ports, each named once. -/
theorem State.port_notifyAll (s : State) {ps : List Port} (h : ps.Nodup) (n : Notice) (q : Port) :
    (s.notifyAll ps n).port q = if q ∈ ps then (s.port q).told [n] else s.port q := by
  unfold State.notifyAll
  induction ps generalizing s with
  | nil => simp
  | cons p ps ih =>
    rw [List.foldl_cons, ih _ h.of_cons, State.port_notify]
    have hp := (List.nodup_cons.mp h).1
    by_cases hq : q = p
    · subst hq; simp [hp]
    · simp [hq]

@[simp] theorem State.attached_notifyAll (s : State) (ps : List Port) (n : Notice) (q : Port) :
    (s.notifyAll ps n).attached q = s.attached q := by
  unfold State.notifyAll
  exact foldl_keeps _ (fun s => s.attached q) _ _ (fun s p _ => s.attached_notify p q n)

/-- Delivering notices touches the ports alone. -/
@[simp] theorem State.deliver_fields (s : State) (l : List (Port × Notice)) :
    (s.deliver l).pending = s.pending ∧ (s.deliver l).resetAsserted = s.resetAsserted
      ∧ (s.deliver l).active = s.active ∧ (s.deliver l).staged = s.staged
      ∧ (s.deliver l).generation = s.generation ∧ (s.deliver l).geometry = s.geometry
      ∧ (s.deliver l).frame = s.frame ∧ (s.deliver l).frameCounter = s.frameCounter
      ∧ (s.deliver l).changed = s.changed ∧ (s.deliver l).driveCut = s.driveCut
      ∧ (s.deliver l).edgeTimer = s.edgeTimer ∧ (s.deliver l).recoveryCount = s.recoveryCount
      ∧ (s.deliver l).clockPhase = s.clockPhase ∧ (s.deliver l).beacon = s.beacon
      ∧ (s.deliver l).requests = s.requests ∧ (s.deliver l).offers = s.offers
      ∧ (s.deliver l).offerCounter = s.offerCounter ∧ (s.deliver l).edits = s.edits
      ∧ (s.deliver l).editCounter = s.editCounter ∧ (s.deliver l).plan = s.plan
      ∧ (s.deliver l).proposal = s.proposal ∧ (s.deliver l).choiceIndex = s.choiceIndex := by
  unfold State.deliver
  induction l generalizing s with
  | nil => simp
  | cons x l ih => simpa using ih (s.notify x.1 x.2)

/-- The ports after notices were delivered: each is told its own, in order. -/
theorem State.port_deliver (s : State) (l : List (Port × Notice)) (q : Port) :
    (s.deliver l).port q = (s.port q).told ((l.filter (fun x => x.1 == q)).map Prod.snd) := by
  unfold State.deliver
  induction l generalizing s with
  | nil => simp
  | cons x l ih =>
    rw [List.foldl_cons, ih, State.port_notify]
    by_cases h : x.1 = q
    · simp [h, PortState.told_told]
    · have h' : ¬ q = x.1 := fun h'' => h h''.symm
      simp [h, h']

@[simp] theorem State.attached_deliver (s : State) (l : List (Port × Notice)) (q : Port) :
    (s.deliver l).attached q = s.attached q := by
  unfold State.attached
  rw [State.port_deliver]
  simp

/-- The notice queues alone differ: every port of `t` is that of `s` after some notices. -/
def State.Told (s t : State) : Prop := ∀ q, ∃ l, t.port q = (s.port q).told l

theorem State.Told.refl (s : State) : s.Told s := fun q => ⟨[], by simp⟩

theorem State.Told.of_ports {s t : State} (h : t.ports = s.ports) : s.Told t :=
  fun q => ⟨[], by simp [State.port, h]⟩

theorem State.Told.trans {s t u : State} (h : s.Told t) (k : t.Told u) : s.Told u := fun q => by
  obtain ⟨l, hl⟩ := h q
  obtain ⟨m, hm⟩ := k q
  exact ⟨l ++ m, by rw [hm, hl, PortState.told_told]⟩

theorem State.Told.attached {s t : State} (h : s.Told t) (q : Port) : t.attached q = s.attached q := by
  obtain ⟨l, hl⟩ := h q
  simp [State.attached, hl]

theorem State.notify_told (s : State) (p : Port) (n : Notice) : s.Told (s.notify p n) := fun q => by
  rw [State.port_notify]
  split
  · exact ⟨_, rfl⟩
  · exact ⟨[], by simp⟩

theorem State.notifyAll_told (s : State) (ps : List Port) (n : Notice) : s.Told (s.notifyAll ps n) :=
  foldl_invariant _ (fun t => s.Told t) _ _ (State.Told.refl s) (fun t p _ h => h.trans (t.notify_told p n))

theorem State.deliver_told (s : State) (l : List (Port × Notice)) : s.Told (s.deliver l) := fun q =>
  ⟨_, s.port_deliver l q⟩

/-! ### Offers leaving the table (R100) -/

/-- Dropping an offer touches the offer table alone. -/
@[simp] theorem State.dropOffer_fields (s : State) (i : Byte) :
    (s.dropOffer i).pending = s.pending ∧ (s.dropOffer i).resetAsserted = s.resetAsserted
      ∧ (s.dropOffer i).active = s.active ∧ (s.dropOffer i).staged = s.staged
      ∧ (s.dropOffer i).generation = s.generation ∧ (s.dropOffer i).geometry = s.geometry
      ∧ (s.dropOffer i).frame = s.frame ∧ (s.dropOffer i).frameCounter = s.frameCounter
      ∧ (s.dropOffer i).changed = s.changed ∧ (s.dropOffer i).driveCut = s.driveCut
      ∧ (s.dropOffer i).edgeTimer = s.edgeTimer ∧ (s.dropOffer i).recoveryCount = s.recoveryCount
      ∧ (s.dropOffer i).clockPhase = s.clockPhase ∧ (s.dropOffer i).beacon = s.beacon
      ∧ (s.dropOffer i).requests = s.requests ∧ (s.dropOffer i).offerCounter = s.offerCounter
      ∧ (s.dropOffer i).edits = s.edits ∧ (s.dropOffer i).editCounter = s.editCounter
      ∧ (s.dropOffer i).plan = s.plan ∧ (s.dropOffer i).proposal = s.proposal ∧ (s.dropOffer i).ports = s.ports
      ∧ (s.dropOffer i).choiceIndex = s.choiceIndex := by
  exact ⟨rfl, rfl, rfl, rfl, rfl, rfl, rfl, rfl, rfl, rfl, rfl, rfl, rfl, rfl, rfl, rfl, rfl, rfl, rfl, rfl, rfl, rfl⟩

@[simp] theorem State.dropOffer_offers (s : State) (i : Byte) :
    (s.dropOffer i).offers = s.offers.filter (fun o => o.id != i) := rfl

@[simp] theorem State.dropOffer_port (s : State) (i : Byte) (p : Port) : (s.dropOffer i).port p = s.port p := rfl

@[simp] theorem State.dropOffer_attached (s : State) (i : Byte) (p : Port) :
    (s.dropOffer i).attached p = s.attached p := rfl

/-- Voiding an offer touches the offer table and the ports alone. -/
@[simp] theorem State.voidOffer_fields (s : State) (o : Offer) (tag : Byte) (why : Reason) :
    (s.voidOffer o tag why).pending = s.pending ∧ (s.voidOffer o tag why).resetAsserted = s.resetAsserted
      ∧ (s.voidOffer o tag why).active = s.active ∧ (s.voidOffer o tag why).staged = s.staged
      ∧ (s.voidOffer o tag why).generation = s.generation ∧ (s.voidOffer o tag why).geometry = s.geometry
      ∧ (s.voidOffer o tag why).frame = s.frame ∧ (s.voidOffer o tag why).frameCounter = s.frameCounter
      ∧ (s.voidOffer o tag why).changed = s.changed ∧ (s.voidOffer o tag why).driveCut = s.driveCut
      ∧ (s.voidOffer o tag why).edgeTimer = s.edgeTimer
      ∧ (s.voidOffer o tag why).recoveryCount = s.recoveryCount
      ∧ (s.voidOffer o tag why).clockPhase = s.clockPhase ∧ (s.voidOffer o tag why).beacon = s.beacon
      ∧ (s.voidOffer o tag why).requests = s.requests ∧ (s.voidOffer o tag why).offerCounter = s.offerCounter
      ∧ (s.voidOffer o tag why).edits = s.edits ∧ (s.voidOffer o tag why).editCounter = s.editCounter
      ∧ (s.voidOffer o tag why).plan = s.plan ∧ (s.voidOffer o tag why).proposal = s.proposal
      ∧ (s.voidOffer o tag why).choiceIndex = s.choiceIndex := by
  simp [State.voidOffer]

@[simp] theorem State.voidOffer_offers (s : State) (o : Offer) (tag : Byte) (why : Reason) :
    (s.voidOffer o tag why).offers = s.offers.filter (fun x => x.id != o.id) := by
  simp [State.voidOffer]

theorem State.port_voidOffer (s : State) (o : Offer) (tag : Byte) (why : Reason) (q : Port) :
    (s.voidOffer o tag why).port q =
      if q = o.target then (s.port q).told [s.offerNotice .offerVoid o tag o.giver why] else s.port q := by
  rw [State.voidOffer, State.port_notify]
  rfl

theorem State.voidOffer_told (s : State) (o : Offer) (tag : Byte) (why : Reason) : s.Told (s.voidOffer o tag why) :=
  (State.Told.of_ports rfl).trans (State.notify_told _ _ _)

/-- Voiding the offer on a slot touches the offer table and the ports alone. -/
@[simp] theorem State.voidOfferOn_fields (s : State) (n : Nat) (tag : Byte) (why : Reason) :
    (s.voidOfferOn n tag why).pending = s.pending ∧ (s.voidOfferOn n tag why).resetAsserted = s.resetAsserted
      ∧ (s.voidOfferOn n tag why).active = s.active ∧ (s.voidOfferOn n tag why).staged = s.staged
      ∧ (s.voidOfferOn n tag why).generation = s.generation ∧ (s.voidOfferOn n tag why).geometry = s.geometry
      ∧ (s.voidOfferOn n tag why).frame = s.frame ∧ (s.voidOfferOn n tag why).frameCounter = s.frameCounter
      ∧ (s.voidOfferOn n tag why).changed = s.changed ∧ (s.voidOfferOn n tag why).driveCut = s.driveCut
      ∧ (s.voidOfferOn n tag why).edgeTimer = s.edgeTimer
      ∧ (s.voidOfferOn n tag why).recoveryCount = s.recoveryCount
      ∧ (s.voidOfferOn n tag why).clockPhase = s.clockPhase ∧ (s.voidOfferOn n tag why).beacon = s.beacon
      ∧ (s.voidOfferOn n tag why).requests = s.requests
      ∧ (s.voidOfferOn n tag why).offerCounter = s.offerCounter ∧ (s.voidOfferOn n tag why).edits = s.edits
      ∧ (s.voidOfferOn n tag why).editCounter = s.editCounter ∧ (s.voidOfferOn n tag why).plan = s.plan
      ∧ (s.voidOfferOn n tag why).proposal = s.proposal ∧ (s.voidOfferOn n tag why).choiceIndex = s.choiceIndex := by
  unfold State.voidOfferOn
  split <;> simp

/-- Voiding a port's offer on a slot touches the offer table and the ports alone. -/
@[simp] theorem State.voidOfferBy_fields (s : State) (p : Port) (n : Nat) (tag : Byte) (why : Reason) :
    (s.voidOfferBy p n tag why).pending = s.pending
      ∧ (s.voidOfferBy p n tag why).resetAsserted = s.resetAsserted
      ∧ (s.voidOfferBy p n tag why).active = s.active ∧ (s.voidOfferBy p n tag why).staged = s.staged
      ∧ (s.voidOfferBy p n tag why).generation = s.generation
      ∧ (s.voidOfferBy p n tag why).geometry = s.geometry ∧ (s.voidOfferBy p n tag why).frame = s.frame
      ∧ (s.voidOfferBy p n tag why).frameCounter = s.frameCounter
      ∧ (s.voidOfferBy p n tag why).changed = s.changed ∧ (s.voidOfferBy p n tag why).driveCut = s.driveCut
      ∧ (s.voidOfferBy p n tag why).edgeTimer = s.edgeTimer
      ∧ (s.voidOfferBy p n tag why).recoveryCount = s.recoveryCount
      ∧ (s.voidOfferBy p n tag why).clockPhase = s.clockPhase ∧ (s.voidOfferBy p n tag why).beacon = s.beacon
      ∧ (s.voidOfferBy p n tag why).requests = s.requests
      ∧ (s.voidOfferBy p n tag why).offerCounter = s.offerCounter ∧ (s.voidOfferBy p n tag why).edits = s.edits
      ∧ (s.voidOfferBy p n tag why).editCounter = s.editCounter ∧ (s.voidOfferBy p n tag why).plan = s.plan
      ∧ (s.voidOfferBy p n tag why).proposal = s.proposal
      ∧ (s.voidOfferBy p n tag why).choiceIndex = s.choiceIndex := by
  unfold State.voidOfferBy
  split <;> [split; skip] <;> simp

theorem State.voidOfferOn_told (s : State) (n : Nat) (tag : Byte) (why : Reason) :
    s.Told (s.voidOfferOn n tag why) := by
  unfold State.voidOfferOn
  split
  · exact State.voidOffer_told _ _ _ _
  · exact State.Told.refl s

theorem State.voidOfferBy_told (s : State) (p : Port) (n : Nat) (tag : Byte) (why : Reason) :
    s.Told (s.voidOfferBy p n tag why) := by
  unfold State.voidOfferBy
  split
  · split
    · exact State.voidOffer_told _ _ _ _
    · exact State.Told.refl s
  · exact State.Told.refl s

theorem State.voidOfferOn_offers (s : State) (n : Nat) (tag : Byte) (why : Reason) :
    (s.voidOfferOn n tag why).offers =
      match s.offerOn n with
      | some o => s.offers.filter (fun x => x.id != o.id)
      | none => s.offers := by
  cases h : s.offerOn n <;> simp [State.voidOfferOn, h]

theorem State.voidOfferBy_offers (s : State) (p : Port) (n : Nat) (tag : Byte) (why : Reason) :
    (s.voidOfferBy p n tag why).offers =
      match s.offerOn n with
      | some o => if o.giver = p then s.offers.filter (fun x => x.id != o.id) else s.offers
      | none => s.offers := by
  cases h : s.offerOn n with
  | none => simp [State.voidOfferBy, h]
  | some o => by_cases ho : o.giver = p <;> simp [State.voidOfferBy, h, ho]

/-! ### Giving slots up (R53, R54) -/

/-- MEMBERS_CHANGED touches the ports alone. -/
@[simp] theorem State.tellMembers_fields (s : State) (n : Nat) (e : Entry) (who : Port) (ps : List Port) :
    (s.tellMembers n e who ps).pending = s.pending ∧ (s.tellMembers n e who ps).resetAsserted = s.resetAsserted
      ∧ (s.tellMembers n e who ps).active = s.active ∧ (s.tellMembers n e who ps).staged = s.staged
      ∧ (s.tellMembers n e who ps).generation = s.generation ∧ (s.tellMembers n e who ps).geometry = s.geometry
      ∧ (s.tellMembers n e who ps).frame = s.frame ∧ (s.tellMembers n e who ps).frameCounter = s.frameCounter
      ∧ (s.tellMembers n e who ps).changed = s.changed ∧ (s.tellMembers n e who ps).driveCut = s.driveCut
      ∧ (s.tellMembers n e who ps).edgeTimer = s.edgeTimer
      ∧ (s.tellMembers n e who ps).recoveryCount = s.recoveryCount
      ∧ (s.tellMembers n e who ps).clockPhase = s.clockPhase ∧ (s.tellMembers n e who ps).beacon = s.beacon
      ∧ (s.tellMembers n e who ps).requests = s.requests ∧ (s.tellMembers n e who ps).offers = s.offers
      ∧ (s.tellMembers n e who ps).offerCounter = s.offerCounter ∧ (s.tellMembers n e who ps).edits = s.edits
      ∧ (s.tellMembers n e who ps).editCounter = s.editCounter ∧ (s.tellMembers n e who ps).plan = s.plan
      ∧ (s.tellMembers n e who ps).proposal = s.proposal
      ∧ (s.tellMembers n e who ps).choiceIndex = s.choiceIndex := by
  simp [State.tellMembers]

theorem State.tellMembers_told (s : State) (n : Nat) (e : Entry) (who : Port) (ps : List Port) :
    s.Told (s.tellMembers n e who ps) := State.notifyAll_told _ _ _

/-- Giving a slot up touches the Staged table, the offer table and the ports alone. -/
@[simp] theorem State.giveUpSlot_fields (s : State) (p : Port) (why : Reason) (n : Nat) :
    (s.giveUpSlot p why n).pending = s.pending ∧ (s.giveUpSlot p why n).resetAsserted = s.resetAsserted
      ∧ (s.giveUpSlot p why n).active = s.active ∧ (s.giveUpSlot p why n).generation = s.generation
      ∧ (s.giveUpSlot p why n).geometry = s.geometry ∧ (s.giveUpSlot p why n).frame = s.frame
      ∧ (s.giveUpSlot p why n).frameCounter = s.frameCounter ∧ (s.giveUpSlot p why n).changed = s.changed
      ∧ (s.giveUpSlot p why n).driveCut = s.driveCut ∧ (s.giveUpSlot p why n).edgeTimer = s.edgeTimer
      ∧ (s.giveUpSlot p why n).recoveryCount = s.recoveryCount
      ∧ (s.giveUpSlot p why n).clockPhase = s.clockPhase ∧ (s.giveUpSlot p why n).beacon = s.beacon
      ∧ (s.giveUpSlot p why n).requests = s.requests ∧ (s.giveUpSlot p why n).offerCounter = s.offerCounter
      ∧ (s.giveUpSlot p why n).edits = s.edits ∧ (s.giveUpSlot p why n).editCounter = s.editCounter
      ∧ (s.giveUpSlot p why n).plan = s.plan ∧ (s.giveUpSlot p why n).proposal = s.proposal
      ∧ (s.giveUpSlot p why n).choiceIndex = s.choiceIndex := by
  simp [State.giveUpSlot]

theorem State.giveUpSlot_told (s : State) (p : Port) (why : Reason) (n : Nat) : s.Told (s.giveUpSlot p why n) := by
  have h : s.Told (s.setStaged n ((entryAt s.staged n).without p)) := State.Told.of_ports rfl
  exact (h.trans (State.tellMembers_told _ _ _ _ _)).trans (State.voidOfferBy_told _ _ _ _ _)

@[simp] theorem State.giveUpSlot_staged (s : State) (p : Port) (why : Reason) (n : Nat) :
    (s.giveUpSlot p why n).staged = (s.setStaged n ((entryAt s.staged n).without p)).staged := by
  simp [State.giveUpSlot]

/-- The entries after a slot is given up. -/
theorem State.entryAt_giveUpSlot (s : State) (p : Port) (why : Reason) (n m : Nat) :
    entryAt (s.giveUpSlot p why n).staged m =
      if m = n ∧ n < 64 then (entryAt s.staged n).without p else entryAt s.staged m := by
  rw [State.giveUpSlot_staged, State.entryAt_setStaged]

/-- Giving several slots up touches the Staged table, the offer table and the ports alone. -/
@[simp] theorem State.giveUpSlots_fields (s : State) (p : Port) (why : Reason) (ns : List Nat) :
    (s.giveUpSlots p why ns).pending = s.pending ∧ (s.giveUpSlots p why ns).resetAsserted = s.resetAsserted
      ∧ (s.giveUpSlots p why ns).active = s.active ∧ (s.giveUpSlots p why ns).generation = s.generation
      ∧ (s.giveUpSlots p why ns).geometry = s.geometry ∧ (s.giveUpSlots p why ns).frame = s.frame
      ∧ (s.giveUpSlots p why ns).frameCounter = s.frameCounter ∧ (s.giveUpSlots p why ns).changed = s.changed
      ∧ (s.giveUpSlots p why ns).driveCut = s.driveCut ∧ (s.giveUpSlots p why ns).edgeTimer = s.edgeTimer
      ∧ (s.giveUpSlots p why ns).recoveryCount = s.recoveryCount
      ∧ (s.giveUpSlots p why ns).clockPhase = s.clockPhase ∧ (s.giveUpSlots p why ns).beacon = s.beacon
      ∧ (s.giveUpSlots p why ns).requests = s.requests ∧ (s.giveUpSlots p why ns).offerCounter = s.offerCounter
      ∧ (s.giveUpSlots p why ns).edits = s.edits ∧ (s.giveUpSlots p why ns).editCounter = s.editCounter
      ∧ (s.giveUpSlots p why ns).plan = s.plan ∧ (s.giveUpSlots p why ns).proposal = s.proposal
      ∧ (s.giveUpSlots p why ns).choiceIndex = s.choiceIndex := by
  unfold State.giveUpSlots
  induction ns generalizing s with
  | nil => simp
  | cons n ns ih => simpa using ih (s.giveUpSlot p why n)

theorem State.giveUpSlots_told (s : State) (p : Port) (why : Reason) (ns : List Nat) :
    s.Told (s.giveUpSlots p why ns) :=
  foldl_invariant _ (fun t => s.Told t) _ _ (State.Told.refl s) (fun t n _ h => h.trans (t.giveUpSlot_told p why n))

/-- The entries after several slots, each named once, are given up. -/
theorem State.entryAt_giveUpSlots (s : State) (p : Port) (why : Reason) {ns : List Nat} (h : ns.Nodup) (m : Nat) :
    entryAt (s.giveUpSlots p why ns).staged m =
      if m ∈ ns ∧ m < 64 then (entryAt s.staged m).without p else entryAt s.staged m := by
  unfold State.giveUpSlots
  induction ns generalizing s with
  | nil => simp
  | cons n ns ih =>
    rw [List.foldl_cons, ih _ h.of_cons, State.entryAt_giveUpSlot]
    have hn := (List.nodup_cons.mp h).1
    by_cases hm : m = n
    · subst hm; by_cases h64 : m < 64 <;> simp [hn, h64]
    · simp [hm]

/-! ### Answers and transactions (R149, R154, R163) -/

/-- A reply touches the ports alone. -/
@[simp] theorem State.reply_fields (s : State) (p : Port) (code : ReplyCode) (body : List Byte) :
    (s.reply p code body).pending = s.pending ∧ (s.reply p code body).resetAsserted = s.resetAsserted
      ∧ (s.reply p code body).active = s.active ∧ (s.reply p code body).staged = s.staged
      ∧ (s.reply p code body).generation = s.generation ∧ (s.reply p code body).geometry = s.geometry
      ∧ (s.reply p code body).frame = s.frame ∧ (s.reply p code body).frameCounter = s.frameCounter
      ∧ (s.reply p code body).changed = s.changed ∧ (s.reply p code body).driveCut = s.driveCut
      ∧ (s.reply p code body).edgeTimer = s.edgeTimer ∧ (s.reply p code body).recoveryCount = s.recoveryCount
      ∧ (s.reply p code body).clockPhase = s.clockPhase ∧ (s.reply p code body).beacon = s.beacon
      ∧ (s.reply p code body).requests = s.requests ∧ (s.reply p code body).offers = s.offers
      ∧ (s.reply p code body).offerCounter = s.offerCounter ∧ (s.reply p code body).edits = s.edits
      ∧ (s.reply p code body).editCounter = s.editCounter ∧ (s.reply p code body).plan = s.plan
      ∧ (s.reply p code body).proposal = s.proposal ∧ (s.reply p code body).choiceIndex = s.choiceIndex := by
  simp [State.reply]

/-- A rise of CSn touches the ports alone. -/
@[simp] theorem State.deselect_fields (s : State) (p : Port) :
    (s.deselect p).pending = s.pending ∧ (s.deselect p).resetAsserted = s.resetAsserted
      ∧ (s.deselect p).active = s.active ∧ (s.deselect p).staged = s.staged
      ∧ (s.deselect p).generation = s.generation ∧ (s.deselect p).geometry = s.geometry
      ∧ (s.deselect p).frame = s.frame ∧ (s.deselect p).frameCounter = s.frameCounter
      ∧ (s.deselect p).changed = s.changed ∧ (s.deselect p).driveCut = s.driveCut
      ∧ (s.deselect p).edgeTimer = s.edgeTimer ∧ (s.deselect p).recoveryCount = s.recoveryCount
      ∧ (s.deselect p).clockPhase = s.clockPhase ∧ (s.deselect p).beacon = s.beacon
      ∧ (s.deselect p).requests = s.requests ∧ (s.deselect p).offers = s.offers
      ∧ (s.deselect p).offerCounter = s.offerCounter ∧ (s.deselect p).edits = s.edits
      ∧ (s.deselect p).editCounter = s.editCounter ∧ (s.deselect p).plan = s.plan
      ∧ (s.deselect p).proposal = s.proposal ∧ (s.deselect p).choiceIndex = s.choiceIndex := by
  simp [State.deselect]

/-- An answer touches the ports alone. -/
@[simp] theorem State.answered_fields (s : State) (p : Port) (code : ReplyCode) (body : List Byte) :
    (s.answered p code body).pending = s.pending ∧ (s.answered p code body).resetAsserted = s.resetAsserted
      ∧ (s.answered p code body).active = s.active ∧ (s.answered p code body).staged = s.staged
      ∧ (s.answered p code body).generation = s.generation ∧ (s.answered p code body).geometry = s.geometry
      ∧ (s.answered p code body).frame = s.frame ∧ (s.answered p code body).frameCounter = s.frameCounter
      ∧ (s.answered p code body).changed = s.changed ∧ (s.answered p code body).driveCut = s.driveCut
      ∧ (s.answered p code body).edgeTimer = s.edgeTimer
      ∧ (s.answered p code body).recoveryCount = s.recoveryCount
      ∧ (s.answered p code body).clockPhase = s.clockPhase ∧ (s.answered p code body).beacon = s.beacon
      ∧ (s.answered p code body).requests = s.requests ∧ (s.answered p code body).offers = s.offers
      ∧ (s.answered p code body).offerCounter = s.offerCounter ∧ (s.answered p code body).edits = s.edits
      ∧ (s.answered p code body).editCounter = s.editCounter ∧ (s.answered p code body).plan = s.plan
      ∧ (s.answered p code body).proposal = s.proposal ∧ (s.answered p code body).choiceIndex = s.choiceIndex := by
  simp [State.answered]

theorem State.port_reply (s : State) (p q : Port) (code : ReplyCode) (body : List Byte) :
    (s.reply p code body).port q =
      if q = p then
        { s.port p with replyCode := code, replyBody := body, replySequence := (s.port p).replySequence + 1 }
      else s.port q := by
  simp [State.reply, State.port_setPort]

theorem State.port_deselect (s : State) (p q : Port) :
    (s.deselect p).port q = if q = p then { s.port p with selected := false, receiver := .idle } else s.port q := by
  simp [State.deselect, State.port_setPort]

@[simp] theorem State.attached_deselect (s : State) (p q : Port) : (s.deselect p).attached q = s.attached q :=
  State.attached_setPort_same _ _ _ _ rfl

@[simp] theorem State.attached_reply (s : State) (p q : Port) (code : ReplyCode) (body : List Byte) :
    (s.reply p code body).attached q = s.attached q :=
  State.attached_setPort_same _ _ _ _ rfl

theorem State.port_answered (s : State) (p q : Port) (code : ReplyCode) (body : List Byte) :
    (s.answered p code body).port q = if q = p then (s.port p).answered code body else s.port q := by
  simp [State.answered, State.port_setPort]

/-- A refusal at the end of a transaction is an answer that changes nothing else. -/
theorem State.reply_deselect (s : State) (p : Port) (code : ReplyCode) (body : List Byte) :
    (s.deselect p).reply p code body = s.answered p code body := by
  simp [State.reply, State.deselect, State.answered, PortState.answered]

@[simp] theorem State.settle_refuse (s : State) (p : Port) (code : ReplyCode) (body : List Byte) :
    (s.deselect p).settle p (.refuse code body) = s.answered p code body := State.reply_deselect s p code body

@[simp] theorem State.settle_refuseWith (s : State) (p : Port) (code : ReplyCode) :
    (s.deselect p).settle p (refuseWith code) = s.answered p code [] := State.reply_deselect s p code []

@[simp] theorem State.settle_ok (s t : State) (p : Port) (body : List Byte) :
    s.settle p (.ok t body) = t.reply p .ok body := rfl

theorem State.canEnd_iff (s : State) (p : Port) (bytes : List Byte) :
    s.canEnd p bytes = true ↔
      s.resetAsserted = false ∧ (s.port p).discarding = false ∧ (s.port p).receiver.agrees bytes = true := by
  simp [State.canEnd, and_assoc]

/-- A transaction that can end here ends (R149). -/
theorem State.endTransaction_of_canEnd (s : State) (p : Port) (bytes : List Byte) (act : State → State)
    (h : s.canEnd p bytes = true) : s.endTransaction p bytes act = act (s.deselect p) := by
  rw [State.canEnd_iff] at h
  simp [State.endTransaction, h]

/-- All that the end of a transaction can do: nothing, the rise of CSn alone, or its act after that. -/
theorem State.endTransaction_cases (s : State) (p : Port) (bytes : List Byte) (act : State → State) :
    s.endTransaction p bytes act = s ∨ s.endTransaction p bytes act = s.deselect p
      ∨ (s.canEnd p bytes = true ∧ s.endTransaction p bytes act = act (s.deselect p)) := by
  rw [State.canEnd_iff]
  unfold State.endTransaction
  split
  · simp
  · split
    · simp
    · split <;> simp_all

/-- A request that is taken is judged and answered at that moment (R163). -/
theorem State.takeRequest_of_takes (s : State) (p : Port) (r : RequestCode) (payload : List Byte)
    (judge : State → Answer) (h : s.takes p r payload = true) :
    s.takeRequest p r payload judge = (s.deselect p).settle p (judge (s.deselect p)) := by
  simp only [State.takes, Bool.and_eq_true, decide_eq_true_eq] at h
  simp [State.takeRequest, h.1, State.endTransaction_of_canEnd _ _ _ _ h.2]

/-- All that a request command can do: nothing, the rise of CSn alone, or the answer to a request that is taken. -/
theorem State.takeRequest_cases (s : State) (p : Port) (r : RequestCode) (payload : List Byte)
    (judge : State → Answer) :
    s.takeRequest p r payload judge = s ∨ s.takeRequest p r payload judge = s.deselect p
      ∨ (s.takes p r payload = true
          ∧ s.takeRequest p r payload judge = (s.deselect p).settle p (judge (s.deselect p))) := by
  unfold State.takeRequest State.takes
  split
  · rcases s.endTransaction_cases p (requestBytes r.code payload) (fun s => s.settle p (judge s)) with h | h | h
    · exact .inl h
    · exact .inr (.inl h)
    · exact .inr (.inr ⟨by simp [*], h.2⟩)
  · exact .inl rfl

/-- The check for an ATTACHED port (R156). -/
theorem State.whenAttached_of_attached (s : State) (p : Port) (k : Answer) (h : s.attached p = true) :
    s.whenAttached p k = k := by
  simp [State.whenAttached, h]

theorem State.whenAttached_of_detached (s : State) (p : Port) (k : Answer) (h : s.attached p = false) :
    s.whenAttached p k = refuseWith .notAttached := by
  simp [State.whenAttached, h]

@[simp] theorem withFields_none {α : Type} (k : α → Answer) : withFields none k = refuseWith .badField := rfl

@[simp] theorem withFields_some {α : Type} (x : α) (k : α → Answer) : withFields (some x) k = k x := rfl

end Sys2Proof.Machine
end

