-- ==== Sys2Proof/Laws/Blocks.lean ====
section
/-! SUPPORT. What the operations of the Slot Table, the Allocator, the Offer Table and the Timed Edit List can do: the
fields each leaves, and that a port changes by notices alone. -/

namespace Sys2Proof.Machine

open Sys2Proof

/-! ### The Slot Table -/

/-- A pending renewal touches the Staged table alone. -/
@[simp] theorem State.setRenewal_fields (s : State) (l : Half) (n : Nat) :
    (s.setRenewal l n).pending = s.pending ∧ (s.setRenewal l n).resetAsserted = s.resetAsserted
      ∧ (s.setRenewal l n).active = s.active ∧ (s.setRenewal l n).generation = s.generation
      ∧ (s.setRenewal l n).geometry = s.geometry ∧ (s.setRenewal l n).frame = s.frame
      ∧ (s.setRenewal l n).frameCounter = s.frameCounter ∧ (s.setRenewal l n).changed = s.changed
      ∧ (s.setRenewal l n).driveCut = s.driveCut ∧ (s.setRenewal l n).edgeTimer = s.edgeTimer
      ∧ (s.setRenewal l n).recoveryCount = s.recoveryCount ∧ (s.setRenewal l n).clockPhase = s.clockPhase
      ∧ (s.setRenewal l n).beacon = s.beacon ∧ (s.setRenewal l n).requests = s.requests
      ∧ (s.setRenewal l n).offers = s.offers ∧ (s.setRenewal l n).offerCounter = s.offerCounter
      ∧ (s.setRenewal l n).edits = s.edits ∧ (s.setRenewal l n).editCounter = s.editCounter
      ∧ (s.setRenewal l n).plan = s.plan ∧ (s.setRenewal l n).proposal = s.proposal
      ∧ (s.setRenewal l n).ports = s.ports ∧ (s.setRenewal l n).choiceIndex = s.choiceIndex := by
  unfold State.setRenewal
  dsimp only
  split <;> simp

@[simp] theorem State.setRenewal_port (s : State) (l : Half) (n : Nat) (p : Port) :
    (s.setRenewal l n).port p = s.port p := by
  simp [State.port]

theorem State.entryAt_setRenewal (s : State) (l : Half) (n m : Nat) :
    entryAt (s.setRenewal l n).staged m =
      if m = n ∧ n < 64 then (entryAt s.staged n).renewed l else entryAt s.staged m := by
  unfold State.setRenewal Entry.renewed
  dsimp only
  cases h : (entryAt s.staged n).holding? with
  | none => by_cases hm : m = n <;> simp [hm]
  | some _ => simp [State.entryAt_setStaged]

/-- Several pending renewals touch the Staged table alone. -/
@[simp] theorem State.foldl_setRenewal_fields (s : State) (l : Half) (ns : List Nat) :
    (ns.foldl (fun s n => s.setRenewal l n) s).pending = s.pending
      ∧ (ns.foldl (fun s n => s.setRenewal l n) s).resetAsserted = s.resetAsserted
      ∧ (ns.foldl (fun s n => s.setRenewal l n) s).active = s.active
      ∧ (ns.foldl (fun s n => s.setRenewal l n) s).generation = s.generation
      ∧ (ns.foldl (fun s n => s.setRenewal l n) s).geometry = s.geometry
      ∧ (ns.foldl (fun s n => s.setRenewal l n) s).frame = s.frame
      ∧ (ns.foldl (fun s n => s.setRenewal l n) s).frameCounter = s.frameCounter
      ∧ (ns.foldl (fun s n => s.setRenewal l n) s).changed = s.changed
      ∧ (ns.foldl (fun s n => s.setRenewal l n) s).driveCut = s.driveCut
      ∧ (ns.foldl (fun s n => s.setRenewal l n) s).edgeTimer = s.edgeTimer
      ∧ (ns.foldl (fun s n => s.setRenewal l n) s).recoveryCount = s.recoveryCount
      ∧ (ns.foldl (fun s n => s.setRenewal l n) s).clockPhase = s.clockPhase
      ∧ (ns.foldl (fun s n => s.setRenewal l n) s).beacon = s.beacon
      ∧ (ns.foldl (fun s n => s.setRenewal l n) s).requests = s.requests
      ∧ (ns.foldl (fun s n => s.setRenewal l n) s).offers = s.offers
      ∧ (ns.foldl (fun s n => s.setRenewal l n) s).offerCounter = s.offerCounter
      ∧ (ns.foldl (fun s n => s.setRenewal l n) s).edits = s.edits
      ∧ (ns.foldl (fun s n => s.setRenewal l n) s).editCounter = s.editCounter
      ∧ (ns.foldl (fun s n => s.setRenewal l n) s).plan = s.plan
      ∧ (ns.foldl (fun s n => s.setRenewal l n) s).proposal = s.proposal
      ∧ (ns.foldl (fun s n => s.setRenewal l n) s).ports = s.ports
      ∧ (ns.foldl (fun s n => s.setRenewal l n) s).choiceIndex = s.choiceIndex := by
  induction ns generalizing s with
  | nil => simp
  | cons n ns ih => simpa using ih (s.setRenewal l n)

theorem State.entryAt_foldl_setRenewal (s : State) (l : Half) {ns : List Nat} (h : ns.Nodup) (m : Nat) :
    entryAt (ns.foldl (fun s n => s.setRenewal l n) s).staged m =
      if m ∈ ns ∧ m < 64 then (entryAt s.staged m).renewed l else entryAt s.staged m := by
  induction ns generalizing s with
  | nil => simp
  | cons n ns ih =>
    rw [List.foldl_cons, ih _ h.of_cons, State.entryAt_setRenewal]
    have hn := (List.nodup_cons.mp h).1
    by_cases hm : m = n
    · subst hm; by_cases h64 : m < 64 <;> simp [hn, h64]
    · simp [hm]

/-- Cooling one slot touches the Staged table alone. -/
@[simp] theorem State.coolSlot_fields (s : State) (n : Nat) :
    (s.coolSlot n).pending = s.pending ∧ (s.coolSlot n).resetAsserted = s.resetAsserted
      ∧ (s.coolSlot n).active = s.active ∧ (s.coolSlot n).generation = s.generation
      ∧ (s.coolSlot n).geometry = s.geometry ∧ (s.coolSlot n).frame = s.frame
      ∧ (s.coolSlot n).frameCounter = s.frameCounter ∧ (s.coolSlot n).changed = s.changed
      ∧ (s.coolSlot n).driveCut = s.driveCut ∧ (s.coolSlot n).edgeTimer = s.edgeTimer
      ∧ (s.coolSlot n).recoveryCount = s.recoveryCount ∧ (s.coolSlot n).clockPhase = s.clockPhase
      ∧ (s.coolSlot n).beacon = s.beacon ∧ (s.coolSlot n).requests = s.requests
      ∧ (s.coolSlot n).offers = s.offers ∧ (s.coolSlot n).offerCounter = s.offerCounter
      ∧ (s.coolSlot n).edits = s.edits ∧ (s.coolSlot n).editCounter = s.editCounter
      ∧ (s.coolSlot n).plan = s.plan ∧ (s.coolSlot n).proposal = s.proposal ∧ (s.coolSlot n).ports = s.ports
      ∧ (s.coolSlot n).choiceIndex = s.choiceIndex := by
  unfold State.coolSlot
  split <;> simp

/-- Step 1 touches the Staged table alone. -/
@[simp] theorem State.commitCooling_fields (s : State) :
    s.commitCooling.pending = s.pending ∧ s.commitCooling.resetAsserted = s.resetAsserted
      ∧ s.commitCooling.active = s.active ∧ s.commitCooling.generation = s.generation
      ∧ s.commitCooling.geometry = s.geometry ∧ s.commitCooling.frame = s.frame
      ∧ s.commitCooling.frameCounter = s.frameCounter ∧ s.commitCooling.changed = s.changed
      ∧ s.commitCooling.driveCut = s.driveCut ∧ s.commitCooling.edgeTimer = s.edgeTimer
      ∧ s.commitCooling.recoveryCount = s.recoveryCount ∧ s.commitCooling.clockPhase = s.clockPhase
      ∧ s.commitCooling.beacon = s.beacon ∧ s.commitCooling.requests = s.requests
      ∧ s.commitCooling.offers = s.offers ∧ s.commitCooling.offerCounter = s.offerCounter
      ∧ s.commitCooling.edits = s.edits ∧ s.commitCooling.editCounter = s.editCounter
      ∧ s.commitCooling.plan = s.plan ∧ s.commitCooling.proposal = s.proposal ∧ s.commitCooling.ports = s.ports
      ∧ s.commitCooling.choiceIndex = s.choiceIndex := by
  unfold State.commitCooling
  generalize slotNumbers = l
  induction l generalizing s with
  | nil => simp
  | cons n l ih => simpa using ih (s.coolSlot n)

/-- The end of a lease touches the Staged table, the offer table and the ports alone. -/
@[simp] theorem State.endLease_fields (s : State) (n : Nat) :
    (s.endLease n).pending = s.pending ∧ (s.endLease n).resetAsserted = s.resetAsserted
      ∧ (s.endLease n).active = s.active ∧ (s.endLease n).generation = s.generation
      ∧ (s.endLease n).geometry = s.geometry ∧ (s.endLease n).frame = s.frame
      ∧ (s.endLease n).frameCounter = s.frameCounter ∧ (s.endLease n).changed = s.changed
      ∧ (s.endLease n).driveCut = s.driveCut ∧ (s.endLease n).edgeTimer = s.edgeTimer
      ∧ (s.endLease n).recoveryCount = s.recoveryCount ∧ (s.endLease n).clockPhase = s.clockPhase
      ∧ (s.endLease n).beacon = s.beacon ∧ (s.endLease n).requests = s.requests
      ∧ (s.endLease n).offerCounter = s.offerCounter ∧ (s.endLease n).edits = s.edits
      ∧ (s.endLease n).editCounter = s.editCounter ∧ (s.endLease n).plan = s.plan
      ∧ (s.endLease n).proposal = s.proposal ∧ (s.endLease n).choiceIndex = s.choiceIndex := by
  simp [State.endLease]

@[simp] theorem State.endLease_staged (s : State) (n : Nat) :
    (s.endLease n).staged = (s.setStaged n .cooling).staged := by
  simp [State.endLease]

theorem State.endLease_told (s : State) (n : Nat) : s.Told (s.endLease n) := by
  have h : s.Told (s.setStaged n .cooling) := State.Told.of_ports rfl
  exact (h.trans (State.notifyAll_told _ _ _)).trans (State.voidOfferOn_told _ _ _ _)

/-- The warning check touches the Staged table and the ports alone. -/
@[simp] theorem State.warnSlot_fields (s : State) (n : Nat) :
    (s.warnSlot n).pending = s.pending ∧ (s.warnSlot n).resetAsserted = s.resetAsserted
      ∧ (s.warnSlot n).active = s.active ∧ (s.warnSlot n).generation = s.generation
      ∧ (s.warnSlot n).geometry = s.geometry ∧ (s.warnSlot n).frame = s.frame
      ∧ (s.warnSlot n).frameCounter = s.frameCounter ∧ (s.warnSlot n).changed = s.changed
      ∧ (s.warnSlot n).driveCut = s.driveCut ∧ (s.warnSlot n).edgeTimer = s.edgeTimer
      ∧ (s.warnSlot n).recoveryCount = s.recoveryCount ∧ (s.warnSlot n).clockPhase = s.clockPhase
      ∧ (s.warnSlot n).beacon = s.beacon ∧ (s.warnSlot n).requests = s.requests
      ∧ (s.warnSlot n).offers = s.offers ∧ (s.warnSlot n).offerCounter = s.offerCounter
      ∧ (s.warnSlot n).edits = s.edits ∧ (s.warnSlot n).editCounter = s.editCounter
      ∧ (s.warnSlot n).plan = s.plan ∧ (s.warnSlot n).proposal = s.proposal
      ∧ (s.warnSlot n).choiceIndex = s.choiceIndex := by
  unfold State.warnSlot
  dsimp only
  split <;> simp

theorem State.warnSlot_told (s : State) (n : Nat) : s.Told (s.warnSlot n) := by
  unfold State.warnSlot
  dsimp only
  split
  · exact State.Told.refl s
  · refine State.Told.trans ?_ (State.notifyAll_told _ _ _)
    exact State.Told.of_ports rfl

/-- Step 2 for one slot touches the Staged table, the offer table and the ports alone. -/
@[simp] theorem State.countLease_fields (s : State) (n : Nat) :
    (s.countLease n).pending = s.pending ∧ (s.countLease n).resetAsserted = s.resetAsserted
      ∧ (s.countLease n).active = s.active ∧ (s.countLease n).generation = s.generation
      ∧ (s.countLease n).geometry = s.geometry ∧ (s.countLease n).frame = s.frame
      ∧ (s.countLease n).frameCounter = s.frameCounter ∧ (s.countLease n).changed = s.changed
      ∧ (s.countLease n).driveCut = s.driveCut ∧ (s.countLease n).edgeTimer = s.edgeTimer
      ∧ (s.countLease n).recoveryCount = s.recoveryCount ∧ (s.countLease n).clockPhase = s.clockPhase
      ∧ (s.countLease n).beacon = s.beacon ∧ (s.countLease n).requests = s.requests
      ∧ (s.countLease n).offerCounter = s.offerCounter ∧ (s.countLease n).edits = s.edits
      ∧ (s.countLease n).editCounter = s.editCounter ∧ (s.countLease n).plan = s.plan
      ∧ (s.countLease n).proposal = s.proposal ∧ (s.countLease n).choiceIndex = s.choiceIndex := by
  unfold State.countLease
  dsimp only
  split <;> [skip; split] <;> simp

theorem State.countLease_told (s : State) (n : Nat) : s.Told (s.countLease n) := by
  unfold State.countLease
  dsimp only
  split
  · exact State.Told.refl s
  · split
    · exact s.endLease_told n
    · refine State.Told.trans ?_ (State.warnSlot_told _ _)
      exact State.Told.of_ports rfl

/-- Step 2 touches the Staged table, the offer table and the ports alone. -/
@[simp] theorem State.commitLeases_fields (s : State) :
    s.commitLeases.pending = s.pending ∧ s.commitLeases.resetAsserted = s.resetAsserted
      ∧ s.commitLeases.active = s.active ∧ s.commitLeases.generation = s.generation
      ∧ s.commitLeases.geometry = s.geometry ∧ s.commitLeases.frame = s.frame
      ∧ s.commitLeases.frameCounter = s.frameCounter ∧ s.commitLeases.changed = s.changed
      ∧ s.commitLeases.driveCut = s.driveCut ∧ s.commitLeases.edgeTimer = s.edgeTimer
      ∧ s.commitLeases.recoveryCount = s.recoveryCount ∧ s.commitLeases.clockPhase = s.clockPhase
      ∧ s.commitLeases.beacon = s.beacon ∧ s.commitLeases.requests = s.requests
      ∧ s.commitLeases.offerCounter = s.offerCounter ∧ s.commitLeases.edits = s.edits
      ∧ s.commitLeases.editCounter = s.editCounter ∧ s.commitLeases.plan = s.plan
      ∧ s.commitLeases.proposal = s.proposal ∧ s.commitLeases.choiceIndex = s.choiceIndex := by
  unfold State.commitLeases
  generalize slotNumbers = l
  induction l generalizing s with
  | nil => simp
  | cons n l ih => simpa using ih (s.countLease n)

theorem State.commitLeases_told (s : State) : s.Told s.commitLeases :=
  foldl_invariant _ (fun t => s.Told t) _ _ (State.Told.refl s) (fun t n _ h => h.trans (t.countLease_told n))

/-- Rotating one slot touches the Staged table alone. -/
@[simp] theorem State.rotateSlot_fields (s : State) (n : Nat) :
    (s.rotateSlot n).pending = s.pending ∧ (s.rotateSlot n).resetAsserted = s.resetAsserted
      ∧ (s.rotateSlot n).active = s.active ∧ (s.rotateSlot n).generation = s.generation
      ∧ (s.rotateSlot n).geometry = s.geometry ∧ (s.rotateSlot n).frame = s.frame
      ∧ (s.rotateSlot n).frameCounter = s.frameCounter ∧ (s.rotateSlot n).changed = s.changed
      ∧ (s.rotateSlot n).driveCut = s.driveCut ∧ (s.rotateSlot n).edgeTimer = s.edgeTimer
      ∧ (s.rotateSlot n).recoveryCount = s.recoveryCount ∧ (s.rotateSlot n).clockPhase = s.clockPhase
      ∧ (s.rotateSlot n).beacon = s.beacon ∧ (s.rotateSlot n).requests = s.requests
      ∧ (s.rotateSlot n).offers = s.offers ∧ (s.rotateSlot n).offerCounter = s.offerCounter
      ∧ (s.rotateSlot n).edits = s.edits ∧ (s.rotateSlot n).editCounter = s.editCounter
      ∧ (s.rotateSlot n).plan = s.plan ∧ (s.rotateSlot n).proposal = s.proposal
      ∧ (s.rotateSlot n).ports = s.ports ∧ (s.rotateSlot n).choiceIndex = s.choiceIndex := by
  unfold State.rotateSlot
  split <;> simp

/-- Step 3 touches the Staged table alone. -/
@[simp] theorem State.commitRotation_fields (s : State) :
    s.commitRotation.pending = s.pending ∧ s.commitRotation.resetAsserted = s.resetAsserted
      ∧ s.commitRotation.active = s.active ∧ s.commitRotation.generation = s.generation
      ∧ s.commitRotation.geometry = s.geometry ∧ s.commitRotation.frame = s.frame
      ∧ s.commitRotation.frameCounter = s.frameCounter ∧ s.commitRotation.changed = s.changed
      ∧ s.commitRotation.driveCut = s.driveCut ∧ s.commitRotation.edgeTimer = s.edgeTimer
      ∧ s.commitRotation.recoveryCount = s.recoveryCount ∧ s.commitRotation.clockPhase = s.clockPhase
      ∧ s.commitRotation.beacon = s.beacon ∧ s.commitRotation.requests = s.requests
      ∧ s.commitRotation.offers = s.offers ∧ s.commitRotation.offerCounter = s.offerCounter
      ∧ s.commitRotation.edits = s.edits ∧ s.commitRotation.editCounter = s.editCounter
      ∧ s.commitRotation.plan = s.plan ∧ s.commitRotation.proposal = s.proposal
      ∧ s.commitRotation.ports = s.ports ∧ s.commitRotation.choiceIndex = s.choiceIndex := by
  unfold State.commitRotation
  generalize slotNumbers = l
  induction l generalizing s with
  | nil => simp
  | cons n l ih => simpa using ih (s.rotateSlot n)

/-- Step 7 touches the Active table and the generation number alone. -/
@[simp] theorem State.publish_fields (s : State) :
    s.publish.pending = s.pending ∧ s.publish.resetAsserted = s.resetAsserted ∧ s.publish.staged = s.staged
      ∧ s.publish.geometry = s.geometry ∧ s.publish.frame = s.frame ∧ s.publish.frameCounter = s.frameCounter
      ∧ s.publish.changed = s.changed ∧ s.publish.driveCut = s.driveCut ∧ s.publish.edgeTimer = s.edgeTimer
      ∧ s.publish.recoveryCount = s.recoveryCount ∧ s.publish.clockPhase = s.clockPhase
      ∧ s.publish.beacon = s.beacon ∧ s.publish.requests = s.requests ∧ s.publish.offers = s.offers
      ∧ s.publish.offerCounter = s.offerCounter ∧ s.publish.edits = s.edits
      ∧ s.publish.editCounter = s.editCounter ∧ s.publish.plan = s.plan ∧ s.publish.proposal = s.proposal
      ∧ s.publish.ports = s.ports ∧ s.publish.choiceIndex = s.choiceIndex := by
  exact ⟨rfl, rfl, rfl, rfl, rfl, rfl, rfl, rfl, rfl, rfl, rfl, rfl, rfl, rfl, rfl, rfl, rfl, rfl, rfl, rfl, rfl⟩

@[simp] theorem State.publish_active (s : State) : s.publish.active = s.staged := rfl

/-! ### The request queue and the allocator -/

/-- A record that joins touches the request queue alone. -/
@[simp] theorem State.enqueue_fields (s : State) (p : Port) (r : Reservation) :
    (s.enqueue p r).pending = s.pending ∧ (s.enqueue p r).resetAsserted = s.resetAsserted
      ∧ (s.enqueue p r).active = s.active ∧ (s.enqueue p r).staged = s.staged
      ∧ (s.enqueue p r).generation = s.generation ∧ (s.enqueue p r).geometry = s.geometry
      ∧ (s.enqueue p r).frame = s.frame ∧ (s.enqueue p r).frameCounter = s.frameCounter
      ∧ (s.enqueue p r).changed = s.changed ∧ (s.enqueue p r).driveCut = s.driveCut
      ∧ (s.enqueue p r).edgeTimer = s.edgeTimer ∧ (s.enqueue p r).recoveryCount = s.recoveryCount
      ∧ (s.enqueue p r).clockPhase = s.clockPhase ∧ (s.enqueue p r).beacon = s.beacon
      ∧ (s.enqueue p r).offers = s.offers ∧ (s.enqueue p r).offerCounter = s.offerCounter
      ∧ (s.enqueue p r).edits = s.edits ∧ (s.enqueue p r).editCounter = s.editCounter
      ∧ (s.enqueue p r).plan = s.plan ∧ (s.enqueue p r).proposal = s.proposal ∧ (s.enqueue p r).ports = s.ports
      ∧ (s.enqueue p r).choiceIndex = s.choiceIndex := by
  exact ⟨rfl, rfl, rfl, rfl, rfl, rfl, rfl, rfl, rfl, rfl, rfl, rfl, rfl, rfl, rfl, rfl, rfl, rfl, rfl, rfl, rfl, rfl⟩

@[simp] theorem State.enqueue_requests (s : State) (p : Port) (r : Reservation) :
    (s.enqueue p r).requests = s.requests ++ [{ port := p, res := r }] := rfl

/-- Several entries replaced touch the Staged table alone. -/
@[simp] theorem State.foldl_setStaged_fields (s : State) (e : Entry) (l : List Nat) :
    (l.foldl (fun s n => s.setStaged n e) s).pending = s.pending
      ∧ (l.foldl (fun s n => s.setStaged n e) s).resetAsserted = s.resetAsserted
      ∧ (l.foldl (fun s n => s.setStaged n e) s).active = s.active
      ∧ (l.foldl (fun s n => s.setStaged n e) s).generation = s.generation
      ∧ (l.foldl (fun s n => s.setStaged n e) s).geometry = s.geometry
      ∧ (l.foldl (fun s n => s.setStaged n e) s).frame = s.frame
      ∧ (l.foldl (fun s n => s.setStaged n e) s).frameCounter = s.frameCounter
      ∧ (l.foldl (fun s n => s.setStaged n e) s).changed = s.changed
      ∧ (l.foldl (fun s n => s.setStaged n e) s).driveCut = s.driveCut
      ∧ (l.foldl (fun s n => s.setStaged n e) s).edgeTimer = s.edgeTimer
      ∧ (l.foldl (fun s n => s.setStaged n e) s).recoveryCount = s.recoveryCount
      ∧ (l.foldl (fun s n => s.setStaged n e) s).clockPhase = s.clockPhase
      ∧ (l.foldl (fun s n => s.setStaged n e) s).beacon = s.beacon
      ∧ (l.foldl (fun s n => s.setStaged n e) s).requests = s.requests
      ∧ (l.foldl (fun s n => s.setStaged n e) s).offers = s.offers
      ∧ (l.foldl (fun s n => s.setStaged n e) s).offerCounter = s.offerCounter
      ∧ (l.foldl (fun s n => s.setStaged n e) s).edits = s.edits
      ∧ (l.foldl (fun s n => s.setStaged n e) s).editCounter = s.editCounter
      ∧ (l.foldl (fun s n => s.setStaged n e) s).plan = s.plan
      ∧ (l.foldl (fun s n => s.setStaged n e) s).proposal = s.proposal
      ∧ (l.foldl (fun s n => s.setStaged n e) s).ports = s.ports
      ∧ (l.foldl (fun s n => s.setStaged n e) s).choiceIndex = s.choiceIndex := by
  induction l generalizing s with
  | nil => simp
  | cons n l ih => simpa using ih (s.setStaged n e)

theorem State.entryAt_foldl_setStaged (s : State) (e : Entry) (l : List Nat) (m : Nat) :
    entryAt (l.foldl (fun s n => s.setStaged n e) s).staged m =
      if m ∈ l ∧ m < 64 then e else entryAt s.staged m := by
  induction l generalizing s with
  | nil => simp
  | cons n l ih =>
    rw [List.foldl_cons, ih, State.entryAt_setStaged]
    by_cases hm : m = n
    · subst hm; by_cases h64 : m < 64 <;> simp [h64]
    · simp [hm]

/-- A grant touches the Staged table, the request queue and the ports alone. -/
@[simp] theorem State.grant_fields (s : State) (r : Record) (l : List Nat) :
    (s.grant r l).pending = s.pending ∧ (s.grant r l).resetAsserted = s.resetAsserted
      ∧ (s.grant r l).active = s.active ∧ (s.grant r l).generation = s.generation
      ∧ (s.grant r l).geometry = s.geometry ∧ (s.grant r l).frame = s.frame
      ∧ (s.grant r l).frameCounter = s.frameCounter ∧ (s.grant r l).changed = s.changed
      ∧ (s.grant r l).driveCut = s.driveCut ∧ (s.grant r l).edgeTimer = s.edgeTimer
      ∧ (s.grant r l).recoveryCount = s.recoveryCount ∧ (s.grant r l).clockPhase = s.clockPhase
      ∧ (s.grant r l).beacon = s.beacon ∧ (s.grant r l).offers = s.offers
      ∧ (s.grant r l).offerCounter = s.offerCounter ∧ (s.grant r l).edits = s.edits
      ∧ (s.grant r l).editCounter = s.editCounter ∧ (s.grant r l).plan = s.plan
      ∧ (s.grant r l).proposal = s.proposal ∧ (s.grant r l).choiceIndex = s.choiceIndex := by
  simp [State.grant]

@[simp] theorem State.grant_requests (s : State) (r : Record) (l : List Nat) :
    (s.grant r l).requests = s.requests.erase r := by
  simp [State.grant]

/-- The entries after a grant (R77). -/
theorem State.entryAt_grant (s : State) (r : Record) (l : List Nat) (m : Nat) :
    entryAt (s.grant r l).staged m = if m ∈ l ∧ m < 64 then grantedEntry r.port r.res else entryAt s.staged m := by
  simp [State.grant, State.entryAt_foldl_setStaged]

theorem State.grant_told (s : State) (r : Record) (l : List Nat) : s.Told (s.grant r l) := by
  unfold State.grant
  refine State.Told.trans ?_ (State.notify_told _ _ _)
  exact State.Told.of_ports (by simp)

/-- A visit touches the Staged table, the request queue and the ports alone. -/
@[simp] theorem State.visit_fields (s : State) (r : Record) :
    (s.visit r).pending = s.pending ∧ (s.visit r).resetAsserted = s.resetAsserted
      ∧ (s.visit r).active = s.active ∧ (s.visit r).generation = s.generation
      ∧ (s.visit r).geometry = s.geometry ∧ (s.visit r).frame = s.frame
      ∧ (s.visit r).frameCounter = s.frameCounter ∧ (s.visit r).changed = s.changed
      ∧ (s.visit r).driveCut = s.driveCut ∧ (s.visit r).edgeTimer = s.edgeTimer
      ∧ (s.visit r).recoveryCount = s.recoveryCount ∧ (s.visit r).clockPhase = s.clockPhase
      ∧ (s.visit r).beacon = s.beacon ∧ (s.visit r).offers = s.offers
      ∧ (s.visit r).offerCounter = s.offerCounter ∧ (s.visit r).edits = s.edits
      ∧ (s.visit r).editCounter = s.editCounter ∧ (s.visit r).plan = s.plan ∧ (s.visit r).proposal = s.proposal
      ∧ (s.visit r).choiceIndex = s.choiceIndex := by
  unfold State.visit
  split <;> [skip; split] <;> simp

/-- All that a visit can do: nothing, or a grant of slots that meet the placement, within the quota (R73). -/
theorem State.visit_cases (s : State) (r : Record) :
    s.visit r = s ∨ ∃ l, s.findSlots r.res = some l ∧ s.holdingCount r.port + r.res.count ≤ s.quota r.port
      ∧ s.visit r = s.grant r l := by
  unfold State.visit
  split
  · exact .inl rfl
  · split
    · exact .inr ⟨_, by assumption, by assumption, rfl⟩
    · exact .inl rfl

theorem State.visit_told (s : State) (r : Record) : s.Told (s.visit r) := by
  rcases s.visit_cases r with h | ⟨l, _, _, h⟩ <;> rw [h]
  · exact State.Told.refl s
  · exact s.grant_told r l

/-- Visits touch the Staged table, the request queue and the ports alone. -/
@[simp] theorem State.foldl_visit_fields (s : State) (l : List Record) :
    (l.foldl State.visit s).pending = s.pending ∧ (l.foldl State.visit s).resetAsserted = s.resetAsserted
      ∧ (l.foldl State.visit s).active = s.active ∧ (l.foldl State.visit s).generation = s.generation
      ∧ (l.foldl State.visit s).geometry = s.geometry ∧ (l.foldl State.visit s).frame = s.frame
      ∧ (l.foldl State.visit s).frameCounter = s.frameCounter ∧ (l.foldl State.visit s).changed = s.changed
      ∧ (l.foldl State.visit s).driveCut = s.driveCut ∧ (l.foldl State.visit s).edgeTimer = s.edgeTimer
      ∧ (l.foldl State.visit s).recoveryCount = s.recoveryCount
      ∧ (l.foldl State.visit s).clockPhase = s.clockPhase ∧ (l.foldl State.visit s).beacon = s.beacon
      ∧ (l.foldl State.visit s).offers = s.offers ∧ (l.foldl State.visit s).offerCounter = s.offerCounter
      ∧ (l.foldl State.visit s).edits = s.edits ∧ (l.foldl State.visit s).editCounter = s.editCounter
      ∧ (l.foldl State.visit s).plan = s.plan ∧ (l.foldl State.visit s).proposal = s.proposal
      ∧ (l.foldl State.visit s).choiceIndex = s.choiceIndex := by
  induction l generalizing s with
  | nil => simp
  | cons r l ih => simpa using ih (s.visit r)

/-- A pass touches the Staged table, the request queue and the ports alone. -/
@[simp] theorem State.visitAll_fields (s : State) :
    s.visitAll.pending = s.pending ∧ s.visitAll.resetAsserted = s.resetAsserted ∧ s.visitAll.active = s.active
      ∧ s.visitAll.generation = s.generation ∧ s.visitAll.geometry = s.geometry ∧ s.visitAll.frame = s.frame
      ∧ s.visitAll.frameCounter = s.frameCounter ∧ s.visitAll.changed = s.changed
      ∧ s.visitAll.driveCut = s.driveCut ∧ s.visitAll.edgeTimer = s.edgeTimer
      ∧ s.visitAll.recoveryCount = s.recoveryCount ∧ s.visitAll.clockPhase = s.clockPhase
      ∧ s.visitAll.beacon = s.beacon ∧ s.visitAll.offers = s.offers ∧ s.visitAll.offerCounter = s.offerCounter
      ∧ s.visitAll.edits = s.edits ∧ s.visitAll.editCounter = s.editCounter ∧ s.visitAll.plan = s.plan
      ∧ s.visitAll.proposal = s.proposal ∧ s.visitAll.choiceIndex = s.choiceIndex := by
  simp [State.visitAll]

theorem State.visitAll_told (s : State) : s.Told s.visitAll :=
  foldl_invariant _ (fun t => s.Told t) _ _ (State.Told.refl s) (fun t r _ h => h.trans (t.visit_told r))

/-- Records that lapse touch the request queue and the ports alone. -/
@[simp] theorem State.lapseRecords_fields (s : State) (gone : Record → Bool) (why : Reason) :
    (s.lapseRecords gone why).pending = s.pending ∧ (s.lapseRecords gone why).resetAsserted = s.resetAsserted
      ∧ (s.lapseRecords gone why).active = s.active ∧ (s.lapseRecords gone why).staged = s.staged
      ∧ (s.lapseRecords gone why).generation = s.generation ∧ (s.lapseRecords gone why).geometry = s.geometry
      ∧ (s.lapseRecords gone why).frame = s.frame ∧ (s.lapseRecords gone why).frameCounter = s.frameCounter
      ∧ (s.lapseRecords gone why).changed = s.changed ∧ (s.lapseRecords gone why).driveCut = s.driveCut
      ∧ (s.lapseRecords gone why).edgeTimer = s.edgeTimer
      ∧ (s.lapseRecords gone why).recoveryCount = s.recoveryCount
      ∧ (s.lapseRecords gone why).clockPhase = s.clockPhase ∧ (s.lapseRecords gone why).beacon = s.beacon
      ∧ (s.lapseRecords gone why).offers = s.offers ∧ (s.lapseRecords gone why).offerCounter = s.offerCounter
      ∧ (s.lapseRecords gone why).edits = s.edits ∧ (s.lapseRecords gone why).editCounter = s.editCounter
      ∧ (s.lapseRecords gone why).plan = s.plan ∧ (s.lapseRecords gone why).proposal = s.proposal
      ∧ (s.lapseRecords gone why).choiceIndex = s.choiceIndex := by
  simp [State.lapseRecords]

@[simp] theorem State.lapseRecords_requests (s : State) (gone : Record → Bool) (why : Reason) :
    (s.lapseRecords gone why).requests = s.requests.filter (fun r => !gone r) := by
  simp [State.lapseRecords]

theorem State.lapseRecords_told (s : State) (gone : Record → Bool) (why : Reason) : s.Told (s.lapseRecords gone why) := by
  refine State.Told.trans ?_ (State.deliver_told _ _)
  exact State.Told.of_ports rfl

/-- The walk of R79 touches the request queue and the ports alone. -/
@[simp] theorem State.countWaits_fields (s : State) :
    s.countWaits.pending = s.pending ∧ s.countWaits.resetAsserted = s.resetAsserted
      ∧ s.countWaits.active = s.active ∧ s.countWaits.staged = s.staged
      ∧ s.countWaits.generation = s.generation ∧ s.countWaits.geometry = s.geometry
      ∧ s.countWaits.frame = s.frame ∧ s.countWaits.frameCounter = s.frameCounter
      ∧ s.countWaits.changed = s.changed ∧ s.countWaits.driveCut = s.driveCut
      ∧ s.countWaits.edgeTimer = s.edgeTimer ∧ s.countWaits.recoveryCount = s.recoveryCount
      ∧ s.countWaits.clockPhase = s.clockPhase ∧ s.countWaits.beacon = s.beacon
      ∧ s.countWaits.offers = s.offers ∧ s.countWaits.offerCounter = s.offerCounter
      ∧ s.countWaits.edits = s.edits ∧ s.countWaits.editCounter = s.editCounter ∧ s.countWaits.plan = s.plan
      ∧ s.countWaits.proposal = s.proposal ∧ s.countWaits.choiceIndex = s.choiceIndex := by
  simp [State.countWaits]

/-- The records after the walk of R79. -/
@[simp] theorem State.countWaits_requests (s : State) :
    s.countWaits.requests = (s.requests.filter (fun r => !(r.res.wait == 0))).map Record.waited := by
  simp [State.countWaits]

theorem State.countWaits_told (s : State) : s.Told s.countWaits := by
  have h := s.lapseRecords_told (fun r => r.res.wait == 0) .wait
  exact h.trans (State.Told.of_ports rfl)

/-- Step 6 touches the Staged table, the request queue and the ports alone. -/
@[simp] theorem State.commitAllocator_fields (s : State) :
    s.commitAllocator.pending = s.pending ∧ s.commitAllocator.resetAsserted = s.resetAsserted
      ∧ s.commitAllocator.active = s.active ∧ s.commitAllocator.generation = s.generation
      ∧ s.commitAllocator.geometry = s.geometry ∧ s.commitAllocator.frame = s.frame
      ∧ s.commitAllocator.frameCounter = s.frameCounter ∧ s.commitAllocator.changed = s.changed
      ∧ s.commitAllocator.driveCut = s.driveCut ∧ s.commitAllocator.edgeTimer = s.edgeTimer
      ∧ s.commitAllocator.recoveryCount = s.recoveryCount ∧ s.commitAllocator.clockPhase = s.clockPhase
      ∧ s.commitAllocator.beacon = s.beacon ∧ s.commitAllocator.offers = s.offers
      ∧ s.commitAllocator.offerCounter = s.offerCounter ∧ s.commitAllocator.edits = s.edits
      ∧ s.commitAllocator.editCounter = s.editCounter ∧ s.commitAllocator.plan = s.plan
      ∧ s.commitAllocator.proposal = s.proposal ∧ s.commitAllocator.choiceIndex = s.choiceIndex := by
  simp [State.commitAllocator]

theorem State.commitAllocator_told (s : State) : s.Told s.commitAllocator :=
  s.visitAll_told.trans s.visitAll.countWaits_told

/-! ### The Offer Table -/

/-- An acceptance touches the Staged table, the offer table and the ports alone. -/
@[simp] theorem State.acceptOffer_fields (s : State) (o : Offer) :
    (s.acceptOffer o).pending = s.pending ∧ (s.acceptOffer o).resetAsserted = s.resetAsserted
      ∧ (s.acceptOffer o).active = s.active ∧ (s.acceptOffer o).generation = s.generation
      ∧ (s.acceptOffer o).geometry = s.geometry ∧ (s.acceptOffer o).frame = s.frame
      ∧ (s.acceptOffer o).frameCounter = s.frameCounter ∧ (s.acceptOffer o).changed = s.changed
      ∧ (s.acceptOffer o).driveCut = s.driveCut ∧ (s.acceptOffer o).edgeTimer = s.edgeTimer
      ∧ (s.acceptOffer o).recoveryCount = s.recoveryCount ∧ (s.acceptOffer o).clockPhase = s.clockPhase
      ∧ (s.acceptOffer o).beacon = s.beacon ∧ (s.acceptOffer o).requests = s.requests
      ∧ (s.acceptOffer o).offerCounter = s.offerCounter ∧ (s.acceptOffer o).edits = s.edits
      ∧ (s.acceptOffer o).editCounter = s.editCounter ∧ (s.acceptOffer o).plan = s.plan
      ∧ (s.acceptOffer o).proposal = s.proposal ∧ (s.acceptOffer o).choiceIndex = s.choiceIndex := by
  simp [State.acceptOffer]

@[simp] theorem State.acceptOffer_offers (s : State) (o : Offer) :
    (s.acceptOffer o).offers = s.offers.filter (fun x => x.id != o.id) := by
  simp [State.acceptOffer]

/-- The entries after an acceptance (R92). -/
theorem State.entryAt_acceptOffer (s : State) (o : Offer) (m : Nat) :
    entryAt (s.acceptOffer o).staged m =
      if m = o.slot ∧ o.slot < 64 then (entryAt s.staged o.slot).accepted o else entryAt s.staged m := by
  simp [State.acceptOffer, State.entryAt_setStaged]

theorem State.acceptOffer_told (s : State) (o : Offer) : s.Told (s.acceptOffer o) := by
  unfold State.acceptOffer
  refine State.Told.trans ?_ (State.tellMembers_told _ _ _ _ _)
  refine State.Told.trans ?_ (State.notify_told _ _ _)
  exact State.Told.of_ports rfl

/-- A refused offer touches the offer table and the ports alone. -/
@[simp] theorem State.refuseOffer_fields (s : State) (o : Offer) (why : Reason) :
    (s.refuseOffer o why).pending = s.pending ∧ (s.refuseOffer o why).resetAsserted = s.resetAsserted
      ∧ (s.refuseOffer o why).active = s.active ∧ (s.refuseOffer o why).staged = s.staged
      ∧ (s.refuseOffer o why).generation = s.generation ∧ (s.refuseOffer o why).geometry = s.geometry
      ∧ (s.refuseOffer o why).frame = s.frame ∧ (s.refuseOffer o why).frameCounter = s.frameCounter
      ∧ (s.refuseOffer o why).changed = s.changed ∧ (s.refuseOffer o why).driveCut = s.driveCut
      ∧ (s.refuseOffer o why).edgeTimer = s.edgeTimer ∧ (s.refuseOffer o why).recoveryCount = s.recoveryCount
      ∧ (s.refuseOffer o why).clockPhase = s.clockPhase ∧ (s.refuseOffer o why).beacon = s.beacon
      ∧ (s.refuseOffer o why).requests = s.requests ∧ (s.refuseOffer o why).offerCounter = s.offerCounter
      ∧ (s.refuseOffer o why).edits = s.edits ∧ (s.refuseOffer o why).editCounter = s.editCounter
      ∧ (s.refuseOffer o why).plan = s.plan ∧ (s.refuseOffer o why).proposal = s.proposal
      ∧ (s.refuseOffer o why).choiceIndex = s.choiceIndex := by
  simp [State.refuseOffer]

@[simp] theorem State.refuseOffer_offers (s : State) (o : Offer) (why : Reason) :
    (s.refuseOffer o why).offers = s.offers.filter (fun x => x.id != o.id) := by
  simp [State.refuseOffer]

theorem State.refuseOffer_told (s : State) (o : Offer) (why : Reason) : s.Told (s.refuseOffer o why) := by
  refine State.Told.trans ?_ (State.notify_told _ _ _)
  exact State.Told.of_ports rfl

/-- The offer countdown touches the offer table alone. -/
@[simp] theorem State.countOffers_fields (s : State) :
    s.countOffers.pending = s.pending ∧ s.countOffers.resetAsserted = s.resetAsserted
      ∧ s.countOffers.active = s.active ∧ s.countOffers.staged = s.staged
      ∧ s.countOffers.generation = s.generation ∧ s.countOffers.geometry = s.geometry
      ∧ s.countOffers.frame = s.frame ∧ s.countOffers.frameCounter = s.frameCounter
      ∧ s.countOffers.changed = s.changed ∧ s.countOffers.driveCut = s.driveCut
      ∧ s.countOffers.edgeTimer = s.edgeTimer ∧ s.countOffers.recoveryCount = s.recoveryCount
      ∧ s.countOffers.clockPhase = s.clockPhase ∧ s.countOffers.beacon = s.beacon
      ∧ s.countOffers.requests = s.requests ∧ s.countOffers.offerCounter = s.offerCounter
      ∧ s.countOffers.edits = s.edits ∧ s.countOffers.editCounter = s.editCounter ∧ s.countOffers.plan = s.plan
      ∧ s.countOffers.proposal = s.proposal ∧ s.countOffers.ports = s.ports
      ∧ s.countOffers.choiceIndex = s.choiceIndex := by
  exact ⟨rfl, rfl, rfl, rfl, rfl, rfl, rfl, rfl, rfl, rfl, rfl, rfl, rfl, rfl, rfl, rfl, rfl, rfl, rfl, rfl, rfl, rfl⟩

/-! ### The Timed Edit List -/

/-- A failed edit touches the ports alone. -/
@[simp] theorem State.failEdit_fields (s : State) (e : Edit) (why : Reason) :
    (s.failEdit e why).pending = s.pending ∧ (s.failEdit e why).resetAsserted = s.resetAsserted
      ∧ (s.failEdit e why).active = s.active ∧ (s.failEdit e why).staged = s.staged
      ∧ (s.failEdit e why).generation = s.generation ∧ (s.failEdit e why).geometry = s.geometry
      ∧ (s.failEdit e why).frame = s.frame ∧ (s.failEdit e why).frameCounter = s.frameCounter
      ∧ (s.failEdit e why).changed = s.changed ∧ (s.failEdit e why).driveCut = s.driveCut
      ∧ (s.failEdit e why).edgeTimer = s.edgeTimer ∧ (s.failEdit e why).recoveryCount = s.recoveryCount
      ∧ (s.failEdit e why).clockPhase = s.clockPhase ∧ (s.failEdit e why).beacon = s.beacon
      ∧ (s.failEdit e why).requests = s.requests ∧ (s.failEdit e why).offers = s.offers
      ∧ (s.failEdit e why).offerCounter = s.offerCounter ∧ (s.failEdit e why).edits = s.edits
      ∧ (s.failEdit e why).editCounter = s.editCounter ∧ (s.failEdit e why).plan = s.plan
      ∧ (s.failEdit e why).proposal = s.proposal ∧ (s.failEdit e why).choiceIndex = s.choiceIndex := by
  simp [State.failEdit]

theorem State.failEdit_told (s : State) (e : Edit) (why : Reason) : s.Told (s.failEdit e why) := by
  exact State.notify_told _ _ _

/-- A timed RELEASE touches the Staged table, the offer table and the ports alone. -/
@[simp] theorem State.applyRelease_fields (s : State) (e : Edit) (n : Nat) :
    (s.applyRelease e n).pending = s.pending ∧ (s.applyRelease e n).resetAsserted = s.resetAsserted
      ∧ (s.applyRelease e n).active = s.active ∧ (s.applyRelease e n).generation = s.generation
      ∧ (s.applyRelease e n).geometry = s.geometry ∧ (s.applyRelease e n).frame = s.frame
      ∧ (s.applyRelease e n).frameCounter = s.frameCounter ∧ (s.applyRelease e n).changed = s.changed
      ∧ (s.applyRelease e n).driveCut = s.driveCut ∧ (s.applyRelease e n).edgeTimer = s.edgeTimer
      ∧ (s.applyRelease e n).recoveryCount = s.recoveryCount ∧ (s.applyRelease e n).clockPhase = s.clockPhase
      ∧ (s.applyRelease e n).beacon = s.beacon ∧ (s.applyRelease e n).requests = s.requests
      ∧ (s.applyRelease e n).offerCounter = s.offerCounter ∧ (s.applyRelease e n).edits = s.edits
      ∧ (s.applyRelease e n).editCounter = s.editCounter ∧ (s.applyRelease e n).plan = s.plan
      ∧ (s.applyRelease e n).proposal = s.proposal ∧ (s.applyRelease e n).choiceIndex = s.choiceIndex := by
  unfold State.applyRelease
  dsimp only
  split <;> simp

theorem State.applyRelease_told (s : State) (e : Edit) (n : Nat) : s.Told (s.applyRelease e n) := by
  unfold State.applyRelease
  dsimp only
  split
  · exact (State.giveUpSlot_told _ _ _ _).trans (State.notify_told _ _ _)
  · exact State.failEdit_told _ _ _

/-- A timed RENEW touches the Staged table and the ports alone. -/
@[simp] theorem State.applyRenew_fields (s : State) (e : Edit) (n : Nat) (l : Half) :
    (s.applyRenew e n l).pending = s.pending ∧ (s.applyRenew e n l).resetAsserted = s.resetAsserted
      ∧ (s.applyRenew e n l).active = s.active ∧ (s.applyRenew e n l).generation = s.generation
      ∧ (s.applyRenew e n l).geometry = s.geometry ∧ (s.applyRenew e n l).frame = s.frame
      ∧ (s.applyRenew e n l).frameCounter = s.frameCounter ∧ (s.applyRenew e n l).changed = s.changed
      ∧ (s.applyRenew e n l).driveCut = s.driveCut ∧ (s.applyRenew e n l).edgeTimer = s.edgeTimer
      ∧ (s.applyRenew e n l).recoveryCount = s.recoveryCount ∧ (s.applyRenew e n l).clockPhase = s.clockPhase
      ∧ (s.applyRenew e n l).beacon = s.beacon ∧ (s.applyRenew e n l).requests = s.requests
      ∧ (s.applyRenew e n l).offers = s.offers ∧ (s.applyRenew e n l).offerCounter = s.offerCounter
      ∧ (s.applyRenew e n l).edits = s.edits ∧ (s.applyRenew e n l).editCounter = s.editCounter
      ∧ (s.applyRenew e n l).plan = s.plan ∧ (s.applyRenew e n l).proposal = s.proposal
      ∧ (s.applyRenew e n l).choiceIndex = s.choiceIndex := by
  unfold State.applyRenew
  dsimp only
  split <;> [split; skip] <;> simp

theorem State.applyRenew_told (s : State) (e : Edit) (n : Nat) (l : Half) : s.Told (s.applyRenew e n l) := by
  unfold State.applyRenew
  dsimp only
  split
  · split
    · refine State.Told.trans ?_ (State.notify_told _ _ _)
      exact State.Told.of_ports rfl
    · exact State.failEdit_told _ _ _
  · exact State.failEdit_told _ _ _

/-- A timed ENQUEUE touches the request queue and the ports alone. -/
@[simp] theorem State.applyEnqueue_fields (s : State) (e : Edit) (r : Reservation) :
    (s.applyEnqueue e r).pending = s.pending ∧ (s.applyEnqueue e r).resetAsserted = s.resetAsserted
      ∧ (s.applyEnqueue e r).active = s.active ∧ (s.applyEnqueue e r).staged = s.staged
      ∧ (s.applyEnqueue e r).generation = s.generation ∧ (s.applyEnqueue e r).geometry = s.geometry
      ∧ (s.applyEnqueue e r).frame = s.frame ∧ (s.applyEnqueue e r).frameCounter = s.frameCounter
      ∧ (s.applyEnqueue e r).changed = s.changed ∧ (s.applyEnqueue e r).driveCut = s.driveCut
      ∧ (s.applyEnqueue e r).edgeTimer = s.edgeTimer ∧ (s.applyEnqueue e r).recoveryCount = s.recoveryCount
      ∧ (s.applyEnqueue e r).clockPhase = s.clockPhase ∧ (s.applyEnqueue e r).beacon = s.beacon
      ∧ (s.applyEnqueue e r).offers = s.offers ∧ (s.applyEnqueue e r).offerCounter = s.offerCounter
      ∧ (s.applyEnqueue e r).edits = s.edits ∧ (s.applyEnqueue e r).editCounter = s.editCounter
      ∧ (s.applyEnqueue e r).plan = s.plan ∧ (s.applyEnqueue e r).proposal = s.proposal
      ∧ (s.applyEnqueue e r).choiceIndex = s.choiceIndex := by
  unfold State.applyEnqueue
  split <;> [skip; (split <;> [skip; split])] <;> simp

theorem State.applyEnqueue_told (s : State) (e : Edit) (r : Reservation) : s.Told (s.applyEnqueue e r) := by
  unfold State.applyEnqueue
  split
  · exact State.failEdit_told _ _ _
  · split
    · exact State.failEdit_told _ _ _
    · split
      · exact State.failEdit_told _ _ _
      · refine State.Told.trans ?_ (State.notify_told _ _ _)
        exact State.Told.of_ports rfl

/-- A timed edit touches the Staged table, the offer table, the request queue and the ports alone. -/
@[simp] theorem State.applyEdit_fields (s : State) (e : Edit) :
    (s.applyEdit e).pending = s.pending ∧ (s.applyEdit e).resetAsserted = s.resetAsserted
      ∧ (s.applyEdit e).active = s.active ∧ (s.applyEdit e).generation = s.generation
      ∧ (s.applyEdit e).geometry = s.geometry ∧ (s.applyEdit e).frame = s.frame
      ∧ (s.applyEdit e).frameCounter = s.frameCounter ∧ (s.applyEdit e).changed = s.changed
      ∧ (s.applyEdit e).driveCut = s.driveCut ∧ (s.applyEdit e).edgeTimer = s.edgeTimer
      ∧ (s.applyEdit e).recoveryCount = s.recoveryCount ∧ (s.applyEdit e).clockPhase = s.clockPhase
      ∧ (s.applyEdit e).beacon = s.beacon ∧ (s.applyEdit e).offerCounter = s.offerCounter
      ∧ (s.applyEdit e).edits = s.edits ∧ (s.applyEdit e).editCounter = s.editCounter
      ∧ (s.applyEdit e).plan = s.plan ∧ (s.applyEdit e).proposal = s.proposal
      ∧ (s.applyEdit e).choiceIndex = s.choiceIndex := by
  unfold State.applyEdit
  split <;> simp

theorem State.applyEdit_told (s : State) (e : Edit) : s.Told (s.applyEdit e) := by
  unfold State.applyEdit
  split
  · exact State.applyRelease_told _ _ _
  · exact State.applyRenew_told _ _ _ _
  · exact State.applyEnqueue_told _ _ _

/-- The head of the list applied touches the list and what the edit touches. -/
@[simp] theorem State.applyHead_fields (s : State) (e : Edit) :
    (s.applyHead e).pending = s.pending ∧ (s.applyHead e).resetAsserted = s.resetAsserted
      ∧ (s.applyHead e).active = s.active ∧ (s.applyHead e).generation = s.generation
      ∧ (s.applyHead e).geometry = s.geometry ∧ (s.applyHead e).frame = s.frame
      ∧ (s.applyHead e).frameCounter = s.frameCounter ∧ (s.applyHead e).changed = s.changed
      ∧ (s.applyHead e).driveCut = s.driveCut ∧ (s.applyHead e).edgeTimer = s.edgeTimer
      ∧ (s.applyHead e).recoveryCount = s.recoveryCount ∧ (s.applyHead e).clockPhase = s.clockPhase
      ∧ (s.applyHead e).beacon = s.beacon ∧ (s.applyHead e).offerCounter = s.offerCounter
      ∧ (s.applyHead e).editCounter = s.editCounter ∧ (s.applyHead e).plan = s.plan
      ∧ (s.applyHead e).proposal = s.proposal ∧ (s.applyHead e).choiceIndex = s.choiceIndex := by
  simp [State.applyHead]

@[simp] theorem State.applyHead_edits (s : State) (e : Edit) : (s.applyHead e).edits = s.edits.tail := by
  simp [State.applyHead]

theorem State.applyHead_told (s : State) (e : Edit) : s.Told (s.applyHead e) := by
  refine State.Told.trans ?_ (State.applyEdit_told _ _)
  exact State.Told.of_ports rfl

/-- Several edits applied touch the list and what the edits touch. -/
@[simp] theorem State.foldl_applyHead_fields (s : State) (l : List Edit) :
    (l.foldl State.applyHead s).pending = s.pending
      ∧ (l.foldl State.applyHead s).resetAsserted = s.resetAsserted
      ∧ (l.foldl State.applyHead s).active = s.active ∧ (l.foldl State.applyHead s).generation = s.generation
      ∧ (l.foldl State.applyHead s).geometry = s.geometry ∧ (l.foldl State.applyHead s).frame = s.frame
      ∧ (l.foldl State.applyHead s).frameCounter = s.frameCounter
      ∧ (l.foldl State.applyHead s).changed = s.changed ∧ (l.foldl State.applyHead s).driveCut = s.driveCut
      ∧ (l.foldl State.applyHead s).edgeTimer = s.edgeTimer
      ∧ (l.foldl State.applyHead s).recoveryCount = s.recoveryCount
      ∧ (l.foldl State.applyHead s).clockPhase = s.clockPhase ∧ (l.foldl State.applyHead s).beacon = s.beacon
      ∧ (l.foldl State.applyHead s).offerCounter = s.offerCounter
      ∧ (l.foldl State.applyHead s).editCounter = s.editCounter ∧ (l.foldl State.applyHead s).plan = s.plan
      ∧ (l.foldl State.applyHead s).proposal = s.proposal
      ∧ (l.foldl State.applyHead s).choiceIndex = s.choiceIndex := by
  induction l generalizing s with
  | nil => simp
  | cons e l ih => simpa using ih (s.applyHead e)

theorem State.foldl_applyHead_edits (s : State) (l : List Edit) :
    (l.foldl State.applyHead s).edits = s.edits.drop l.length := by
  induction l generalizing s with
  | nil => simp
  | cons e l ih => rw [List.foldl_cons, ih]; simp

/-- Step 4 touches the list and what the edits touch. -/
@[simp] theorem State.commitEdits_fields (s : State) :
    s.commitEdits.pending = s.pending ∧ s.commitEdits.resetAsserted = s.resetAsserted
      ∧ s.commitEdits.active = s.active ∧ s.commitEdits.generation = s.generation
      ∧ s.commitEdits.geometry = s.geometry ∧ s.commitEdits.frame = s.frame
      ∧ s.commitEdits.frameCounter = s.frameCounter ∧ s.commitEdits.changed = s.changed
      ∧ s.commitEdits.driveCut = s.driveCut ∧ s.commitEdits.edgeTimer = s.edgeTimer
      ∧ s.commitEdits.recoveryCount = s.recoveryCount ∧ s.commitEdits.clockPhase = s.clockPhase
      ∧ s.commitEdits.beacon = s.beacon ∧ s.commitEdits.offerCounter = s.offerCounter
      ∧ s.commitEdits.editCounter = s.editCounter ∧ s.commitEdits.plan = s.plan
      ∧ s.commitEdits.proposal = s.proposal ∧ s.commitEdits.choiceIndex = s.choiceIndex := by
  simp [State.commitEdits]

/-- The due edits, which stand at the head, have left the list after step 4 (R111). -/
@[simp] theorem State.commitEdits_edits (s : State) : s.commitEdits.edits = s.edits.dropWhile s.editDue := by
  rw [State.commitEdits, State.foldl_applyHead_edits]
  generalize s.editDue = f
  induction s.edits with
  | nil => rfl
  | cons e l ih => by_cases h : f e <;> simp [h, ih]

theorem State.commitEdits_told (s : State) : s.Told s.commitEdits :=
  foldl_invariant _ (fun t => s.Told t) _ _ (State.Told.refl s) (fun t e _ h => h.trans (t.applyHead_told e))

end Sys2Proof.Machine
end

