-- ==== Sys2Proof/Laws/Frame.lean ====
section
/-! SUPPORT. What the operations of the Plan Unit, the Frame Generator and the Port Interfaces can do: the fields each
leaves, and that a port changes by notices alone. -/

namespace Sys2Proof.Machine

open Sys2Proof

/-! ### The Plan Unit -/

/-- A proposal judged touches the proposal and the ports alone. -/
@[simp] theorem State.judgeProposal_fields (s : State) (pr : Proposal) (d : Nat) :
    (s.judgeProposal pr d).pending = s.pending ∧ (s.judgeProposal pr d).resetAsserted = s.resetAsserted
      ∧ (s.judgeProposal pr d).active = s.active ∧ (s.judgeProposal pr d).staged = s.staged
      ∧ (s.judgeProposal pr d).generation = s.generation ∧ (s.judgeProposal pr d).geometry = s.geometry
      ∧ (s.judgeProposal pr d).frame = s.frame ∧ (s.judgeProposal pr d).frameCounter = s.frameCounter
      ∧ (s.judgeProposal pr d).changed = s.changed ∧ (s.judgeProposal pr d).driveCut = s.driveCut
      ∧ (s.judgeProposal pr d).edgeTimer = s.edgeTimer ∧ (s.judgeProposal pr d).recoveryCount = s.recoveryCount
      ∧ (s.judgeProposal pr d).clockPhase = s.clockPhase ∧ (s.judgeProposal pr d).beacon = s.beacon
      ∧ (s.judgeProposal pr d).requests = s.requests ∧ (s.judgeProposal pr d).offers = s.offers
      ∧ (s.judgeProposal pr d).offerCounter = s.offerCounter ∧ (s.judgeProposal pr d).edits = s.edits
      ∧ (s.judgeProposal pr d).editCounter = s.editCounter ∧ (s.judgeProposal pr d).plan = s.plan
      ∧ (s.judgeProposal pr d).choiceIndex = s.choiceIndex := by
  unfold State.judgeProposal
  split <;> simp

@[simp] theorem State.judgeProposal_proposal (s : State) (pr : Proposal) (d : Nat) :
    (s.judgeProposal pr d).proposal = if pr.complete then .agreed pr (s.frameCounter + 1) else .opened pr d := by
  unfold State.judgeProposal
  split <;> simp

theorem State.judgeProposal_told (s : State) (pr : Proposal) (d : Nat) : s.Told (s.judgeProposal pr d) := by
  unfold State.judgeProposal
  split
  · refine State.Told.trans ?_ (State.notifyAll_told _ _ _)
    exact State.Told.of_ports rfl
  · exact State.Told.of_ports rfl

/-- A proposal that fails touches the proposal and the ports alone. -/
@[simp] theorem State.failProposal_fields (s : State) (pr : Proposal) (why : Reason) (who : Port) :
    (s.failProposal pr why who).pending = s.pending
      ∧ (s.failProposal pr why who).resetAsserted = s.resetAsserted
      ∧ (s.failProposal pr why who).active = s.active ∧ (s.failProposal pr why who).staged = s.staged
      ∧ (s.failProposal pr why who).generation = s.generation
      ∧ (s.failProposal pr why who).geometry = s.geometry ∧ (s.failProposal pr why who).frame = s.frame
      ∧ (s.failProposal pr why who).frameCounter = s.frameCounter
      ∧ (s.failProposal pr why who).changed = s.changed ∧ (s.failProposal pr why who).driveCut = s.driveCut
      ∧ (s.failProposal pr why who).edgeTimer = s.edgeTimer
      ∧ (s.failProposal pr why who).recoveryCount = s.recoveryCount
      ∧ (s.failProposal pr why who).clockPhase = s.clockPhase ∧ (s.failProposal pr why who).beacon = s.beacon
      ∧ (s.failProposal pr why who).requests = s.requests ∧ (s.failProposal pr why who).offers = s.offers
      ∧ (s.failProposal pr why who).offerCounter = s.offerCounter ∧ (s.failProposal pr why who).edits = s.edits
      ∧ (s.failProposal pr why who).editCounter = s.editCounter ∧ (s.failProposal pr why who).plan = s.plan
      ∧ (s.failProposal pr why who).choiceIndex = s.choiceIndex := by
  simp [State.failProposal]

@[simp] theorem State.failProposal_proposal (s : State) (pr : Proposal) (why : Reason) (who : Port) :
    (s.failProposal pr why who).proposal = .none := by
  simp [State.failProposal]

theorem State.failProposal_told (s : State) (pr : Proposal) (why : Reason) (who : Port) : s.Told (s.failProposal pr why who) := by
  refine State.Told.trans ?_ (State.deliver_told _ _)
  exact State.Told.of_ports rfl

/-- A detach touches the proposal and the ports alone in its work on the proposal. -/
@[simp] theorem State.leaveProposal_fields (s : State) (p : Port) :
    (s.leaveProposal p).1.pending = s.pending ∧ (s.leaveProposal p).1.resetAsserted = s.resetAsserted
      ∧ (s.leaveProposal p).1.active = s.active ∧ (s.leaveProposal p).1.staged = s.staged
      ∧ (s.leaveProposal p).1.generation = s.generation ∧ (s.leaveProposal p).1.geometry = s.geometry
      ∧ (s.leaveProposal p).1.frame = s.frame ∧ (s.leaveProposal p).1.frameCounter = s.frameCounter
      ∧ (s.leaveProposal p).1.changed = s.changed ∧ (s.leaveProposal p).1.driveCut = s.driveCut
      ∧ (s.leaveProposal p).1.edgeTimer = s.edgeTimer ∧ (s.leaveProposal p).1.recoveryCount = s.recoveryCount
      ∧ (s.leaveProposal p).1.clockPhase = s.clockPhase ∧ (s.leaveProposal p).1.beacon = s.beacon
      ∧ (s.leaveProposal p).1.requests = s.requests ∧ (s.leaveProposal p).1.offers = s.offers
      ∧ (s.leaveProposal p).1.offerCounter = s.offerCounter ∧ (s.leaveProposal p).1.edits = s.edits
      ∧ (s.leaveProposal p).1.editCounter = s.editCounter ∧ (s.leaveProposal p).1.plan = s.plan
      ∧ (s.leaveProposal p).1.choiceIndex = s.choiceIndex := by
  unfold State.leaveProposal
  split
  · simp
  · simp
  · split
    · simp
    · dsimp only
      split <;> simp

theorem State.leaveProposal_told (s : State) (p : Port) : s.Told (s.leaveProposal p).1 := by
  unfold State.leaveProposal
  split
  · exact State.Told.refl s
  · exact State.Told.refl s
  · split
    · exact State.Told.refl s
    · dsimp only
      split
      · exact State.failProposal_told _ _ _ _
      · exact State.judgeProposal_told _ _ _

/-- The deadline countdown touches the proposal alone. -/
@[simp] theorem State.countDeadline_fields (s : State) :
    s.countDeadline.pending = s.pending ∧ s.countDeadline.resetAsserted = s.resetAsserted
      ∧ s.countDeadline.active = s.active ∧ s.countDeadline.staged = s.staged
      ∧ s.countDeadline.generation = s.generation ∧ s.countDeadline.geometry = s.geometry
      ∧ s.countDeadline.frame = s.frame ∧ s.countDeadline.frameCounter = s.frameCounter
      ∧ s.countDeadline.changed = s.changed ∧ s.countDeadline.driveCut = s.driveCut
      ∧ s.countDeadline.edgeTimer = s.edgeTimer ∧ s.countDeadline.recoveryCount = s.recoveryCount
      ∧ s.countDeadline.clockPhase = s.clockPhase ∧ s.countDeadline.beacon = s.beacon
      ∧ s.countDeadline.requests = s.requests ∧ s.countDeadline.offers = s.offers
      ∧ s.countDeadline.offerCounter = s.offerCounter ∧ s.countDeadline.edits = s.edits
      ∧ s.countDeadline.editCounter = s.editCounter ∧ s.countDeadline.plan = s.plan
      ∧ s.countDeadline.ports = s.ports ∧ s.countDeadline.choiceIndex = s.choiceIndex := by
  unfold State.countDeadline
  split <;> simp

/-- A revocation touches the Staged table, the offer table and the ports alone. -/
@[simp] theorem State.revokeSlot_fields (s : State) (n : Nat) :
    (s.revokeSlot n).pending = s.pending ∧ (s.revokeSlot n).resetAsserted = s.resetAsserted
      ∧ (s.revokeSlot n).active = s.active ∧ (s.revokeSlot n).generation = s.generation
      ∧ (s.revokeSlot n).geometry = s.geometry ∧ (s.revokeSlot n).frame = s.frame
      ∧ (s.revokeSlot n).frameCounter = s.frameCounter ∧ (s.revokeSlot n).changed = s.changed
      ∧ (s.revokeSlot n).driveCut = s.driveCut ∧ (s.revokeSlot n).edgeTimer = s.edgeTimer
      ∧ (s.revokeSlot n).recoveryCount = s.recoveryCount ∧ (s.revokeSlot n).clockPhase = s.clockPhase
      ∧ (s.revokeSlot n).beacon = s.beacon ∧ (s.revokeSlot n).requests = s.requests
      ∧ (s.revokeSlot n).offerCounter = s.offerCounter ∧ (s.revokeSlot n).edits = s.edits
      ∧ (s.revokeSlot n).editCounter = s.editCounter ∧ (s.revokeSlot n).plan = s.plan
      ∧ (s.revokeSlot n).proposal = s.proposal ∧ (s.revokeSlot n).choiceIndex = s.choiceIndex := by
  simp [State.revokeSlot]

@[simp] theorem State.revokeSlot_staged (s : State) (n : Nat) :
    (s.revokeSlot n).staged = (s.setStaged n .free).staged := by
  simp [State.revokeSlot]

theorem State.revokeSlot_told (s : State) (n : Nat) : s.Told (s.revokeSlot n) := by
  have h : s.Told (s.setStaged n .free) := State.Told.of_ports rfl
  exact (h.trans (State.notifyAll_told _ _ _)).trans (State.voidOfferOn_told _ _ _ _)

/-- Revocations touch the Staged table, the offer table and the ports alone. -/
@[simp] theorem State.foldl_revokeSlot_fields (s : State) (l : List Nat) :
    (l.foldl State.revokeSlot s).pending = s.pending
      ∧ (l.foldl State.revokeSlot s).resetAsserted = s.resetAsserted
      ∧ (l.foldl State.revokeSlot s).active = s.active ∧ (l.foldl State.revokeSlot s).generation = s.generation
      ∧ (l.foldl State.revokeSlot s).geometry = s.geometry ∧ (l.foldl State.revokeSlot s).frame = s.frame
      ∧ (l.foldl State.revokeSlot s).frameCounter = s.frameCounter
      ∧ (l.foldl State.revokeSlot s).changed = s.changed ∧ (l.foldl State.revokeSlot s).driveCut = s.driveCut
      ∧ (l.foldl State.revokeSlot s).edgeTimer = s.edgeTimer
      ∧ (l.foldl State.revokeSlot s).recoveryCount = s.recoveryCount
      ∧ (l.foldl State.revokeSlot s).clockPhase = s.clockPhase ∧ (l.foldl State.revokeSlot s).beacon = s.beacon
      ∧ (l.foldl State.revokeSlot s).requests = s.requests
      ∧ (l.foldl State.revokeSlot s).offerCounter = s.offerCounter
      ∧ (l.foldl State.revokeSlot s).edits = s.edits ∧ (l.foldl State.revokeSlot s).editCounter = s.editCounter
      ∧ (l.foldl State.revokeSlot s).plan = s.plan ∧ (l.foldl State.revokeSlot s).proposal = s.proposal
      ∧ (l.foldl State.revokeSlot s).choiceIndex = s.choiceIndex := by
  induction l generalizing s with
  | nil => simp
  | cons n l ih => simpa using ih (s.revokeSlot n)

theorem State.entryAt_foldl_revokeSlot (s : State) (l : List Nat) (m : Nat) :
    entryAt (l.foldl State.revokeSlot s).staged m = if m ∈ l ∧ m < 64 then .free else entryAt s.staged m := by
  induction l generalizing s with
  | nil => simp
  | cons n l ih =>
    rw [List.foldl_cons, ih, State.revokeSlot_staged, State.entryAt_setStaged]
    by_cases hm : m = n
    · subst hm; by_cases h64 : m < 64 <;> simp [h64]
    · simp [hm]

/-- Requests that a plan removes touch the request queue and the ports alone. -/
@[simp] theorem State.dropRequests_fields (s : State) (n : Nat) :
    (s.dropRequests n).pending = s.pending ∧ (s.dropRequests n).resetAsserted = s.resetAsserted
      ∧ (s.dropRequests n).active = s.active ∧ (s.dropRequests n).staged = s.staged
      ∧ (s.dropRequests n).generation = s.generation ∧ (s.dropRequests n).geometry = s.geometry
      ∧ (s.dropRequests n).frame = s.frame ∧ (s.dropRequests n).frameCounter = s.frameCounter
      ∧ (s.dropRequests n).changed = s.changed ∧ (s.dropRequests n).driveCut = s.driveCut
      ∧ (s.dropRequests n).edgeTimer = s.edgeTimer ∧ (s.dropRequests n).recoveryCount = s.recoveryCount
      ∧ (s.dropRequests n).clockPhase = s.clockPhase ∧ (s.dropRequests n).beacon = s.beacon
      ∧ (s.dropRequests n).offers = s.offers ∧ (s.dropRequests n).offerCounter = s.offerCounter
      ∧ (s.dropRequests n).edits = s.edits ∧ (s.dropRequests n).editCounter = s.editCounter
      ∧ (s.dropRequests n).plan = s.plan ∧ (s.dropRequests n).proposal = s.proposal
      ∧ (s.dropRequests n).choiceIndex = s.choiceIndex := by
  simp [State.dropRequests]

@[simp] theorem State.dropRequests_requests (s : State) (n : Nat) :
    (s.dropRequests n).requests = s.requests.filter (fun r => !r.res.beyond n) := by
  simp [State.dropRequests]

theorem State.dropRequests_told (s : State) (n : Nat) : s.Told (s.dropRequests n) := by
  exact State.lapseRecords_told _ _ _

/-- Timed edits that a plan removes touch the list and the ports alone. -/
@[simp] theorem State.dropEdits_fields (s : State) (n : Nat) :
    (s.dropEdits n).pending = s.pending ∧ (s.dropEdits n).resetAsserted = s.resetAsserted
      ∧ (s.dropEdits n).active = s.active ∧ (s.dropEdits n).staged = s.staged
      ∧ (s.dropEdits n).generation = s.generation ∧ (s.dropEdits n).geometry = s.geometry
      ∧ (s.dropEdits n).frame = s.frame ∧ (s.dropEdits n).frameCounter = s.frameCounter
      ∧ (s.dropEdits n).changed = s.changed ∧ (s.dropEdits n).driveCut = s.driveCut
      ∧ (s.dropEdits n).edgeTimer = s.edgeTimer ∧ (s.dropEdits n).recoveryCount = s.recoveryCount
      ∧ (s.dropEdits n).clockPhase = s.clockPhase ∧ (s.dropEdits n).beacon = s.beacon
      ∧ (s.dropEdits n).requests = s.requests ∧ (s.dropEdits n).offers = s.offers
      ∧ (s.dropEdits n).offerCounter = s.offerCounter ∧ (s.dropEdits n).editCounter = s.editCounter
      ∧ (s.dropEdits n).plan = s.plan ∧ (s.dropEdits n).proposal = s.proposal
      ∧ (s.dropEdits n).choiceIndex = s.choiceIndex := by
  simp [State.dropEdits]

@[simp] theorem State.dropEdits_edits (s : State) (n : Nat) :
    (s.dropEdits n).edits = s.edits.filter (fun e => !e.beyond n) := by
  simp [State.dropEdits]

theorem State.dropEdits_told (s : State) (n : Nat) : s.Told (s.dropEdits n) := by
  refine State.Told.trans ?_ (State.deliver_told _ _)
  exact State.Told.of_ports rfl

/-- PLAN_IN_FORCE touches the ports alone. -/
@[simp] theorem State.announcePlan_fields (s : State) :
    s.announcePlan.pending = s.pending ∧ s.announcePlan.resetAsserted = s.resetAsserted
      ∧ s.announcePlan.active = s.active ∧ s.announcePlan.staged = s.staged
      ∧ s.announcePlan.generation = s.generation ∧ s.announcePlan.geometry = s.geometry
      ∧ s.announcePlan.frame = s.frame ∧ s.announcePlan.frameCounter = s.frameCounter
      ∧ s.announcePlan.changed = s.changed ∧ s.announcePlan.driveCut = s.driveCut
      ∧ s.announcePlan.edgeTimer = s.edgeTimer ∧ s.announcePlan.recoveryCount = s.recoveryCount
      ∧ s.announcePlan.clockPhase = s.clockPhase ∧ s.announcePlan.beacon = s.beacon
      ∧ s.announcePlan.requests = s.requests ∧ s.announcePlan.offers = s.offers
      ∧ s.announcePlan.offerCounter = s.offerCounter ∧ s.announcePlan.edits = s.edits
      ∧ s.announcePlan.editCounter = s.editCounter ∧ s.announcePlan.plan = s.plan
      ∧ s.announcePlan.proposal = s.proposal ∧ s.announcePlan.choiceIndex = s.choiceIndex := by
  simp [State.announcePlan]

theorem State.announcePlan_told (s : State) : s.Told s.announcePlan := by
  exact State.deliver_told _ _

/-- A smaller plan touches the Staged table, the offers, the requests, the edits and the ports alone. -/
@[simp] theorem State.shrink_fields (s : State) (old new : Nat) :
    (s.shrink old new).pending = s.pending ∧ (s.shrink old new).resetAsserted = s.resetAsserted
      ∧ (s.shrink old new).active = s.active ∧ (s.shrink old new).generation = s.generation
      ∧ (s.shrink old new).geometry = s.geometry ∧ (s.shrink old new).frame = s.frame
      ∧ (s.shrink old new).frameCounter = s.frameCounter ∧ (s.shrink old new).changed = s.changed
      ∧ (s.shrink old new).driveCut = s.driveCut ∧ (s.shrink old new).edgeTimer = s.edgeTimer
      ∧ (s.shrink old new).recoveryCount = s.recoveryCount ∧ (s.shrink old new).clockPhase = s.clockPhase
      ∧ (s.shrink old new).beacon = s.beacon ∧ (s.shrink old new).offerCounter = s.offerCounter
      ∧ (s.shrink old new).editCounter = s.editCounter ∧ (s.shrink old new).plan = s.plan
      ∧ (s.shrink old new).proposal = s.proposal ∧ (s.shrink old new).choiceIndex = s.choiceIndex := by
  unfold State.shrink
  split <;> simp

theorem State.shrink_requests (s : State) (old new : Nat) :
    (s.shrink old new).requests = if new < old then s.requests.filter (fun r => !r.res.beyond new) else s.requests := by
  unfold State.shrink
  split <;> simp

theorem State.shrink_edits (s : State) (old new : Nat) :
    (s.shrink old new).edits = if new < old then s.edits.filter (fun e => !e.beyond new) else s.edits := by
  unfold State.shrink
  split <;> simp

/-- The entries after a smaller plan: those from the new S to the old S less 1 are FREE (R133). -/
theorem State.entryAt_shrink (s : State) (old new m : Nat) :
    entryAt (s.shrink old new).staged m = if new ≤ m ∧ m < old ∧ m < 64 then .free else entryAt s.staged m := by
  unfold State.shrink
  split
  · simp only [State.dropEdits_fields, State.dropRequests_fields, State.entryAt_foldl_revokeSlot, revokedSlots,
      List.mem_filter, mem_slotNumbers, Bool.and_eq_true, decide_eq_true_eq]
    by_cases h : new ≤ m ∧ m < old ∧ m < 64
    · simp [h]
    · rw [if_neg h, if_neg]; omega
  · rw [if_neg]; omega

theorem State.shrink_told (s : State) (old new : Nat) : s.Told (s.shrink old new) := by
  unfold State.shrink
  split
  · refine State.Told.trans (State.Told.trans ?_ (State.dropRequests_told _ _)) (State.dropEdits_told _ _)
    exact foldl_invariant _ (fun t => s.Told t) _ _ (State.Told.refl s) (fun t n _ h => h.trans (t.revokeSlot_told n))
  · exact State.Told.refl s

/-- A plan applied leaves the frame side, the tables in use and the id counters. -/
@[simp] theorem State.applyPlan_fields (s : State) (terms : PlanTerms) :
    (s.applyPlan terms).pending = s.pending ∧ (s.applyPlan terms).resetAsserted = s.resetAsserted
      ∧ (s.applyPlan terms).active = s.active ∧ (s.applyPlan terms).generation = s.generation
      ∧ (s.applyPlan terms).geometry = s.geometry ∧ (s.applyPlan terms).frame = s.frame
      ∧ (s.applyPlan terms).frameCounter = s.frameCounter ∧ (s.applyPlan terms).changed = s.changed
      ∧ (s.applyPlan terms).driveCut = s.driveCut ∧ (s.applyPlan terms).edgeTimer = s.edgeTimer
      ∧ (s.applyPlan terms).recoveryCount = s.recoveryCount ∧ (s.applyPlan terms).clockPhase = s.clockPhase
      ∧ (s.applyPlan terms).beacon = s.beacon ∧ (s.applyPlan terms).offerCounter = s.offerCounter
      ∧ (s.applyPlan terms).editCounter = s.editCounter ∧ (s.applyPlan terms).choiceIndex = s.choiceIndex := by
  simp [State.applyPlan]

@[simp] theorem State.applyPlan_plan (s : State) (terms : PlanTerms) :
    (s.applyPlan terms).plan = { terms := terms, number := s.plan.number + 1 } := by
  simp [State.applyPlan]

@[simp] theorem State.applyPlan_proposal (s : State) (terms : PlanTerms) : (s.applyPlan terms).proposal = .none := by
  simp [State.applyPlan]

theorem State.applyPlan_requests (s : State) (terms : PlanTerms) :
    (s.applyPlan terms).requests =
      if terms.geometry.slots < s.slots then s.requests.filter (fun r => !r.res.beyond terms.geometry.slots)
      else s.requests := by
  simp [State.applyPlan, State.shrink_requests]

theorem State.applyPlan_edits (s : State) (terms : PlanTerms) :
    (s.applyPlan terms).edits =
      if terms.geometry.slots < s.slots then s.edits.filter (fun e => !e.beyond terms.geometry.slots)
      else s.edits := by
  simp [State.applyPlan, State.shrink_edits]

/-- The entries after a plan was applied (R133). -/
theorem State.entryAt_applyPlan (s : State) (terms : PlanTerms) (m : Nat) :
    entryAt (s.applyPlan terms).staged m =
      if terms.geometry.slots ≤ m ∧ m < s.slots ∧ m < 64 then .free else entryAt s.staged m := by
  simp [State.applyPlan, State.entryAt_shrink]

theorem State.applyPlan_told (s : State) (terms : PlanTerms) : s.Told (s.applyPlan terms) := by
  refine State.Told.trans (State.Told.trans ?_ (State.shrink_told _ _ _)) (State.announcePlan_told _)
  exact State.Told.of_ports rfl

/-- Step 5 leaves the frame side, the tables in use and the id counters. -/
@[simp] theorem State.commitPlan_fields (s : State) :
    s.commitPlan.pending = s.pending ∧ s.commitPlan.resetAsserted = s.resetAsserted
      ∧ s.commitPlan.active = s.active ∧ s.commitPlan.generation = s.generation
      ∧ s.commitPlan.geometry = s.geometry ∧ s.commitPlan.frame = s.frame
      ∧ s.commitPlan.frameCounter = s.frameCounter ∧ s.commitPlan.changed = s.changed
      ∧ s.commitPlan.driveCut = s.driveCut ∧ s.commitPlan.edgeTimer = s.edgeTimer
      ∧ s.commitPlan.recoveryCount = s.recoveryCount ∧ s.commitPlan.clockPhase = s.clockPhase
      ∧ s.commitPlan.beacon = s.beacon ∧ s.commitPlan.offerCounter = s.offerCounter
      ∧ s.commitPlan.editCounter = s.editCounter ∧ s.commitPlan.choiceIndex = s.choiceIndex := by
  unfold State.commitPlan
  split <;> simp

theorem State.commitPlan_told (s : State) : s.Told s.commitPlan := by
  unfold State.commitPlan
  split
  · exact State.applyPlan_told _ _
  · exact State.Told.refl s

/-- The start of a frame touches the bit position and the beacon word alone. -/
@[simp] theorem State.beginFrame_fields (s : State) :
    s.beginFrame.pending = s.pending ∧ s.beginFrame.resetAsserted = s.resetAsserted
      ∧ s.beginFrame.active = s.active ∧ s.beginFrame.staged = s.staged
      ∧ s.beginFrame.generation = s.generation ∧ s.beginFrame.geometry = s.geometry
      ∧ s.beginFrame.frameCounter = s.frameCounter ∧ s.beginFrame.changed = s.changed
      ∧ s.beginFrame.driveCut = s.driveCut ∧ s.beginFrame.edgeTimer = s.edgeTimer
      ∧ s.beginFrame.recoveryCount = s.recoveryCount ∧ s.beginFrame.clockPhase = s.clockPhase
      ∧ s.beginFrame.requests = s.requests ∧ s.beginFrame.offers = s.offers
      ∧ s.beginFrame.offerCounter = s.offerCounter ∧ s.beginFrame.edits = s.edits
      ∧ s.beginFrame.editCounter = s.editCounter ∧ s.beginFrame.plan = s.plan
      ∧ s.beginFrame.proposal = s.proposal ∧ s.beginFrame.ports = s.ports
      ∧ s.beginFrame.choiceIndex = s.choiceIndex := by
  exact ⟨rfl, rfl, rfl, rfl, rfl, rfl, rfl, rfl, rfl, rfl, rfl, rfl, rfl, rfl, rfl, rfl, rfl, rfl, rfl, rfl, rfl⟩

/-- A table published touches the Active table and the generation number alone. -/
@[simp] theorem State.publishTable_frame (s : State) (t : Table) :
    { s.publishTable t with active := s.active, generation := s.generation } = s := rfl

/-- The Active entries once the positions at and beyond S are FREE (R6). -/
theorem State.entryAt_activeWithin (s : State) (m : Nat) :
    entryAt s.activeWithin m = if s.slots ≤ m then .free else entryAt s.active m := by
  have fold : ∀ (l : List Nat) (t : Table),
      entryAt (l.foldl (fun t n => t.setIfInBounds n Entry.free) t) m = if m ∈ l ∧ m < 64 then .free else entryAt t m := by
    intro l
    induction l with
    | nil => intro t; simp
    | cons n l ih =>
      intro t
      rw [List.foldl_cons, ih]
      have := State.entryAt_setStaged { s with staged := t } n m .free
      simp only [State.setStaged] at this
      rw [this]
      by_cases h : m ∈ l ∧ m < 64
      · simp [h]
      · by_cases hm : m = n
        · subst hm; by_cases h64 : m < 64 <;> simp [h64]
        · simp [h, hm]
  rw [State.activeWithin, fold]
  by_cases h64 : m < 64
  · simp [mem_slotNumbers, h64]
  · simp [h64, entryAt]

/-- The positions at and beyond S cleared: the Active table, the generation number and the CHANGED mark alone. -/
@[simp] theorem State.publishRevoked_fields (s : State) :
    s.publishRevoked.pending = s.pending ∧ s.publishRevoked.resetAsserted = s.resetAsserted
      ∧ s.publishRevoked.active = s.activeWithin ∧ s.publishRevoked.staged = s.staged
      ∧ s.publishRevoked.geometry = s.geometry ∧ s.publishRevoked.frame = s.frame
      ∧ s.publishRevoked.frameCounter = s.frameCounter ∧ s.publishRevoked.driveCut = s.driveCut
      ∧ s.publishRevoked.edgeTimer = s.edgeTimer ∧ s.publishRevoked.recoveryCount = s.recoveryCount
      ∧ s.publishRevoked.clockPhase = s.clockPhase ∧ s.publishRevoked.beacon = s.beacon
      ∧ s.publishRevoked.requests = s.requests ∧ s.publishRevoked.offers = s.offers
      ∧ s.publishRevoked.offerCounter = s.offerCounter ∧ s.publishRevoked.edits = s.edits
      ∧ s.publishRevoked.editCounter = s.editCounter ∧ s.publishRevoked.plan = s.plan
      ∧ s.publishRevoked.proposal = s.proposal ∧ s.publishRevoked.ports = s.ports
      ∧ s.publishRevoked.choiceIndex = s.choiceIndex := by
  exact ⟨rfl, rfl, rfl, rfl, rfl, rfl, rfl, rfl, rfl, rfl, rfl, rfl, rfl, rfl, rfl, rfl, rfl, rfl, rfl, rfl, rfl⟩

/-- The schedules of two tables differ exactly when those of some entry do (R22). -/
theorem schedulesDiffer_iff (t u : Table) :
    schedulesDiffer t u = true ↔ ∃ n, n < 64 ∧ (entryAt t n).schedule ≠ (entryAt u n).schedule := by
  constructor
  · intro h
    by_contra hn
    push Not at hn
    refine absurd h ?_
    rw [Bool.not_eq_true, schedulesDiffer, bne_eq_false_iff_eq]
    refine List.ext_getElem (by simp) (fun i h1 _ => ?_)
    have h64 : i < 64 := by simpa using h1
    simpa [entryAt, h64] using hn i h64
  · rintro ⟨n, h64, hn⟩
    rw [schedulesDiffer, bne_iff_ne]
    intro h
    have := congrArg (fun l => l[n]?) h
    simp [h64] at this
    simp [entryAt, h64, this] at hn

/-- Loading a geometry touches the Frame Generator alone. -/
@[simp] theorem State.loadGeometry_fields (s : State) :
    s.loadGeometry.pending = s.pending ∧ s.loadGeometry.resetAsserted = s.resetAsserted
      ∧ s.loadGeometry.active = s.active ∧ s.loadGeometry.staged = s.staged
      ∧ s.loadGeometry.generation = s.generation ∧ s.loadGeometry.geometry = s.plan.terms.geometry
      ∧ s.loadGeometry.frameCounter = s.frameCounter
      ∧ s.loadGeometry.changed = s.changed ∧ s.loadGeometry.driveCut = s.driveCut
      ∧ s.loadGeometry.edgeTimer = 0 ∧ s.loadGeometry.clockPhase = 0
      ∧ s.loadGeometry.requests = s.requests ∧ s.loadGeometry.offers = s.offers
      ∧ s.loadGeometry.offerCounter = s.offerCounter ∧ s.loadGeometry.edits = s.edits
      ∧ s.loadGeometry.editCounter = s.editCounter ∧ s.loadGeometry.plan = s.plan
      ∧ s.loadGeometry.proposal = s.proposal ∧ s.loadGeometry.ports = s.ports
      ∧ s.loadGeometry.choiceIndex = s.choiceIndex := by
  unfold State.loadGeometry
  dsimp only
  split <;> simp

/-- What a load of the geometry makes of the frame: the part stalls, or the first bit time is under way with the beacon
word captured (R29, R32, R39, R42). -/
theorem State.loadGeometry_cases (s : State) :
    (s.geometry.source = .internal ∧ s.plan.terms.geometry.source = .external
        ∧ s.loadGeometry.frame = .stalled .switch 0 ∧ s.loadGeometry.recoveryCount = 0 ∧ s.loadGeometry.beacon = [])
      ∨ (¬ (s.geometry.source = .internal ∧ s.plan.terms.geometry.source = .external)
        ∧ s.loadGeometry.frame = .running (.bit 0) ∧ s.loadGeometry.recoveryCount = s.recoveryCount
        ∧ s.loadGeometry.beacon = s.loadGeometry.beaconWord) := by
  unfold State.loadGeometry
  dsimp only
  split
  · exact .inl ⟨‹_ ∧ _›.1, ‹_ ∧ _›.2, rfl, rfl, rfl⟩
  · exact .inr ⟨‹_›, rfl, rfl, rfl⟩

@[simp] theorem State.loadGeometry_port (s : State) (p : Port) : s.loadGeometry.port p = s.port p :=
  congrArg (fun ps => PerPort.get ps p) s.loadGeometry_fields.2.2.2.2.2.2.2.2.2.2.2.2.2.2.2.2.2.2.1

/-! ### The Frame Generator -/

/-- The Frame Generator's own work at a frame end touches the Frame Generator alone. -/
@[simp] theorem State.finishFrame_fields (s : State) (g : Byte) :
    (s.finishFrame g).pending = s.pending ∧ (s.finishFrame g).resetAsserted = s.resetAsserted
      ∧ (s.finishFrame g).active = s.active ∧ (s.finishFrame g).staged = s.staged
      ∧ (s.finishFrame g).generation = s.generation ∧ (s.finishFrame g).requests = s.requests
      ∧ (s.finishFrame g).offers = s.offers ∧ (s.finishFrame g).offerCounter = s.offerCounter
      ∧ (s.finishFrame g).edits = s.edits ∧ (s.finishFrame g).editCounter = s.editCounter
      ∧ (s.finishFrame g).plan = s.plan ∧ (s.finishFrame g).proposal = s.proposal
      ∧ (s.finishFrame g).ports = s.ports := by
  simp [State.finishFrame]

/-- A bit time that begins touches the bit position and the beacon word alone. -/
@[simp] theorem State.beginBit_fields (s : State) (n : Nat) :
    (s.beginBit n).pending = s.pending ∧ (s.beginBit n).resetAsserted = s.resetAsserted
      ∧ (s.beginBit n).active = s.active ∧ (s.beginBit n).staged = s.staged
      ∧ (s.beginBit n).generation = s.generation ∧ (s.beginBit n).geometry = s.geometry
      ∧ (s.beginBit n).frameCounter = s.frameCounter ∧ (s.beginBit n).changed = s.changed
      ∧ (s.beginBit n).driveCut = s.driveCut ∧ (s.beginBit n).edgeTimer = s.edgeTimer
      ∧ (s.beginBit n).recoveryCount = s.recoveryCount ∧ (s.beginBit n).clockPhase = s.clockPhase
      ∧ (s.beginBit n).requests = s.requests ∧ (s.beginBit n).offers = s.offers
      ∧ (s.beginBit n).offerCounter = s.offerCounter ∧ (s.beginBit n).edits = s.edits
      ∧ (s.beginBit n).editCounter = s.editCounter ∧ (s.beginBit n).plan = s.plan
      ∧ (s.beginBit n).proposal = s.proposal ∧ (s.beginBit n).ports = s.ports
      ∧ (s.beginBit n).choiceIndex = s.choiceIndex := by
  exact ⟨rfl, rfl, rfl, rfl, rfl, rfl, rfl, rfl, rfl, rfl, rfl, rfl, rfl, rfl, rfl, rfl, rfl, rfl, rfl, rfl, rfl⟩

/-- A loss of clock touches the frame state, the beacon word, the two counts and the ports alone. -/
@[simp] theorem State.loseClock_fields (s : State) :
    s.loseClock.pending = s.pending ∧ s.loseClock.resetAsserted = s.resetAsserted
      ∧ s.loseClock.active = s.active ∧ s.loseClock.staged = s.staged ∧ s.loseClock.generation = s.generation
      ∧ s.loseClock.geometry = s.geometry ∧ s.loseClock.frameCounter = s.frameCounter
      ∧ s.loseClock.changed = s.changed ∧ s.loseClock.driveCut = s.driveCut
      ∧ s.loseClock.clockPhase = s.clockPhase ∧ s.loseClock.requests = s.requests
      ∧ s.loseClock.offers = s.offers ∧ s.loseClock.offerCounter = s.offerCounter ∧ s.loseClock.edits = s.edits
      ∧ s.loseClock.editCounter = s.editCounter ∧ s.loseClock.plan = s.plan ∧ s.loseClock.proposal = s.proposal
      ∧ s.loseClock.choiceIndex = s.choiceIndex := by
  simp [State.loseClock]

theorem State.loseClock_own (s : State) :
    s.loseClock.frame = .stalled .lost s.slotIndex ∧ s.loseClock.beacon = [] ∧ s.loseClock.edgeTimer = 0
      ∧ s.loseClock.recoveryCount = 0 := by
  simp [State.loseClock]

theorem State.loseClock_told (s : State) : s.Told s.loseClock := by
  refine State.Told.trans ?_ (State.notifyAll_told _ _ _)
  exact State.Told.of_ports rfl

/-- A recovery touches the frame state, the two counts and the ports alone. -/
@[simp] theorem State.recover_fields (s : State) :
    s.recover.pending = s.pending ∧ s.recover.resetAsserted = s.resetAsserted ∧ s.recover.active = s.active
      ∧ s.recover.staged = s.staged ∧ s.recover.generation = s.generation ∧ s.recover.geometry = s.geometry
      ∧ s.recover.frameCounter = s.frameCounter ∧ s.recover.changed = s.changed
      ∧ s.recover.driveCut = s.driveCut ∧ s.recover.clockPhase = s.clockPhase ∧ s.recover.beacon = s.beacon
      ∧ s.recover.requests = s.requests ∧ s.recover.offers = s.offers ∧ s.recover.offerCounter = s.offerCounter
      ∧ s.recover.edits = s.edits ∧ s.recover.editCounter = s.editCounter ∧ s.recover.plan = s.plan
      ∧ s.recover.proposal = s.proposal ∧ s.recover.choiceIndex = s.choiceIndex := by
  unfold State.recover
  dsimp only
  split <;> simp

theorem State.recover_own (s : State) :
    s.recover.frame = .running .leadInWait ∧ s.recover.edgeTimer = 0 ∧ s.recover.recoveryCount = 16 := by
  unfold State.recover recoveryEdges
  dsimp only
  split <;> simp

theorem State.recover_told (s : State) : s.Told s.recover := by
  unfold State.recover
  dsimp only
  split
  · refine State.Told.trans ?_ (State.notifyAll_told _ _ _)
    exact State.Told.of_ports rfl
  · exact State.Told.of_ports rfl
  · exact State.Told.of_ports rfl

/-- A gap in a stall touches the two counts alone. -/
@[simp] theorem State.stallGap_fields (s : State) :
    s.stallGap.pending = s.pending ∧ s.stallGap.resetAsserted = s.resetAsserted ∧ s.stallGap.active = s.active
      ∧ s.stallGap.staged = s.staged ∧ s.stallGap.generation = s.generation ∧ s.stallGap.geometry = s.geometry
      ∧ s.stallGap.frame = s.frame ∧ s.stallGap.frameCounter = s.frameCounter ∧ s.stallGap.changed = s.changed
      ∧ s.stallGap.driveCut = s.driveCut ∧ s.stallGap.clockPhase = s.clockPhase ∧ s.stallGap.beacon = s.beacon
      ∧ s.stallGap.requests = s.requests ∧ s.stallGap.offers = s.offers
      ∧ s.stallGap.offerCounter = s.offerCounter ∧ s.stallGap.edits = s.edits
      ∧ s.stallGap.editCounter = s.editCounter ∧ s.stallGap.plan = s.plan ∧ s.stallGap.proposal = s.proposal
      ∧ s.stallGap.ports = s.ports ∧ s.stallGap.choiceIndex = s.choiceIndex := by
  exact ⟨rfl, rfl, rfl, rfl, rfl, rfl, rfl, rfl, rfl, rfl, rfl, rfl, rfl, rfl, rfl, rfl, rfl, rfl, rfl, rfl, rfl⟩

/-! ### The frame end as a whole -/

/-- `Woven l steps` says that `l` is the list `steps` with deliveries of notices put in among them. -/
inductive Woven : List (State → State) → List (State → State) → Prop where
  | nil : Woven [] []
  | step (f : State → State) {l steps : List (State → State)} : Woven l steps → Woven (f :: l) (f :: steps)
  | notices (ns : List (Port × Notice)) {l steps : List (State → State)} :
      Woven l steps → Woven ((fun t => t.deliver ns) :: l) steps

theorem Woven.refl : (l : List (State → State)) → Woven l l
  | [] => .nil
  | f :: l => .step f (Woven.refl l)

theorem Woven.insertIdx {l steps : List (State → State)} (h : Woven l steps) (ns : List (Port × Notice)) (i : Nat) :
    Woven (l.insertIdx i (fun t => t.deliver ns)) steps := by
  induction h generalizing i with
  | nil =>
    cases i with
    | zero => exact .notices ns .nil
    | succ i => exact .nil
  | step f h ih =>
    cases i with
    | zero => exact .notices ns (.step f h)
    | succ i => exact .step f (ih i)
  | notices ms h ih =>
    cases i with
    | zero => exact .notices ns (.notices ms h)
    | succ i => exact .notices ms (ih i)

/-- The frame-end work is the seven commit steps in their order with two deliveries of notices (R17, R101). -/
theorem State.frameEndWork_woven (s : State) : Woven s.frameEndWork commitSteps :=
  ((Woven.refl _).insertIdx _ _).insertIdx _ _

/-- A property `P k` of the state after `k` of the steps, which each step takes from `P k` to `P (k + 1)` and which
notices leave alone, holds at the end. -/
theorem Woven.fold {l steps : List (State → State)} (h : Woven l steps) (P : Nat → State → Prop)
    (hd : ∀ k t ns, P k t → P k (t.deliver ns)) (k : Nat)
    (hs : ∀ i f t, steps[i]? = some f → P (k + i) t → P (k + i + 1) (f t)) (t : State) (h0 : P k t) :
    P (k + steps.length) (l.foldl (fun t f => f t) t) := by
  induction h generalizing k t with
  | nil => exact h0
  | @step f l steps h ih =>
    have := ih (k + 1) (fun i g u hg hu => by
      have := hs (i + 1) g u (by simpa using hg) (by simpa [Nat.add_assoc, Nat.add_comm 1 i] using hu)
      simpa [Nat.add_assoc, Nat.add_comm 1 i] using this) (f t) (hs 0 f t rfl h0)
    simpa [Nat.add_assoc, Nat.add_comm 1] using this
  | notices ns h ih => exact ih k hs _ (hd k t ns h0)

/-- A property indexed by how many commit steps have been made, which each step takes one further and which notices
leave alone, holds at index 7 after the commit (R17). -/
theorem State.commit_stages (P : Nat → State → Prop) (s : State) (h0 : P 0 s.countOffers.countDeadline)
    (h1 : ∀ t, P 0 t → P 1 t.commitCooling) (h2 : ∀ t, P 1 t → P 2 t.commitLeases)
    (h3 : ∀ t, P 2 t → P 3 t.commitRotation) (h4 : ∀ t, P 3 t → P 4 t.commitEdits)
    (h5 : ∀ t, P 4 t → P 5 t.commitPlan) (h6 : ∀ t, P 5 t → P 6 t.commitAllocator)
    (h7 : ∀ t, P 6 t → P 7 t.publish) (hd : ∀ k t ns, P k t → P k (t.deliver ns)) : P 7 s.commit := by
  refine s.frameEndWork_woven.fold P hd 0 ?_ s.countOffers.countDeadline h0
  intro i f t hi ht
  rw [Nat.zero_add] at ht ⊢
  simp only [commitSteps] at hi
  rcases i with _ | _ | _ | _ | _ | _ | _ | i
  · exact Option.some.inj hi ▸ h1 t ht
  · exact Option.some.inj hi ▸ h2 t ht
  · exact Option.some.inj hi ▸ h3 t ht
  · exact Option.some.inj hi ▸ h4 t ht
  · exact Option.some.inj hi ▸ h5 t ht
  · exact Option.some.inj hi ▸ h6 t ht
  · exact Option.some.inj hi ▸ h7 t ht
  · simp at hi

/-- What every piece of the frame-end work keeps, the whole work keeps (R17, R101). -/
theorem State.commit_induction (P : State → Prop) (s : State) (h0 : P s.countOffers.countDeadline)
    (h1 : ∀ t, P t → P t.commitCooling) (h2 : ∀ t, P t → P t.commitLeases) (h3 : ∀ t, P t → P t.commitRotation)
    (h4 : ∀ t, P t → P t.commitEdits) (h5 : ∀ t, P t → P t.commitPlan) (h6 : ∀ t, P t → P t.commitAllocator)
    (h7 : ∀ t, P t → P t.publish) (hd : ∀ t l, P t → P (t.deliver l)) : P s.commit :=
  s.commit_stages (fun _ => P) h0 h1 h2 h3 h4 h5 h6 h7 (fun _ => hd)

/-- The commit leaves the Frame Generator, the id counters and the pins. -/
@[simp] theorem State.commit_fields (s : State) :
    s.commit.pending = s.pending ∧ s.commit.resetAsserted = s.resetAsserted ∧ s.commit.geometry = s.geometry
      ∧ s.commit.frame = s.frame ∧ s.commit.frameCounter = s.frameCounter ∧ s.commit.changed = s.changed
      ∧ s.commit.driveCut = s.driveCut ∧ s.commit.edgeTimer = s.edgeTimer
      ∧ s.commit.recoveryCount = s.recoveryCount ∧ s.commit.clockPhase = s.clockPhase
      ∧ s.commit.beacon = s.beacon ∧ s.commit.offerCounter = s.offerCounter
      ∧ s.commit.editCounter = s.editCounter ∧ s.commit.choiceIndex = s.choiceIndex := by
  apply State.commit_induction (fun t =>
    t.pending = s.pending ∧ t.resetAsserted = s.resetAsserted ∧ t.geometry = s.geometry ∧ t.frame = s.frame
      ∧ t.frameCounter = s.frameCounter ∧ t.changed = s.changed ∧ t.driveCut = s.driveCut
      ∧ t.edgeTimer = s.edgeTimer ∧ t.recoveryCount = s.recoveryCount ∧ t.clockPhase = s.clockPhase
      ∧ t.beacon = s.beacon ∧ t.offerCounter = s.offerCounter ∧ t.editCounter = s.editCounter
      ∧ t.choiceIndex = s.choiceIndex) <;> intros <;> simp_all

theorem State.commit_told (s : State) : s.Told s.commit := by
  apply State.commit_induction (fun t => s.Told t)
  · exact State.Told.of_ports (by simp)
  · exact fun t h => h.trans (State.Told.of_ports (by simp))
  · exact fun t h => h.trans t.commitLeases_told
  · exact fun t h => h.trans (State.Told.of_ports (by simp))
  · exact fun t h => h.trans t.commitEdits_told
  · exact fun t h => h.trans t.commitPlan_told
  · exact fun t h => h.trans t.commitAllocator_told
  · exact fun t h => h.trans (State.Told.of_ports (by simp))
  · exact fun t l h => h.trans (t.deliver_told l)

theorem State.endFrame_told (s : State) : s.Told s.endFrame :=
  s.commit_told.trans (State.Told.of_ports (by simp [State.endFrame]))

/-! ### The Port Interfaces -/

/-- A detach at the port's own interface touches the ports and the drive-cut marks alone. -/
@[simp] theorem State.detachPort_fields (s : State) (p : Port) :
    (s.detachPort p).pending = s.pending ∧ (s.detachPort p).resetAsserted = s.resetAsserted
      ∧ (s.detachPort p).active = s.active ∧ (s.detachPort p).staged = s.staged
      ∧ (s.detachPort p).generation = s.generation ∧ (s.detachPort p).geometry = s.geometry
      ∧ (s.detachPort p).frame = s.frame ∧ (s.detachPort p).frameCounter = s.frameCounter
      ∧ (s.detachPort p).changed = s.changed ∧ (s.detachPort p).edgeTimer = s.edgeTimer
      ∧ (s.detachPort p).recoveryCount = s.recoveryCount ∧ (s.detachPort p).clockPhase = s.clockPhase
      ∧ (s.detachPort p).beacon = s.beacon ∧ (s.detachPort p).requests = s.requests
      ∧ (s.detachPort p).offers = s.offers ∧ (s.detachPort p).offerCounter = s.offerCounter
      ∧ (s.detachPort p).edits = s.edits ∧ (s.detachPort p).editCounter = s.editCounter
      ∧ (s.detachPort p).plan = s.plan ∧ (s.detachPort p).proposal = s.proposal
      ∧ (s.detachPort p).choiceIndex = s.choiceIndex := by
  exact ⟨rfl, rfl, rfl, rfl, rfl, rfl, rfl, rfl, rfl, rfl, rfl, rfl, rfl, rfl, rfl, rfl, rfl, rfl, rfl, rfl, rfl⟩

theorem State.port_detachPort (s : State) (p q : Port) :
    (s.detachPort p).port q =
      if q = p then { s.port p with attachment := none, notices := [], lost := false } else s.port q :=
  s.port_setPort p q _

/-- Removing a target's offers touches the offer table and the ports alone. -/
@[simp] theorem State.dropTargetOffers_fields (s : State) (p : Port) :
    (s.dropTargetOffers p).pending = s.pending ∧ (s.dropTargetOffers p).resetAsserted = s.resetAsserted
      ∧ (s.dropTargetOffers p).active = s.active ∧ (s.dropTargetOffers p).staged = s.staged
      ∧ (s.dropTargetOffers p).generation = s.generation ∧ (s.dropTargetOffers p).geometry = s.geometry
      ∧ (s.dropTargetOffers p).frame = s.frame ∧ (s.dropTargetOffers p).frameCounter = s.frameCounter
      ∧ (s.dropTargetOffers p).changed = s.changed ∧ (s.dropTargetOffers p).driveCut = s.driveCut
      ∧ (s.dropTargetOffers p).edgeTimer = s.edgeTimer ∧ (s.dropTargetOffers p).recoveryCount = s.recoveryCount
      ∧ (s.dropTargetOffers p).clockPhase = s.clockPhase ∧ (s.dropTargetOffers p).beacon = s.beacon
      ∧ (s.dropTargetOffers p).requests = s.requests ∧ (s.dropTargetOffers p).offerCounter = s.offerCounter
      ∧ (s.dropTargetOffers p).edits = s.edits ∧ (s.dropTargetOffers p).editCounter = s.editCounter
      ∧ (s.dropTargetOffers p).plan = s.plan ∧ (s.dropTargetOffers p).proposal = s.proposal
      ∧ (s.dropTargetOffers p).choiceIndex = s.choiceIndex := by
  unfold State.dropTargetOffers
  generalize s.offers.filter _ = l
  induction l generalizing s with
  | nil => simp
  | cons o l ih => simpa using ih (s.refuseOffer o .detached)

theorem State.dropTargetOffers_told (s : State) (p : Port) : s.Told (s.dropTargetOffers p) :=
  foldl_invariant _ (fun t => s.Told t) _ _ (State.Told.refl s) (fun t o _ h => h.trans (t.refuseOffer_told o _))

/-- Removing a port's records and edits touches the queue and the list alone. -/
@[simp] theorem State.dropOwn_fields (s : State) (p : Port) :
    (s.dropOwn p).pending = s.pending ∧ (s.dropOwn p).resetAsserted = s.resetAsserted
      ∧ (s.dropOwn p).active = s.active ∧ (s.dropOwn p).staged = s.staged
      ∧ (s.dropOwn p).generation = s.generation ∧ (s.dropOwn p).geometry = s.geometry
      ∧ (s.dropOwn p).frame = s.frame ∧ (s.dropOwn p).frameCounter = s.frameCounter
      ∧ (s.dropOwn p).changed = s.changed ∧ (s.dropOwn p).driveCut = s.driveCut
      ∧ (s.dropOwn p).edgeTimer = s.edgeTimer ∧ (s.dropOwn p).recoveryCount = s.recoveryCount
      ∧ (s.dropOwn p).clockPhase = s.clockPhase ∧ (s.dropOwn p).beacon = s.beacon
      ∧ (s.dropOwn p).offers = s.offers ∧ (s.dropOwn p).offerCounter = s.offerCounter
      ∧ (s.dropOwn p).editCounter = s.editCounter ∧ (s.dropOwn p).plan = s.plan
      ∧ (s.dropOwn p).proposal = s.proposal ∧ (s.dropOwn p).ports = s.ports
      ∧ (s.dropOwn p).choiceIndex = s.choiceIndex := by
  exact ⟨rfl, rfl, rfl, rfl, rfl, rfl, rfl, rfl, rfl, rfl, rfl, rfl, rfl, rfl, rfl, rfl, rfl, rfl, rfl, rfl, rfl⟩

end Sys2Proof.Machine
end

