-- ==== Sys2Proof/Laws/Alike.lean ====
section
/-! SUPPORT. The commit steps read nothing of a port but its attachment: from two states that differ in the queues and
links of the ports alone, each step goes to two such states. So the notices that the manual lets stand at a free place
among the steps (log 7) move nothing else. -/

namespace Sys2Proof.Machine

open Sys2Proof

/-- `t` is `s` but for its ports, and they have the same attachments. -/
def State.Alike (s t : State) : Prop :=
  ∃ ps : PerPort PortState, t = { s with ports := ps } ∧ ∀ q, (ps.get q).attachment = (s.port q).attachment

namespace State.Alike

variable {s t u : State}

theorem refl (s : State) : s.Alike s := ⟨s.ports, rfl, fun _ => rfl⟩

theorem symm (h : s.Alike t) : t.Alike s := by
  obtain ⟨ps, rfl, h⟩ := h
  exact ⟨s.ports, rfl, fun q => (h q).symm⟩

theorem trans (h : s.Alike t) (k : t.Alike u) : s.Alike u := by
  obtain ⟨ps, rfl, h⟩ := h
  obtain ⟨qs, rfl, k⟩ := k
  exact ⟨qs, rfl, fun q => (k q).trans (h q)⟩

theorem attached (h : s.Alike t) (q : Port) : t.attached q = s.attached q := by
  obtain ⟨ps, rfl, h⟩ := h
  unfold State.attached
  rw [← h q]
  rfl

/-- A notice makes an alike state. -/
theorem self_notify (s : State) (p : Port) (n : Notice) : s.Alike (s.notify p n) := by
  refine ⟨(s.notify p n).ports, ?_, fun q => ?_⟩
  · unfold State.notify State.setPort
    split <;> rfl
  · have := s.port_notify p q n
    unfold State.port at this
    rw [this]
    split <;> simp [State.port]

/-- Alike states after any two notices. -/
theorem notify (h : s.Alike t) (p q : Port) (n m : Notice) : (s.notify p n).Alike (t.notify q m) :=
  ((self_notify s p n).symm.trans h).trans (self_notify t q m)

theorem self_notifyAll (s : State) (ps : List Port) (n : Notice) : s.Alike (s.notifyAll ps n) :=
  foldl_invariant _ (fun t => s.Alike t) _ _ (refl s) (fun t p _ h => h.trans (self_notify t p n))

theorem self_deliver (s : State) (l : List (Port × Notice)) : s.Alike (s.deliver l) :=
  foldl_invariant _ (fun t => s.Alike t) _ _ (refl s) (fun t x _ h => h.trans (self_notify t x.1 x.2))

theorem notifyAll (h : s.Alike t) (ps qs : List Port) (n m : Notice) :
    (s.notifyAll ps n).Alike (t.notifyAll qs m) :=
  ((self_notifyAll s ps n).symm.trans h).trans (self_notifyAll t qs m)

theorem deliver (h : s.Alike t) (l m : List (Port × Notice)) : (s.deliver l).Alike (t.deliver m) :=
  ((self_deliver s l).symm.trans h).trans (self_deliver t m)

/-- What each of a list's entries keeps alike, the fold over the list does. -/
theorem foldl {α : Type} {f : State → α → State} (hf : ∀ s t a, s.Alike t → (f s a).Alike (f t a)) (l : List α)
    (h : s.Alike t) : (l.foldl f s).Alike (l.foldl f t) := by
  induction l generalizing s t with
  | nil => exact h
  | cons a l ih => exact ih (hf s t a h)

/-! ### The operations -/

theorem setStaged (h : s.Alike t) (n : Nat) (e : Entry) : (s.setStaged n e).Alike (t.setStaged n e) := by
  obtain ⟨ps, rfl, h⟩ := h
  exact ⟨ps, rfl, h⟩

theorem voidOffer (h : s.Alike t) (o : Offer) (tag : Byte) (why : Reason) :
    (s.voidOffer o tag why).Alike (t.voidOffer o tag why) := by
  obtain ⟨ps, rfl, h⟩ := h
  exact notify (s := s.dropOffer o.id) ⟨ps, rfl, h⟩ _ _ _ _

theorem offerOn (h : s.Alike t) (n : Nat) : t.offerOn n = s.offerOn n := by
  obtain ⟨ps, rfl, _⟩ := h
  rfl

theorem staged (h : s.Alike t) : t.staged = s.staged := by
  obtain ⟨ps, rfl, _⟩ := h
  rfl

theorem voidOfferOn (h : s.Alike t) (n : Nat) (tag : Byte) (why : Reason) :
    (s.voidOfferOn n tag why).Alike (t.voidOfferOn n tag why) := by
  unfold State.voidOfferOn
  rw [h.offerOn]
  split
  · exact h.voidOffer _ _ _
  · exact h

theorem voidOfferBy (h : s.Alike t) (p : Port) (n : Nat) (tag : Byte) (why : Reason) :
    (s.voidOfferBy p n tag why).Alike (t.voidOfferBy p n tag why) := by
  unfold State.voidOfferBy
  rw [h.offerOn]
  split
  · split
    · exact h.voidOffer _ _ _
    · exact h
  · exact h

theorem giveUpSlot (h : s.Alike t) (p : Port) (why : Reason) (n : Nat) :
    (s.giveUpSlot p why n).Alike (t.giveUpSlot p why n) := by
  unfold State.giveUpSlot
  rw [h.staged]
  exact ((h.setStaged _ _).notifyAll _ _ _ _).voidOfferBy _ _ _ _

/-! ### The commit steps -/

theorem commitCooling (h : s.Alike t) : s.commitCooling.Alike t.commitCooling := by
  refine foldl (fun s t n h => ?_) _ h
  have ha : t.active = s.active := by obtain ⟨ps, rfl, _⟩ := h; rfl
  unfold State.coolSlot
  rw [ha]
  split
  · exact h.setStaged _ _
  · exact h

theorem endLease (h : s.Alike t) (n : Nat) : (s.endLease n).Alike (t.endLease n) := by
  unfold State.endLease
  rw [h.staged]
  exact ((h.setStaged _ _).notifyAll _ _ _ _).voidOfferOn _ _ _

theorem warnSlot (h : s.Alike t) (n : Nat) : (s.warnSlot n).Alike (t.warnSlot n) := by
  have hd : t.dueWarning = s.dueWarning := by
    obtain ⟨ps, rfl, h⟩ := h
    funext x q
    unfold State.dueWarning
    rw [← h q]
    rfl
  unfold State.warnSlot
  rw [h.staged, hd]
  dsimp only
  split
  · exact h
  · exact (h.setStaged _ _).notifyAll _ _ _ _

theorem commitLeases (h : s.Alike t) : s.commitLeases.Alike t.commitLeases := by
  refine foldl (fun s t n h => ?_) _ h
  unfold State.countLease
  rw [h.staged]
  dsimp only
  split
  · exact h
  · split
    · exact h.endLease n
    · exact (h.setStaged _ _).warnSlot n

theorem commitRotation (h : s.Alike t) : s.commitRotation.Alike t.commitRotation := by
  refine foldl (fun s t n h => ?_) _ h
  unfold State.rotateSlot
  rw [h.staged]
  split
  · exact h.setStaged _ _
  all_goals exact h

theorem applyRelease (h : s.Alike t) (e : Edit) (n : Nat) : (s.applyRelease e n).Alike (t.applyRelease e n) := by
  unfold State.applyRelease
  rw [h.staged]
  dsimp only
  split
  · exact (h.giveUpSlot _ _ _).notify _ _ _ _
  · exact h.notify _ _ _ _

theorem applyRenew (h : s.Alike t) (e : Edit) (n : Nat) (l : Half) :
    (s.applyRenew e n l).Alike (t.applyRenew e n l) := by
  unfold State.applyRenew
  rw [h.staged]
  dsimp only
  split
  · split
    · exact (h.setStaged _ _).notify _ _ _ _
    · exact h.notify _ _ _ _
  · exact h.notify _ _ _ _

theorem applyEnqueue (h : s.Alike t) (e : Edit) (r : Reservation) : (s.applyEnqueue e r).Alike (t.applyEnqueue e r) := by
  have hq : t.requests = s.requests := by obtain ⟨ps, rfl, _⟩ := h; rfl
  unfold State.applyEnqueue State.tagPending State.pendingCount
  rw [hq]
  split
  · exact h.notify _ _ _ _
  · split
    · exact h.notify _ _ _ _
    · split
      · exact h.notify _ _ _ _
      · obtain ⟨ps, rfl, h⟩ := h
        exact notify (s := s.enqueue e.issuer r) ⟨ps, rfl, h⟩ _ _ _ _

theorem applyHead (h : s.Alike t) (e : Edit) : (s.applyHead e).Alike (t.applyHead e) := by
  have ht : ({ s with edits := s.edits.tail } : State).Alike { t with edits := t.edits.tail } := by
    obtain ⟨ps, rfl, h⟩ := h
    exact ⟨ps, rfl, h⟩
  unfold State.applyHead State.applyEdit
  split
  · exact ht.applyRelease _ _
  · exact ht.applyRenew _ _ _
  · exact ht.applyEnqueue _ _

theorem commitEdits (h : s.Alike t) : s.commitEdits.Alike t.commitEdits := by
  have he : t.edits.takeWhile t.editDue = s.edits.takeWhile s.editDue := by
    obtain ⟨ps, rfl, _⟩ := h
    rfl
  unfold State.commitEdits
  rw [he]
  exact foldl (fun s t e h => h.applyHead e) _ h

theorem revokeSlot (h : s.Alike t) (n : Nat) : (s.revokeSlot n).Alike (t.revokeSlot n) := by
  unfold State.revokeSlot
  rw [h.staged]
  exact ((h.setStaged _ _).notifyAll _ _ _ _).voidOfferOn _ _ _

theorem lapseRecords (h : s.Alike t) (gone : Record → Bool) (why : Reason) :
    (s.lapseRecords gone why).Alike (t.lapseRecords gone why) := by
  obtain ⟨ps, rfl, h⟩ := h
  exact deliver (s := { s with requests := s.requests.filter (fun r => !gone r) }) ⟨ps, rfl, h⟩ _ _

theorem dropEdits (h : s.Alike t) (slots : Nat) : (s.dropEdits slots).Alike (t.dropEdits slots) := by
  obtain ⟨ps, rfl, h⟩ := h
  exact deliver (s := { s with edits := s.edits.filter (fun e => !e.beyond slots) }) ⟨ps, rfl, h⟩ _ _

theorem shrink (h : s.Alike t) (old new : Nat) : (s.shrink old new).Alike (t.shrink old new) := by
  unfold State.shrink
  split
  · exact ((foldl (fun s t n h => h.revokeSlot n) _ h).lapseRecords _ _).dropEdits _
  · exact h

theorem applyPlan (h : s.Alike t) (terms : PlanTerms) : (s.applyPlan terms).Alike (t.applyPlan terms) := by
  obtain ⟨ps, rfl, h⟩ := h
  exact (shrink (s := { s with plan := ⟨terms, s.plan.number + 1⟩, proposal := .none }) ⟨ps, rfl, h⟩ _ _).deliver _ _

theorem commitPlan (h : s.Alike t) : s.commitPlan.Alike t.commitPlan := by
  have hd : t.dueTerms = s.dueTerms := by obtain ⟨ps, rfl, _⟩ := h; rfl
  unfold State.commitPlan
  rw [hd]
  split
  · exact h.applyPlan _
  · exact h

theorem grant (h : s.Alike t) (r : Record) (l : List Nat) : (s.grant r l).Alike (t.grant r l) := by
  have hs := foldl (f := fun s n => s.setStaged n (grantedEntry r.port r.res)) (fun s t n h => h.setStaged _ _) l h
  unfold State.grant
  dsimp only
  generalize l.foldl (fun s n => s.setStaged n (grantedEntry r.port r.res)) s = u at hs ⊢
  generalize l.foldl (fun s n => s.setStaged n (grantedEntry r.port r.res)) t = v at hs ⊢
  obtain ⟨ps, rfl, h⟩ := hs
  exact notify (s := { u with requests := u.requests.erase r }) ⟨ps, rfl, h⟩ _ _ _ _

theorem visit (h : s.Alike t) (r : Record) : (s.visit r).Alike (t.visit r) := by
  have hf : t.findSlots r.res = s.findSlots r.res := by obtain ⟨ps, rfl, _⟩ := h; rfl
  have hc : t.holdingCount r.port = s.holdingCount r.port := by obtain ⟨ps, rfl, _⟩ := h; rfl
  have hq : t.quota r.port = s.quota r.port := by obtain ⟨ps, rfl, _⟩ := h; rfl
  unfold State.visit
  rw [hf, hc, hq]
  split
  · exact h
  · split
    · exact h.grant _ _
    · exact h

theorem countWaits (h : s.Alike t) : s.countWaits.Alike t.countWaits := by
  obtain ⟨ps, e, h⟩ := h.lapseRecords (fun r => r.res.wait == 0) .wait
  unfold State.countWaits
  rw [e]
  exact ⟨ps, rfl, h⟩

theorem commitAllocator (h : s.Alike t) : s.commitAllocator.Alike t.commitAllocator := by
  have hr : t.requests = s.requests := by obtain ⟨ps, rfl, _⟩ := h; rfl
  unfold State.commitAllocator State.visitAll
  rw [hr]
  exact (foldl (fun s t r h => h.visit r) _ h).countWaits

theorem publish (h : s.Alike t) : s.publish.Alike t.publish := by
  obtain ⟨ps, rfl, h⟩ := h
  exact ⟨ps, rfl, h⟩

end State.Alike

/-- Whatever place the notices of the countdowns take, the commit leaves what its seven steps leave (R17, R101). -/
theorem State.commit_alike (s : State) :
    (commitSteps.foldl (fun t f => f t) s.countOffers.countDeadline).Alike s.commit := by
  have key : ∀ {l steps : List (State → State)}, Woven l steps →
      (∀ f ∈ steps, ∀ u v : State, u.Alike v → (f u).Alike (f v)) → ∀ u v : State, u.Alike v →
      (steps.foldl (fun t f => f t) u).Alike (l.foldl (fun t f => f t) v) := by
    intro l steps w
    induction w with
    | nil => exact fun _ _ _ h => h
    | step f w ih =>
      exact fun hf u v h => ih (fun g hg => hf g (List.mem_cons_of_mem _ hg)) _ _ (hf f (List.mem_cons_self ..) u v h)
    | notices ns w ih => exact fun hf u v h => ih hf u _ (h.trans (State.Alike.self_deliver v ns))
  refine key s.frameEndWork_woven ?_ _ _ (State.Alike.refl _)
  intro f hf u v h
  simp only [commitSteps, List.mem_cons, List.not_mem_nil, or_false] at hf
  rcases hf with rfl | rfl | rfl | rfl | rfl | rfl | rfl
  · exact h.commitCooling
  · exact h.commitLeases
  · exact h.commitRotation
  · exact h.commitEdits
  · exact h.commitPlan
  · exact h.commitAllocator
  · exact h.publish

/-! ### What a frame end tells the ports -/

/-- `Carries l pieces`: the functions of `l` send notices at most, and the deliveries `pieces` are among them, in this
order. -/
inductive Carries : List (State → State) → List (List (Port × Notice)) → Prop where
  | nil : Carries [] []
  | step {f : State → State} {l : List (State → State)} {pieces : List (List (Port × Notice))} :
      (∀ t : State, t.Told (f t)) → Carries l pieces → Carries (f :: l) pieces
  | notices (ns : List (Port × Notice)) {l : List (State → State)} {pieces : List (List (Port × Notice))} :
      Carries l pieces → Carries ((fun t => t.deliver ns) :: l) (ns :: pieces)

theorem Carries.of_told : {l : List (State → State)} → (∀ f ∈ l, ∀ t : State, t.Told (f t)) → Carries l []
  | [], _ => .nil
  | f :: _, h => .step (h f (List.mem_cons_self ..)) (of_told (fun g hg => h g (List.mem_cons_of_mem _ hg)))

/-- A delivery put in at a place of the list joins what the list carries. -/
theorem Carries.insertIdx {l : List (State → State)} {pieces : List (List (Port × Notice))} (h : Carries l pieces)
    (ns : List (Port × Notice)) (i : Nat) (hi : i ≤ l.length) :
    ∃ more, Carries (l.insertIdx i (fun t => t.deliver ns)) more ∧ ns ∈ more ∧ ∀ x ∈ pieces, x ∈ more := by
  induction h generalizing i with
  | nil =>
    obtain rfl : i = 0 := by simpa using hi
    exact ⟨[ns], .notices ns .nil, by simp, by simp⟩
  | @step f l pieces hf h ih =>
    cases i with
    | zero => exact ⟨ns :: pieces, .notices ns (.step hf h), by simp, fun x hx => by simp [hx]⟩
    | succ i =>
      obtain ⟨more, a, b, c⟩ := ih i (by simpa using hi)
      exact ⟨more, .step hf a, b, c⟩
  | @notices ms l pieces h ih =>
    cases i with
    | zero => exact ⟨ns :: ms :: pieces, .notices ns (.notices ms h), by simp, fun x hx => by simp [hx]⟩
    | succ i =>
      obtain ⟨more, a, b, c⟩ := ih i (by simpa using hi)
      exact ⟨ms :: more, .notices ms a, by simp [b], fun x hx => by
        rcases List.mem_cons.1 hx with rfl | hx
        · simp
        · simp [c x hx]⟩

/-- What the list carries for a port is among the notices the port is told. -/
theorem Carries.tells {l : List (State → State)} {pieces : List (List (Port × Notice))} (h : Carries l pieces)
    (s : State) (q : Port) :
    ∃ m, (l.foldl (fun t f => f t) s).port q = (s.port q).told m
      ∧ ∀ ns ∈ pieces, ((ns.filter (fun x => x.1 == q)).map Prod.snd).Sublist m := by
  induction h generalizing s with
  | nil => exact ⟨[], by simp, by simp⟩
  | @step f l pieces hf h ih =>
    obtain ⟨m, a, b⟩ := ih (f s)
    obtain ⟨k, hk⟩ := hf s q
    refine ⟨k ++ m, ?_, fun ns hns => (b ns hns).trans (List.sublist_append_right _ _)⟩
    rw [List.foldl_cons, a, hk, PortState.told_told]
  | @notices ms l pieces h ih =>
    obtain ⟨m, a, b⟩ := ih (s.deliver ms)
    refine ⟨(ms.filter (fun x => x.1 == q)).map Prod.snd ++ m, ?_, fun ns hns => ?_⟩
    · rw [List.foldl_cons, a, State.port_deliver, PortState.told_told]
    · rcases List.mem_cons.1 hns with rfl | hns
      · exact List.sublist_append_left _ _
      · exact (b ns hns).trans (List.sublist_append_right _ _)

/-- Every port is told the notices of the lapsing offers and of a lapsing proposal among those of a commit (R97, R129). -/
theorem State.commit_tells (s : State) (q : Port) :
    ∃ m, s.commit.port q = (s.port q).told m
      ∧ ((s.offerLapses.filter (fun x => x.1 == q)).map Prod.snd).Sublist m
      ∧ ((s.proposalLapses.filter (fun x => x.1 == q)).map Prod.snd).Sublist m := by
  have h0 : Carries commitSteps [] := by
    refine Carries.of_told fun f hf t => ?_
    simp only [commitSteps, List.mem_cons, List.not_mem_nil, or_false] at hf
    rcases hf with rfl | rfl | rfl | rfl | rfl | rfl | rfl
    · exact .of_ports (by simp)
    · exact t.commitLeases_told
    · exact .of_ports (by simp)
    · exact t.commitEdits_told
    · exact t.commitPlan_told
    · exact t.commitAllocator_told
    · exact .of_ports (by simp)
  have place : ∀ (c : Nat → Nat) (i k : Nat) (l : List (Port × Notice)), 0 < k → placeOf c i k l ≤ k - 1 := by
    intro c i k l hk
    unfold placeOf
    split
    · omega
    · have := Nat.mod_lt (c i) hk
      omega
  obtain ⟨a, ha, hoa, _⟩ := h0.insertIdx s.offerLapses (placeOf Config.offerLapsePlace s.choiceIndex 8 s.offerLapses)
    (by have := place Config.offerLapsePlace s.choiceIndex 8 s.offerLapses (by decide); simpa [commitSteps] using this)
  obtain ⟨b, hb, hpb, hab⟩ := ha.insertIdx s.proposalLapses
    (placeOf Config.proposalLapsePlace s.choiceIndex 9 s.proposalLapses) (by
      have h1 := place Config.offerLapsePlace s.choiceIndex 8 s.offerLapses (by decide)
      have h2 := place Config.proposalLapsePlace s.choiceIndex 9 s.proposalLapses (by decide)
      rw [List.length_insertIdx_of_le_length (by simpa [commitSteps] using h1)]
      simpa [commitSteps] using h2)
  obtain ⟨m, h, hm⟩ := hb.tells s.countOffers.countDeadline q
  refine ⟨m, ?_, hm _ (hab _ hoa), hm _ hpb⟩
  have e : s.countOffers.countDeadline.port q = s.port q := by
    unfold State.port
    rw [show s.countOffers.countDeadline.ports = s.ports by simp]
  rw [← e]
  exact h

end Sys2Proof.Machine
end

