-- ==== Sys2Proof/Laws/Checks.lean ====
section
/-! SUPPORT. The laws of Sys2Proof/Safety.lean as Boolean checks: each check, where it holds, gives its law. They let a
concrete state be shown lawful by evaluation. -/

namespace Sys2Proof.Machine

open Sys2Proof

/-- What holds of the four ports holds of every port. -/
theorem forall_port {P : Port → Prop} : (∀ p, P p) ↔ P .a ∧ P .b ∧ P .c ∧ P .d :=
  ⟨fun h => ⟨h _, h _, h _, h _⟩, fun ⟨ha, hb, hc, hd⟩ p => by cases p <;> assumption⟩

/-- What a check over the 64 positions says of each. -/
theorem forall_slot {f : Nat → Bool} (h : (List.range 64).all f = true) {n : Nat} (hn : n < 64) : f n = true :=
  List.all_eq_true.1 h n (List.mem_range.2 hn)

/-! ### The schedule -/

/-- `Entry.Ok` as a check. -/
def Entry.okCheck : Entry → Bool
  | .held _ h => h.lease != 0
  | .shared ms dr h => decide (2 ≤ ms.length ∧ ms.length ≤ 4 ∧ ms.Nodup ∧ dr ∈ ms) && h.lease != 0
  | .beacon | .free | .cooling => true

theorem Entry.ok_of_check {e : Entry} (h : e.okCheck = true) : e.Ok := by
  cases e <;> simp_all [Entry.okCheck, Entry.Ok]

/-- `Table.Ok` as a check. -/
def Table.okCheck (t : Table) : Bool :=
  entryAt t 0 == .beacon
    && (List.range 64).all (fun n => n == 0 || (entryAt t n != .beacon && (entryAt t n).okCheck))

theorem Table.ok_of_check {t : Table} (h : Table.okCheck t = true) : Table.Ok t := by
  simp only [Table.okCheck, Bool.and_eq_true, beq_iff_eq] at h
  refine ⟨h.1, fun n hn h1 => ?_⟩
  have := forall_slot h.2 hn
  simp only [Bool.or_eq_true, beq_iff_eq, Bool.and_eq_true, bne_iff_ne] at this
  rcases this with h0 | ⟨hb, ho⟩
  · omega
  · exact ⟨hb, Entry.ok_of_check ho⟩

/-- `Offer.Ok` as a check. -/
def Offer.okCheck (t : Table) (o : Offer) : Bool :=
  decide (o.slot < 64 ∧ 1 ≤ o.left ∧ o.giver ∈ (entryAt t o.slot).parties ∧ o.target ∉ (entryAt t o.slot).parties
    ∧ (o.kind = .share → (entryAt t o.slot).parties.length < 4))

/-- `PlanTerms.Ok` as a check. -/
def PlanTerms.okCheck (t : PlanTerms) : Bool :=
  decide (4 ≤ t.geometry.slots ∧ t.geometry.slots ≤ 64) && portList.all (fun p => t.quotas.get p ≤ 63)

theorem PlanTerms.ok_of_check {t : PlanTerms} (h : t.okCheck = true) : t.Ok := by
  simp only [PlanTerms.okCheck, Bool.and_eq_true, decide_eq_true_eq, List.all_eq_true] at h
  exact ⟨h.1.1, h.1.2, fun p => h.2 p (by cases p <;> simp [portList])⟩

/-- The confirmed set is within the confirming set. -/
def Proposal.withinCheck (pr : Proposal) : Bool :=
  portList.all (fun p => !pr.confirmed.get p || pr.confirming.get p)

theorem Proposal.within_of_check {pr : Proposal} (h : pr.withinCheck = true) (p : Port)
    (hp : pr.confirmed.get p = true) : pr.confirming.get p = true := by
  have := List.all_eq_true.1 h p (by cases p <;> simp [portList])
  simpa [hp] using this

/-- `ProposalState.Ok` as a check. -/
def ProposalState.okCheck : ProposalState → Bool
  | .none => true
  | .opened pr d => pr.terms.okCheck && pr.withinCheck && decide (1 ≤ d ∧ d ≤ 4095)
  | .agreed pr _ => pr.terms.okCheck && pr.withinCheck

theorem ProposalState.ok_of_check {x : ProposalState} (h : x.okCheck = true) : x.Ok := by
  cases x with
  | none => trivial
  | opened pr d =>
    simp only [ProposalState.okCheck, Bool.and_eq_true, decide_eq_true_eq] at h
    exact ⟨PlanTerms.ok_of_check h.1.1, h.2.1, h.2.2, Proposal.within_of_check h.1.2⟩
  | agreed pr f =>
    simp only [ProposalState.okCheck, Bool.and_eq_true] at h
    exact ⟨PlanTerms.ok_of_check h.1, Proposal.within_of_check h.2⟩

/-- `Placement.Ok` as a check. -/
def Placement.okCheck (count : Nat) : Placement → Bool
  | .any | .run => true
  | .list l => decide (l.length = count ∧ l.Nodup ∧ ∀ n ∈ l, 1 ≤ n)

/-- `Reservation.Ok` as a check. -/
def Reservation.okCheck (r : Reservation) : Bool :=
  decide (r.tag ≠ 0 ∧ 1 ≤ r.count ∧ r.count ≤ 8 ∧ r.lease ≠ 0 ∧ r.wait ≤ 4095) && r.placement.okCheck r.count

theorem Reservation.ok_of_check {r : Reservation} (h : r.okCheck = true) : r.Ok := by
  simp only [Reservation.okCheck, Bool.and_eq_true, decide_eq_true_eq] at h
  obtain ⟨⟨h1, h2, h3, h4, h5⟩, h6⟩ := h
  refine ⟨h1, h2, h3, h4, h5, ?_⟩
  cases hp : r.placement <;> simp_all [Placement.okCheck, Placement.Ok]

/-- `TimedAction.Ok` as a check. -/
def TimedAction.okCheck : TimedAction → Bool
  | .release n => 1 ≤ n
  | .renew n l => decide (1 ≤ n ∧ l ≠ 0)
  | .enqueue r => r.okCheck

theorem TimedAction.ok_of_check {a : TimedAction} (h : a.okCheck = true) : a.Ok := by
  cases a with
  | release n => simpa [TimedAction.okCheck, TimedAction.Ok] using h
  | renew n l => simpa [TimedAction.okCheck, TimedAction.Ok] using h
  | enqueue r => exact Reservation.ok_of_check h

/-- `State.ScheduleOk` as a check. -/
def State.scheduleCheck (s : State) : Bool :=
  Table.okCheck s.active && Table.okCheck s.staged
    && (List.range 64).all (fun n =>
      (entryAt s.active n != .cooling || (entryAt s.staged n).parties == [])
        && (n < s.slots || (entryAt s.active n == .free && entryAt s.staged n == .free)) && (entryAt s.staged n).parties.all s.attached)
    && decide (s.offers.Pairwise (fun x y => x.slot < y.slot)) && s.offers.all (Offer.okCheck s.staged)
    && s.requests.all (fun r => s.attached r.port && r.res.lease != 0)
    && s.offers.all (fun o => s.attached o.giver && s.attached o.target)
    && s.edits.all (fun e => s.attached e.issuer && e.action.okCheck) && decide (4 ≤ s.slots) && s.proposal.okCheck

theorem State.scheduleOk_of_check {s : State} (h : s.scheduleCheck = true) : s.ScheduleOk := by
  simp only [State.scheduleCheck, Bool.and_eq_true] at h
  obtain ⟨⟨⟨⟨⟨⟨⟨⟨⟨ha, hst⟩, hn⟩, hpw⟩, hof⟩, hrq⟩, hro⟩, hed⟩, hs⟩, hpr⟩ := h
  have slot : ∀ n, n < 64 → (entryAt s.active n ≠ .cooling ∨ (entryAt s.staged n).parties = [])
      ∧ (n < s.slots ∨ entryAt s.active n = .free ∧ entryAt s.staged n = .free) ∧ ∀ p ∈ (entryAt s.staged n).parties, s.attached p = true := by
    intro n h64
    have := forall_slot hn h64
    simpa [and_assoc] using this
  refine ⟨Table.ok_of_check ha, Table.ok_of_check hst, fun n h64 hc => ?_, fun n hge h64 => ?_,
    ⟨by simpa using hpw, ?_⟩, ⟨fun n h64 p hp => (slot n h64).2.2 p hp, ?_, ?_, ?_⟩, ?_, ?_, by simpa using hs,
    ProposalState.ok_of_check hpr⟩
  · exact ((slot n h64).1).resolve_left (fun hne => hne hc)
  · exact ((slot n h64).2.1).resolve_left (by omega)
  · intro o ho
    have := List.all_eq_true.1 hof o ho
    simp only [Offer.okCheck, decide_eq_true_eq] at this
    exact this
  · intro r hr
    have := List.all_eq_true.1 hrq r hr
    simp_all
  · intro o ho
    have := List.all_eq_true.1 hro o ho
    simp_all
  · intro e he
    have := List.all_eq_true.1 hed e he
    simp_all
  · intro r hr
    have := List.all_eq_true.1 hrq r hr
    simp_all
  · intro e he
    have := List.all_eq_true.1 hed e he
    simp only [Bool.and_eq_true] at this
    exact TimedAction.ok_of_check this.2

/-! ### The queues and the ids -/

/-- `State.RequestsOk` as a check. -/
def State.requestsCheck (s : State) : Bool :=
  decide (s.requests.length ≤ 16) && portList.all (fun p => s.pendingCount p ≤ 6)
    && decide (s.requests.Pairwise (fun x y => x.port ≠ y.port ∨ x.res.tag ≠ y.res.tag))
    && s.requests.all (fun r => r.res.okCheck) && s.edits.all (fun e => e.action.okCheck)

theorem State.requestsOk_of_check {s : State} (h : s.requestsCheck = true) : s.RequestsOk := by
  simp only [State.requestsCheck, Bool.and_eq_true, decide_eq_true_eq, List.all_eq_true] at h
  obtain ⟨⟨⟨⟨h1, h2⟩, h3⟩, h4⟩, h5⟩ := h
  exact ⟨h1, fun p => h2 p (by cases p <;> simp [portList]), h3, fun r hr => Reservation.ok_of_check (h4 r hr),
    fun e he => TimedAction.ok_of_check (h5 e he)⟩

/-- `State.EditsOk` as a check. -/
def State.editsCheck (s : State) : Bool :=
  decide (s.edits.length ≤ 24)
    && decide (s.edits.Pairwise (fun x y => s.distance x.activation ≤ s.distance y.activation))
    && s.edits.all (fun e => decide (1 ≤ s.distance e.activation ∧ s.distance e.activation ≤ 1048576))

theorem State.editsOk_of_check {s : State} (h : s.editsCheck = true) : s.EditsOk := by
  simp only [State.editsCheck, Bool.and_eq_true, decide_eq_true_eq, List.all_eq_true] at h
  exact ⟨h.1.1, h.1.2, h.2⟩

/-- `State.NoticesOk` as a check. -/
def State.noticesCheck (s : State) : Bool :=
  portList.all (fun p => decide ((s.port p).notices.length ≤ 16
    ∧ (s.attached p = false → (s.port p).notices = [] ∧ (s.port p).lost = false)))

theorem State.noticesOk_of_check {s : State} (h : s.noticesCheck = true) : s.NoticesOk := by
  simp only [State.noticesCheck, decide_eq_true_eq, List.all_eq_true] at h
  exact fun p => h p (by cases p <;> simp [portList])

/-- `State.OfferIdsOk` as a check. -/
def State.offerIdsCheck (s : State) : Bool :=
  decide (s.offers.length ≤ 8 ∧ (s.offers.map Offer.id).Nodup ∧ (∀ o ∈ s.offers, o.id ≠ 0) ∧ s.offerCounter ≠ 0)

theorem State.offerIdsOk_of_check {s : State} (h : s.offerIdsCheck = true) : s.OfferIdsOk := by
  simp only [State.offerIdsCheck, decide_eq_true_eq] at h
  exact h

/-- `State.EditIdsOk` as a check. -/
def State.editIdsCheck (s : State) : Bool :=
  decide (s.edits.length ≤ 24 ∧ (s.edits.map Edit.id).Nodup ∧ (∀ e ∈ s.edits, e.id ≠ 0) ∧ s.editCounter ≠ 0)

theorem State.editIdsOk_of_check {s : State} (h : s.editIdsCheck = true) : s.EditIdsOk := by
  simp only [State.editIdsCheck, decide_eq_true_eq] at h
  exact h

/-! ### The Frame Generator, the plan and the holdings -/

/-- `FrameState.Ok` as a check. -/
def FrameState.okCheck (g : Geometry) : FrameState → Bool
  | .running (.bit n) => n < g.frameBits
  | .running .leadInWait | .running .leadIn => true
  | .stalled _ abandoned => decide (abandoned < 64 ∧ g.source = .external)

theorem FrameState.ok_of_check {g : Geometry} {f : FrameState} (h : f.okCheck g = true) : f.Ok g := by
  cases f with
  | running pos => cases pos <;> simp_all [FrameState.okCheck, FrameState.Ok]
  | stalled c k => simpa [FrameState.okCheck, FrameState.Ok] using h

/-- `State.TimingOk` as a check. -/
def State.timingCheck (s : State) : Bool :=
  decide (s.geometry = s.plan.terms.geometry) && s.plan.terms.okCheck && s.proposal.okCheck
    && s.frame.okCheck s.geometry
    && decide (s.edgeTimer < 1024 ∧ s.recoveryCount ≤ 16 ∧ s.clockPhase < s.geometry.bitPeriod)

theorem State.timingOk_of_check {s : State} (h : s.timingCheck = true) : s.TimingOk := by
  simp only [State.timingCheck, Bool.and_eq_true, decide_eq_true_eq] at h
  obtain ⟨⟨⟨⟨h1, h2⟩, h3⟩, h4⟩, h5⟩ := h
  exact ⟨h1, PlanTerms.ok_of_check h2, ProposalState.ok_of_check h3, FrameState.ok_of_check h4, h5⟩

/-- `Entry.Kept` as a check. -/
def Entry.keptCheck (e : Entry) : Bool :=
  match e.holding? with
  | none => true
  | some h => h.tag != 0 && portList.all (fun p => !h.warned.get p || e.parties.contains p)

theorem Entry.kept_of_check {e : Entry} (h : e.keptCheck = true) : e.Kept := by
  intro x hx
  simp only [Entry.keptCheck, hx, Bool.and_eq_true, bne_iff_ne, List.all_eq_true] at h
  refine ⟨h.1, fun p hp => ?_⟩
  have := h.2 p (by cases p <;> simp [portList])
  simpa [hp] using this

/-- `State.BookkeepingOk` as a check. -/
def State.bookkeepingCheck (s : State) : Bool :=
  (List.range 64).all (fun n => (entryAt s.active n).keptCheck && (entryAt s.staged n).keptCheck
      && (match (entryAt s.active n).holding? with
        | none => true
        | some h => h.renewal == none))
    && s.requests.all (fun r => r.res.tag != 0) && s.edits.all (fun e => e.action.okCheck)

theorem State.bookkeepingOk_of_check {s : State} (h : s.bookkeepingCheck = true) : s.BookkeepingOk := by
  simp only [State.bookkeepingCheck, Bool.and_eq_true] at h
  obtain ⟨⟨hn, hr⟩, he⟩ := h
  have slot := fun n (h64 : n < 64) => forall_slot hn h64
  simp only [Bool.and_eq_true] at slot
  refine ⟨fun n h64 => ⟨Entry.kept_of_check (slot n h64).1.1, Entry.kept_of_check (slot n h64).1.2⟩, ?_, ?_, ?_⟩
  · intro n h64 x hx
    have := (slot n h64).2
    simpa [hx] using this
  · intro r hr'
    have := List.all_eq_true.1 hr r hr'
    simpa using this
  · intro e he'
    exact TimedAction.ok_of_check (List.all_eq_true.1 he e he')

end Sys2Proof.Machine
end

