-- ==== Sys2Proof/Laws/Judges.lean ====
section
/-! SUPPORT. One inversion lemma for the judgement of each request that can change the part: if it answers OK, its checks
passed, and this is the state and the body it answers with. The requests that only read are at the end. -/

namespace Sys2Proof.Machine

open Sys2Proof

/-! ### The checks that come first -/

theorem whenAttached_ok {s : State} {p : Port} {k : Answer} {t : State} {b : List Byte}
    (h : s.whenAttached p k = .ok t b) : s.attached p = true ∧ k = .ok t b := by
  unfold State.whenAttached at h
  split at h
  · exact ⟨by assumption, h⟩
  · cases h

theorem withFields_ok {α : Type} {o : Option α} {k : α → Answer} {t : State} {b : List Byte}
    (h : withFields o k = .ok t b) : ∃ x, o = some x ∧ k x = .ok t b := by
  cases o with
  | none => cases h
  | some x => exact ⟨x, rfl, h⟩

/-- What holds of a state, survives the rise of CSn and a reply, and is kept by every OK of a judgement, is kept by the
request command (R163). -/
theorem State.takeRequest_keeps (P : State → Prop) (s : State) (p : Port) (r : RequestCode) (payload : List Byte)
    (judge : State → Answer) (h : P s) (hd : P (s.deselect p))
    (hr : ∀ t code body, P t → P (t.reply p code body))
    (hj : ∀ t body, judge (s.deselect p) = .ok t body → P t) : P (s.takeRequest p r payload judge) := by
  rcases s.takeRequest_cases p r payload judge with e | e | ⟨_, e⟩ <;> rw [e]
  · exact h
  · exact hd
  · cases hjs : judge (s.deselect p) with
    | refuse code body => exact hr _ _ _ hd
    | ok t body => exact hr _ _ _ (hj t body hjs)

/-! ### Requests that change the part -/

theorem judgeAttach_ok {p : Port} {l : List Byte} {s t : State} {b : List Byte} (h : judgeAttach p l s = .ok t b) :
    s.attached p = false ∧ ∃ x, readAttach l = some x ∧ t = s.setPort p { s.port p with attachment := some x }
      ∧ b = s.snapshotBytes ++ [byteOf (s.quota p)] := by
  unfold judgeAttach at h
  split at h
  · cases h
  · obtain ⟨x, hx, h⟩ := withFields_ok h
    cases h
    exact ⟨by simp_all, x, hx, rfl, rfl⟩

theorem judgeDetach_ok {p : Port} {l : List Byte} {s t : State} {b : List Byte} (h : judgeDetach p l s = .ok t b) :
    s.attached p = true ∧ l = []
      ∧ t = (((((s.detachPort p).giveUpSlots p .detached (s.ownSlots p)).dropTargetOffers p).dropOwn p).leaveProposal
          p).1 := by
  obtain ⟨ha, h⟩ := whenAttached_ok h
  obtain ⟨x, hx, h⟩ := withFields_ok h
  cases h
  refine ⟨ha, ?_, rfl⟩
  unfold readEmpty at hx
  split at hx
  · assumption
  · cases hx

theorem judgeRenew_ok {p : Port} {l : List Byte} {s t : State} {b : List Byte} (h : judgeRenew p l s = .ok t b) :
    s.attached p = true ∧ ∃ sel lease n ns, readRenew s.slots l = some (sel, lease) ∧ s.qualifying p sel = n :: ns
      ∧ t = (n :: ns).foldl (fun s n => s.setRenewal lease n) s ∧ b = [byteOf (n :: ns).length, byteOf n] := by
  obtain ⟨ha, h⟩ := whenAttached_ok h
  obtain ⟨⟨sel, lease⟩, hx, h⟩ := withFields_ok h
  dsimp only at h
  split at h
  · cases h
  · cases h
    exact ⟨ha, sel, lease, _, _, hx, by assumption, rfl, rfl⟩

theorem judgeRelease_ok {p : Port} {l : List Byte} {s t : State} {b : List Byte} (h : judgeRelease p l s = .ok t b) :
    s.attached p = true ∧ ∃ sel n ns, readRelease s.slots l = some sel ∧ s.qualifying p sel = n :: ns
      ∧ t = s.giveUpSlots p .released (n :: ns)
      ∧ b = [byteOf (n :: ns).length, byteOf (s.heldAmong (n :: ns)), byteOf n] := by
  obtain ⟨ha, h⟩ := whenAttached_ok h
  obtain ⟨sel, hx, h⟩ := withFields_ok h
  split at h
  · cases h
  · cases h
    exact ⟨ha, sel, _, _, hx, by assumption, rfl, rfl⟩

theorem judgeReserve_ok {p : Port} {l : List Byte} {s t : State} {b : List Byte} (h : judgeReserve p l s = .ok t b) :
    s.attached p = true ∧ ∃ r, readReservation s.slots l = some r ∧ s.tagPending p r.tag = false
      ∧ r.count ≤ s.quota p ∧ s.pendingCount p < 6 ∧ s.requests.length < 16 ∧ t = s.enqueue p r
      ∧ b = [byteOf t.requests.length, byteOf (t.pendingCount p)] := by
  obtain ⟨ha, h⟩ := whenAttached_ok h
  obtain ⟨r, hx, h⟩ := withFields_ok h
  iterate 4
    split at h
    · cases h
  cases h
  refine ⟨ha, r, hx, by simp_all, by omega, ?_, ?_, rfl, rfl⟩ <;> simp only [maxRequests, maxRequestsPerPort] at * <;> omega

theorem judgeCancel_ok {p : Port} {l : List Byte} {s t : State} {b : List Byte} (h : judgeCancel p l s = .ok t b) :
    s.attached p = true ∧ ∃ tag k r, readName l = some tag
      ∧ (s.ownRecords p).find? (fun x => x.2.res.tag == tag) = some (k, r)
      ∧ t = { s with requests := s.requests.erase r }
      ∧ b = byteOf k :: halfBytes (BitVec.ofNat 16 r.res.wait) := by
  obtain ⟨ha, h⟩ := whenAttached_ok h
  obtain ⟨tag, hx, h⟩ := withFields_ok h
  split at h
  · cases h
  · cases h
    exact ⟨ha, tag, _, _, hx, by assumption, rfl, rfl⟩

/-- The offer that an OFFER makes (R88, R90). -/
def State.newOffer (s : State) (p : Port) (f : OfferFields) : Offer :=
  { id := s.newOfferId, giver := p, target := f.target, slot := f.slot, kind := f.kind, left := f.frames }

theorem judgeOffer_ok {p : Port} {l : List Byte} {s t : State} {b : List Byte} (h : judgeOffer p l s = .ok t b) :
    s.attached p = true ∧ ∃ f, readOffer s.slots p l = some f ∧ (entryAt s.staged f.slot).names p = true
      ∧ s.attached f.target = true ∧ s.offerOn f.slot = none ∧ (entryAt s.staged f.slot).names f.target = false
      ∧ (f.kind = .share → (entryAt s.staged f.slot).parties.length < 4) ∧ s.offers.length < 8
      ∧ t = { s with offers := insertOffer (s.newOffer p f) s.offers, offerCounter := nextId s.newOfferId }.notify
          f.target { s.offerNotice .offerMade (s.newOffer p f) (entryAt s.staged f.slot).tag p f.kind.reason with
            count := some f.frames }
      ∧ b = [s.newOfferId] := by
  obtain ⟨ha, h⟩ := whenAttached_ok h
  obtain ⟨f, hx, h⟩ := withFields_ok h
  dsimp only at h
  iterate 6
    split at h
    · cases h
  cases h
  refine ⟨ha, f, hx, by simp_all, by simp_all, by simp_all, by simp_all, ?_, ?_, rfl, rfl⟩
  · intro hk
    simp_all
  · simp only [maxOffers] at *
    omega

theorem judgeAccept_ok {p : Port} {l : List Byte} {s t : State} {b : List Byte} (h : judgeAccept p l s = .ok t b) :
    s.attached p = true ∧ ∃ i o, readName l = some i ∧ s.offerWithId i = some o ∧ o.target = p
      ∧ s.holdingCount p + 1 ≤ s.quota p ∧ t = s.acceptOffer o
      ∧ b = [byteOf o.slot, o.kind.code, ((entryAt s.staged o.slot).accepted o).tag,
          byteOf ((entryAt s.staged o.slot).accepted o).parties.length] := by
  obtain ⟨ha, h⟩ := whenAttached_ok h
  obtain ⟨i, hx, h⟩ := withFields_ok h
  dsimp only at h
  split at h
  · cases h
  · split at h
    · cases h
    · split at h
      · cases h
      · cases h
        exact ⟨ha, i, _, hx, by assumption, by simp_all, by omega, rfl, rfl⟩

theorem judgeDecline_ok {p : Port} {l : List Byte} {s t : State} {b : List Byte} (h : judgeDecline p l s = .ok t b) :
    s.attached p = true ∧ ∃ i o, readName l = some i ∧ s.offerWithId i = some o ∧ o.target = p
      ∧ t = s.refuseOffer o .declined ∧ b = [] := by
  obtain ⟨ha, h⟩ := whenAttached_ok h
  obtain ⟨i, hx, h⟩ := withFields_ok h
  split at h
  · cases h
  · split at h
    · cases h
    · cases h
      exact ⟨ha, i, _, hx, by assumption, by simp_all, rfl, rfl⟩

theorem judgeWithdraw_ok {p : Port} {l : List Byte} {s t : State} {b : List Byte}
    (h : judgeWithdraw p l s = .ok t b) :
    s.attached p = true ∧ ∃ i o, readName l = some i ∧ s.offerWithId i = some o ∧ o.giver = p
      ∧ t = s.voidOffer o (s.slotTag o.slot) .withdrawn ∧ b = [] := by
  obtain ⟨ha, h⟩ := whenAttached_ok h
  obtain ⟨i, hx, h⟩ := withFields_ok h
  split at h
  · cases h
  · split at h
    · cases h
    · cases h
      exact ⟨ha, i, _, hx, by assumption, by simp_all, rfl, rfl⟩

/-- The entry that a SCHEDULE makes (R107, R110). -/
def State.newEdit (s : State) (p : Port) (activation : Word) (action : TimedAction) : Edit :=
  { id := s.newEditId, issuer := p, activation := activation, action := action }

theorem judgeSchedule_ok {p : Port} {l : List Byte} {s t : State} {b : List Byte}
    (h : judgeSchedule p l s = .ok t b) :
    s.attached p = true ∧ ∃ f act, readSchedule s.slots l = some (f, act) ∧ 1 ≤ s.distance f
      ∧ s.distance f ≤ 1048576 ∧ s.edits.length < 24
      ∧ t = { s with edits := s.insertEdit (s.newEdit p f act) s.edits, editCounter := nextId s.newEditId }
      ∧ b = [s.newEditId, byteOf (t.edits.findIdx (fun x => x.id == s.newEditId) + 1), byteOf (t.editCount p)] := by
  obtain ⟨ha, h⟩ := whenAttached_ok h
  obtain ⟨⟨f, act⟩, hx, h⟩ := withFields_ok h
  dsimp only at h
  iterate 3
    split at h
    · cases h
  cases h
  refine ⟨ha, f, act, hx, by omega, ?_, ?_, rfl, rfl⟩ <;> simp only [maxDistance, maxEdits] at * <;> omega

theorem judgeUnschedule_ok {p : Port} {l : List Byte} {s t : State} {b : List Byte}
    (h : judgeUnschedule p l s = .ok t b) :
    s.attached p = true ∧ ∃ i e, readName l = some i ∧ s.edits.find? (fun e => e.id == i && e.issuer == p) = some e
      ∧ t = { s with edits := s.edits.erase e } ∧ b = wordBytes e.activation ++ [e.action.code] := by
  obtain ⟨ha, h⟩ := whenAttached_ok h
  obtain ⟨i, hx, h⟩ := withFields_ok h
  split at h
  · cases h
  · cases h
    exact ⟨ha, i, _, hx, by assumption, rfl, rfl⟩

/-- The proposal that a PROPOSE makes (R124). -/
def State.newProposal (s : State) (p : Port) (terms : PlanTerms) : Proposal :=
  { proposer := p, terms := terms, confirming := s.attachedSet, confirmed := PerPort.single p }

theorem judgePropose_ok {p : Port} {l : List Byte} {s t : State} {b : List Byte} (h : judgePropose p l s = .ok t b) :
    s.attached p = true ∧ ∃ terms d, readProposal l = some (terms, d) ∧ s.proposal = .none
      ∧ t = (if (s.newProposal p terms).complete then s.judgeProposal (s.newProposal p terms) d
          else (s.judgeProposal (s.newProposal p terms) d).notifyAll
            ((PerPort.elems (s.newProposal p terms).confirming).filter (· != p))
            { s.notice .planOpen with other := some p, count := some d })
      ∧ b = [t.proposal.code, byteOf (PerPort.size (s.newProposal p terms).confirming)] := by
  obtain ⟨ha, h⟩ := whenAttached_ok h
  obtain ⟨⟨terms, d⟩, hx, h⟩ := withFields_ok h
  dsimp only at h
  split at h
  · cases h
  · cases h
  · cases h
    exact ⟨ha, terms, d, hx, by assumption, rfl, rfl⟩

theorem asMember_ok {s : State} {p : Port} {k : Proposal → Nat → Answer} {t : State} {b : List Byte}
    (h : s.asMember p k = .ok t b) :
    ∃ pr d, s.proposal = .opened pr d ∧ pr.confirming.get p = true ∧ k pr d = .ok t b := by
  unfold State.asMember at h
  split at h
  · cases h
  · cases h
  · split at h
    · exact ⟨_, _, by assumption, by assumption, h⟩
    · cases h

theorem readEmpty_some {l : List Byte} {x : Unit} (h : readEmpty l = some x) : l = [] := by
  unfold readEmpty at h
  split at h
  · assumption
  · cases h

theorem judgeConfirm_ok {p : Port} {l : List Byte} {s t : State} {b : List Byte} (h : judgeConfirm p l s = .ok t b) :
    s.attached p = true ∧ l = [] ∧ ∃ pr d, s.proposal = .opened pr d ∧ pr.confirming.get p = true
      ∧ ((pr.confirmed.get p = true ∧ t = s)
        ∨ (pr.confirmed.get p = false ∧ t = s.judgeProposal { pr with confirmed := pr.confirmed.insert p } d)) := by
  obtain ⟨ha, h⟩ := whenAttached_ok h
  obtain ⟨x, hx, h⟩ := withFields_ok h
  obtain ⟨pr, d, hp, hc, h⟩ := asMember_ok h
  refine ⟨ha, readEmpty_some hx, pr, d, hp, hc, ?_⟩
  split at h
  · cases h; exact .inl ⟨by assumption, rfl⟩
  · cases h; exact .inr ⟨by simp_all, rfl⟩

theorem judgeReject_ok {p : Port} {l : List Byte} {s t : State} {b : List Byte} (h : judgeReject p l s = .ok t b) :
    s.attached p = true ∧ l = [] ∧ ∃ pr d, s.proposal = .opened pr d ∧ pr.confirming.get p = true
      ∧ t = s.failProposal pr .rejected p ∧ b = [] := by
  obtain ⟨ha, h⟩ := whenAttached_ok h
  obtain ⟨x, hx, h⟩ := withFields_ok h
  obtain ⟨pr, d, hp, hc, h⟩ := asMember_ok h
  cases h
  exact ⟨ha, readEmpty_some hx, pr, d, hp, hc, rfl, rfl⟩

theorem judgeFetch_ok {p : Port} {l : List Byte} {s t : State} {b : List Byte} (h : judgeFetch p l s = .ok t b) :
    s.attached p = true ∧ ∃ k n, readRanged 1 8 l = some k ∧ n = min (min k (s.port p).notices.length) 7
      ∧ t = s.setPort p { s.port p with notices := (s.port p).notices.drop n, lost := false }
      ∧ b = [bitAt 7 (s.port p).lost ||| byteOf n, byteOf ((s.port p).notices.length - n)]
          ++ ((s.port p).notices.take n).flatMap noticeBytes := by
  obtain ⟨ha, h⟩ := whenAttached_ok h
  obtain ⟨k, hx, h⟩ := withFields_ok h
  cases h
  exact ⟨ha, k, _, hx, rfl, rfl, rfl⟩

theorem judgeAttention_ok {p : Port} {l : List Byte} {s t : State} {b : List Byte}
    (h : judgeAttention p l s = .ok t b) :
    ∃ x m, (s.port p).attachment = some x ∧ readAttention l = some m
      ∧ t = s.setPort p { s.port p with attachment := some { x with mask := m } }
      ∧ b = [maskByte m, byteOf ((s.port p).notices.countP (maskNames m))] := by
  unfold judgeAttention at h
  dsimp only at h
  split at h
  · cases h
  · obtain ⟨m, hm, h⟩ := withFields_ok h
    cases h
    exact ⟨_, m, by assumption, hm, rfl, rfl⟩

/-! ### Requests that only read -/

theorem judgePoll_ok {p : Port} {l : List Byte} {s t : State} {b : List Byte} (h : judgePoll p l s = .ok t b) :
    t = s := by
  obtain ⟨_, _, h⟩ := withFields_ok h; cases h; rfl

theorem judgeSnapshot_ok {l : List Byte} {s t : State} {b : List Byte} (h : judgeSnapshot l s = .ok t b) : t = s := by
  obtain ⟨_, _, h⟩ := withFields_ok h; cases h; rfl

theorem judgeReadSlot_ok {l : List Byte} {s t : State} {b : List Byte} (h : judgeReadSlot l s = .ok t b) : t = s := by
  obtain ⟨_, _, h⟩ := withFields_ok h; cases h; rfl

theorem judgeReadMap_ok {p : Port} {l : List Byte} {s t : State} {b : List Byte} (h : judgeReadMap p l s = .ok t b) :
    t = s := by
  obtain ⟨_, _, h⟩ := withFields_ok h; cases h; rfl

theorem judgeReadPlan_ok {l : List Byte} {s t : State} {b : List Byte} (h : judgeReadPlan l s = .ok t b) : t = s := by
  obtain ⟨_, _, h⟩ := withFields_ok h; cases h; rfl

theorem judgeHoldings_ok {p : Port} {l : List Byte} {s t : State} {b : List Byte}
    (h : judgeHoldings p l s = .ok t b) : t = s := by
  obtain ⟨_, h⟩ := whenAttached_ok h
  obtain ⟨_, _, h⟩ := withFields_ok h; cases h; rfl

theorem judgeReadRequests_ok {p : Port} {l : List Byte} {s t : State} {b : List Byte}
    (h : judgeReadRequests p l s = .ok t b) : t = s := by
  obtain ⟨_, h⟩ := whenAttached_ok h
  obtain ⟨_, _, h⟩ := withFields_ok h; cases h; rfl

theorem judgeReadEdits_ok {p : Port} {l : List Byte} {s t : State} {b : List Byte}
    (h : judgeReadEdits p l s = .ok t b) : t = s := by
  obtain ⟨_, h⟩ := whenAttached_ok h
  obtain ⟨_, _, h⟩ := withFields_ok h; cases h; rfl

end Sys2Proof.Machine
end

