-- ==== Sys2Proof/Laws/Step.lean ====
section
/-! SUPPORT. All that a step can do, said once: `Keeps P` lists what must be shown of a property `P` for each thing a
command or a REFCLK period can do, and `Keeps.step` draws the conclusion for every step. -/

namespace Sys2Proof.Machine

open Sys2Proof

/-- What a property must survive so that every step keeps it. Each field names the one thing a step does, with what is
known when it does it. -/
structure Keeps (P : State → Prop) : Prop where
  /-- The queue of waiting commands has moved on. -/
  queue : ∀ s l, P s → P { s with pending := l }
  /-- A port's link has moved: CSn, its receiver or its reply buffer. -/
  link : ∀ s p x, P s → x.attachment = (s.port p).attachment → x.notices = (s.port p).notices →
    x.lost = (s.port p).lost → P (s.setPort p x)
  attach : ∀ s p x, P s → s.attached p = false → P (s.setPort p { s.port p with attachment := some x })
  attention : ∀ s p x m, P s → (s.port p).attachment = some x →
    P (s.setPort p { s.port p with attachment := some { x with mask := m } })
  fetch : ∀ s p n, P s → s.attached p = true →
    P (s.setPort p { s.port p with notices := (s.port p).notices.drop n, lost := false })
  detach : ∀ s p, P s → s.attached p = true →
    P (((((s.detachPort p).giveUpSlots p .detached (s.ownSlots p)).dropTargetOffers p).dropOwn p).leaveProposal p).1
  renew : ∀ s p l sel lease ns, P s → s.attached p = true → readRenew s.slots l = some (sel, lease) →
    s.qualifying p sel = ns → P (ns.foldl (fun s n => s.setRenewal lease n) s)
  release : ∀ s p l sel ns, P s → s.attached p = true → readRelease s.slots l = some sel →
    s.qualifying p sel = ns → P (s.giveUpSlots p .released ns)
  reserve : ∀ s p l r, P s → s.attached p = true → readReservation s.slots l = some r → s.tagPending p r.tag = false →
    r.count ≤ s.quota p → s.pendingCount p < 6 → s.requests.length < 16 → P (s.enqueue p r)
  cancel : ∀ s r, P s → P { s with requests := s.requests.erase r }
  offer : ∀ s p l f n, P s → s.attached p = true → readOffer s.slots p l = some f →
    (entryAt s.staged f.slot).names p = true → s.attached f.target = true → s.offerOn f.slot = none →
    (entryAt s.staged f.slot).names f.target = false →
    (f.kind = .share → (entryAt s.staged f.slot).parties.length < 4) → s.offers.length < 8 →
    P ({ s with offers := insertOffer (s.newOffer p f) s.offers, offerCounter := nextId s.newOfferId }.notify
      f.target n)
  accept : ∀ s p o, P s → s.attached p = true → o ∈ s.offers → o.target = p → s.holdingCount p + 1 ≤ s.quota p →
    P (s.acceptOffer o)
  decline : ∀ s o why, P s → o ∈ s.offers → P (s.refuseOffer o why)
  withdraw : ∀ s o tag why, P s → o ∈ s.offers → P (s.voidOffer o tag why)
  schedule : ∀ s p l f act, P s → s.attached p = true → readSchedule s.slots l = some (f, act) → 1 ≤ s.distance f →
    s.distance f ≤ 1048576 → s.edits.length < 24 →
    P { s with edits := s.insertEdit (s.newEdit p f act) s.edits, editCounter := nextId s.newEditId }
  unschedule : ∀ s e, P s → e ∈ s.edits → P { s with edits := s.edits.erase e }
  propose : ∀ s p l terms d ps n, P s → s.attached p = true → readProposal l = some (terms, d) → s.proposal = .none →
    P ((s.judgeProposal (s.newProposal p terms) d).notifyAll ps n)
  confirm : ∀ s p pr d, P s → s.proposal = .opened pr d → pr.confirming.get p = true →
    P (s.judgeProposal { pr with confirmed := pr.confirmed.insert p } d)
  fail : ∀ s pr d why who, P s → s.proposal = .opened pr d → P (s.failProposal pr why who)
  frameEnd : ∀ s, P s → s.framesRun = true → P s.endFrame
  leaseEnd : ∀ s n, P s → s.framesRun = true → s.leaseRunsOut n = true → P (s.endLease n)
  timedRelease : ∀ s e l n, P s → s.edits = e :: l → e.action = .release n → s.editDue e = true →
    P ({ s with edits := l }.applyRelease e n)
  timedRenew : ∀ s e l n h, P s → s.edits = e :: l → e.action = .renew n h → s.editDue e = true →
    P ({ s with edits := l }.applyRenew e n h)
  timedEnqueue : ∀ s e l r, P s → s.edits = e :: l → e.action = .enqueue r → s.editDue e = true →
    P ({ s with edits := l }.applyEnqueue e r)
  planApplication : ∀ s terms, P s → s.framesRun = true → s.dueTerms = some terms →
    P (s.applyPlan terms).publishRevoked.loadGeometry
  waitLapse : ∀ s, P s → P s.countWaits
  offerLapse : ∀ s o, P s → o ∈ s.offers → o.lapses = true → P ((s.dropOffer o.id).deliver (s.offerLapseNotices o))
  clockLoss : ∀ s, P s → s.frame.isRunning = true → s.geometry.source = .external → P s.loseClock
  stallGap : ∀ s, P s → P s.stallGap
  recover : ∀ s, P s → s.frame.isRunning = false → s.geometry.source = .external → P s.recover
  edge : ∀ s, P s → P { s with edgeTimer := 0 }
  countEdge : ∀ s, P s → s.recoveryCount + 1 < 16 → P { s with edgeTimer := 0, recoveryCount := s.recoveryCount + 1 }
  reset : ∀ s slots width, P s → (∃ a b, slots = strapSlots a b) → P (s.resetAll slots width)
  resetPin : ∀ s, P s → P { s with resetAsserted := true }
  edgeBegins : ∀ s, P s → P { s with edgeTimer := 0, clockPhase := 0 }
  leadIn : ∀ s, P s → s.frame = .running .leadInWait → P { s with frame := .running .leadIn }
  beginFrame : ∀ s, P s → s.frame.isRunning = true → P s.beginFrame
  beginBit : ∀ s n, P s → s.frame = .running (.bit n) → n + 1 < s.geometry.frameBits → P (s.beginBit (n + 1))
  timer : ∀ s, P s → s.edgeTimer + 1 < 1024 → P { s with edgeTimer := s.edgeTimer + 1 }
  phase : ∀ s, P s → s.clockPhase + 1 < s.geometry.bitPeriod → P { s with clockPhase := s.clockPhase + 1 }

namespace Keeps

variable {P : State → Prop}

theorem deselect (k : Keeps P) {s : State} (p : Port) (h : P s) : P (s.deselect p) := k.link _ _ _ h rfl rfl rfl

theorem reply (k : Keeps P) {s : State} (p : Port) (code : ReplyCode) (body : List Byte) (h : P s) :
    P (s.reply p code body) := k.link _ _ _ h rfl rfl rfl

theorem endTransaction (k : Keeps P) {s : State} (h : P s) (p : Port) (bytes : List Byte) (act : State → State)
    (ha : ∀ u, P u → P (act u)) : P (s.endTransaction p bytes act) := by
  rcases s.endTransaction_cases p bytes act with e | e | ⟨_, e⟩ <;> rw [e]
  · exact h
  · exact k.deselect p h
  · exact ha _ (k.deselect p h)

theorem takeRequest (k : Keeps P) {s : State} (h : P s) (p : Port) (r : RequestCode) (l : List Byte)
    (judge : State → Answer) (hj : ∀ u t body, P u → judge u = .ok t body → P t) :
    P (s.takeRequest p r l judge) :=
  State.takeRequest_keeps P s p r l judge h (k.deselect p h) (fun _ _ _ ht => k.reply _ _ _ ht)
    (fun t body e => hj _ t body (k.deselect p h) e)

theorem takeRead (k : Keeps P) {s : State} (h : P s) (p : Port) (r : RequestCode) (l : List Byte)
    (judge : State → Answer) (hj : ∀ u t body, judge u = .ok t body → t = u) : P (s.takeRequest p r l judge) :=
  k.takeRequest h p r l judge (fun u t body hu e => hj u t body e ▸ hu)

theorem risingEdge (k : Keeps P) {s : State} (h : P s) (hr : s.resetAsserted = false) : P s.risingEdge := by
  unfold State.risingEdge
  split
  · exact h
  · rename_i pos hf
    have h' : P { s with edgeTimer := 0, clockPhase := 0 } := k.edgeBegins s h
    have hrun : ({ s with edgeTimer := 0, clockPhase := 0 } : State).frame.isRunning = true := by simp [hf, FrameState.isRunning]
    unfold State.nextBit
    split
    · exact k.leadIn _ h' hf
    · exact k.beginFrame _ h' hrun
    · split
      · exact k.beginBit _ _ h' hf (by assumption)
      · exact k.frameEnd _ h' (by simp [State.framesRun, hr, hf, FrameState.isRunning])

theorem refclkTick (k : Keeps P) {s : State} (h : P s) : P s.refclkTick := by
  unfold State.refclkTick
  split
  · exact h
  · rename_i hr
    have hr : s.resetAsserted = false := by simpa using hr
    split
    · rename_i hx
      have hx : s.geometry.source = .external := by simpa [State.external] using hx
      unfold State.externalTick edgeLimit
      split
      · exact k.timer s h (by assumption)
      · split
        · exact k.clockLoss s h (by assumption) hx
        · exact k.stallGap s h
    · unfold State.internalTick
      split
      · exact k.phase _ h (by assumption)
      · exact k.risingEdge h hr

theorem dueHead_some {s : State} {e : Edit} (h : s.dueHead = some e) :
    ∃ l, s.edits = e :: l ∧ s.framesRun = true ∧ s.editDue e = true := by
  unfold State.dueHead at h
  split at h
  · cases h
  · split at h
    · cases h; exact ⟨_, by assumption, by simp_all, by simp_all⟩
    · cases h

/-- Every command keeps the property. -/
theorem exec (k : Keeps P) {c : Instr} {s t : State} (h : P s) (e : exec c s = .next t) : P t := by
  cases c <;> simp only [Machine.exec] at e <;> cases e
  case csAsserted p =>
    split
    · exact h
    · exact k.link _ _ _ h rfl rfl rfl
  case transactionIgnored p => exact k.endTransaction h _ _ _ (fun _ hu => hu)
  case transactionRefused p bytes pb =>
    split
    · split
      · exact k.endTransaction h _ _ _ (fun _ hu => k.reply _ _ _ hu)
      · exact h
    · exact h
  case noneTransaction p r => exact k.endTransaction h _ _ _ (fun _ hu => hu)
  case attach p l =>
    refine k.takeRequest h _ _ _ _ (fun u t b hu e => ?_)
    obtain ⟨ha, x, hx, rfl, _⟩ := judgeAttach_ok e
    exact k.attach u p x hu ha
  case detach p l =>
    refine k.takeRequest h _ _ _ _ (fun u t b hu e => ?_)
    obtain ⟨ha, _, rfl⟩ := judgeDetach_ok e
    exact k.detach u p hu ha
  case poll p l => exact k.takeRead h _ _ _ _ (fun _ _ _ => judgePoll_ok)
  case snapshot p l => exact k.takeRead h _ _ _ _ (fun _ _ _ => judgeSnapshot_ok)
  case readSlot p l => exact k.takeRead h _ _ _ _ (fun _ _ _ => judgeReadSlot_ok)
  case readMap p l => exact k.takeRead h _ _ _ _ (fun _ _ _ => judgeReadMap_ok)
  case holdings p l => exact k.takeRead h _ _ _ _ (fun _ _ _ => judgeHoldings_ok)
  case readRequests p l => exact k.takeRead h _ _ _ _ (fun _ _ _ => judgeReadRequests_ok)
  case readEdits p l => exact k.takeRead h _ _ _ _ (fun _ _ _ => judgeReadEdits_ok)
  case readPlan p l => exact k.takeRead h _ _ _ _ (fun _ _ _ => judgeReadPlan_ok)
  case renew p l =>
    refine k.takeRequest h _ _ _ _ (fun u t b hu e => ?_)
    obtain ⟨ha, sel, lease, n, ns, hl, hq, rfl, _⟩ := judgeRenew_ok e
    exact k.renew u p l sel lease _ hu ha hl hq
  case release p l =>
    refine k.takeRequest h _ _ _ _ (fun u t b hu e => ?_)
    obtain ⟨ha, sel, n, ns, hl, hq, rfl, _⟩ := judgeRelease_ok e
    exact k.release u p l sel _ hu ha hl hq
  case reserve p l =>
    refine k.takeRequest h _ _ _ _ (fun u t b hu e => ?_)
    obtain ⟨ha, r, hl, h1, h2, h3, h4, rfl, _⟩ := judgeReserve_ok e
    exact k.reserve u p l r hu ha hl h1 h2 h3 h4
  case cancel p l =>
    refine k.takeRequest h _ _ _ _ (fun u t b hu e => ?_)
    obtain ⟨_, tag, _, r, _, _, rfl, _⟩ := judgeCancel_ok e
    exact k.cancel u r hu
  case offer p l =>
    refine k.takeRequest h _ _ _ _ (fun u t b hu e => ?_)
    obtain ⟨ha, f, hl, h1, h2, h3, h4, h5, h6, rfl, _⟩ := judgeOffer_ok e
    exact k.offer u p l f _ hu ha hl h1 h2 h3 h4 h5 h6
  case accept p l =>
    refine k.takeRequest h _ _ _ _ (fun u t b hu e => ?_)
    obtain ⟨ha, i, o, _, ho, ht, hc, rfl, _⟩ := judgeAccept_ok e
    exact k.accept u p o hu ha (List.mem_of_find?_eq_some ho) ht hc
  case decline p l =>
    refine k.takeRequest h _ _ _ _ (fun u t b hu e => ?_)
    obtain ⟨_, i, o, _, ho, _, rfl, _⟩ := judgeDecline_ok e
    exact k.decline u o _ hu (List.mem_of_find?_eq_some ho)
  case withdraw p l =>
    refine k.takeRequest h _ _ _ _ (fun u t b hu e => ?_)
    obtain ⟨_, i, o, _, ho, _, rfl, _⟩ := judgeWithdraw_ok e
    exact k.withdraw u o _ _ hu (List.mem_of_find?_eq_some ho)
  case schedule p l =>
    refine k.takeRequest h _ _ _ _ (fun u t b hu e => ?_)
    obtain ⟨ha, f, act, hl, h1, h2, h3, rfl, _⟩ := judgeSchedule_ok e
    exact k.schedule u p l f act hu ha hl h1 h2 h3
  case unschedule p l =>
    refine k.takeRequest h _ _ _ _ (fun u t b hu e => ?_)
    obtain ⟨_, i, x, _, hx, rfl, _⟩ := judgeUnschedule_ok e
    exact k.unschedule u x hu (List.mem_of_find?_eq_some hx)
  case propose p l =>
    refine k.takeRequest h _ _ _ _ (fun u t b hu e => ?_)
    obtain ⟨ha, terms, d, hl, hp, rfl, _⟩ := judgePropose_ok e
    split
    · exact k.propose u p l terms d [] (u.notice .planOpen) hu ha hl hp
    · exact k.propose u p l terms d _ _ hu ha hl hp
  case confirm p l =>
    refine k.takeRequest h _ _ _ _ (fun u t b hu e => ?_)
    obtain ⟨_, _, pr, d, hp, hc, ⟨_, rfl⟩ | ⟨_, rfl⟩⟩ := judgeConfirm_ok e
    · exact hu
    · exact k.confirm u p pr d hu hp hc
  case reject p l =>
    refine k.takeRequest h _ _ _ _ (fun u t b hu e => ?_)
    obtain ⟨_, _, pr, d, hp, _, rfl, _⟩ := judgeReject_ok e
    exact k.fail u pr d _ _ hu hp
  case fetch p l =>
    refine k.takeRequest h _ _ _ _ (fun u t b hu e => ?_)
    obtain ⟨ha, _, n, _, _, rfl, _⟩ := judgeFetch_ok e
    exact k.fetch u p n hu ha
  case attention p l =>
    refine k.takeRequest h _ _ _ _ (fun u t b hu e => ?_)
    obtain ⟨x, m, hx, _, rfl, _⟩ := judgeAttention_ok e
    exact k.attention u p x m hu hx
  case frameEnd => split <;> [exact k.frameEnd s h (by assumption); exact h]
  case leaseEnd n =>
    split
    · exact k.leaseEnd s n h (by simp_all) (by simp_all)
    · exact h
  case timedRelease =>
    split
    · obtain ⟨l, hl, hr, hd⟩ := dueHead_some (by assumption)
      simpa [hl] using k.timedRelease s _ l _ h hl rfl hd
    all_goals exact h
  case timedRenew =>
    split
    · obtain ⟨l, hl, hr, hd⟩ := dueHead_some (by assumption)
      simpa [hl] using k.timedRenew s _ l _ _ h hl rfl hd
    all_goals exact h
  case timedEnqueue =>
    split
    · obtain ⟨l, hl, hr, hd⟩ := dueHead_some (by assumption)
      simpa [hl] using k.timedEnqueue s _ l _ h hl rfl hd
    all_goals exact h
  case planApplication =>
    split
    · split
      · exact k.planApplication s _ h (by assumption) (by assumption)
      · exact h
    · exact h
  case waitLapse => split <;> [exact k.waitLapse s h; exact h]
  case offerLapse i =>
    split
    · exact h
    · split
      · exact k.offerLapse s _ h (List.mem_of_find?_eq_some (by assumption)) (by simp_all)
      · exact h
  case proposalLapse =>
    split
    · split
      · rename_i pr hp _
        unfold State.lapsingProposal at hp
        split at hp
        · split at hp
          · cases hp; exact k.fail s _ _ _ _ h (by assumption)
          · cases hp
        · cases hp
        · cases hp
      · exact h
    · exact h
  case clockLoss =>
    split
    · exact k.clockLoss s h (by simp_all [State.framesRun]) (by simp_all [State.external])
    · exact h
  case stallGap => split <;> [exact k.stallGap s h; exact h]
  case clockRecovery =>
    split
    · exact k.recover s h (by simp_all [State.inStall]) (by simp_all [State.external])
    · exact h
  case resetAsserted => exact k.resetPin _ (k.reset s 8 .w16 h ⟨false, false, rfl⟩)
  case resetNegated a b c d => split <;> [exact k.reset s _ _ h ⟨a, b, rfl⟩; exact h]
  case bitTimeBegins =>
    split
    · exact k.risingEdge h (by simp_all [State.framesRun])
    · exact h
  case bclkEdge =>
    split
    · unfold State.clockEdge recoveryEdges
      split
      · exact k.edge s h
      · split
        · exact k.countEdge s h (by assumption)
        · exact k.recover s h (by simp_all) (by simp_all [State.external])
    · exact h
  case byteReceived p b => exact k.link _ _ _ h rfl rfl rfl

/-- Every step keeps the property. -/
theorem step (k : Keeps P) {s t : State} (h : P s) (e : step s = .next t) : P t := by
  unfold Machine.step at e
  split at e
  · cases e; exact k.refclkTick h
  · rename_i c rest hp
    exact k.exec (k.queue s rest h) e

end Keeps

end Sys2Proof.Machine
end

