-- ==== Sys2Proof/Laws/Entries.lean ====
section
/-! SUPPORT. What the operations on entries, offers, ids and payload fields answer, said once: the rotation mark, an
entry a member leaves or joins, the sorted offer table and timed edit list, new ids, and what a payload that reads
holds. -/

namespace Sys2Proof.Machine

open Sys2Proof

/-! ### The rotation mark (R3) -/

/-- The member after a member is a member. -/
theorem memberAfter_mem (l : List Port) (x : Port) (h : x ∈ l) : memberAfter l x ∈ l := by
  unfold memberAfter
  split
  · rename_i y z rest e
    have : (l.dropWhile (· != x)).Sublist l := List.dropWhile_sublist _
    rw [e] at this
    exact this.subset (by simp)
  · cases l with
    | nil => simp at h
    | cons a l => simp

/-- In a list of two or more, the member after `x` is another one. -/
theorem memberAfter_ne (l : List Port) (x : Port) (hn : l.Nodup) (h : x ∈ l) (h2 : 2 ≤ l.length) :
    memberAfter l x ≠ x := by
  unfold memberAfter
  split
  · rename_i y z rest e
    have hs : (l.dropWhile (· != x)).Sublist l := List.dropWhile_sublist _
    have : l.dropWhile (· != x) ≠ [] := by rw [e]; simp
    have hy := List.head_dropWhile_not (p := (· != x)) (l := l) this
    simp [e] at hy
    subst hy
    rw [e] at hs
    have := hn.sublist hs
    simp at this
    exact fun hz => this.1.1 hz.symm
  · rename_i hh
    obtain ⟨a, b, rfl⟩ := List.append_of_mem h
    have ha : x ∉ a := by
      intro hx; rw [List.nodup_append] at hn; exact hn.2.2 x hx x (by simp) rfl
    have hd : (a ++ x :: b).dropWhile (· != x) = x :: b := by
      rw [List.dropWhile_append_of_pos] 
      · simp
      · intro y hy; simp; rintro rfl; exact ha hy
    rw [hd] at hh
    cases b with
    | cons y b => exact absurd rfl (hh _ _ _)
    | nil =>
      cases a with
      | nil => simp at h2
      | cons z a => simp; rintro rfl; simp at ha

/-- The member before a member is a member. -/
theorem memberBefore_mem (l : List Port) (x : Port) (h : x ∈ l) : memberBefore l x ∈ l := by
  unfold memberBefore
  have := memberAfter_mem l.reverse x (by simpa using h)
  simpa using this

/-- In a list of two or more, the member before `x` is another one. -/
theorem memberBefore_ne (l : List Port) (x : Port) (hn : l.Nodup) (h : x ∈ l) (h2 : 2 ≤ l.length) :
    memberBefore l x ≠ x := by
  unfold memberBefore
  exact memberAfter_ne l.reverse x (List.nodup_reverse.2 hn) (by simpa using h) (by simpa using h2)

/-! ### Entries (R2, R3, R53, R54, R91) -/

/-- An entry names no port twice. -/
theorem Entry.parties_nodup {e : Entry} (h : e.Ok) : e.parties.Nodup := by
  cases e with
  | shared ms d x => exact h.2.2.1
  | _ => simp [Entry.parties]

/-- An entry names the ports it is held or shared by. -/
theorem Entry.names_iff {e : Entry} {p} : e.names p = true ↔ p ∈ e.parties := by simp [Entry.names]

/-- Giving up leaves an entry in order, without the leaver and with the others as they stood. -/
theorem Entry.without_spec (e : Entry) (p : Port) (h : e.Ok) (hb : e ≠ .beacon) (hp : p ∈ e.parties) :
    (e.without p).Ok ∧ e.without p ≠ .beacon ∧ (e.without p).parties = e.parties.filter (· != p) := by
  cases e with
  | beacon => exact absurd rfl hb
  | free => simp [Entry.parties] at hp
  | cooling => simp [Entry.parties] at hp
  | held q x =>
    simp [Entry.parties] at hp
    subst hp
    simp [Entry.without, Entry.parties, Entry.Ok]
  | shared ms d x =>
    obtain ⟨h1, h2, h3, h4, h5⟩ := h
    have hp : p ∈ ms := hp
    have hl : (ms.filter (· != p)).length + 1 = ms.length := by
      have := List.length_erase_of_mem hp
      rw [List.Nodup.erase_eq_filter h3] at this
      omega
    have hc : ms.contains p = true := by simpa using hp
    have hnd : (ms.filter (· != p)).Nodup := h3.filter _
    simp only [Entry.without, hc, if_true, leaveShared, Entry.parties]
    generalize hr : ms.filter (· != p) = rest at *
    match rest, hl, hnd with
    | [], hl, _ => simp at hl; omega
    | [q], hl, _ => exact ⟨h5, by simp, by simp⟩
    | q :: q' :: rest, hl, hnd =>
      refine ⟨⟨by simp, by simp at hl ⊢; omega, hnd, ?_, h5⟩, by simp, rfl⟩
      split
      · rename_i hd; subst hd
        rw [← hr]; simp
        exact ⟨memberBefore_mem _ _ hp, memberBefore_ne _ _ h3 hp h1⟩
      · rw [← hr]; simp; exact ⟨h4, by assumption⟩

/-- Replacing the common fields leaves the parties. -/
theorem Entry.withHolding_parties (e : Entry) (x) : (e.withHolding x).parties = e.parties := by cases e <;> rfl

/-- Replacing the common fields keeps an entry in order, for a lease that is not 0. -/
theorem Entry.withHolding_ok {e : Entry} (h : e.Ok) {x} (hx : x.lease ≠ 0) : (e.withHolding x).Ok := by
  cases e with
  | held p y => exact hx
  | shared ms d y => exact ⟨h.1, h.2.1, h.2.2.1, h.2.2.2.1, hx⟩
  | _ => trivial

/-- Replacing the common fields makes no BEACON entry. -/
theorem Entry.withHolding_ne_beacon {e : Entry} (h : e ≠ .beacon) {x} : e.withHolding x ≠ .beacon := by
  cases e <;> simp_all [Entry.withHolding]

/-- A lease under way is not 0. -/
theorem Entry.lease_ne_zero {e : Entry} (h : e.Ok) {x} (hx : e.holding? = some x) : x.lease ≠ 0 := by
  cases e with
  | held p y => cases hx; exact h
  | shared ms d y => cases hx; exact h.2.2.2.2
  | _ => cases hx

/-- An entry with common fields names a port. -/
theorem Entry.exists_party {e : Entry} (h : e.Ok) {x} (hx : e.holding? = some x) : ∃ p, p ∈ e.parties := by
  cases e with
  | held p y => exact ⟨p, by simp [Entry.parties]⟩
  | shared ms d y => exact ⟨d, h.2.2.2.1⟩
  | _ => cases hx

/-- Accepting leaves an entry in order, with the target as the only new port. -/
theorem Entry.accepted_spec {e : Entry} {o : Offer} (h : e.Ok)
    (hb : e ≠ .beacon) (hg : o.giver ∈ e.parties) (ht : o.target ∉ e.parties)
    (hk : o.kind = .share → e.parties.length < 4) :
    (e.accepted o).Ok ∧ e.accepted o ≠ .beacon
      ∧ (∀ p ∈ (e.accepted o).parties, p = o.target ∨ p ∈ e.parties) := by
  cases e with
  | beacon => exact absurd rfl hb
  | free => simp [Entry.parties] at hg
  | cooling => simp [Entry.parties] at hg
  | held g x =>
    simp [Entry.parties] at hg ht
    unfold Entry.accepted
    dsimp only
    cases o.kind with
    | handover => exact ⟨h, by simp, by simp [Entry.parties]⟩
    | share =>
      exact ⟨⟨by simp, by simp, by simp; exact fun hh => ht hh.symm, by simp, h⟩, by simp, by simp [Entry.parties]⟩
  | shared ms d x =>
    obtain ⟨h1, h2, h3, h4, h5⟩ := h
    have hg : o.giver ∈ ms := hg
    have ht : o.target ∉ ms := ht
    unfold Entry.accepted
    dsimp only
    cases hkk : o.kind with
    | handover =>
      refine ⟨⟨by simpa using h1, by simpa using h2, ?_, ?_, h5⟩, by simp, ?_⟩
      · refine List.Nodup.map_on ?_ h3
        intro a ha b hb
        split <;> split
        · rintro -; simp_all
        · rintro rfl; exact absurd hb ht
        · rintro rfl; exact absurd ha ht
        · exact id
      · rw [List.mem_map]; exact ⟨d, h4, rfl⟩
      · intro p hp
        simp [Entry.parties] at hp
        obtain ⟨q, hq, rfl⟩ := hp
        split
        · exact .inl rfl
        · exact .inr hq
    | share =>
      have := hk hkk
      simp [Entry.parties] at this
      refine ⟨⟨by simp; omega, by simp; omega, ?_, by simp [h4], h5⟩, by simp, ?_⟩
      · rw [List.nodup_append]; exact ⟨h3, by simp, by rintro a ha b hb rfl; simp at hb; subst hb; exact ht ha⟩
      · intro p hp; simp [Entry.parties] at hp ⊢; tauto

/-! ### The sorted lists (R87, R105) -/

/-- An offer that joins adds itself alone. -/
theorem mem_insertOffer {o x : Offer} {l} : x ∈ insertOffer o l ↔ x = o ∨ x ∈ l := by
  induction l with
  | nil => simp [insertOffer]
  | cons y l ih => unfold insertOffer; split <;> simp [ih]; tauto

/-- An offer on a slot without one keeps the table sorted by slot. -/
theorem sorted_insertOffer {o : Offer} {l : List Offer} (h : l.Pairwise (fun x y => x.slot < y.slot))
    (hn : ∀ x ∈ l, x.slot ≠ o.slot) :
    (insertOffer o l).Pairwise (fun x y => x.slot < y.slot) := by
  induction l with
  | nil => simp [insertOffer]
  | cons y l ih =>
    have hy := hn y (by simp)
    rw [List.pairwise_cons] at h
    unfold insertOffer
    split
    · rw [List.pairwise_cons, List.pairwise_cons]
      refine ⟨?_, h⟩
      intro z hz
      rcases List.mem_cons.1 hz with rfl | hz
      · assumption
      · have := h.1 z hz; omega
    · rw [List.pairwise_cons]
      refine ⟨?_, ih h.2 (fun x hx => hn x (by simp [hx]))⟩
      intro z hz
      rcases mem_insertOffer.1 hz with rfl | hz
      · omega
      · exact h.1 z hz

/-- An offer that joins the table leaves the others as they are. -/
theorem insertOffer_perm (o : Offer) (l : List Offer) : (insertOffer o l).Perm (o :: l) := by
  induction l with
  | nil => exact List.Perm.refl _
  | cons x l ih =>
    unfold insertOffer; split
    · exact List.Perm.refl _
    · exact (ih.cons x).trans (List.Perm.swap o x l)

/-- Where no open offer stands on a slot, none of the table names it. -/
theorem State.offerOn_none {s : State} {n} (h : s.offerOn n = none) : ∀ o ∈ s.offers, o.slot ≠ n := by
  unfold State.offerOn at h
  rw [List.find?_eq_none] at h
  intro o ho he
  exact h o ho (by simpa using he)

/-- A timed edit that joins adds itself alone. -/
theorem State.mem_insertEdit {s : State} {e x : Edit} {l : List Edit} :
    x ∈ s.insertEdit e l ↔ x = e ∨ x ∈ l := by
  induction l with
  | nil => simp [State.insertEdit]
  | cons y l ih =>
    unfold State.insertEdit
    split
    · simp
    · simp [ih]; tauto

/-- An edit is due exactly when its frame is the next one. -/
theorem State.editDue_iff (s : State) (e : Edit) : s.editDue e = true ↔ s.distance e.activation = 1 := by
  unfold State.editDue State.distance
  rw [beq_iff_eq]
  constructor
  · intro h; rw [h, add_sub_cancel_left]; rfl
  · intro h
    have : e.activation - s.frameCounter = 1 := BitVec.eq_of_toNat_eq (by simpa using h)
    have := eq_add_of_sub_eq this
    rw [this]; ac_rfl

/-! ### New ids (R89, R109) -/

/-- The counter never reaches 0. -/
theorem nextId_ne_zero (i : Byte) : nextId i ≠ 0 := by
  unfold nextId; split
  · decide
  · rename_i hne
    intro e
    have : i = 255 := by
      have := eq_neg_of_add_eq_zero_left e
      rw [this]; rfl
    exact hne this

/-- The values the counter runs through. -/
def idChain : Nat → Byte → List Byte
  | 0, _ => []
  | n + 1, i => i :: idChain n (nextId i)

/-- Twenty-five values in a row are distinct. -/
theorem idChain_nodup (i : Byte) : (idChain 25 i).Nodup ∨ i = 0 := by
  revert i; decide +kernel

/-- A shorter run is the start of a longer one. -/
theorem idChain_take (n m : Nat) (i : Byte) (h : n ≤ m) : (idChain m i).take n = idChain n i := by
  induction n generalizing m i with
  | zero => simp [idChain]
  | succ n ih =>
    obtain ⟨m, rfl⟩ : ∃ k, m = k + 1 := ⟨m - 1, by omega⟩
    simp [idChain, ih m (nextId i) (by omega)]

/-- Where a run meets an unused value, the id is unused and not 0. -/
theorem freeId_spec (used : Byte → Bool) (fuel : Nat) (i : Byte)
    (h : ∃ j ∈ idChain fuel i, used j = false) (h0 : i ≠ 0) :
    used (freeId used fuel i) = false ∧ freeId used fuel i ≠ 0 := by
  induction fuel generalizing i with
  | zero => simp [idChain] at h
  | succ n ih =>
    unfold freeId
    split
    · rename_i hu
      refine ih _ ?_ (nextId_ne_zero i)
      obtain ⟨j, hj, hu'⟩ := h
      rcases List.mem_cons.1 hj with rfl | hj
      · rw [hu] at hu'; cases hu'
      · exact ⟨j, hj, hu'⟩
    · exact ⟨by simp_all, h0⟩

/-- Fewer than twenty-five used values leave one free. -/
theorem exists_free_id (l : List Byte) (k : Nat) (hk : l.length < k) (hk' : k ≤ 25) (i : Byte) (h0 : i ≠ 0) :
    ∃ j ∈ idChain 255 i, l.contains j = false := by
  by_contra hc
  simp only [not_exists, not_and] at hc
  have hn : (idChain k i).Nodup := by
    have := (idChain_nodup i).resolve_right h0
    rw [← idChain_take k 25 i hk']; exact this.sublist (List.take_sublist _ _)
  have hlen : ∀ n j, (idChain n j).length = n := by
    intro n; induction n with
    | zero => intro j; rfl
    | succ n ih => intro j; simp [idChain, ih]
  have sub : idChain k i ⊆ l := by
    intro j hj
    have : j ∈ idChain 255 i := by
      rw [← idChain_take k 255 i (by omega)] at hj
      exact (List.take_sublist _ _).subset hj
    have := hc j this
    simpa using this
  have := (hn.subperm sub).length_le
  rw [hlen] at this
  omega

/-- A new offer id is carried by no open offer and is not 0. -/
theorem State.newOfferId_spec (s : State) (h : s.offers.length < 8) (h0 : s.offerCounter ≠ 0) :
    s.newOfferId ∉ s.offers.map Offer.id ∧ s.newOfferId ≠ 0 := by
  obtain ⟨a, b⟩ := freeId_spec (fun i => s.offers.any (fun o => o.id == i)) 255 s.offerCounter
    (by
      obtain ⟨j, hj, hu⟩ := exists_free_id (s.offers.map Offer.id) 8 (by simpa using h) (by decide)
        s.offerCounter h0
      refine ⟨j, hj, ?_⟩
      simp at hu ⊢; exact fun o ho e => hu o ho e) h0
  refine ⟨?_, b⟩
  simp at a ⊢
  exact a

/-- A new edit id is carried by no timed edit and is not 0. -/
theorem State.newEditId_spec (s : State) (h : s.edits.length < 24) (h0 : s.editCounter ≠ 0) :
    s.newEditId ∉ s.edits.map Edit.id ∧ s.newEditId ≠ 0 := by
  obtain ⟨a, b⟩ := freeId_spec (fun i => s.edits.any (fun o => o.id == i)) 255 s.editCounter
    (by
      obtain ⟨j, hj, hu⟩ := exists_free_id (s.edits.map Edit.id) 24 (by simpa using h) (by decide) s.editCounter h0
      refine ⟨j, hj, ?_⟩
      simp at hu ⊢; exact fun o ho e => hu o ho e) h0
  refine ⟨?_, b⟩
  simp at a ⊢
  exact a

/-! ### Slots to grant (R74, R75) -/

/-- A placement takes available slots alone. -/
theorem State.findSlots_available {s : State} {r l} (h : s.findSlots r = some l) :
    ∀ n ∈ l, s.available n = true := by
  unfold State.findSlots at h
  split at h
  · dsimp only at h
    split at h
    · cases h
      intro n hn
      have := List.mem_of_mem_take hn
      simp at this; exact this.2
    · cases h
  · rw [Option.map_eq_some_iff] at h
    obtain ⟨n, hn, rfl⟩ := h
    have := List.find?_some hn
    simp at this
    intro m hm; exact this.2 m hm
  · split at h
    · cases h; rename_i hh; simpa using hh
    · cases h

/-- An available slot is FREE in the Staged table and lies in 1 to S-1. -/
theorem State.available_spec {s : State} {n} (h : s.available n = true) :
    entryAt s.staged n = .free ∧ 1 ≤ n ∧ n < s.slots := by
  unfold State.available State.grantLimit at h
  simp at h
  refine ⟨h.1.1, h.1.2, ?_⟩
  have := h.2
  split at this <;> omega

/-! ### What a payload that reads holds (R70, R89, R108, R124) -/

/-- A slot list that reads is in order. -/
theorem readPlacement_ok {S c code l pl} (h : readPlacement S c code l = some pl) : pl.Ok c := by
  unfold readPlacement at h
  dsimp only at h
  split_ifs at h with h0 h1 h2 h3 h4 h5
  · cases h; trivial
  · cases h; trivial
  · cases h
    refine ⟨h5.1, h5.2.2, fun n hn => ?_⟩
    have hb := List.all_eq_true.1 h5.2.1 n hn
    simp only [Bool.and_eq_true, decide_eq_true_eq] at hb
    exact hb.1

/-- Reservation fields that read are in order. -/
theorem readReservation_ok {S l r} (h : readReservation S l = some r) : r.Ok := by
  unfold readReservation at h
  split at h
  · split at h
    · rename_i hc
      rw [Option.map_eq_some_iff] at h
      obtain ⟨pl, hpl, rfl⟩ := h
      exact ⟨hc.1, hc.2.1, hc.2.2.1, hc.2.2.2.2.1, hc.2.2.2.2.2, readPlacement_ok hpl⟩
    · cases h
  · cases h

/-- Offer fields that read name another port, a slot of the plan and a countdown of 1 to 255. -/
theorem readOffer_ok {S p l f} (h : readOffer S p l = some f) :
    f.target ≠ p ∧ 1 ≤ f.slot ∧ f.slot < S ∧ 1 ≤ f.frames ∧ f.frames ≤ 255 := by
  unfold readOffer at h
  split at h
  · split at h
    · split at h
      · rename_i hc; cases h
        refine ⟨hc.1, hc.2.1, hc.2.2.1, ?_, ?_⟩
        · have := hc.2.2.2
          dsimp only
          rcases Nat.eq_zero_or_pos (BitVec.toNat ‹Byte›) with h0 | h0
          · exact absurd (BitVec.eq_of_toNat_eq (by simpa using h0)) this
          · exact h0
        · dsimp only; omega
      · cases h
    · cases h
  · cases h

/-- An action that reads is in order. -/
theorem readSchedule_ok {S l f act} (h : readSchedule S l = some (f, act)) : act.Ok := by
  unfold readSchedule at h
  split at h
  · rw [Option.map_eq_some_iff] at h
    obtain ⟨a, ha, e⟩ := h
    cases e
    unfold readAction at ha
    split at ha
    · split at ha
      · split at ha
        · split at ha
          · rename_i hh; cases ha; exact hh.1
          · cases ha
        · cases ha
      · split at ha
        · split at ha
          · split at ha
            · rename_i hh; cases ha; exact ⟨hh.1, hh.2.2⟩
            · cases ha
          · cases ha
        · split at ha
          · rw [Option.map_eq_some_iff] at ha
            obtain ⟨r, hr, rfl⟩ := ha
            exact readReservation_ok hr
          · cases ha
    · cases ha
  · cases h

/-- Plan terms that read are in order, with a deadline of 1 to 4095. -/
theorem readProposal_ok {l terms d} (h : readProposal l = some (terms, d)) : terms.Ok ∧ 1 ≤ d ∧ d ≤ 4095 := by
  unfold readProposal at h
  split at h
  · dsimp only at h
    split at h
    · rename_i hc
      rcases hw : readWidth _ with _ | w
      · rw [hw] at h; cases h
      · rw [hw] at h; cases h
        refine ⟨⟨hc.1, hc.2.1, ?_⟩, hc.2.2.2.2.2.2.2.1, hc.2.2.2.2.2.2.2.2⟩
        intro p; cases p <;> simp [PerPort.get] <;> omega
    · cases h
  · cases h

/-! ### The slot index (R28) -/

/-- A frame has at least 64 bit times. -/
theorem PlanTerms.frameBits_ge {t : PlanTerms} (h : t.Ok) : 64 ≤ t.geometry.frameBits := by
  unfold Geometry.frameBits
  have := h.1
  have : 16 ≤ t.geometry.width.bits := by cases t.geometry.width <;> decide
  nlinarith

/-- The slot index is below 64. -/
theorem State.slotIndex_lt {s : State} (h : s.TimingOk) : s.slotIndex < 64 := by
  obtain ⟨hg, hp, _, hf, _⟩ := h
  unfold State.slotIndex
  split
  · rename_i a e; rw [e] at hf; exact hf.1
  · rename_i n e; rw [e] at hf
    have hf : n < s.geometry.frameBits := hf
    rw [hg] at hf ⊢
    unfold Geometry.frameBits at hf
    have hw : 0 < s.plan.terms.geometry.width.bits := by cases s.plan.terms.geometry.width <;> decide
    have := (Nat.div_lt_iff_lt_mul hw).2 hf
    have := hp.2.1
    omega
  all_goals decide

end Sys2Proof.Machine
end

