-- ==== Sys2Proof/WellFormed.lean ====
section
/-! DEFINITION. What a command's operands must meet to name something the part can meet: bounds that the spec puts on
the transaction as a whole (R150, R152) and on slot positions (R1). What a request's own check refuses (R165) is well
formed: the part answers it. -/

namespace Sys2Proof

/-- The longest payload that a well-formed transaction carries (R150). -/
def maxPayload : Nat := 60

/-- The payload of a request fits a well-formed transaction (R150). -/
def payloadFits (payload : List Byte) : Bool := payload.length ≤ maxPayload

/-- The command names an event the part can meet. -/
def Instr.wellFormed : Instr → Bool
  | .attach _ l | .detach _ l | .poll _ l | .snapshot _ l | .readSlot _ l | .readMap _ l | .renew _ l
  | .release _ l | .holdings _ l | .reserve _ l | .cancel _ l | .readRequests _ l | .offer _ l | .accept _ l
  | .decline _ l | .withdraw _ l | .schedule _ l | .unschedule _ l | .readEdits _ l | .propose _ l
  | .confirm _ l | .reject _ l | .readPlan _ l | .fetch _ l | .attention _ l => payloadFits l
  | .transactionRefused _ bytes _ => bytes.head? != none && bytes.head? != some 0
  | .leaseEnd slot => 1 ≤ slot && slot < 64
  | .offerLapse id => id != 0
  | .csAsserted _ | .transactionIgnored _ | .noneTransaction _ _ | .frameEnd | .timedRelease | .timedRenew
  | .timedEnqueue | .planApplication | .waitLapse | .proposalLapse | .clockLoss | .stallGap | .clockRecovery
  | .resetAsserted | .resetNegated _ _ _ _ | .bitTimeBegins | .bclkEdge | .byteReceived _ _ => true

end Sys2Proof
end

