-- ==== Sys2Proof/Tests/Slice0.lean ====
section
/-! SUPPORT. Tests: what the well-formedness check refuses, single steps whose expected results are worked examples or
tables of the manual (each test names its section), and for each statement that has hypotheses a state and operands
that meet them. -/

namespace Sys2Proof.Tests

open Sys2Proof Sys2Proof.Machine

set_option Elab.async false

/-! ### Well-formedness and decoding -/

/-- R150: a payload has at most 60 bytes. -/
theorem test_wellFormed_payload :
    (Instr.poll .a (List.replicate 61 0)).wellFormed = false ∧ (Instr.poll .a (List.replicate 60 0)).wellFormed = true := by
  decide

/-- R152, R153: a transaction without a byte and one that begins with 0x00 are not refused by a check. -/
theorem test_wellFormed_refused :
    (Instr.transactionRefused .a [] true).wellFormed = false
      ∧ (Instr.transactionRefused .a [0, 1] false).wellFormed = false := by decide

/-- R1, R6: slot 0 has no lease and there is no slot 64. -/
theorem test_wellFormed_leaseEnd :
    (Instr.leaseEnd 0).wellFormed = false ∧ (Instr.leaseEnd 64).wellFormed = false := by decide

/-- R88: no offer has the id 0. -/
theorem test_wellFormed_offerLapse : (Instr.offerLapse 0).wellFormed = false := by decide

/-- The table gives no row any bits, so no word spells a command (log 14). -/
theorem test_decode_none : decodeTableWord 8 0x20 = none ∧ decodeTableWord 0 0 = none := by decide

/-! ### States for the tests -/

/-- The state after a command. -/
def after (c : Instr) (s : State) : State :=
  match exec c s with
  | .next t => t
  | .fault _ => s
  | .refused _ => s

/-- An attached port with this warn threshold and every class in its mask. -/
def attachedPort (warn : Byte) : PortState := { PortState.atReset with attachment := some ⟨warn, 127⟩ }

/-- A plan of `slots` slots, 16 bits wide, with one quota for all. -/
def planOf (slots quota : Nat) : Plan :=
  { Plan.atReset slots .w16 with
    terms := { (Plan.atReset slots .w16).terms with quotas := PerPort.all quota } }

/-- A running part with all four ports attached, both tables holding the entries given. -/
def partWith (slots quota : Nat) (frame : Word) (l : List (Nat × Entry)) : State :=
  let t := l.foldl (fun t x => t.setIfInBounds x.1 x.2) Table.atReset
  { State.reset with
    plan := planOf slots quota
    geometry := (planOf slots quota).terms.geometry
    frame := .running (.bit 20)
    frameCounter := frame
    active := t
    staged := t
    ports := PerPort.all (attachedPort 0) }

/-- An entry HELD by a port. -/
def heldBy (p : Port) (lease : Half) (tag : Byte) : Entry := .held p ⟨lease, tag, none, PerPort.all false⟩

/-- An entry SHARED by members, with its driver. -/
def sharedBy (ms : List Port) (mark : Port) (lease : Half) (tag : Byte) : Entry :=
  .shared ms mark ⟨lease, tag, none, PerPort.all false⟩

/-- `s` with another state of port `p`. -/
def withPort (s : State) (p : Port) (x : PortState) : State := s.setPort p x

/-! ### The link (9.9, 10.2) -/

/-- 10.2, the example transaction. -/
theorem test_requestBytes :
    requestBytes RequestCode.reserve.code [5, 0, 1, 3, 0xE8, 0, 10]
      = [0x20, 7, 5, 0, 1, 3, 0xE8, 0, 10, 0xDE] := by decide +kernel

/-- 9.9: port B with an OK reply of sequence 6 and three notices. -/
def portB : State :=
  let s := partWith 8 63 5 []
  withPort s .b { attachedPort 0 with
    replyCode := .ok, replySequence := 6, notices := List.replicate 3 (s.notice .clockBack) }

/-- 9.9, first row: the first four bytes read are the status, OK, the sequence and the body length. -/
theorem test_csAsserted :
    (List.range 4).map ((after (.csAsserted .b) portB).sdoByte .b) = [some 0xC6, some 0, some 6, some 0] := by
  decide +kernel

/-- R148: 0xC6 goes out as 1 1 0 0 0 1 1 0, the first bit at the fall of CSn, and the next byte after eight falls. -/
theorem test_csAsserted_bits :
    (List.range 9).map ((after (.csAsserted .b) portB).sdo .b)
      = [some true, some true, some false, some false, some false, some true, some true, some false, some false] := by
  decide +kernel

/-- R148, R149, 10.2: the levels 0 1 1 0 0 0 0 0 are the byte 0x60, FETCH, which is stored and counted. -/
theorem test_byteReceived :
    ((after (.byteReceived .b #v[false, true, true, false, false, false, false, false]) (withPort portB .b { portB.port .b with
      receiver := .receiving 0 [] [] })).port .b).receiver = .receiving 1 [0x60] [] := by decide +kernel

/-- 9.9: a glitch without a complete byte leaves the sequence. -/
theorem test_transactionIgnored : ((after (.transactionIgnored .b) portB).port .b).replySequence = 6 := by
  decide +kernel

/-- 9.9: a NONE leaves the buffer and the sequence. -/
theorem test_none :
    ((after (.noneTransaction .b (List.replicate 36 0)) portB).port .b).replySequence = 6 := by decide +kernel

/-- 9.9: POLL with a corrupted checksum answers CHECKSUM with an empty body and the next sequence. -/
theorem test_transactionRefused_checksum :
    let x := (after (.transactionRefused .b [3, 0, 0] false) portB).port .b
    x.replyCode = .checksum ∧ x.replyBody = [] ∧ x.replySequence = 7 := by decide +kernel

/-- R152: a code that names no request. -/
theorem test_transactionRefused_unknown :
    let x := (after (.transactionRefused .b [0x7F, 0, 0x81] false) portB).port .b
    x.replyCode = .unknown ∧ x.replyBody = [0x7F] := by decide +kernel

/-- 9.9: FETCH max 8 answers 3 notices in a body of 32 bytes, with sequence 7. -/
theorem test_fetch_run :
    let x := (after (.fetch .b [8]) portB).port .b
    x.replyBody.length = 32 ∧ x.replyBody.take 2 = [3, 0] ∧ x.replySequence = 7 := by decide +kernel

/-- 9.9: POLL taken after the fetch shows depth 0. -/
theorem test_poll :
    ((after (.poll .b []) (withPort portB .b { portB.port .b with notices := [] })).port .b).replyBody
      = [0, 0, 0, 0, 0, 0, 63] := by decide +kernel

/-! ### The commit step by step (1.4) -/

/-- 1.4 at the start of frame 1000, after the two requests of that frame. -/
def commitExample : State :=
  { withPort (partWith 8 63 1000
      [(1, heldBy .a 3 5), (2, .cooling), (3, sharedBy [.b, .c, .d] .b 17 9), (4, heldBy .b 1 7)]) .b (attachedPort 16)
    with
    generation := 41
    requests := [⟨.d, ⟨3, .any, 2, 100, 50⟩⟩] }

/-- 1.4: the two requests of frame 1000. -/
def commitTaken : State :=
  { commitExample with
    staged := (commitExample.staged.set 3 (sharedBy [.b, .d] .b 17 9)).set 1
      (.held .a ⟨3, 5, some 20, PerPort.all false⟩) }

/-- 1.4: A's RENEW sets the Staged renewal to 20 and answers 1 entry, slot 1. -/
theorem test_renew :
    let t := after (.renew .a [0, 1, 0, 20]) commitExample
    entryAt t.staged 1 = .held .a ⟨3, 5, some 20, PerPort.all false⟩ ∧ (t.port .a).replyBody = [1, 1] := by
  decide +kernel

/-- 1.4: C's RELEASE leaves [B, D] with the mark on B; MEMBERS_CHANGED goes to D with count 2 and frame 1001. -/
theorem test_release :
    let t := after (.release .c [0, 3]) commitExample
    entryAt t.staged 3 = sharedBy [.b, .d] .b 17 9
      ∧ (t.port .d).notices
        = [⟨.membersChanged, none, some 9, some 3, some 2, some .c, none, 1001⟩] := by decide +kernel

/-- 1.4: the Active table after the commit ending frame 1000. -/
theorem test_frameEnd_table :
    let t := after .frameEnd commitTaken
    (List.range 7).map (entryAt t.active)
      = [.beacon, heldBy .a 20 5, heldBy .d 100 3, .shared [.b, .d] .d ⟨16, 9, none, PerPort.single .b⟩, .cooling,
         heldBy .d 100 3, .free] ∧ t.generation = 42 := by decide +kernel

/-- 1.4: B's queue receives LEASE_LOW for slot 3 before LEASE_ENDED for slot 4. -/
theorem test_frameEnd_notices :
    ((after .frameEnd commitTaken).port .b).notices
      = [⟨.leaseLow, none, some 9, some 3, some 16, none, none, 1001⟩,
         ⟨.leaseEnded, none, some 7, some 4, none, none, none, 1001⟩] := by decide +kernel

/-- 3.3: the lease that reaches 0 cools the slot. -/
theorem test_leaseEnd : entryAt (after (.leaseEnd 4) commitExample).staged 4 = .cooling := by decide +kernel

/-- 1.4: drive enables of frame 1001: D in slots 2, 3 and 5. -/
theorem test_den :
    (List.range 8).filter (fun n =>
      ({ after .frameEnd commitTaken with frame := .running (.bit (16 * n)) } : State).den .d) = [2, 3, 5] := by
  decide +kernel

/-- R26: slot 3 in both views after the two requests: SHARED [B, C, D] in Active, [B, D] in Staged. -/
theorem test_readSlot :
    ((after (.readSlot .a [3]) commitTaken).port .a).replyBody
      = [3, 41, 3, 0, 3, 2, 3, 4, 0, 2, 0, 17, 9, 0, 3, 0, 2, 2, 4, 0, 0, 2, 0, 17, 9, 0, 0, 0] := by decide +kernel

/-- R27: the Active view, with A's own-slot flag on slot 1 and three members on slot 3. -/
theorem test_readMap :
    ((after (.readMap .a [0]) commitExample).port .a).replyBody
      = [0, 8, 41, 0, 0x82, 4, 0x4B, 0x0A, 1, 1, 1] := by decide +kernel

/-- R45: the five values in frame 1000. -/
theorem test_snapshot :
    ((after (.snapshot .a []) commitExample).port .a).replyBody = [0, 0, 3, 0xE8, 0, 1, 41, 0, 0] := by decide +kernel

/-! ### The allocator (4.3, 11.1) -/

/-- 4.3 at step 6 of the commit ending frame 3000. -/
def passExample : State :=
  { partWith 16 63 3000
      [(1, heldBy .a 100 1), (2, heldBy .a 100 1), (5, heldBy .b 100 1), (9, .cooling), (11, heldBy .c 100 1)] with
    plan := { planOf 16 63 with terms := { (planOf 16 63).terms with quotas := ⟨4, 63, 63, 63⟩ } }
    requests :=
      [⟨.b, ⟨20, .list [4, 9], 2, 50, 3⟩⟩, ⟨.a, ⟨6, .any, 3, 200, 0⟩⟩, ⟨.c, ⟨1, .run, 4, 1000, 10⟩⟩,
       ⟨.b, ⟨21, .any, 2, 80, 5⟩⟩, ⟨.a, ⟨7, .any, 2, 40, 2⟩⟩] }

/-- 4.3: what the pass grants. -/
theorem test_allocator_grants :
    let t := passExample.commitAllocator
    (List.range 16).map (fun n => (entryAt t.staged n).tag) = [0, 1, 1, 21, 21, 1, 7, 7, 0, 0, 0, 1, 1, 1, 1, 1] := by
  decide +kernel

/-- 4.3: A's queue: GRANTED for tag 7, then REQUEST_LAPSED for tag 6. -/
theorem test_allocator_notices :
    (passExample.commitAllocator.port .a).notices
      = [⟨.granted, none, some 7, some 6, some 2, none, none, 3001⟩,
         ⟨.requestLapsed, some .wait, some 6, none, some 3, none, none, 3001⟩] := by decide +kernel

/-- R79: the walk alone removes the record with wait 0 and counts the others down. -/
theorem test_waitLapse :
    (after .waitLapse passExample).requests.map (fun x => (x.res.tag, x.res.wait))
      = [(20, 2), (1, 9), (21, 4), (7, 1)] := by decide +kernel

/-- R69, R72: the record joins the tail; the reply gives its position and the port's pending count. -/
theorem test_reserve :
    ((after (.reserve .b [4, 2, 2, 0, 200, 0, 5, 3, 4]) passExample).port .b).replyBody = [6, 3] := by decide +kernel

/-- R71: a tag that is pending. -/
theorem test_reserve_tagInUse :
    ((after (.reserve .b [20, 0, 1, 0, 1, 0, 0]) passExample).port .b).replyCode = .tagInUse := by decide +kernel

/-- R80: B's tag 21 stood at position 4 with wait 5. -/
theorem test_cancel :
    ((after (.cancel .b [21]) passExample).port .b).replyBody = [4, 0, 5] := by decide +kernel

/-- R82: A's records stand at positions 2 and 5. -/
theorem test_readRequests :
    ((after (.readRequests .a [0]) passExample).port .a).replyBody.take 11
      = [2, 0, 2, 2, 6, 0, 3, 0, 200, 0, 0] := by decide +kernel

/-! ### Offers (5.9) -/

/-- 5.9 at the start of frame 4200. -/
def offerExample : State :=
  { partWith 16 63 4200 [(7, heldBy .c 400 33), (2, heldBy .d 25 8), (3, heldBy .d 25 8), (4, heldBy .d 25 8)] with
    plan := { planOf 16 63 with terms := { (planOf 16 63).terms with quotas := ⟨63, 63, 63, 3⟩ } }
    offerCounter := 17 }

/-- 5.9 with the offer made. -/
def offerMade : State := { offerExample with offers := [⟨17, .c, .d, 7, .share, 3⟩], offerCounter := 18 }

/-- 5.9: C's OFFER takes id 17, and D is told. -/
theorem test_offer :
    let t := after (.offer .c [4, 7, 1, 3]) offerExample
    (t.port .c).replyBody = [17] ∧ t.offerCounter = 18
      ∧ (t.port .d).notices
        = [⟨.offerMade, some .share, some 33, some 7, some 3, some .c, some 17, 0x1069⟩] := by decide +kernel

/-- 5.9: D's ACCEPT is refused OVER_QUOTA. -/
theorem test_accept_overQuota :
    ((after (.accept .d [17]) offerMade).port .d).replyCode = .overQuota := by decide +kernel

/-- 5.9: with slot 4 released, D's ACCEPT shares slot 7 and answers slot 7, SHARE, tag 33, 2 members. -/
theorem test_accept :
    let t := after (.accept .d [17]) { offerMade with staged := offerMade.staged.set 4 .cooling }
    entryAt t.staged 7 = sharedBy [.c, .d] .c 400 33 ∧ (t.port .d).replyBody = [7, 1, 33, 2] := by decide +kernel

/-- R95: the giver is told DECLINED. -/
theorem test_decline :
    ((after (.decline .d [17]) offerMade).port .c).notices
      = [⟨.offerRefused, some .declined, some 33, some 7, none, some .d, some 17, 0x1069⟩] := by decide +kernel

/-- R96: the target may not withdraw; the giver may. -/
theorem test_withdraw :
    ((after (.withdraw .d [17]) offerMade).port .d).replyCode = .noOffer
      ∧ (after (.withdraw .c [17]) offerMade).offers = [] := by decide +kernel

/-- 5.9: had D not accepted, the offer would have lapsed at its third frame end. -/
theorem test_offerLapse :
    let t := after (.offerLapse 17) { offerMade with offers := [⟨17, .c, .d, 7, .share, 1⟩], frameCounter := 4202 }
    t.offers = [] ∧ (t.port .d).notices
      = [⟨.offerLapsed, some .share, some 33, some 7, none, some .c, some 17, 0x106B⟩] := by decide +kernel

/-- R62: D's holdings from position 1. -/
theorem test_holdings :
    ((after (.holdings .d [1]) offerMade).port .d).replyBody = [3, 1, 2, 3, 8, 0, 25, 4, 8, 0, 25] := by decide +kernel

/-! ### Timed edits (6.6) -/

/-- 6.6 at step 4 of the commit ending frame 9000, with the head of the list as given. -/
def editExample (e : Edit) : State :=
  { partWith 16 63 9000 [(5, heldBy .a 29 11), (8, sharedBy [.a, .b] .b 11 4), (10, .cooling)] with
    edits := [e]
    editCounter := 43
    requests := [⟨.b, ⟨2, .any, 1, 1, 100⟩⟩] }

/-- 6.6: A's RENEW of slot 10 fails with NOT_HOLDER. -/
theorem test_timedRenew :
    ((after .timedRenew (editExample ⟨40, .a, 9001, .renew 10 200⟩)).port .a).notices
      = [⟨.editFailed, some .notHolder, none, some 10, none, none, some 40, 9001⟩] := by decide +kernel

/-- 6.6: A's RELEASE of slot 8 leaves it HELD by B, and both are told. -/
theorem test_timedRelease :
    let t := after .timedRelease (editExample ⟨41, .a, 9001, .release 8⟩)
    entryAt t.staged 8 = heldBy .b 11 4
      ∧ (t.port .b).notices = [⟨.membersChanged, none, some 4, some 8, some 1, some .a, none, 9001⟩]
      ∧ (t.port .a).notices = [⟨.editDone, some .releaseAction, some 4, some 8, none, none, some 41, 9001⟩] := by
  decide +kernel

/-- 6.6: B's ENQUEUE fails with TAG_IN_USE. -/
theorem test_timedEnqueue :
    ((after .timedEnqueue (editExample ⟨42, .b, 9001, .enqueue ⟨2, .any, 1, 50, 0⟩⟩)).port .b).notices
      = [⟨.editFailed, some .tagInUse, some 2, none, some 1, none, some 42, 9001⟩] := by decide +kernel

/-- 6.6: a RENEW scheduled for frame 9100 takes id 43 and stands behind the nearer entry. -/
theorem test_schedule :
    ((after (.schedule .a [0, 0, 0x23, 0x8C, 1, 5, 1, 0xF4]) (editExample ⟨41, .a, 9001, .release 8⟩)).port .a).replyBody
      = [43, 2, 2] := by decide +kernel

/-- R108: an activation in the current frame is PAST. -/
theorem test_schedule_past :
    ((after (.schedule .a [0, 0, 0x23, 0x28, 0, 8]) (editExample ⟨41, .a, 9001, .release 8⟩)).port .a).replyCode
      = .past := by decide +kernel

/-- R115: the activation frame and the action. -/
theorem test_unschedule :
    ((after (.unschedule .a [41]) (editExample ⟨41, .a, 9001, .release 8⟩)).port .a).replyBody
      = [0, 0, 0x23, 0x29, 0] := by decide +kernel

/-- R116: one entry, at position 1. -/
theorem test_readEdits :
    ((after (.readEdits .a [0]) (editExample ⟨41, .a, 9001, .release 8⟩)).port .a).replyBody.take 11
      = [1, 0, 1, 41, 1, 0, 0, 0x23, 0x29, 0, 8] := by decide +kernel

/-! ### The plan (7.10) -/

/-- 7.10 at the start of frame 5000. -/
def planExample : State :=
  { withPort (partWith 16 8 5000 [(13, heldBy .b 1000 40), (12, heldBy .c 1000 2)]) .d PortState.atReset with
    plan := { planOf 16 8 with number := 3 } }

/-- 7.10: the proposed terms. -/
def newTerms : PlanTerms :=
  { geometry := { (planOf 16 8).terms.geometry with slots := 12 }, quotas := ⟨8, 8, 8, 4⟩ }

/-- 7.10: the proposal once it is OPEN. -/
def opened : Proposal := ⟨.a, newTerms, ⟨true, true, true, false⟩, PerPort.single .a⟩

/-- 7.10: A's PROPOSE answers OPEN and 3 ports, and B is told. -/
theorem test_propose :
    let t := after (.propose .a [12, 16, 0, 15, 8, 8, 8, 4, 0, 0, 0, 6]) planExample
    (t.port .a).replyBody = [1, 3] ∧ t.proposal = .opened opened 6
      ∧ (t.port .b).notices = [⟨.planOpen, none, none, none, some 6, some .a, none, 0x1389⟩] := by decide +kernel

/-- 7.10: B's CONFIRM answers OPEN and 1 member yet to confirm. -/
theorem test_confirm :
    ((after (.confirm .b []) { planExample with proposal := .opened opened 6 }).port .b).replyBody = [1, 1] := by
  decide +kernel

/-- 7.10: C's DETACH makes the confirmation final; A is told with frame 0x138A. -/
theorem test_detach :
    let t := after (.detach .c [])
      { planExample with frameCounter := 5001, proposal := .opened { opened with confirmed := ⟨true, true, false, false⟩ } 5 }
    entryAt t.staged 12 = .cooling ∧ (t.port .c).replyBody = [1, 1, 0, 0, 0, 0, 2]
      ∧ (t.port .a).notices = [⟨.planAgreed, none, none, none, none, some .a, none, 0x138A⟩] := by decide +kernel

/-- R127: REJECT fails the proposal for every member of the confirming set. -/
theorem test_reject :
    let t := after (.reject .c []) { planExample with proposal := .opened opened 6 }
    t.proposal = .none ∧ (t.port .a).notices
      = [⟨.planFailed, some .rejected, none, none, none, some .c, none, 0x1389⟩] := by decide +kernel

/-- 7.10 at the commit ending frame 5002: slot 13 is revoked, the offer on it voided, the plan in force. -/
def planDueState : State :=
  { planExample with
    frameCounter := 5002
    staged := planExample.staged.set 12 .free
    offers := [⟨5, .b, .d, 13, .handover, 8⟩]
    offerCounter := 6
    proposal := .agreed { opened with confirming := ⟨true, true, false, false⟩, confirmed := ⟨true, true, false, false⟩ }
      5002
    ports := ⟨attachedPort 0, attachedPort 0, PortState.atReset, attachedPort 0⟩ }

/-- 7.10: the notices to B and D. -/
theorem test_planApplication_notices :
    let t := after .planApplication planDueState
    (t.port .b).notices = [⟨.revoked, some .plan, some 40, some 13, none, none, none, 0x138B⟩,
        ⟨.planInForce, none, none, none, some 8, none, none, 0x138B⟩]
      ∧ (t.port .d).notices = [⟨.offerVoid, some .plan, some 40, some 13, none, some .b, some 5, 0x138B⟩,
        ⟨.planInForce, none, none, none, some 4, none, none, 0x138B⟩] := by decide +kernel

/-- 7.10: the plan number is 4, S is 12 and slot 13 is FREE. -/
theorem test_planApplication_plan :
    let t := after .planApplication planDueState
    t.plan = ⟨newTerms, 4⟩ ∧ t.geometry.slots = 12 ∧ entryAt t.staged 13 = .free ∧ entryAt t.active 13 = .free
      ∧ t.generation = planDueState.generation + 1 := by decide +kernel

/-- 7.10: had the deadline reached 0, PLAN_FAILED (LAPSED) would have gone to A, B and C. -/
theorem test_proposalLapse :
    let t := after .proposalLapse { planExample with frameCounter := 5005, proposal := .opened opened 1 }
    t.proposal = .none ∧ (t.port .c).notices
      = [⟨.planFailed, some .lapsed, none, none, none, some .a, none, 0x138E⟩] := by decide +kernel

/-- R136: the plan in use of 7.10 with the proposal OPEN. -/
theorem test_readPlan :
    ((after (.readPlan .d []) { planExample with proposal := .opened opened 6 }).port .d).replyBody
      = [16, 16, 0, 15, 8, 8, 8, 8, 0, 3, 1, 1, 12, 16, 0, 15, 8, 8, 8, 4, 0, 0, 7, 1, 0, 0, 0, 6] := by decide +kernel

/-! ### Notices (8.8) and ports -/

/-- 8.8: A's queue before the last fetch of two. -/
def queueExample : State :=
  let s := partWith 16 63 801 [(9, heldBy .b 50 3)]
  withPort s .a { PortState.atReset with
    attachment := some ⟨0, 5⟩
    notices := List.replicate 14 (s.notice .editDone)
      ++ [{ s.notice .offerMade with id := some 3 }, { s.notice .leaseEnded with slot := some 4 }]
    lost := true }

/-- 8.8: the first fetch reports LOST with 7 notices and leaves a depth of 9. -/
theorem test_fetch_lost :
    let x := (after (.fetch .a [8]) queueExample).port .a
    x.replyBody.take 2 = [0x87, 9] ∧ x.lost = false := by decide +kernel

/-- 8.8: the line is asserted while OFFER_MADE is queued under the mask GRANT and OFFER. R144: a mask that names no class
keeps it negated. -/
theorem test_attention :
    queueExample.attn .a = true ∧ (after (.attention .a [0]) queueExample).attn .a = false
      ∧ ((after (.attention .a [0x10]) queueExample).port .a).replyBody = [0x10, 14] := by decide +kernel

/-- R157: the five values of SNAPSHOT and the quota. -/
theorem test_attach :
    let t := after (.attach .d [16, 0x7F]) planExample
    (t.port .d).attachment = some ⟨16, 127⟩ ∧ (t.port .d).replyBody = [0, 0, 0x13, 0x88, 0, 1, 0, 0, 3, 8] := by
  decide +kernel

/-! ### The Frame Generator (10.5, 11.5) and reset -/

/-- 10.5: the 32-bit beacon of frame 0x1B58. -/
theorem test_beacon :
    (after .bitTimeBegins
      { State.reset with
        frame := .running .leadIn
        frameCounter := 0x1B58
        generation := 12
        geometry := { State.reset.geometry with width := .w32 }
        proposal := .agreed opened 0x1B58
        ports := ⟨attachedPort 0, attachedPort 0, PortState.atReset, PortState.atReset⟩ }).beacon
      = [0x58, 0x0C, 0x43, 0x1B] := by decide +kernel

/-- R32: the edge that ends the last bit time is the frame end and begins the next frame. -/
theorem test_bitTimeBegins :
    let t := after .bitTimeBegins { partWith 8 63 7 [] with frame := .running (.bit 127) }
    t.frame = .running (.bit 0) ∧ t.frameCounter = 8 := by decide +kernel

/-- 11.5: frame 40000 in EXTERNAL mode, in slot 3. -/
def externalPart (f : FrameState) : State :=
  let s := partWith 8 63 40000 []
  { s with
    plan := { s.plan with terms := { s.plan.terms with geometry := { s.geometry with source := .external } } }
    geometry := { s.geometry with source := .external }
    frame := f }

/-- R32: in EXTERNAL mode too the next frame's first bit time begins at the frame end. -/
theorem test_frameEnd_external :
    let t := after .frameEnd (externalPart (.running (.bit 127)))
    t.frame = .running (.bit 0) ∧ t.beacon = [0x41, 0] := by decide +kernel

/-- 11.5: the loss abandons the frame in slot 3, and CLOCK_LOST carries frame 40000 and slot 3. -/
theorem test_clockLoss :
    let t := after .clockLoss (externalPart (.running (.bit 53)))
    t.frame = .stalled .lost 3 ∧ (t.port .a).notices
      = [⟨.clockLost, none, none, some 3, none, none, none, 40000⟩] := by decide +kernel

/-- R37: a gap sets the recovery count to 0. -/
theorem test_stallGap :
    (after .stallGap { externalPart (.stalled .lost 3) with recoveryCount := 9 }).recoveryCount = 0 := by
  decide +kernel

/-- R40: the sixteenth edge ends the stall, with CLOCK_BACK after a loss. -/
theorem test_bclkEdge :
    let t := after .bclkEdge { externalPart (.stalled .lost 3) with recoveryCount := 15 }
    t.frame = .running .leadInWait ∧ (t.port .a).notices.map Notice.kind = [.clockBack] := by decide +kernel

/-- R40: a stall with cause SWITCH ends without CLOCK_BACK. -/
theorem test_clockRecovery :
    let t := after .clockRecovery (externalPart (.stalled .switch 0))
    t.frame = .running .leadInWait ∧ (t.port .a).notices = [] := by decide +kernel

/-- R46, R137: reset detaches every port and empties the tables. -/
theorem test_resetAsserted :
    let t := after .resetAsserted commitTaken
    t.staged = Table.atReset ∧ (t.port .a).attachment = none ∧ t.resetAsserted = true := by decide +kernel

/-- R122: SLT1 and SLT0 at 1 and 0 give S = 32; WID1 and WID0 at 0 and 1 give W = 24. -/
theorem test_resetNegated :
    let t := after (.resetNegated true false false true) { State.reset with resetAsserted := true }
    t.plan.terms.geometry.slots = 32 ∧ t.geometry.width = .w24 ∧ t.resetAsserted = false := by decide +kernel

/-- R34, log 10: from reset the lead-in begins at the first rising edge, 16 periods on. -/
theorem test_step_idle :
    step { State.reset with clockPhase := 31 }
      = .next { State.reset with frame := .running .leadIn, clockPhase := 0 } := rfl

/-! ### What meets the hypotheses of the statements

Each `witness_<n>…` shows a state and operands that meet the hypotheses of the statement O<n>, one conjunct or one
conjunction for each clause, at a boundary of its range where it has one. -/

/-- Terms of a plan with 12 slots of 24 bits. -/
def proposed : PlanTerms :=
  { geometry := { slots := 12, width := .w24, source := .external, divider := 7, form := .span, polarity := .low }
    quotas := ⟨8, 8, 8, 4⟩ }

/-- A proposal of A that B, C and D have yet to confirm. -/
def proposal : Proposal := ⟨.a, proposed, PerPort.all true, PerPort.single .a⟩

/-- A part with something in every table. -/
def busy : State :=
  { partWith 16 8 7
      [(1, heldBy .a 5 11), (2, heldBy .a 1 12), (3, sharedBy [.a, .b, .c] .a 12 4), (4, sharedBy [.a, .b] .a 30 5),
       (5, heldBy .b 9 6), (6, .cooling), (15, heldBy .a 7 255)] with
    requests := [⟨.a, ⟨1, .any, 1, 5, 0⟩⟩, ⟨.b, ⟨2, .run, 2, 5, 3⟩⟩, ⟨.a, ⟨3, .list [7, 15], 2, 5, 1⟩⟩]
    offers := [⟨1, .a, .d, 1, .handover, 1⟩, ⟨2, .a, .d, 3, .share, 5⟩, ⟨4, .b, .d, 4, .handover, 7⟩,
      ⟨3, .b, .c, 5, .share, 2⟩]
    offerCounter := 5
    edits := [⟨1, .a, 8, .release 4⟩, ⟨2, .b, 9, .renew 15 10⟩, ⟨3, .a, 10, .enqueue ⟨9, .any, 1, 1, 0⟩⟩]
    editCounter := 4
    proposal := .opened proposal 3
    beacon := [] }

/-- The part of `busy` obeys every law. -/
theorem busy_lawful :
    busy.scheduleCheck = true ∧ busy.requestsCheck = true ∧ busy.editsCheck = true ∧ busy.noticesCheck = true
      ∧ busy.offerIdsCheck = true ∧ busy.editIdsCheck = true ∧ busy.timingCheck = true
      ∧ busy.bookkeepingCheck = true := by decide +kernel

theorem busy_scheduleOk : busy.ScheduleOk := State.scheduleOk_of_check busy_lawful.1

theorem busy_offerIdsOk : busy.OfferIdsOk := State.offerIdsOk_of_check busy_lawful.2.2.2.2.1

theorem busy_termsOk : busy.plan.terms.Ok := PlanTerms.ok_of_check (by decide +kernel)

/-- `busy` with port D detached, which it can be with no offer to D. -/
def busyWithoutD : State :=
  { withPort busy .d PortState.atReset with
    offers := [⟨3, .b, .c, 5, .share, 2⟩]
    proposal := .opened { proposal with confirming := ⟨true, true, true, false⟩ } 3 }

/-- O2. -/
theorem witness_2_idleStep :
    { State.reset with resetAsserted := true }.pending = []
      ∧ ((externalPart (.running (.bit 5))).pending = [] ∧ (externalPart (.running (.bit 5))).resetAsserted = false
        ∧ (externalPart (.running (.bit 5))).geometry.source = .external
        ∧ { externalPart (.running (.bit 5)) with edgeTimer := 1022 }.edgeTimer + 1 < 1024
        ∧ 1024 ≤ { externalPart (.stalled .lost 3) with edgeTimer := 1023 }.edgeTimer + 1)
      ∧ (State.reset.pending = [] ∧ State.reset.resetAsserted = false ∧ State.reset.geometry.source = .internal
        ∧ { State.reset with clockPhase := 30 }.clockPhase + 1 < 2 * (State.reset.geometry.divider.toNat + 1)
        ∧ 2 * (State.reset.geometry.divider.toNat + 1) ≤ { State.reset with clockPhase := 31 }.clockPhase + 1) := by
  decide +kernel

/-- O3. -/
theorem witness_3_csFall :
    (busy.resetAsserted = false ∧ (busy.port .a).selected = false)
      ∧ ({ busy with resetAsserted := true }.resetAsserted = true ∧ (busy.port .a).selected = false)
      ∧ ((withPort busy .a { busy.port .a with selected := true }).port .a).selected = true := by decide +kernel

/-- O4: the 63rd byte and the count 254; a request of 60 payload bytes. -/
theorem witness_4_bytes :
    (((withPort busy .a { busy.port .a with receiver := .receiving 254 (List.replicate 62 1) [7] }).port .a).receiver
        = .receiving 254 (List.replicate 62 1) [7] ∧ (List.replicate 62 (1 : Byte)).length < 63)
      ∧ (∀ k : Fin 8, (0x60 : Byte).getMsbD k = #v[false, true, true, false, false, false, false, false][k.val])
      ∧ ((withPort busy .a { busy.port .a with receiver := .receiving 0 [] [7] }).port .a).receiver
        = .receiving 0 [] [7]
      ∧ (busy.port .a).receiver = .idle
      ∧ (busy.resetAsserted = false ∧ (busy.port .a).selected = false
        ∧ (List.replicate 60 (0 : Byte)).length ≤ 60) := by decide +kernel

/-- O5: the shortest and the longest payload; the bytes of POLL. -/
theorem witness_5_requestBytes :
    ([] : List Byte).length ≤ 60 ∧ (List.replicate 60 (0 : Byte)).length ≤ 60
      ∧ isChecked [3, 0, 0xFD] = true ∧ refusalOf [3, 0, 0xFD] false = none := by decide +kernel

/-- O6. -/
theorem witness_6_ends :
    busy.canEnd .a [] = true ∧ busy.canEnd .a (0 :: [1, 2]) = true
      ∧ (endsTransaction (.poll .a []) = some .a ∧ { busy with resetAsserted := true }.resetAsserted = true)
      ∧ ((withPort busy .a { busy.port .a with selected := true }).port .a).discarding = true := by decide +kernel

/-- O7: not framed (one byte, and a length byte of 61), a wrong sum, an unknown code, and a POLL. -/
theorem witness_7_checks :
    busy.canEnd .a [3] = true ∧ busy.canEnd .a [3, 61] = true
      ∧ (busy.canEnd .a [3, 0, 0] = true ∧ byteSum [3, 0, 0] ≠ 0)
      ∧ (busy.canEnd .a [0x7F, 0, 0x81] = true ∧ byteSum [0x7F, 0, 0x81] = 0)
      ∧ (busy.canEnd .a [RequestCode.poll.code, 0, -RequestCode.poll.code] = true
        ∧ byteSum [RequestCode.poll.code, 0, -RequestCode.poll.code] = 0) := by decide +kernel

/-- O7: no request has the code 0x7F. -/
theorem witness_7_unknown : ∀ r : RequestCode, r.code ≠ 0x7F := by intro r; cases r <;> decide

/-- O8. -/
theorem witness_8_taken :
    requestOf (.renew .a [0, 1, 0, 9]) = some (.a, .renew, [0, 1, 0, 9])
      ∧ busy.takes .a .renew [0, 1, 0, 9] = true := by decide +kernel

/-- O9: a detached port's OFFER and POLL, an attached port's ATTACH, and payloads of a wrong length. -/
theorem witness_9_first :
    (busyWithoutD.takes .d .offer [1, 1, 0, 1] = true ∧ (busyWithoutD.port .d).attachment = none
        ∧ RequestCode.offer ∉ [RequestCode.attach, .poll, .snapshot, .readSlot, .readMap, .readPlan])
      ∧ (busyWithoutD.takes .d .poll [] = true ∧ (busyWithoutD.port .d).attachment = none)
      ∧ (busy.takes .a .attach [0, 0] = true ∧ (busy.port .a).attachment ≠ none)
      ∧ (busy.takes .a .reserve (List.replicate 16 0) = true ∧ (List.replicate 16 (0 : Byte)).length ∉ RequestCode.reserve.lengths
        ∧ (busy.port .a).attachment ≠ none) := by decide +kernel

/-- O10. -/
theorem witness_10_poll :
    busy.takes .a .poll [] = true ∧ busy.takes .a .poll [0] = true
      ∧ busyWithoutD.scheduleCheck = true ∧ busyWithoutD.noticesCheck = true
      ∧ (busyWithoutD.takes .d .poll [] = true ∧ (busyWithoutD.port .d).attachment = none) := by decide +kernel

/-- O11. -/
theorem witness_11_snapshot :
    busy.takes .a .snapshot [] = true ∧ busy.takes .a .snapshot [0] = true
      ∧ (busyWithoutD.takes .d .attach [0, 127] = true ∧ (127 : Byte).getLsbD 7 = false
        ∧ (busyWithoutD.port .d).attachment = none) := by decide +kernel

/-- O12: slots 0 and 15, and the first number out of range. -/
theorem witness_12_readSlot :
    busy.plan.terms.okCheck = true ∧ Table.okCheck busy.active = true ∧ Table.okCheck busy.staged = true
      ∧ busy.takes .a .readSlot [0] = true ∧ busy.takes .a .readSlot [15] = true
      ∧ (busy.takes .a .readSlot [16] = true
        ∧ ∀ n, n < busy.plan.terms.geometry.slots → ([16] : List Byte) ≠ [byteOf n]) := by decide +kernel

/-- O13: both views and a value that names none. -/
theorem witness_13_readMap :
    busy.plan.terms.okCheck = true ∧ Table.okCheck busy.active = true ∧ Table.okCheck busy.staged = true
      ∧ busy.takes .a .readMap [0] = true ∧ busy.takes .a .readMap [1] = true ∧ busy.takes .a .readMap [2] = true
      ∧ (busyWithoutD.scheduleCheck = true ∧ (busyWithoutD.port .d).attachment = none
        ∧ busyWithoutD.takes .d .readMap [1] = true) := by decide +kernel

/-- O14: the first and the last start, and the first beyond it; a detached port. -/
theorem witness_14_lists :
    (busy.port .a).attachment ≠ none
      ∧ (busy.takes .a .holdings [0] = true ∧ busy.takes .a .holdings [62] = true)
      ∧ (busy.takes .a .holdings [63] = true ∧ ∀ n, n < 63 → ([63] : List Byte) ≠ [byteOf n])
      ∧ (busy.takes .a .readRequests [0] = true ∧ busy.takes .a .readRequests [5] = true)
      ∧ (busy.takes .a .readRequests [6] = true ∧ ∀ n, n < 6 → ([6] : List Byte) ≠ [byteOf n])
      ∧ (busy.takes .a .readEdits [0] = true ∧ busy.takes .a .readEdits [23] = true)
      ∧ (busy.takes .a .readEdits [24] = true ∧ ∀ n, n < 24 → ([24] : List Byte) ≠ [byteOf n])
      ∧ (busyWithoutD.takes .d .holdings [0] = true ∧ busyWithoutD.takes .d .readRequests [0] = true
        ∧ busyWithoutD.takes .d .readEdits [0] = true ∧ (busyWithoutD.port .d).attachment = none) := by decide +kernel

/-- O15: an OPEN proposal of deadline 4095, and a payload that is not empty. -/
theorem witness_15_readPlan :
    ({ busy with proposal := .opened proposal 4095 }.takes .a .readPlan [] = true
        ∧ { busy with proposal := .opened proposal 4095 }.proposal = .opened proposal 4095)
      ∧ busy.takes .a .readPlan [0] = true := by decide +kernel

/-- O16 and O17: slots 1 and 15, tags 11 and 255 that qualify, and a slot and a tag that do not. -/
theorem witness_16_renew :
    busy.plan.terms.okCheck = true ∧ (busy.port .a).attachment ≠ none
      ∧ (busy.takes .a .renew [0, 1, 0, 9] = true ∧ (Selector.slot 1).picks .a 1 (entryAt busy.staged 1) = true)
      ∧ (busy.takes .a .renew [0, 15, 0, 9] = true ∧ (Selector.slot 15).picks .a 15 (entryAt busy.staged 15) = true)
      ∧ (busy.takes .a .renew [1, 255, 0, 9] = true ∧ (Selector.tag 255).picks .a 15 (entryAt busy.staged 15) = true)
      ∧ (List.range 64).filter (fun n => (Selector.slot 5).picks .a n (entryAt busy.staged n)) = []
      ∧ (List.range 64).filter (fun n => (Selector.tag 99).picks .a n (entryAt busy.staged n)) = []
      ∧ (busyWithoutD.takes .d .renew [0, 1, 0, 9] = true ∧ (busyWithoutD.port .d).attachment = none) := by
  decide +kernel

/-- O16, O17: the selectors of those payloads are in range. -/
theorem witness_16_inRange :
    (Selector.slot 1).InRange busy.plan.terms.geometry.slots ∧ (Selector.slot 15).InRange busy.plan.terms.geometry.slots
      ∧ (Selector.tag 1).InRange busy.plan.terms.geometry.slots
      ∧ (Selector.tag 255).InRange busy.plan.terms.geometry.slots := by
  refine ⟨?_, ?_, ?_, ?_⟩ <;> simp only [Selector.InRange] <;> decide +kernel

/-- No selector in range has the bytes of slot 0, of slot 16 with 16 slots, or of tag 0. -/
theorem bytes_out_of_range (sel : Selector) (h : sel.InRange 16) :
    sel.bytes ≠ [0, 0] ∧ sel.bytes ≠ [0, 16] ∧ sel.bytes ≠ [1, 0] := by
  cases sel with
  | slot n =>
    obtain ⟨h1, h2, -⟩ := h
    refine ⟨fun e => ?_, fun e => ?_, fun e => ?_⟩ <;>
      simp only [Selector.bytes, byteOf, List.cons.injEq, and_true] at e
    · have := congrArg BitVec.toNat e.2; simp at this; omega
    · have := congrArg BitVec.toNat e.2; simp at this; omega
    · exact absurd e.1 (by decide)
  | tag t =>
    refine ⟨fun e => ?_, fun e => ?_, fun e => h ?_⟩ <;>
      simp only [Selector.bytes, List.cons.injEq, and_true] at e
    · exact absurd e.1 (by decide)
    · exact absurd e.1 (by decide)
    · exact e.2

/-- O16: payloads that name slot 0 and slot S. -/
theorem witness_16_badField :
    (busy.takes .a .renew [0, 0, 0, 9] = true ∧ busy.takes .a .renew [0, 16, 0, 9] = true)
      ∧ ∀ (sel : Selector) (l : Half), sel.InRange busy.plan.terms.geometry.slots → l ≠ 0 →
        [0, 0, 0, 9] ≠ sel.bytes ++ halfBytes l ∧ [0, 16, 0, 9] ≠ sel.bytes ++ halfBytes l := by
  refine ⟨by decide +kernel, fun sel l h _ => ?_⟩
  have hb := bytes_out_of_range sel h
  cases sel <;> simp_all [Selector.bytes, halfBytes]
  exact ⟨fun e => absurd e.symm hb.1, fun e => absurd e.symm hb.2⟩

/-- O17: two slots under one tag are picked, and payloads that name slot 0 and tag 0. -/
theorem witness_17_release :
    (busy.takes .a .release [0, 3] = true ∧ busy.takes .a .release [1, 255] = true)
      ∧ (busy.takes .a .release [0, 5] = true
        ∧ (List.range 64).filter (fun n => (Selector.slot 5).picks .a n (entryAt busy.staged n)) = [])
      ∧ (busy.takes .a .release [0, 0] = true ∧ busy.takes .a .release [1, 0] = true) := by decide +kernel

/-- O17. -/
theorem witness_17_badField :
    ∀ sel : Selector, sel.InRange busy.plan.terms.geometry.slots → [0, 0] ≠ sel.bytes ∧ [1, 0] ≠ sel.bytes :=
  fun sel h => ⟨fun e => (bytes_out_of_range sel h).1 e.symm, fun e => (bytes_out_of_range sel h).2.2 e.symm⟩

/-- O18: the mark on another member and on the leaver, of two and of four members. -/
theorem witness_18_leaving :
    ([.a, .b] : List Port).Nodup ∧ Port.b ∈ ([.a, .b] : List Port)
      ∧ ([.a, .b, .c, .d] : List Port).Nodup ∧ Port.c ∈ ([.a, .b, .c, .d] : List Port)
      ∧ 2 ≤ ([.a, .b, .d] : List Port).length := by decide

/-- A reservation of 8 listed slots, the most there can be, with the largest fields. -/
def bigReservation : Reservation := ⟨255, .list [1, 2, 3, 4, 5, 6, 7, 15], 8, 65535, 4095⟩

/-- O19, O20: reservations in range with 16 slots, and payloads that are none (a count of 0, a slot S). -/
theorem witness_19_reserve :
    bigReservation.Fits 16 ∧ (⟨9, .any, 1, 1, 0⟩ : Reservation).Fits 16 := by
  refine ⟨?_, ?_⟩ <;> simp only [Reservation.Fits, Placement.Fits, bigReservation] <;> decide

/-- O19: a taken payload for each outcome: OK, TAG_IN_USE, OVER_QUOTA, PORT_LIMIT, QUEUE_FULL. -/
theorem witness_19_outcomes :
    busy.plan.terms.okCheck = true ∧ (busy.port .a).attachment ≠ none
      ∧ busy.takes .a .reserve bigReservation.payload = true
      ∧ (busy.takes .a .reserve [1, 0, 1, 0, 1, 0, 0] = true ∧ ∃ x ∈ busy.requests, x.port = .a ∧ x.res.tag = 1)
      ∧ { busy with plan := planOf 16 0 }.plan.terms.quotas.get .a < 1
      ∧ 6 ≤ ({ busy with requests := List.replicate 6 ⟨.a, ⟨1, .any, 1, 5, 0⟩⟩ }.requests.filter
          (fun (x : Record) => x.port == Port.a)).length
      ∧ 16 ≤ { busy with requests := List.replicate 16 ⟨.b, ⟨1, .any, 1, 5, 0⟩⟩ }.requests.length
      ∧ (busyWithoutD.takes .d .reserve [1, 0, 1, 0, 1, 0, 0] = true ∧ (busyWithoutD.port .d).attachment = none) := by
  decide +kernel

/-- O19: a payload of no bytes is no reservation. -/
theorem witness_19_badField :
    busy.takes .a .reserve [] = true ∧ ∀ r : Reservation, r.Fits busy.plan.terms.geometry.slots → [] ≠ r.payload :=
  ⟨by decide +kernel, fun r _ => by simp [Reservation.payload]⟩

/-- O21: A's record with tag 3 behind another port's; a tag that A has not pending; tag 0. -/
theorem witness_21_cancel :
    (busy.takes .a .cancel [3] = true
        ∧ busy.requests = [⟨.a, ⟨1, .any, 1, 5, 0⟩⟩, ⟨.b, ⟨2, .run, 2, 5, 3⟩⟩] ++ ⟨.a, ⟨3, .list [7, 15], 2, 5, 1⟩⟩ :: []
        ∧ ∀ x ∈ [(⟨.a, ⟨1, .any, 1, 5, 0⟩⟩ : Record), ⟨.b, ⟨2, .run, 2, 5, 3⟩⟩], x.port = .a → x.res.tag ≠ 3)
      ∧ (busy.takes .a .cancel [2] = true ∧ ∀ x ∈ busy.requests, x.port = .a → x.res.tag ≠ 2)
      ∧ (busy.takes .a .cancel [0] = true ∧ ∀ tag : Byte, tag ≠ 0 → ([0] : List Byte) ≠ [tag])
      ∧ (busyWithoutD.takes .d .cancel [3] = true ∧ (busyWithoutD.port .d).attachment = none) := by decide +kernel

/-- O22: the first and the last slot, a confirmed plan with a smaller S, and the three placements. -/
theorem witness_22_placement :
    busy.plan.terms.okCheck = true ∧ busy.available 7 = true ∧ busy.available 15 = false
      ∧ { busy with proposal := .agreed proposal 8 }.available 12 = false
      ∧ { busy with proposal := .agreed proposal 8 }.available 11 = true
      ∧ busy.findSlots ⟨1, .any, 2, 5, 0⟩ = some [7, 8] ∧ busy.findSlots ⟨1, .run, 8, 5, 0⟩ = some [7, 8, 9, 10, 11, 12, 13, 14]
      ∧ busy.findSlots ⟨1, .list [14, 7], 2, 5, 0⟩ = some [14, 7]
      ∧ busy.findSlots ⟨1, .list [7, 15], 2, 5, 0⟩ = none := by decide +kernel

/-- O23: a record that finds no slots, one over its quota, and one that is granted up to it. -/
theorem witness_23_visit :
    busy.plan.terms.okCheck = true ∧ busy.findSlots ⟨3, .list [7, 15], 2, 5, 1⟩ = none
      ∧ (busy.findSlots ⟨1, .any, 4, 5, 0⟩ = some [7, 8, 9, 10]
        ∧ busy.plan.terms.quotas.get .a < (busy.ownSlots .a).length + 4)
      ∧ (busy.findSlots ⟨1, .any, 3, 5, 0⟩ = some [7, 8, 9]
        ∧ (busy.ownSlots .a).length + 3 ≤ busy.plan.terms.quotas.get .a) := by decide +kernel

/-- O24, O29, O32, O33, O37, O43, O44, O45: frames run in `busy`. -/
theorem witness_24_framesRun : busy.framesRun = true := by decide +kernel

/-- O25: the offer that joins, and a state for each refusal. -/
theorem witness_25_offer :
    busy.plan.terms.okCheck = true ∧ busy.offers.Pairwise (fun x y => x.slot < y.slot)
      ∧ (busy.port .a).attachment ≠ none
      ∧ (busy.takes .a .offer [portCode .d, byteOf 2, OfferKind.share.code, byteOf 1] = true
        ∧ Port.a ∈ (entryAt busy.staged 2).parties ∧ (busy.port .d).attachment ≠ none
        ∧ ∀ x ∈ busy.offers, x.slot ≠ 2)
      ∧ (busy.takes .a .offer [portCode .d, byteOf 15, OfferKind.handover.code, byteOf 255] = true
        ∧ Port.a ∈ (entryAt busy.staged 15).parties)
      ∧ Port.c ∉ (entryAt busy.staged 5).parties ∧ (busyWithoutD.port .d).attachment = none
      ∧ Port.b ∈ (entryAt busy.staged 3).parties
      ∧ 4 ≤ (sharedBy [.a, .b, .c, .d] .a 12 4).parties.length
      ∧ (busyWithoutD.takes .d .offer [1, 1, 0, 1] = true ∧ (busyWithoutD.port .d).attachment = none) := by
  decide +kernel

/-- O25: a payload that names the giver itself as target is no offer. -/
theorem witness_25_badField :
    busy.takes .a .offer [1, 2, 0, 1] = true
      ∧ ∀ (q : Port) (n : Nat) (k : OfferKind) (f : Nat), q ≠ .a → 1 ≤ n → n < busy.plan.terms.geometry.slots → 1 ≤ f →
        f ≤ 255 → [1, 2, 0, 1] ≠ [portCode q, byteOf n, k.code, byteOf f] := by
  refine ⟨by decide +kernel, fun q n k f hq _ _ _ _ e => ?_⟩
  simp only [List.cons.injEq] at e
  cases q with
  | a => exact hq rfl
  | b | c | d => exact absurd e.1 (by decide)

/-- O26: the refusals of ACCEPT, the last of them at the quota. -/
theorem witness_26_refused :
    (busyWithoutD.takes .d .accept [1] = true ∧ (busyWithoutD.port .d).attachment = none)
      ∧ (busy.takes .c .accept [1] = true ∧ ∀ o ∈ busy.offers, o.id = 1 → o.target ≠ .c)
      ∧ ({ busy with plan := planOf 16 0 }.takes .d .accept [1] = true
        ∧ (planOf 16 0).terms.quotas.get .d < (busy.ownSlots .d).length + 1
        ∧ ∀ x ∈ busy.offers, x.id = 1 → x = ⟨1, .a, .d, 1, .handover, 1⟩)
      ∧ (busy.takes .d .accept [0] = true ∧ ∀ i : Byte, i ≠ 0 → ([0] : List Byte) ≠ [i]) := by decide +kernel

/-- O26: one offer of each kind on a HELD and on a SHARED slot, each within the quota. -/
theorem witness_26_accepted :
    busy.takes .d .accept [1] = true ∧ busy.takes .d .accept [2] = true ∧ busy.takes .d .accept [4] = true
      ∧ busy.takes .c .accept [3] = true ∧ (busy.ownSlots .d).length + 1 ≤ busy.plan.terms.quotas.get .d
      ∧ (busy.ownSlots .c).length + 1 ≤ busy.plan.terms.quotas.get .c
      ∧ busy.offers.map (fun o => (o.kind, (entryAt busy.staged o.slot).isShared))
        = [(.handover, false), (.share, true), (.handover, true), (.share, false)] := by decide +kernel

/-- O26: and that state obeys the laws of the schedule and of the offer ids. -/
theorem witness_26_lawful : busy.ScheduleOk ∧ busy.OfferIdsOk := ⟨busy_scheduleOk, busy_offerIdsOk⟩

/-- O27: the target declines, the giver withdraws; another port; the id 0; a detached port. -/
theorem witness_27_offers :
    busy.OfferIdsOk ∧ busy.takes .d .decline [1] = true ∧ busy.takes .a .withdraw [1] = true
      ∧ (busy.takes .a .decline [1] = true ∧ ∀ o ∈ busy.offers, o.id = 1 → o.target ≠ .a)
      ∧ (busy.takes .d .withdraw [1] = true ∧ ∀ o ∈ busy.offers, o.id = 1 → o.giver ≠ .d)
      ∧ (busy.takes .d .decline [0] = true ∧ busy.takes .d .withdraw [0] = true)
      ∧ (busyWithoutD.takes .d .decline [1] = true ∧ busyWithoutD.takes .d .withdraw [1] = true
        ∧ (busyWithoutD.port .d).attachment = none) :=
  ⟨busy_offerIdsOk, by decide +kernel⟩

/-- O28: ids that pass over the values in use, and from 255 on to 1. -/
theorem witness_28_ids :
    busy.OfferIdsOk ∧ busy.EditIdsOk
      ∧ { busy with
          offerCounter := 255
          offers := [⟨255, .a, .d, 1, .handover, 1⟩, ⟨1, .a, .d, 3, .share, 5⟩] }.offerIdsCheck = true :=
  ⟨busy_offerIdsOk, State.editIdsOk_of_check busy_lawful.2.2.2.2.2.1, by decide +kernel⟩

/-- O29: the offer with one frame remaining and the deadline 1. -/
theorem witness_29_lapses :
    (⟨1, .a, .d, 1, .handover, 1⟩ : Offer) ∈ busy.offers ∧ (⟨1, .a, .d, 1, .handover, 1⟩ : Offer).left ≤ 1
      ∧ { busy with proposal := .opened proposal 1 }.proposal = .opened proposal 1
      ∧ { busy with proposal := .opened proposal 1 }.framesRun = true := by decide +kernel

/-- O30: one frame and 1048576 frames ahead, the current frame, one frame too far, and each action in range. -/
theorem witness_30_schedule :
    busy.plan.terms.okCheck = true ∧ busy.editsCheck = true ∧ (busy.port .a).attachment ≠ none
      ∧ busy.takes .a .schedule (wordBytes 8 ++ (TimedAction.release 1).payload) = true
      ∧ busy.takes .a .schedule (wordBytes 1048583 ++ (TimedAction.release 15).payload) = true
      ∧ busy.takes .a .schedule (wordBytes 7 ++ (TimedAction.renew 1 1).payload) = true
      ∧ busy.takes .a .schedule (wordBytes 1048584 ++ (TimedAction.enqueue bigReservation).payload) = true
      ∧ (busyWithoutD.takes .d .schedule (wordBytes 8 ++ (TimedAction.release 1).payload) = true
        ∧ (busyWithoutD.port .d).attachment = none) := by decide +kernel

/-- O30: those actions fit. -/
theorem witness_30_fits :
    (TimedAction.release 1).Fits 16 ∧ (TimedAction.release 15).Fits 16 ∧ (TimedAction.renew 1 1).Fits 16
      ∧ (TimedAction.enqueue bigReservation).Fits 16 := by
  refine ⟨?_, ?_, ?_, witness_19_reserve.1⟩ <;> simp only [TimedAction.Fits] <;> decide

/-- O30: a payload of no bytes schedules nothing. -/
theorem witness_30_badField :
    busy.takes .a .schedule [] = true
      ∧ ∀ (f : Word) (act : TimedAction), act.Fits busy.plan.terms.geometry.slots → [] ≠ wordBytes f ++ act.payload :=
  ⟨by decide +kernel, fun f act _ => by simp [wordBytes]⟩

/-- O31: A's edit 3 behind others; an id of another port; id 0; a detached port. -/
theorem witness_31_unschedule :
    (busy.takes .a .unschedule [3] = true
        ∧ busy.edits = [⟨1, .a, 8, .release 4⟩, ⟨2, .b, 9, .renew 15 10⟩] ++ ⟨3, .a, 10, .enqueue ⟨9, .any, 1, 1, 0⟩⟩ :: []
        ∧ ∀ x ∈ [(⟨1, .a, 8, .release 4⟩ : Edit), ⟨2, .b, 9, .renew 15 10⟩], x.issuer = .a → x.id ≠ 3)
      ∧ (busy.takes .a .unschedule [2] = true ∧ ∀ x ∈ busy.edits, x.issuer = .a → x.id ≠ 2)
      ∧ busy.takes .a .unschedule [0] = true
      ∧ (busyWithoutD.takes .d .unschedule [1] = true ∧ (busyWithoutD.port .d).attachment = none) := by decide +kernel

/-- `busy` with one timed edit, due at the end of frame 7. -/
def due (p : Port) (a : TimedAction) : State := { busy with edits := [⟨1, p, 8, a⟩] }

/-- O32: a due RELEASE and a due RENEW of a holder, of a member, and of a port that is neither. -/
theorem witness_32_timed :
    ((due .a (.release 1)).scheduleCheck = true ∧ (due .a (.release 1)).offerIdsCheck = true
        ∧ (due .a (.release 1)).framesRun = true ∧ Port.a ∈ (entryAt busy.staged 1).parties)
      ∧ ((due .b (.release 3)).scheduleCheck = true ∧ Port.b ∈ (entryAt busy.staged 3).parties)
      ∧ ((due .c (.release 15)).scheduleCheck = true ∧ Port.c ∉ (entryAt busy.staged 15).parties)
      ∧ ((due .b (.renew 5 1)).framesRun = true ∧ Port.b ∈ (entryAt busy.staged 5).parties)
      ∧ (due .a (.renew 15 65535)).edits = [⟨1, .a, 8, .renew 15 65535⟩] ∧ (8 : Word) = busy.frameCounter + 1 := by
  decide +kernel

/-- O33: a due ENQUEUE that joins, one with a tag in use, and the two full tables. -/
theorem witness_33_enqueue :
    ((due .a (.enqueue ⟨9, .any, 1, 1, 0⟩)).framesRun = true ∧ ∀ x ∈ busy.requests, x.port = .a → x.res.tag ≠ 9)
      ∧ (∃ x ∈ busy.requests, x.port = .a ∧ x.res.tag = 1)
      ∧ 6 ≤ ({ due .a (.enqueue ⟨9, .any, 1, 1, 0⟩) with
          requests := List.replicate 6 ⟨.a, ⟨1, .any, 1, 5, 0⟩⟩ }.requests.filter (fun (x : Record) => x.port == Port.a)).length
      ∧ 16 ≤ { due .a (.enqueue ⟨9, .any, 1, 1, 0⟩) with
          requests := List.replicate 16 ⟨.b, ⟨1, .any, 1, 5, 0⟩⟩ }.requests.length := by decide +kernel

/-- `busy` with no proposal. -/
def idlePlan : State := { busy with proposal := .none }

/-- `idlePlan` with A attached alone. -/
def aloneA : State :=
  { idlePlan with ports := ⟨attachedPort 0, PortState.atReset, PortState.atReset, PortState.atReset⟩ }

/-- O34: a proposal among four ports, alone, and while one is OPEN; a deadline of 4095; a detached port. -/
theorem witness_34_propose :
    (idlePlan.takes .a .propose (proposed.payload 0 0 1) = true ∧ (idlePlan.port .a).attachment ≠ none)
      ∧ (aloneA.takes .a .propose (proposed.payload 9 9 4095) = true ∧ aloneA.proposal = .none
        ∧ portList.filter (fun q => q != .a && (aloneA.port q).attachment.isSome) = [])
      ∧ (busy.takes .a .propose (proposed.payload 0 0 1) = true ∧ busy.proposal ≠ .none)
      ∧ (busyWithoutD.takes .d .propose (proposed.payload 0 0 1) = true ∧ (busyWithoutD.port .d).attachment = none) := by
  decide +kernel

/-- O34: the terms are in range, and a payload of no bytes proposes nothing. -/
theorem witness_34_terms :
    proposed.Ok ∧ busy.takes .a .propose [] = true
      ∧ ∀ (terms : PlanTerms) (n1 n0 : Byte) (d : Nat), terms.Ok → 1 ≤ d → d ≤ 4095 → [] ≠ terms.payload n1 n0 d :=
  ⟨PlanTerms.ok_of_check (by decide), by decide +kernel, fun _ _ _ _ _ _ _ => by simp [PlanTerms.payload]⟩

/-- O35, O36: a member that has confirmed, one that has not, one that is the last, a port that is no member, no
proposal, and a payload that is not empty. -/
theorem witness_35_confirm :
    (busy.takes .a .confirm [] = true ∧ proposal.confirming.get .a = true ∧ proposal.confirmed.get .a = true)
      ∧ (busy.takes .b .confirm [] = true ∧ proposal.confirmed.get .b = false
        ∧ proposal.confirmed.set .b true ≠ proposal.confirming)
      ∧ (PerPort.set ⟨true, true, true, false⟩ .d true = proposal.confirming)
      ∧ ({ proposal with confirming := ⟨true, true, true, false⟩ }.confirming.get .d = false
        ∧ busy.takes .d .confirm [] = true ∧ busy.takes .d .reject [] = true)
      ∧ (idlePlan.takes .a .confirm [] = true ∧ idlePlan.takes .a .reject [] = true)
      ∧ (busy.takes .a .confirm [0] = true ∧ busy.takes .a .reject [0] = true)
      ∧ (busyWithoutD.takes .d .confirm [] = true ∧ busyWithoutD.takes .d .reject [] = true) := by decide +kernel

/-- `busy` at the end of the application frame of a plan with 12 slots: slot 15 is revoked, and A's LIST record goes. -/
def planEnds : State := { busy with proposal := .agreed proposal 7 }

/-- O37: no plan due. -/
theorem witness_37_none : ∀ x, busy.proposal ≠ .agreed x busy.frameCounter := by
  intro x h
  cases h

/-- O37. -/
theorem witness_37_plan :
    planEnds.scheduleCheck = true ∧ planEnds.offerIdsCheck = true ∧ planEnds.framesRun = true
      ∧ planEnds.proposal = .agreed proposal planEnds.frameCounter
      ∧ (planDueState.scheduleCheck = true ∧ planDueState.offerIdsCheck = true ∧ planDueState.framesRun = true
        ∧ entryAt planDueState.active 13 ≠ .free) := by
  decide +kernel

/-- O37: a smaller plan that takes no slot away. -/
theorem witness_37_nothingRevoked :
    let s := { planDueState with active := Table.atReset, staged := Table.atReset, offers := [] }
    s.scheduleCheck = true ∧ s.offerIdsCheck = true ∧ s.framesRun = true
      ∧ ∀ n ∈ List.range 64, newTerms.geometry.slots ≤ n → entryAt s.active n = .free := by decide +kernel

/-- O38: every mask bit, a mask with bit 7, an attached port. -/
theorem witness_38_attach :
    (busyWithoutD.takes .d .attach [255, 127] = true ∧ (127 : Byte).getLsbD 7 = false
        ∧ (busyWithoutD.port .d).attachment = none ∧ busyWithoutD.noticesCheck = true)
      ∧ (busyWithoutD.takes .d .attach [0, 128] = true ∧ (128 : Byte).getLsbD 7 = true)
      ∧ (busy.takes .a .attach [0, 0] = true ∧ (busy.port .a).attachment ≠ none) := by decide +kernel

/-- O39: the proposer, and a member that has not confirmed, each with slots, records, edits and offers. -/
theorem witness_39_detach :
    busy.scheduleCheck = true ∧ busy.offerIdsCheck = true ∧ (busy.port .a).attachment ≠ none
      ∧ busy.takes .a .detach [] = true ∧ busy.takes .b .detach [] = true ∧ (busy.port .b).attachment ≠ none := by
  decide +kernel

/-- O40: a detached port, and an attached port with a full queue. -/
theorem witness_40_notices :
    PortState.atReset.attachment = none
      ∧ ({ attachedPort 0 with notices := List.replicate 16 (busy.notice .clockBack) }.attachment ≠ none
        ∧ { attachedPort 0 with notices := List.replicate 16 (busy.notice .clockBack) }.notices.length ≤ 16) := by
  decide +kernel

/-- O41: max 1 and 8, and 9. -/
theorem witness_41_fetch :
    (queueExample.takes .a .fetch [byteOf 1] = true ∧ queueExample.takes .a .fetch [byteOf 8] = true
        ∧ (queueExample.port .a).notices.length ≤ 16 ∧ (queueExample.port .a).attachment ≠ none)
      ∧ (queueExample.takes .a .fetch [9] = true ∧ ∀ n, n < 9 → ([9] : List Byte) ≠ [byteOf n])
      ∧ (busyWithoutD.takes .d .fetch [1] = true ∧ (busyWithoutD.port .d).attachment = none) := by decide +kernel

/-- O42: the empty and the full mask, and a mask with bit 7. -/
theorem witness_42_attention :
    (queueExample.takes .a .attention [(0 : BitVec 7).setWidth 8] = true
        ∧ queueExample.takes .a .attention [(127 : BitVec 7).setWidth 8] = true
        ∧ (queueExample.port .a).attachment = some ⟨0, 5⟩)
      ∧ (queueExample.takes .a .attention [128] = true ∧ ∀ m : BitVec 7, ([128] : List Byte) ≠ [m.setWidth 8])
      ∧ (busyWithoutD.takes .d .attention [0] = true ∧ (busyWithoutD.port .d).attachment = none) := by decide +kernel

/-- O43: a frame end that changes the schedule, and one that does not. -/
theorem witness_43_frameEnd :
    commitTaken.framesRun = true
      ∧ (entryAt (after .frameEnd commitTaken).active 4).stateCode ≠ (entryAt commitTaken.active 4).stateCode
      ∧ State.reset.framesRun = true ∧ (after .frameEnd State.reset).generation = 0 := by decide +kernel

/-- O43: offers with 1 and with 2 frames remaining, whose giver keeps the slot; deadlines 1 and 2; a plan that is due and
switches to EXTERNAL, and no plan that is due. -/
theorem witness_43_countdowns :
    (busy.framesRun = true ∧ busy.scheduleCheck = true ∧ busy.offerIdsCheck = true
        ∧ (⟨1, .a, .d, 1, .handover, 1⟩ : Offer) ∈ busy.offers ∧ (⟨3, .b, .c, 5, .share, 2⟩ : Offer) ∈ busy.offers
        ∧ Port.b ∈ (entryAt (after .frameEnd { busy with offers := [⟨3, .b, .c, 5, .share, 2⟩] }).staged 5).parties)
      ∧ ({ busy with proposal := .opened proposal 1 }.framesRun = true
        ∧ { busy with proposal := .opened proposal 2 }.framesRun = true)
      ∧ (planEnds.framesRun = true ∧ planEnds.proposal = .agreed proposal planEnds.frameCounter
        ∧ planEnds.geometry.source = .internal ∧ (after .frameEnd { planEnds with offers := [] }).plan.terms.geometry.source = .external)
      ∧ (State.reset.proposal = .none ∧ State.reset.offers = []) := by decide +kernel

/-- A quiet part: a lease that ends, one with a renewal, one at a warn threshold, a shared and a cooling slot. -/
def quiet : State :=
  { partWith 16 8 7
      [(1, heldBy .a 1 11), (2, .held .a ⟨1, 12, some 20, PerPort.all false⟩), (3, sharedBy [.a, .b, .c] .c 17 4),
       (6, .cooling)] with
    ports := ⟨attachedPort 16, attachedPort 0, attachedPort 0, attachedPort 0⟩ }

/-- O44. -/
theorem witness_44_quiet :
    quiet.framesRun = true ∧ quiet.scheduleCheck = true ∧ quiet.edits = [] ∧ quiet.proposal = .none
      ∧ quiet.requests = [] ∧ quiet.offers = []
      ∧ (List.range 64).flatMap (quiet.leaseNotices .a)
        = [⟨.leaseEnded, none, some 11, some 1, none, none, none, 8⟩,
           ⟨.leaseLow, none, some 4, some 3, some 16, none, none, 8⟩] := by decide +kernel

/-- O45: the lease of slot 1 ends with an offer on it. -/
theorem witness_45_leaseEnd :
    let s := { busy with
      active := busy.active.setIfInBounds 1 (heldBy .a 1 11), staged := busy.staged.setIfInBounds 1 (heldBy .a 1 11) }
    s.framesRun = true ∧ s.scheduleCheck = true ∧ s.offerIdsCheck = true
      ∧ (entryAt s.staged 1).holding? = some ⟨1, 11, none, PerPort.all false⟩ := by decide +kernel

/-- O46. -/
theorem witness_46_halted :
    { State.reset with resetAsserted := true }.resetAsserted = true
      ∧ (externalPart (.stalled .switch 0)).frame = .stalled .switch 0 := by decide +kernel

/-- O47: each position, the last bit time but one, and the last. -/
theorem witness_47_bitTimes :
    State.reset.resetAsserted = false ∧ State.reset.frame = .running .leadInWait
      ∧ { State.reset with frame := .running (.bit 126) }.frame = .running (.bit 126)
      ∧ 126 + 1 < State.reset.geometry.slots * State.reset.geometry.width.bits
      ∧ State.reset.geometry.slots * State.reset.geometry.width.bits ≤ 127 + 1
      ∧ { State.reset with frame := .running .leadIn }.frame = .running .leadIn
      ∧ State.reset.framesRun = true := by decide +kernel

/-- O47: BCLK in reset, as an input, and in both halves of an internal bit time. -/
theorem witness_47_bclk :
    { State.reset with resetAsserted := true }.resetAsserted = true
      ∧ (externalPart (.running (.bit 127))).geometry.source = .external ∧ State.reset.geometry.source = .internal
      ∧ { State.reset with clockPhase := 15 }.clockPhase < State.reset.geometry.divider.toNat + 1
      ∧ State.reset.geometry.divider.toNat + 1 ≤ State.reset.clockPhase := by decide +kernel

/-- O48, O49: a running and a stalled part in EXTERNAL mode, the fifteenth and the sixteenth edge, and INTERNAL mode. -/
theorem witness_48_external :
    (externalPart (.running (.bit 127))).resetAsserted = false
      ∧ (externalPart (.running (.bit 127))).geometry.source = .external
      ∧ (externalPart (.stalled .lost 3)).frame = .stalled .lost 3
      ∧ { externalPart (.stalled .lost 3) with recoveryCount := 14 }.recoveryCount < 15
      ∧ 15 ≤ { externalPart (.stalled .lost 3) with recoveryCount := 15 }.recoveryCount
      ∧ State.reset.geometry.source = .internal := by decide +kernel

/-- O50. -/
theorem witness_50_reset :
    { busy with resetAsserted := true }.resetAsserted = true ∧ busy.resetAsserted = false := by decide +kernel

/-- O51: a bit time of slot 1, which A drives. -/
theorem witness_51_den : busy.den .a = true ∧ busy.den .b = false := by decide +kernel

/-- O52. -/
theorem witness_52_frameSync :
    ({ State.reset with resetAsserted := true }.resetAsserted = true)
      ∧ (externalPart (.stalled .lost 3)).frame = .stalled .lost 3
      ∧ State.reset.frame = .running .leadInWait
      ∧ { State.reset with frame := .running (.bit 127) }.fsyncAsserted = true := by decide +kernel

/-- O53: the capture of slot 0, and a part that shifts it. -/
theorem witness_53_beacon :
    let s := { busy with frame := .running .leadIn }
    s.framesRun = true ∧ (after .bitTimeBegins s).frame = .running (.bit 0) ∧ (after .bitTimeBegins s).beacon.length * 8 = 16
      ∧ (after .bitTimeBegins s).geometry.width.bits = 16 := by decide +kernel

/-- O53: at a frame end as well, by either command. -/
theorem witness_53_frameEnd :
    let s := { busy with offers := [], frame := .running (.bit 255) }
    s.framesRun = true ∧ (after .frameEnd s).frame = .running (.bit 0)
      ∧ (after .bitTimeBegins s).frame = .running (.bit 0) ∧ (after .frameEnd s).beacon.length * 8 = 16 := by
  decide +kernel

/-- O53: that part holds the beacon as the part does. -/
theorem witness_53_beaconOk : (after .bitTimeBegins { busy with frame := .running .leadIn }).BeaconOk := by
  have h : (after .bitTimeBegins { busy with frame := .running .leadIn }).frame = .running (.bit 0) := by decide +kernel
  have hb : (after .bitTimeBegins { busy with frame := .running .leadIn }).beacon.length * 8
      = (after .bitTimeBegins { busy with frame := .running .leadIn }).geometry.width.bits := by decide +kernel
  simp only [State.BeaconOk, h]
  rw [if_pos (by decide +kernel)]
  exact hb

/-- O54 to O57, O59, O60: `busy` obeys the laws, and its steps are next states. -/
theorem witness_54_laws :
    busy.ScheduleOk ∧ busy.RequestsOk ∧ busy.EditsOk ∧ busy.NoticesOk ∧ busy.OfferIdsOk ∧ busy.EditIdsOk ∧ busy.TimingOk
      ∧ busy.BookkeepingOk :=
  ⟨busy_scheduleOk, State.requestsOk_of_check busy_lawful.2.1, State.editsOk_of_check busy_lawful.2.2.1,
    State.noticesOk_of_check busy_lawful.2.2.2.1, busy_offerIdsOk,
    State.editIdsOk_of_check busy_lawful.2.2.2.2.2.1, State.timingOk_of_check busy_lawful.2.2.2.2.2.2.1,
    State.bookkeepingOk_of_check busy_lawful.2.2.2.2.2.2.2⟩

/-- O54 to O57: with a command waiting the step is that command's. -/
theorem witness_54_step :
    ∃ t, step { busy with pending := [.frameEnd] } = .next t ∧ t = after .frameEnd busy := ⟨_, rfl, rfl⟩

/-- O56: in a bit time outside slot 0 no beacon word is held. -/
theorem witness_56_beaconOk : busy.BeaconOk := by
  have h : busy.frame = .running (.bit 20) := rfl
  simp only [State.BeaconOk, h]
  rw [if_neg (by decide +kernel)]
  rfl

end Sys2Proof.Tests
end

section
/-! SUPPORT. The proofs of the statements about reading the Slot Table and driving the bus from it: the
one-byte number fields, the read-outs of one entry, the fields of a map summary byte, and the drive enables. -/

namespace Sys2Proof.Machine

open Sys2Proof

/-! ### A payload of one number (R165) -/

@[simp] theorem byteOf_toNat (b : Byte) : byteOf b.toNat = b := BitVec.ofNat_toNat 8 b

/-- A one-byte number in range reads as itself. -/
theorem readRanged_byteOf {lo hi n : Nat} (hlo : lo ≤ n) (hhi : n ≤ hi) (hn : n < 256) :
    readRanged lo hi [byteOf n] = some n := by
  have hb : (byteOf n).toNat = n := by simpa [byteOf] using hn
  simp [readRanged, hb, hlo, hhi]

/-- A payload that is no one-byte number in range does not read. -/
theorem readRanged_eq_none {lo hi : Nat} {l : List Byte} (h : ∀ n, lo ≤ n → n ≤ hi → l ≠ [byteOf n]) :
    readRanged lo hi l = none := by
  unfold readRanged
  split
  · rename_i b
    refine if_neg fun hb => h b.toNat hb.1 hb.2 ?_
    rw [byteOf_toNat]
  · rfl

/-! ### READ_SLOT (R26, R167) -/

/-- The twelve bytes of an entry, state by state. -/
theorem entryBytes_eq_shown (e : Entry) : entryBytes e = e.shown := by cases e <;> rfl

/-- The Staged view adds the renewal. -/
theorem stagedBytes_eq_shown (e : Entry) : stagedBytes e = e.shown ++ e.shownRenewal := by
  rw [stagedBytes, entryBytes_eq_shown]
  cases e <;> rfl

/-- READ_SLOT, where it is taken, settles its judgement (R163). -/
theorem exec_readSlot_of_takes {s : State} {p : Port} {l : List Byte} (ht : s.takes p .readSlot l = true) :
    exec (.readSlot p l) s = .next ((s.deselect p).settle p (judgeReadSlot l (s.deselect p))) :=
  congrArg Host.Outcome.next (s.takeRequest_of_takes p .readSlot l _ ht)

theorem exec_readSlot_of_some {s : State} {p : Port} {l : List Byte} {n : Nat} (ht : s.takes p .readSlot l = true)
    (hn : readRanged 0 (s.slots - 1) l = some n) :
    exec (.readSlot p l) s = .next
      (s.answered p .ok ([byteOf n, s.generation] ++ (entryAt s.active n).shown ++ (entryAt s.staged n).shown
        ++ (entryAt s.staged n).shownRenewal)) := by
  have hd : readRanged 0 ((s.deselect p).slots - 1) l = some n := hn
  simp [exec_readSlot_of_takes ht, judgeReadSlot, hd, entryBytes_eq_shown, stagedBytes_eq_shown,
    State.reply_deselect]

theorem exec_readSlot_of_none {s : State} {p : Port} {l : List Byte} (ht : s.takes p .readSlot l = true)
    (hn : readRanged 0 (s.slots - 1) l = none) :
    exec (.readSlot p l) s = .next (s.answered p .badField []) := by
  have hd : readRanged 0 ((s.deselect p).slots - 1) l = none := hn
  simp [exec_readSlot_of_takes ht, judgeReadSlot, hd]

/-! ### READ_MAP (R27, R167) -/

/-- The driver field of a map summary byte: the driver's place among the ports, 0 where nobody drives. -/
def Entry.driverField (e : Entry) : BitVec 2 :=
  match e.drivenBy with
  | some .b => 1
  | some .c => 2
  | some .d => 3
  | some .a | none => 0

/-- The member field of a map summary byte: the members of a SHARED entry less one. -/
def Entry.memberField (e : Entry) : BitVec 2 :=
  if e.isShared then BitVec.ofNat 2 (e.parties.length - 1) else 0

/-- The four fields of a map summary byte, each at its place. -/
def summaryByte (code : BitVec 3) (driver members : BitVec 2) (own : Bool) : Byte :=
  code.setWidth 8 ||| driver.setWidth 8 <<< 3 ||| members.setWidth 8 <<< 5 ||| bitAt 7 own

theorem bitAt_seven_getLsbD (own : Bool) {i : Nat} (hi : i < 8) : (bitAt 7 own).getLsbD i = (own && i == 7) := by
  cases own <;> interval_cases i <;> rfl

/-- The bits of a map summary byte, from its fields. -/
theorem summaryByte_getLsbD (code : BitVec 3) (driver members : BitVec 2) (own : Bool) {i : Nat} (hi : i < 8) :
    (summaryByte code driver members own).getLsbD i =
      if i < 3 then code.getLsbD i
      else if i < 5 then driver.getLsbD (i - 3)
      else if i < 7 then members.getLsbD (i - 5)
      else own := by
  simp only [summaryByte, BitVec.getLsbD_or, BitVec.getLsbD_shiftLeft, BitVec.getLsbD_setWidth,
    bitAt_seven_getLsbD own hi]
  interval_cases i <;> simp

theorem Entry.stateCode_eq_setWidth (e : Entry) : e.stateCode = (e.stateCode.extractLsb' 0 3).setWidth 8 := by
  cases e <;> rfl

theorem Entry.driverField_setWidth (e : Entry) :
    (e.drivenBy.elim 0 fun q => (portCode q - 1) <<< 3 : Byte) = e.driverField.setWidth 8 <<< 3 := by
  unfold Entry.driverField
  rcases e.drivenBy with _ | _ | _ | _ | _ <;> rfl

theorem Entry.memberField_toNat {e : Entry} (h : e.Ok) :
    e.memberField.toNat = if e.isShared then e.parties.length - 1 else 0 := by
  cases e with
  | shared ms dr x =>
    have h4 : ms.length ≤ 4 := h.2.1
    simp [Entry.memberField, Entry.isShared, Entry.parties]
    omega
  | _ => rfl

theorem Entry.memberField_setWidth {e : Entry} (h : e.Ok) :
    (if e.isShared then (byteOf e.parties.length - 1) <<< 5 else 0 : Byte) = e.memberField.setWidth 8 <<< 5 := by
  cases e with
  | shared ms dr x =>
    obtain ⟨h2, h4, -⟩ := h
    change (byteOf ms.length - 1) <<< 5 = (BitVec.ofNat 2 (ms.length - 1)).setWidth 8 <<< 5
    unfold byteOf
    interval_cases ms.length <;> rfl
  | _ => rfl

/-- A map summary byte shows the state, the driver, the members and whether the port is among them. -/
theorem mapByte_eq_summaryByte (p : Port) {e : Entry} (h : e.Ok) :
    mapByte p e = summaryByte (e.stateCode.extractLsb' 0 3) e.driverField e.memberField (e.names p) := by
  rw [summaryByte, ← e.stateCode_eq_setWidth, ← e.driverField_setWidth, ← Entry.memberField_setWidth h]
  unfold mapByte
  cases e.drivenBy <;> rfl

theorem mapByte_state (p : Port) {e : Entry} (h : e.Ok) :
    (mapByte p e).extractLsb' 0 3 = e.stateCode.extractLsb' 0 3 := by
  rw [mapByte_eq_summaryByte p h]
  refine BitVec.eq_of_getLsbD_eq fun i hi => ?_
  rw [BitVec.getLsbD_extractLsb', summaryByte_getLsbD _ _ _ _ (by omega), if_pos (by omega)]
  simp [hi]

theorem mapByte_driver (p : Port) {e : Entry} (h : e.Ok) : (mapByte p e).extractLsb' 3 2 = e.driverField := by
  rw [mapByte_eq_summaryByte p h]
  refine BitVec.eq_of_getLsbD_eq fun i hi => ?_
  rw [BitVec.getLsbD_extractLsb', summaryByte_getLsbD _ _ _ _ (by omega), if_neg (by omega), if_pos (by omega)]
  simp [hi]

theorem mapByte_members (p : Port) {e : Entry} (h : e.Ok) : (mapByte p e).extractLsb' 5 2 = e.memberField := by
  rw [mapByte_eq_summaryByte p h]
  refine BitVec.eq_of_getLsbD_eq fun i hi => ?_
  rw [BitVec.getLsbD_extractLsb', summaryByte_getLsbD _ _ _ _ (by omega), if_neg (by omega), if_neg (by omega),
    if_pos (by omega)]
  simp [hi]

theorem mapByte_own (p : Port) {e : Entry} (h : e.Ok) : (mapByte p e).getLsbD 7 = e.names p := by
  rw [mapByte_eq_summaryByte p h, summaryByte_getLsbD _ _ _ _ (by decide)]
  rfl

/-- Every entry of a table that obeys R2 and R6 obeys R2. -/
theorem Table.Ok.entryAt_ok {t : Table} (h : Table.Ok t) (n : Nat) : (entryAt t n).Ok := by
  obtain ⟨h0, hs⟩ := h
  rcases Nat.eq_zero_or_pos n with rfl | h1
  · rw [h0]; trivial
  rcases Nat.lt_or_ge n 64 with hn | hn
  · exact (hs n hn h1).2
  · rw [entryAt_of_le t hn]; trivial

/-- The summary of the first `k` slots of a table. -/
def mapSummary (p : Port) (t : Table) (k : Nat) : List Byte := (t.toList.take k).map (mapByte p)

theorem mapSummary_length (p : Port) (t : Table) {k : Nat} (hk : k ≤ 64) : (mapSummary p t k).length = k := by
  simpa [mapSummary] using hk

/-- Byte `n` of a summary is that of the entry at position `n`. -/
theorem mapSummary_getElem? {p : Port} {t : Table} {k n : Nat} {b : Byte} (hk : k ≤ 64)
    (h : (mapSummary p t k)[n]? = some b) : n < 64 ∧ b = mapByte p (entryAt t n) := by
  obtain ⟨hn, rfl⟩ := List.getElem?_eq_some_iff.1 h
  rw [mapSummary_length p t hk] at hn
  have h64 : n < 64 := by omega
  exact ⟨h64, by simp [mapSummary, entryAt, h64]⟩

/-- READ_MAP, where it is taken, settles its judgement (R163). -/
theorem exec_readMap_of_takes {s : State} {p : Port} {l : List Byte} (ht : s.takes p .readMap l = true) :
    exec (.readMap p l) s = .next ((s.deselect p).settle p (judgeReadMap p l (s.deselect p))) :=
  congrArg Host.Outcome.next (s.takeRequest_of_takes p .readMap l _ ht)

theorem exec_readMap_of_some {s : State} {p : Port} {l : List Byte} {v : Nat} (ht : s.takes p .readMap l = true)
    (hv : readRanged 0 1 l = some v) :
    exec (.readMap p l) s = .next
      (s.answered p .ok ([byteOf v, byteOf s.slots, s.generation]
        ++ mapSummary p (if v = 0 then s.active else s.staged) s.slots)) := by
  simp [exec_readMap_of_takes ht, judgeReadMap, hv, mapSummary, State.slots, State.reply_deselect]

theorem exec_readMap_of_none {s : State} {p : Port} {l : List Byte} (ht : s.takes p .readMap l = true)
    (hv : readRanged 0 1 l = none) : exec (.readMap p l) s = .next (s.answered p .badField []) := by
  simp [exec_readMap_of_takes ht, judgeReadMap, hv]

/-- The Staged table names no DETACHED port (R14). -/
theorem State.RosterOk.names_eq_false {s : State} (h : s.RosterOk) {p : Port} (hp : (s.port p).attachment = none)
    {n : Nat} (hn : n < 64) : (entryAt s.staged n).names p = false := by
  have hd : s.attached p = false := by simp [State.attached, hp]
  rw [Bool.eq_false_iff, ne_eq, Entry.names_iff]
  intro hm
  simp [h.1 n hn p hm] at hd

/-! ### The drive enables (R24) -/

/-- The port that drives an entry is its HELD holder or its SHARED driver. -/
theorem Entry.drivenBy_eq_some_iff {e : Entry} {p : Port} :
    e.drivenBy = some p ↔ (∃ h, e = .held p h) ∨ ∃ ms h, e = .shared ms p h := by
  cases e <;> simp [Entry.drivenBy]

/-- When the drive enable of a port is asserted. -/
theorem State.den_iff {s : State} {p : Port} :
    s.den p = true ↔
      s.resetAsserted = false ∧ ∃ k, s.frame = .running (.bit k)
        ∧ 1 ≤ k / s.geometry.width.bits ∧ k / s.geometry.width.bits < s.geometry.slots
        ∧ (entryAt s.active (k / s.geometry.width.bits)).drivenBy = some p
        ∧ (s.port p).attachment ≠ none ∧ s.driveCut.get p = false := by
  cases hf : s.frame with
  | stalled cause k => simp [State.den, hf]
  | running pos =>
    cases pos with
    | leadInWait => simp [State.den, hf]
    | leadIn => simp [State.den, hf]
    | bit k => simp [State.den, State.slotIndex, State.attached, hf, Option.isSome_iff_ne_none, and_assoc]

/-! ### The statements (R24, R26, R27) -/

/-- Settles O12: the judgement answers from the state at the rise of CSn, and each read-out is that of the entry. -/
theorem readSlotShowsBothViews : Obligations.ReadSlotShowsBothViews := by
  intro s p l ⟨hS, hS', _⟩ ht
  have hlast : ∀ n, n < s.plan.terms.geometry.slots → n ≤ s.slots - 1 := fun n hn => Nat.le_sub_one_of_lt hn
  refine ⟨?_, ?_, ?_⟩
  · rintro n rfl hn
    exact exec_readSlot_of_some ht (readRanged_byteOf (Nat.zero_le n) (hlast n hn) (by omega))
  · rintro ⟨hactive, _⟩ ⟨hstaged, _⟩ rfl
    rw [exec_readSlot_of_some ht (readRanged_byteOf (n := 0) le_rfl (Nat.zero_le _) (by decide)), hactive, hstaged]
    rfl
  · intro hl
    refine exec_readSlot_of_none ht (readRanged_eq_none fun n _ hn => hl n ?_)
    have : n ≤ s.plan.terms.geometry.slots - 1 := hn
    omega

/-- Settles O13: a summary byte is its four fields side by side, and R14 clears the own-slot flag of a DETACHED port. -/
theorem readMapSummarisesAView : Obligations.ReadMapSummarisesAView := by
  intro s p l ⟨_, hS, _⟩ hactive hstaged ht
  refine ⟨?_, ?_⟩
  · rintro v view hv rfl
    have hview : Table.Ok view ∧ readRanged 0 1 [v] = some v.toNat
        ∧ (if v.toNat = 0 then s.active else s.staged) = view ∧ (v = 1 → view = s.staged) := by
      obtain ⟨rfl, rfl⟩ | ⟨rfl, rfl⟩ := hv
      · exact ⟨hactive, rfl, rfl, fun h => absurd h (by decide)⟩
      · exact ⟨hstaged, rfl, rfl, fun _ => rfl⟩
    obtain ⟨hok, hread, hpick, hone⟩ := hview
    refine ⟨mapSummary p view s.slots, ?_, mapSummary_length p view hS, ?_⟩
    · rw [exec_readMap_of_some ht hread, hpick, byteOf_toNat]
      rfl
    · intro n b hb
      obtain ⟨hn, rfl⟩ := mapSummary_getElem? hS hb
      have he := hok.entryAt_ok n
      refine ⟨mapByte_state p he, mapByte_driver p he, ?_, ?_, ?_⟩
      · rw [mapByte_members p he, Entry.memberField_toNat he]
      · rw [mapByte_own p he, Entry.names_iff]
      · rintro ⟨_, _, _, _, _, hroster, _⟩ hp hv1
        rw [mapByte_own p he, hone hv1]
        exact hroster.names_eq_false hp hn
  · intro h0 h1
    refine exec_readMap_of_none ht (readRanged_eq_none fun n _ hn => ?_)
    obtain rfl | rfl := Nat.le_one_iff_eq_zero_or_eq_one.1 hn
    · exact h0
    · exact h1

/-- Settles O51: an entry has one driver, so two asserted drive enables are the same one. -/
theorem driveEnablesFollowTheActiveTable : Obligations.DriveEnablesFollowTheActiveTable := by
  intro s p q
  refine ⟨?_, ?_⟩
  · simp only [State.den_iff, Entry.drivenBy_eq_some_iff]
  · rw [State.den_iff, State.den_iff]
    rintro ⟨_, k, hk, _, _, hp, _⟩ ⟨_, j, hj, _, _, hq, _⟩
    obtain rfl : k = j := by simpa [hk] using hj
    exact Option.some.inj (hp.symm.trans hq)

end Sys2Proof.Machine
end

section
/-! SUPPORT. The proofs of the statements about a port's own lists and the renewal of its slots: a request that an
ATTACHED port alone is served, the pages of HOLDINGS, READ_REQUESTS and READ_EDITS, and what RENEW picks and sets. -/

namespace Sys2Proof.Machine

open Sys2Proof

/-! ### A request that an ATTACHED port alone is served (R156, R163)

The three ends of a judgement that checks the port and then reads the fields of the payload. -/

theorem State.takeRequest_of_detached {α : Type} {s : State} {p : Port} {r : RequestCode} {l : List Byte}
    (fields : State → Option α) (k : State → α → Answer) (ht : s.takes p r l = true)
    (hp : (s.port p).attachment = none) :
    s.takeRequest p r l (fun u => u.whenAttached p (withFields (fields u) (k u))) = s.answered p .notAttached [] := by
  have hd : (s.deselect p).attached p = false := by rw [State.attached_deselect, State.attached, hp]; rfl
  rw [s.takeRequest_of_takes p r l _ ht, State.whenAttached_of_detached _ _ _ hd, State.settle_refuseWith]

theorem State.takeRequest_of_attached {α : Type} {s : State} {p : Port} {r : RequestCode} {l : List Byte}
    (fields : State → Option α) (k : State → α → Answer) (ht : s.takes p r l = true)
    (hp : (s.port p).attachment ≠ none) :
    s.takeRequest p r l (fun u => u.whenAttached p (withFields (fields u) (k u)))
      = (s.deselect p).settle p (withFields (fields (s.deselect p)) (k (s.deselect p))) := by
  have ha : (s.deselect p).attached p = true := by
    rwa [State.attached_deselect, State.attached, Option.isSome_iff_ne_none]
  rw [s.takeRequest_of_takes p r l _ ht, State.whenAttached_of_attached _ _ _ ha]

/-! ### A page of an own list (R62, R82, R116) -/

/-- The reply body of a page of at most `len` items of `own` from place `start`: the length of the whole list, the start,
the number of items, and the items. -/
def pageBody {α : Type} (own : List α) (len : Nat) (item : α → List Byte) (start : Nat) : List Byte :=
  [byteOf own.length, byteOf start, byteOf ((own.drop start).take len).length]
    ++ ((own.drop start).take len).flatMap item

theorem pageBody_map {α β : Type} (f : α → β) (own : List α) (len : Nat) (item : β → List Byte) (start : Nat) :
    pageBody (own.map f) len item start = pageBody own len (fun x => item (f x)) start := by
  simp [pageBody, ← List.map_drop, ← List.map_take, List.flatMap_map]

/-- A page shows items of the list alone. -/
theorem pageBody_congr {α : Type} {own : List α} {item item' : α → List Byte} (h : ∀ x ∈ own, item x = item' x)
    (len start : Nat) : pageBody own len item start = pageBody own len item' start := by
  unfold pageBody
  rw [List.flatMap_congr fun x hx => h x (List.mem_of_mem_drop (List.mem_of_mem_take hx))]

/-- The judgement of a request for a page: `own` is the list, and `last` the last start that the field can name. -/
def judgePage {α : Type} (p : Port) (l : List Byte) (last len : Nat) (own : State → List α)
    (item : State → α → List Byte) (s : State) : Answer :=
  s.whenAttached p <| withFields (readRanged 0 last l) fun start => .ok s (pageBody (own s) len (item s) start)

/-- The ends of a request for a page: the port is DETACHED, the start is in range, or it is not. -/
theorem exec_of_judgePage {α : Type} {c : Instr} {s : State} {p : Port} {r : RequestCode} {l : List Byte}
    {judge : State → Answer} {last len : Nat} {own : State → List α} {item : State → α → List Byte}
    {body : Nat → List Byte} (hexec : exec c s = .next (s.takeRequest p r l judge))
    (hjudge : judge = judgePage p l last len own item) (hlast : last < 256) (ht : s.takes p r l = true)
    (hbody : ∀ start, pageBody (own (s.deselect p)) len (item (s.deselect p)) start = body start) :
    ((s.port p).attachment = none → exec c s = .next (s.answered p .notAttached []))
    ∧ ((s.port p).attachment ≠ none → ∀ start, start ≤ last → l = [byteOf start] →
        exec c s = .next (s.answered p .ok (body start)))
    ∧ ((s.port p).attachment ≠ none → (∀ start, start ≤ last → l ≠ [byteOf start]) →
        exec c s = .next (s.answered p .badField [])) := by
  rw [hexec, hjudge]
  refine ⟨?_, ?_, ?_⟩
  · exact fun hp => congrArg _ (State.takeRequest_of_detached (fun _ => readRanged 0 last l) _ ht hp)
  · rintro hp start hstart rfl
    refine congrArg _ ((State.takeRequest_of_attached (fun _ => readRanged 0 last _) _ ht hp).trans ?_)
    rw [readRanged_byteOf (Nat.zero_le _) hstart (by omega), withFields_some, State.settle_ok,
      State.reply_deselect, hbody]
  · intro hp hl
    refine congrArg _ ((State.takeRequest_of_attached (fun _ => readRanged 0 last _) _ ht hp).trans ?_)
    rw [readRanged_eq_none fun start _ => hl start, withFields_none, State.settle_refuseWith]

/-! ### HOLDINGS (R62) -/

/-- The holding count is the number of the own slots (R15). -/
theorem State.holdingCount_eq_length (s : State) (p : Port) : s.holdingCount p = (s.ownSlots p).length := by
  have htable : s.staged.toList = slotNumbers.map (entryAt s.staged) := by
    apply List.ext_getElem
    · simp [slotNumbers]
    · intro n hn _
      have h64 : n < 64 := by simpa using hn
      simp [slotNumbers, entryAt, h64]
  rw [State.holdingCount, htable, List.countP_map, List.countP_eq_length_filter]
  rfl

/-- The four bytes of HOLDINGS for the entry at slot `n`, state by state (R167). -/
def Entry.shownHolding (n : Nat) : Entry → List Byte
  | .held _ h => [byteOf n, h.tag] ++ halfBytes h.lease
  | .shared ms _ h => [byteOf n ||| (byteOf ms.length - 1) <<< 6, h.tag] ++ halfBytes h.lease
  | .beacon | .free | .cooling => []

theorem holdingBytes_eq_shownHolding {s : State} {p : Port} {n : Nat} (h : (entryAt s.staged n).names p = true) :
    holdingBytes s n = (entryAt s.staged n).shownHolding n := by
  unfold holdingBytes
  cases he : entryAt s.staged n with
  | held q x => simp [Entry.shownHolding, Entry.isShared, Entry.tag, Entry.holding?]
  | shared ms dr x => simp [Entry.shownHolding, Entry.isShared, Entry.parties, Entry.tag, Entry.holding?]
  | beacon => simp [he, Entry.names, Entry.parties] at h
  | free => simp [he, Entry.names, Entry.parties] at h
  | cooling => simp [he, Entry.names, Entry.parties] at h

theorem judgeHoldings_eq_judgePage (p : Port) (l : List Byte) :
    judgeHoldings p l = judgePage p l 62 16 (·.ownSlots p) holdingBytes := by
  funext s
  rw [judgeHoldings, State.holdingCount_eq_length]
  rfl

/-- Every own slot has a holding to show. -/
theorem State.pageBody_ownSlots (s : State) (p : Port) (start : Nat) :
    pageBody (s.ownSlots p) 16 (holdingBytes s) start
      = pageBody (s.ownSlots p) 16 (fun n => (entryAt s.staged n).shownHolding n) start :=
  pageBody_congr (fun _ hn => holdingBytes_eq_shownHolding (List.mem_filter.1 hn).2) 16 start

/-! ### READ_REQUESTS (R82) -/

/-- Positions counted from 1 are the places in the list plus 1. -/
theorem filter_zipIdx_one {α : Type} (l : List α) (own : α → Bool) :
    ((l.zipIdx 1).filter (fun x => own x.1)).map (fun x => (x.2, x.1))
      = (l.zipIdx.filter (fun x => own x.1)).map (fun x => (x.2 + 1, x.1)) := by
  rw [List.zipIdx_succ, List.filter_map, List.map_map]
  rfl

theorem countP_eq_length_filter_zipIdx {α : Type} (l : List α) (own : α → Bool) (first : Nat) :
    l.countP own = ((l.zipIdx first).filter (fun x => own x.1)).length := by
  conv_lhs => rw [← List.zipIdx_map_fst first l]
  rw [List.countP_map, List.countP_eq_length_filter]
  rfl

theorem State.pendingCount_eq_length (s : State) (p : Port) : s.pendingCount p = (s.ownRecords p).length := by
  rw [State.ownRecords, List.length_map]
  exact countP_eq_length_filter_zipIdx s.requests (fun r => r.port == p) 1

theorem judgeReadRequests_eq_judgePage (p : Port) (l : List Byte) :
    judgeReadRequests p l = judgePage p l 5 4 (·.ownRecords p) (fun _ x => recordBytes x.1 x.2) := by
  funext s
  rw [judgeReadRequests, State.pendingCount_eq_length]
  rfl

theorem State.pageBody_ownRecords (s : State) (p : Port) (start : Nat) :
    pageBody (s.ownRecords p) 4 (fun x => recordBytes x.1 x.2) start
      = pageBody (s.requests.zipIdx.filter (fun x => x.1.port == p)) 4 (fun x => recordBytes (x.2 + 1) x.1) start := by
  rw [State.ownRecords, filter_zipIdx_one s.requests (fun r => r.port == p), pageBody_map]

/-! ### READ_EDITS (R116) -/

theorem State.editCount_eq_length (s : State) (p : Port) : s.editCount p = (s.ownEdits p).length := by
  rw [State.ownEdits, List.length_map]
  exact countP_eq_length_filter_zipIdx s.edits (fun e => e.issuer == p) 1

theorem judgeReadEdits_eq_judgePage (p : Port) (l : List Byte) :
    judgeReadEdits p l = judgePage p l 23 3 (·.ownEdits p) (fun _ x => editBytes x.1 x.2) := by
  funext s
  rw [judgeReadEdits, State.editCount_eq_length]
  rfl

/-- The seventeen bytes in which READ_EDITS shows an action, 0 for what it does not carry (R116, R167). -/
def TimedAction.shown : TimedAction → List Byte
  | .release n => [0, byteOf n] ++ List.replicate 15 0
  | .renew n l => [1, byteOf n] ++ halfBytes l ++ List.replicate 13 0
  | .enqueue r =>
    [2, 0] ++ halfBytes r.lease ++ [r.tag, r.placement.code, byteOf r.count] ++ halfBytes (BitVec.ofNat 16 r.wait)
      ++ slotListBytes r.placement

theorem editBytes_eq_shown (position : Nat) (e : Edit) :
    editBytes position e = [e.id, byteOf position] ++ wordBytes e.activation ++ e.action.shown := by
  unfold editBytes
  cases e.action <;> rfl

theorem State.pageBody_ownEdits (s : State) (p : Port) (start : Nat) :
    pageBody (s.ownEdits p) 3 (fun x => editBytes x.1 x.2) start
      = pageBody (s.edits.zipIdx.filter (fun x => x.1.issuer == p)) 3
          (fun x => [x.1.id, byteOf (x.2 + 1)] ++ wordBytes x.1.activation ++ x.1.action.shown) start := by
  rw [State.ownEdits, filter_zipIdx_one s.edits (fun e => e.issuer == p), pageBody_map]
  simp only [editBytes_eq_shown]

/-! ### The payload and the choice of RENEW (R50, R51) -/

theorem halfOf_halfBytes (x : Half) : halfOf (x.extractLsb' 8 8) (x.extractLsb' 0 8) = x := by
  rw [halfOf, BitVec.extractLsb'_append_extractLsb'_eq_extractLsb' (Nat.zero_add 8).symm]
  exact BitVec.extractLsb'_eq_self

theorem halfBytes_halfOf (hi lo : Byte) : halfBytes (halfOf hi lo) = [hi, lo] := by
  rw [halfBytes, halfOf, BitVec.extractLsb'_append_eq_right, BitVec.extractLsb'_append_eq_left]

theorem byteOf_toNat_of_lt {n : Nat} (h : n < 256) : (byteOf n).toNat = n := by simpa [byteOf] using h

/-- A selector reads exactly its two bytes, when its value is in range. -/
theorem readSelector_eq_some_iff {slots : Nat} (hS : slots ≤ 64) {b v : Byte} {sel : Selector} :
    readSelector slots b v = some sel ↔ sel.InRange slots ∧ sel.bytes = [b, v] := by
  constructor
  · intro h
    unfold readSelector at h
    split at h
    · subst b
      obtain ⟨⟨h1, hlt⟩, hsel⟩ := Option.ite_none_right_eq_some.1 h
      cases hsel
      exact ⟨⟨h1, hlt, by omega⟩, by rw [Selector.bytes, byteOf_toNat]⟩
    · obtain ⟨rfl, h⟩ := Option.ite_none_right_eq_some.1 h
      obtain ⟨hv, rfl⟩ : v ≠ 0 ∧ Selector.tag v = sel := by simpa using h
      exact ⟨hv, rfl⟩
  · rintro ⟨hrange, hbytes⟩
    cases sel with
    | slot n =>
      obtain ⟨h1, hlt, h64⟩ := hrange
      cases hbytes
      simp [readSelector, byteOf_toNat_of_lt (show n < 256 by omega), h1, hlt]
    | tag t =>
      cases hbytes
      exact if_pos hrange

/-- RENEW reads exactly a selector in range and a lease that is not 0. -/
theorem readRenew_eq_some_iff {slots : Nat} (hS : slots ≤ 64) {l : List Byte} {sel : Selector} {lease : Half} :
    readRenew slots l = some (sel, lease) ↔ sel.InRange slots ∧ lease ≠ 0 ∧ l = sel.bytes ++ halfBytes lease := by
  constructor
  · intro h
    unfold readRenew at h
    split at h
    · obtain ⟨hlease, h⟩ := Option.ite_none_left_eq_some.1 h
      obtain ⟨x, hx, hpair⟩ := Option.map_eq_some_iff.1 h
      cases hpair
      obtain ⟨hrange, hbytes⟩ := (readSelector_eq_some_iff hS).1 hx
      exact ⟨hrange, hlease, by rw [hbytes, halfBytes_halfOf]; rfl⟩
    · cases h
  · rintro ⟨hrange, hlease, rfl⟩
    obtain ⟨b, v, hbytes⟩ : ∃ b v, sel.bytes = [b, v] := by cases sel <;> exact ⟨_, _, rfl⟩
    have hsel : readSelector slots b v = some sel := (readSelector_eq_some_iff hS).2 ⟨hrange, hbytes⟩
    simpa [hbytes, halfBytes, readRenew, halfOf_halfBytes, hsel] using hlease

/-- The qualifying entries are those that the selector picks, in ascending order. -/
theorem State.qualifying_eq_filter (s : State) (p : Port) {slots : Nat} {sel : Selector} (h : sel.InRange slots) :
    s.qualifying p sel = (List.range 64).filter (fun n => sel.picks p n (entryAt s.staged n)) := by
  cases sel with
  | slot m =>
    have hone : (List.range 64).filter (fun n => n == m) = [m] := by
      rw [List.filter_beq, List.count_eq_one_of_mem List.nodup_range (List.mem_range.2 h.2.2)]
      rfl
    have hpick : (fun n => (Selector.slot m).picks p n (entryAt s.staged n))
        = fun n => (entryAt s.staged n).names p && n == m := funext fun n => Bool.and_comm _ _
    rw [hpick, ← List.filter_filter, hone, State.qualifying, List.filter_singleton, cond_eq_ite]
  | tag t =>
    have hpick : (fun n => (Selector.tag t).picks p n (entryAt s.staged n))
        = fun n => (entryAt s.staged n).tag == t && (entryAt s.staged n).names p :=
      funext fun n => Bool.and_comm _ _
    rw [hpick, ← List.filter_filter]
    rfl

/-! ### The effect of RENEW (R50) -/

/-- A pending renewal changes nothing but the Staged table. -/
theorem State.setRenewal_frame (s : State) (l : Half) (n : Nat) :
    { s.setRenewal l n with staged := s.staged } = s := by
  unfold State.setRenewal
  dsimp only
  split <;> rfl

theorem State.foldl_setRenewal_frame (s : State) (l : Half) (ns : List Nat) :
    { ns.foldl (fun s n => s.setRenewal l n) s with staged := s.staged } = s := by
  induction ns generalizing s with
  | nil => rfl
  | cons n ns ih =>
    have hrest := congrArg (fun u => ({ u with staged := s.staged } : State)) (ih (s.setRenewal l n))
    exact hrest.trans (s.setRenewal_frame l n)

/-- The state after RENEW has set the renewals of `ns` and answered (R50, R154). -/
def State.afterRenew (s : State) (p : Port) (lease : Half) (ns : List Nat) (body : List Byte) : State :=
  (ns.foldl (fun u n => u.setRenewal lease n) (s.deselect p)).reply p .ok body

theorem State.afterRenew_frame (s : State) (p : Port) (lease : Half) (ns : List Nat) (body : List Byte) :
    { s.afterRenew p lease ns body with staged := s.staged, ports := s.ports } = s :=
  congrArg (fun u => ({ u with ports := s.ports } : State)) ((s.deselect p).foldl_setRenewal_frame lease ns)

theorem State.afterRenew_ports (s : State) (p : Port) (lease : Half) (ns : List Nat) (body : List Byte) :
    (s.afterRenew p lease ns body).ports = s.ports.set p ((s.port p).answered .ok body) := by
  have hports : (ns.foldl (fun u n => u.setRenewal lease n) (s.deselect p)).ports = (s.deselect p).ports := by simp
  calc (s.afterRenew p lease ns body).ports
      = ((s.deselect p).reply p .ok body).ports := by
        simp only [State.afterRenew, State.reply, State.setPort, State.port, hports]
    _ = s.ports.set p ((s.port p).answered .ok body) := by rw [State.reply_deselect]; rfl

theorem State.entryAt_afterRenew (s : State) (p : Port) (lease : Half) {ns : List Nat} (body : List Byte)
    (hns : ns.Nodup) {n : Nat} (hn : n < 64) :
    entryAt (s.afterRenew p lease ns body).staged n =
      if n ∈ ns then (entryAt s.staged n).renewed lease else entryAt s.staged n := by
  simp [State.afterRenew, State.entryAt_foldl_setRenewal _ _ hns, hn]

/-! ### The outcomes of RENEW (R50, R163) -/

/-- RENEW of a DETACHED port is refused (R156). -/
theorem exec_renew_of_detached {s : State} {p : Port} {l : List Byte} (ht : s.takes p .renew l = true)
    (hp : (s.port p).attachment = none) : exec (.renew p l) s = .next (s.answered p .notAttached []) :=
  congrArg Host.Outcome.next (State.takeRequest_of_detached (fun u => readRenew u.slots l) _ ht hp)

theorem exec_renew_of_none {s : State} {p : Port} {l : List Byte} (ht : s.takes p .renew l = true)
    (hp : (s.port p).attachment ≠ none) (hread : readRenew s.slots l = none) :
    exec (.renew p l) s = .next (s.answered p .badField []) := by
  have hreadD : readRenew (s.deselect p).slots l = none := hread
  refine congrArg Host.Outcome.next
    ((State.takeRequest_of_attached (fun u => readRenew u.slots l) _ ht hp).trans ?_)
  rw [hreadD, withFields_none, State.settle_refuseWith]

theorem exec_renew_of_nil {s : State} {p : Port} {l : List Byte} {sel : Selector} {lease : Half}
    (ht : s.takes p .renew l = true) (hp : (s.port p).attachment ≠ none)
    (hread : readRenew s.slots l = some (sel, lease)) (hq : s.qualifying p sel = []) :
    exec (.renew p l) s = .next (s.answered p .notHolder []) := by
  have hreadD : readRenew (s.deselect p).slots l = some (sel, lease) := hread
  have hqD : (s.deselect p).qualifying p sel = [] := hq
  refine congrArg Host.Outcome.next
    ((State.takeRequest_of_attached (fun u => readRenew u.slots l) _ ht hp).trans ?_)
  simp only [hreadD, withFields_some, hqD, State.settle_refuseWith]

theorem exec_renew_of_cons {s : State} {p : Port} {l : List Byte} {sel : Selector} {lease : Half} {n : Nat}
    {ns : List Nat} (ht : s.takes p .renew l = true) (hp : (s.port p).attachment ≠ none)
    (hread : readRenew s.slots l = some (sel, lease)) (hq : s.qualifying p sel = n :: ns) :
    exec (.renew p l) s = .next (s.afterRenew p lease (n :: ns) [byteOf (n :: ns).length, byteOf n]) := by
  have hreadD : readRenew (s.deselect p).slots l = some (sel, lease) := hread
  have hqD : (s.deselect p).qualifying p sel = n :: ns := hq
  refine congrArg Host.Outcome.next
    ((State.takeRequest_of_attached (fun u => readRenew u.slots l) _ ht hp).trans ?_)
  simp only [hreadD, withFields_some, hqD, State.settle_ok, State.afterRenew]

/-! ### The statements (R50, R62, R82, R116) -/

/-- Settles O14: each of the three requests answers a page of the port's own list. -/
theorem ownListsArePaged : Obligations.OwnListsArePaged := by
  refine ⟨?_, ?_, ?_⟩ <;> intro s p l ht
  · exact exec_of_judgePage (c := .holdings p l) rfl (judgeHoldings_eq_judgePage p l) (by decide) ht
      (s.pageBody_ownSlots p)
  · exact exec_of_judgePage (c := .readRequests p l) rfl (judgeReadRequests_eq_judgePage p l) (by decide) ht
      (s.pageBody_ownRecords p)
  · exact exec_of_judgePage (c := .readEdits p l) rfl (judgeReadEdits_eq_judgePage p l) (by decide) ht
      (s.pageBody_ownEdits p)

/-- Settles O16: the payload reads as its selector and lease, the selector picks the qualifying entries in ascending
order, and the effect is the fold of the renewals over them. -/
theorem renewSetsThePendingRenewal : Obligations.RenewSetsThePendingRenewal := by
  intro s p payload ⟨_, hS, _⟩ ht
  refine ⟨exec_renew_of_detached ht, fun hp => ⟨?_, ?_⟩⟩
  · intro sel lease hrange hlease hpayload picked
    have hread : readRenew s.slots payload = some (sel, lease) :=
      (readRenew_eq_some_iff hS).2 ⟨hrange, hlease, hpayload⟩
    have hpicked : s.qualifying p sel = picked := s.qualifying_eq_filter p hrange
    have hnodup : picked.Nodup := List.nodup_range.filter _
    refine ⟨fun hempty => exec_renew_of_nil ht hp hread (hpicked.trans hempty), fun lowest rest hcons => ?_⟩
    have hexec := exec_renew_of_cons ht hp hread (hpicked.trans hcons)
    rw [← hcons] at hexec
    exact ⟨_, hexec, s.afterRenew_frame p lease picked _, s.afterRenew_ports p lease picked _,
      fun n hn => s.entryAt_afterRenew p lease _ hnodup hn⟩
  · intro hbad
    refine exec_renew_of_none ht hp (Option.eq_none_iff_forall_ne_some.2 fun ⟨sel, lease⟩ hread => ?_)
    obtain ⟨hrange, hlease, hpayload⟩ := (readRenew_eq_some_iff hS).1 hread
    exact hbad sel lease hrange hlease hpayload

end Sys2Proof.Machine
end

section
/-! SUPPORT. The proofs of the statements about reservation requests and the allocator: the payload of a
reservation, the outcomes of RESERVE and CANCEL, and the slots that a placement takes. -/

namespace Sys2Proof.Machine

open Sys2Proof

/-! ### The payload of a reservation (R70, R165) -/

theorem map_byteOf_toNat (l : List Byte) : (l.map BitVec.toNat).map byteOf = l := by
  rw [List.map_map]
  exact List.map_id'' byteOf_toNat l

theorem map_toNat_byteOf {l : List Nat} (h : ∀ n ∈ l, n < 256) : (l.map byteOf).map BitVec.toNat = l := by
  rw [List.map_map]
  exact (List.map_congr_left fun n hn => byteOf_toNat_of_lt (h n hn)).trans (List.map_id l)

/-- A placement code and slot list read as the placement they spell, when it meets R70. -/
theorem readPlacement_eq_some_iff {slots count : Nat} (hS : slots ≤ 64) {code : Byte} {listed : List Byte}
    {pl : Placement} :
    readPlacement slots count code listed = some pl ↔
      pl.Fits slots count ∧ pl.code = code ∧ pl.slots.map byteOf = listed := by
  constructor
  · intro h
    simp only [readPlacement] at h
    split_ifs at h with hany hnil hrun hnil hlist hok
    · cases h
      exact ⟨trivial, hany.symm, (List.map_eq_nil_iff.1 hnil).symm⟩
    · cases h
      exact ⟨trivial, hrun.symm, (List.map_eq_nil_iff.1 hnil).symm⟩
    · cases h
      obtain ⟨hlen, hrange, hnodup⟩ := hok
      exact ⟨⟨hlen, hnodup, by simpa using hrange⟩, hlist.symm, map_byteOf_toNat listed⟩
  · rintro ⟨hfits, rfl, rfl⟩
    cases pl with
    | any => rfl
    | run => rfl
    | list l =>
      obtain ⟨hlen, hnodup, hrange⟩ := hfits
      have hback : (l.map byteOf).map BitVec.toNat = l :=
        map_toNat_byteOf fun n hn => by have := hrange n hn; omega
      simpa [readPlacement, Placement.code, Placement.slots, hback, hlen, hnodup] using hrange

theorem ofNat_toNat_half (x : Half) : BitVec.ofNat 16 x.toNat = x := by simp

/-- A payload reads as a reservation exactly when it is the bytes of that reservation and R70 holds of it. -/
theorem readReservation_eq_some_iff {slots : Nat} (hS : slots ≤ 64) {payload : List Byte} {r : Reservation} :
    readReservation slots payload = some r ↔ r.Fits slots ∧ payload = r.payload := by
  constructor
  · intro h
    unfold readReservation at h
    split at h
    · obtain ⟨⟨htag, hpos, hmax, hlt, hlease, hwait⟩, h⟩ := Option.ite_none_right_eq_some.1 h
      obtain ⟨pl, hpl, rfl⟩ := Option.map_eq_some_iff.1 h
      obtain ⟨hfits, hcode, hlisted⟩ := (readPlacement_eq_some_iff hS).1 hpl
      refine ⟨⟨htag, hpos, hmax, hlt, hlease, hwait, hfits⟩, ?_⟩
      simp only [Reservation.payload, hcode, hlisted, byteOf_toNat, halfBytes_halfOf, ofNat_toNat_half]
      rfl
    · cases h
  · rintro ⟨⟨htag, hpos, hmax, hlt, hlease, hwait, hfits⟩, rfl⟩
    have hcount : (byteOf r.count).toNat = r.count := byteOf_toNat_of_lt (by omega)
    have hwait16 : (BitVec.ofNat 16 r.wait).toNat = r.wait := Nat.mod_eq_of_lt (by omega)
    have hpl : readPlacement slots r.count r.placement.code (r.placement.slots.map byteOf) = some r.placement :=
      (readPlacement_eq_some_iff hS).2 ⟨hfits, rfl, rfl⟩
    simp only [Reservation.payload, halfBytes, List.cons_append, List.nil_append, readReservation, hcount,
      halfOf_halfBytes, hwait16, hpl]
    exact if_pos ⟨htag, hpos, hmax, hlt, hlease, hwait⟩

/-! ### The end of a request that an ATTACHED port is served (R163)

The two ends once the payload is read, and the reply to a request that changed the request queue alone. -/

theorem State.takeRequest_of_read {α : Type} {s : State} {p : Port} {r : RequestCode} {l : List Byte} {x : α}
    (fields : State → Option α) (k : State → α → Answer) (ht : s.takes p r l = true)
    (hp : (s.port p).attachment ≠ none) (hread : fields (s.deselect p) = some x) :
    s.takeRequest p r l (fun u => u.whenAttached p (withFields (fields u) (k u)))
      = (s.deselect p).settle p (k (s.deselect p) x) := by
  rw [State.takeRequest_of_attached fields k ht hp, hread, withFields_some]

theorem State.takeRequest_of_unread {α : Type} {s : State} {p : Port} {r : RequestCode} {l : List Byte}
    (fields : State → Option α) (k : State → α → Answer) (ht : s.takes p r l = true)
    (hp : (s.port p).attachment ≠ none) (hread : fields (s.deselect p) = none) :
    s.takeRequest p r l (fun u => u.whenAttached p (withFields (fields u) (k u))) = s.answered p .badField [] := by
  rw [State.takeRequest_of_attached fields k ht hp, hread, withFields_none, State.settle_refuseWith]

theorem State.reply_deselect_requests (s : State) (p : Port) (l : List Record) (body : List Byte) :
    ({ s.deselect p with requests := l } : State).reply p .ok body = { s with requests := l }.answered p .ok body :=
  State.reply_deselect { s with requests := l } p .ok body

/-! ### RESERVE (R69, R71, R72) -/

/-- The tag is in use exactly when an own record carries it (R71). -/
theorem State.tagPending_iff (s : State) (p : Port) (t : Byte) :
    s.tagPending p t = true ↔ ∃ x ∈ s.requests.filter (fun x => x.port == p), x.res.tag = t := by
  simp [State.tagPending, and_assoc]

theorem State.pendingCount_eq_length_filter (s : State) (p : Port) :
    s.pendingCount p = (s.requests.filter (fun x => x.port == p)).length :=
  List.countP_eq_length_filter

theorem State.pendingCount_enqueue (s : State) (p : Port) (r : Reservation) :
    (s.enqueue p r).pendingCount p = s.pendingCount p + 1 := by
  simp [State.pendingCount]

/-- RESERVE whose fields read: checks 3 to 6 and the effect, in the terms of the queue (R69, R71, R72). -/
theorem exec_reserve_of_some {s : State} {p : Port} {l : List Byte} {r : Reservation}
    (ht : s.takes p .reserve l = true) (hp : (s.port p).attachment ≠ none)
    (hread : readReservation s.slots l = some r) :
    exec (.reserve p l) s = .next
      (if s.tagPending p r.tag then s.answered p .tagInUse []
      else if s.quota p < r.count then s.answered p .overQuota []
      else if 6 ≤ s.pendingCount p then s.answered p .portLimit []
      else if 16 ≤ s.requests.length then s.answered p .queueFull []
      else
        { s with requests := s.requests ++ [(⟨p, r⟩ : Record)] }.answered p .ok
          [byteOf (s.requests.length + 1), byteOf (s.pendingCount p + 1)]) := by
  refine congrArg Host.Outcome.next
    ((State.takeRequest_of_read (fun u => readReservation u.slots l) _ ht hp hread).trans ?_)
  simp only [apply_ite ((s.deselect p).settle p), State.settle_refuseWith, State.settle_ok]
  have hjoin := s.reply_deselect_requests p (s.requests ++ [⟨p, r⟩])
    [byteOf (s.requests.length + 1), byteOf (s.pendingCount p + 1)]
  rw [← hjoin, State.pendingCount_enqueue, State.enqueue_requests, List.length_append]
  rfl

/-! ### CANCEL (R80) -/

theorem readName_eq_some_iff {l : List Byte} {t : Byte} : readName l = some t ↔ t ≠ 0 ∧ l = [t] := by
  constructor
  · intro h
    unfold readName at h
    split at h
    · obtain ⟨hb, rfl⟩ : _ ∧ _ = t := by simpa using h
      exact ⟨hb, rfl⟩
    · cases h
  · rintro ⟨ht, rfl⟩
    exact if_pos ht

/-- A port's record with a tag is looked for in queue order, with its place counted from 1 (R66, R71). -/
theorem State.find?_ownRecords (s : State) (p : Port) (t : Byte) :
    (s.ownRecords p).find? (fun x => x.2.res.tag == t)
      = ((s.requests.zipIdx 1).find? (fun x => x.1.port == p && x.1.res.tag == t)).map (fun x => (x.2, x.1)) := by
  rw [State.ownRecords, List.find?_map, List.find?_filter]
  simp only [Bool.decide_and, Bool.decide_eq_true]
  rfl

theorem find?_zipIdx_eq_none {l : List Record} {p : Port} {t : Byte} (first : Nat)
    (h : ∀ x ∈ l, x.port = p → x.res.tag ≠ t) :
    (l.zipIdx first).find? (fun x => x.1.port == p && x.1.res.tag == t) = none := by
  refine List.find?_eq_none.2 fun x hx => ?_
  simpa using h x.1 (List.fst_mem_of_mem_zipIdx hx)

theorem State.find?_ownRecords_eq_none {s : State} {p : Port} {t : Byte}
    (h : ∀ x ∈ s.requests, x.port = p → x.res.tag ≠ t) :
    (s.ownRecords p).find? (fun x => x.2.res.tag == t) = none := by
  rw [State.find?_ownRecords, find?_zipIdx_eq_none 1 h, Option.map_none]

/-- The first record that is the port's with that tag has the place of the records ahead of it, plus 1. -/
theorem State.find?_ownRecords_eq_some {s : State} {p : Port} {r : Reservation} {ahead behind : List Record}
    (hs : s.requests = ahead ++ ⟨p, r⟩ :: behind) (hahead : ∀ x ∈ ahead, x.port = p → x.res.tag ≠ r.tag) :
    (s.ownRecords p).find? (fun x => x.2.res.tag == r.tag) = some (ahead.length + 1, ⟨p, r⟩) := by
  rw [State.find?_ownRecords, hs, List.zipIdx_append, List.find?_append, find?_zipIdx_eq_none 1 hahead,
    Option.none_or, List.zipIdx_cons, List.find?_cons_of_pos (by simp), Option.map_some, Nat.add_comm]

theorem exec_cancel_of_not_found {s : State} {p : Port} {l : List Byte} {t : Byte} (ht : s.takes p .cancel l = true)
    (hp : (s.port p).attachment ≠ none) (hread : readName l = some t)
    (hfind : (s.ownRecords p).find? (fun x => x.2.res.tag == t) = none) :
    exec (.cancel p l) s = .next (s.answered p .noRequest []) := by
  have hfindD : ((s.deselect p).ownRecords p).find? (fun x => x.2.res.tag == t) = none := hfind
  refine congrArg Host.Outcome.next ((State.takeRequest_of_read (fun _ => readName l) _ ht hp hread).trans ?_)
  simp only [hfindD, State.settle_refuseWith]

theorem exec_cancel_of_found {s : State} {p : Port} {l : List Byte} {t : Byte} {position : Nat} {x : Record}
    (ht : s.takes p .cancel l = true) (hp : (s.port p).attachment ≠ none) (hread : readName l = some t)
    (hfind : (s.ownRecords p).find? (fun x => x.2.res.tag == t) = some (position, x)) :
    exec (.cancel p l) s = .next
      ({ s with requests := s.requests.erase x }.answered p .ok
        (byteOf position :: halfBytes (BitVec.ofNat 16 x.res.wait))) := by
  have hfindD : ((s.deselect p).ownRecords p).find? (fun x => x.2.res.tag == t) = some (position, x) := hfind
  refine congrArg Host.Outcome.next ((State.takeRequest_of_read (fun _ => readName l) _ ht hp hread).trans ?_)
  simp only [hfindD, State.settle_ok]
  exact s.reply_deselect_requests p (s.requests.erase x) _

/-! ### Availability and the placements (R68, R74, R75) -/

/-- A sorted list is the first `k` of a sorted list exactly when its members are `k` of that list's, and every other
member of that list comes after them. -/
theorem eq_take_iff_of_pairwise_lt {L l : List Nat} {k : Nat} (hL : L.Pairwise (· < ·)) :
    l = L.take k ∧ l.length = k ↔
      l.length = k ∧ l.Pairwise (· < ·) ∧ (∀ n ∈ l, n ∈ L) ∧ ∀ m ∈ L, m ∉ l → ∀ n ∈ l, n < m := by
  constructor
  · rintro ⟨rfl, hlen⟩
    refine ⟨hlen, hL.sublist (List.take_sublist k L), fun n => List.mem_of_mem_take, fun m hm hnot n hn => ?_⟩
    rw [← List.take_append_drop k L] at hL hm
    exact (List.pairwise_append.1 hL).2.2 n hn m ((List.mem_append.1 hm).resolve_left hnot)
  · rintro ⟨hlen, hsorted, hsub, hlow⟩
    have hwhole : l ++ L.filter (· ∉ l) = L := by
      refine List.Pairwise.eq_of_mem_iff (List.pairwise_append.2 ⟨hsorted, hL.filter _, ?_⟩) hL fun n => ?_
      · intro n hn m hm
        obtain ⟨hmL, hml⟩ : m ∈ L ∧ m ∉ l := by simpa using hm
        exact hlow m hmL hml n hn
      · have := hsub n
        by_cases hn : n ∈ l <;> simp [hn, this]
    exact ⟨by rw [← hwhole, List.take_left' hlen], hlen⟩

theorem State.lt_grantLimit_iff (s : State) (n : Nat) :
    n < s.grantLimit ↔ n < s.slots ∧ ∀ pr f, s.proposal = .agreed pr f → n < pr.terms.geometry.slots := by
  unfold State.grantLimit
  cases s.proposal with
  | none => simp
  | opened pr d => simp
  | agreed pr f => simp

/-- R74, in the terms of the plan in use and a confirmed plan that waits. -/
theorem State.available_iff (s : State) (n : Nat) :
    s.available n = true ↔
      entryAt s.staged n = .free ∧ 1 ≤ n ∧ n < s.slots
        ∧ ∀ pr f, s.proposal = .agreed pr f → n < pr.terms.geometry.slots := by
  simp only [State.available, Bool.and_eq_true, beq_iff_eq, decide_eq_true_eq, State.lt_grantLimit_iff, and_assoc]

/-- The available slots in ascending order. -/
def State.availableSlots (s : State) : List Nat := slotNumbers.filter s.available

theorem State.availableSlots_pairwise (s : State) : s.availableSlots.Pairwise (· < ·) :=
  List.pairwise_lt_range.filter _

theorem State.lt_64_of_available {s : State} (hS : s.slots ≤ 64) {n : Nat} (h : s.available n = true) : n < 64 :=
  (State.available_spec h).2.2.trans_le hS

theorem State.mem_availableSlots {s : State} (hS : s.slots ≤ 64) {n : Nat} :
    n ∈ s.availableSlots ↔ s.available n = true := by
  simpa [State.availableSlots] using State.lt_64_of_available hS

/-- ANY takes the lowest available slots (R75). -/
theorem State.findSlots_any_iff {s : State} (hS : s.slots ≤ 64) {r : Reservation} (hr : r.placement = .any)
    {l : List Nat} :
    s.findSlots r = some l ↔
      l.length = r.count ∧ l.Pairwise (· < ·) ∧ (∀ n ∈ l, s.available n = true)
        ∧ ∀ m, s.available m = true → m ∉ l → ∀ n ∈ l, n < m := by
  have hfind : s.findSlots r = some l ↔ l = s.availableSlots.take r.count ∧ l.length = r.count := by
    simp only [State.findSlots, hr, Option.ite_none_right_eq_some, Option.some.injEq]
    exact ⟨fun ⟨hlen, hl⟩ => ⟨hl.symm, hl ▸ hlen⟩, fun ⟨hl, hlen⟩ => ⟨hl ▸ hlen, hl.symm⟩⟩
  rw [hfind, eq_take_iff_of_pairwise_lt s.availableSlots_pairwise]
  simp only [State.mem_availableSlots hS]

/-- A run may start at a slot other than slot 0 from which each of its slots is available (R68). -/
theorem State.runFrom_available_iff (s : State) (n count : Nat) :
    (1 ≤ n && (runFrom n count).all s.available) = true ↔
      1 ≤ n ∧ ∀ k, k < count → s.available (n + k) = true := by
  simp [runFrom]

theorem State.runFrom_not_available_iff (s : State) (n count : Nat) :
    (!(1 ≤ n && (runFrom n count).all s.available)) = true ↔
      (1 ≤ n → ∃ k, k < count ∧ s.available (n + k) = false) := by
  rw [Bool.not_eq_true', ← Bool.not_eq_true, State.runFrom_available_iff]
  simp

/-- A lowest run starts below slot 64: one without a slot starts at slot 1, another at an available slot. -/
theorem State.run_start_lt_64 {s : State} (hS : s.slots ≤ 64) {n count : Nat}
    (hrun : ∀ k, k < count → s.available (n + k) = true)
    (hlow : ∀ m, 1 ≤ m → m < n → ∃ k, k < count ∧ s.available (m + k) = false) : n < 64 := by
  by_contra hn
  obtain ⟨k, hk, _⟩ := hlow 1 le_rfl (by omega)
  exact hn (State.lt_64_of_available hS (hrun 0 (by omega)))

/-- RUN takes the lowest run (R75). -/
theorem State.findSlots_run_iff {s : State} (hS : s.slots ≤ 64) {r : Reservation} (hr : r.placement = .run)
    {l : List Nat} :
    s.findSlots r = some l ↔
      ∃ n, 1 ≤ n ∧ l = (List.range r.count).map (n + ·) ∧ (∀ k, k < r.count → s.available (n + k) = true)
        ∧ ∀ m, 1 ≤ m → m < n → ∃ k, k < r.count ∧ s.available (m + k) = false := by
  simp only [State.findSlots, hr, Option.map_eq_some_iff, slotNumbers, List.find?_range_eq_some, List.mem_range,
    State.runFrom_available_iff, State.runFrom_not_available_iff]
  refine exists_congr fun n => ⟨?_, ?_⟩
  · rintro ⟨⟨⟨hpos, hrun⟩, _, hlow⟩, rfl⟩
    exact ⟨hpos, rfl, hrun, fun m hm hmn => hlow m hmn hm⟩
  · rintro ⟨hpos, rfl, hrun, hlow⟩
    exact ⟨⟨⟨hpos, hrun⟩, State.run_start_lt_64 hS hrun hlow, fun m hmn hm => hlow m hm hmn⟩, rfl⟩

/-- LIST takes the listed slots (R75). -/
theorem State.findSlots_list_iff {s : State} {r : Reservation} {listed : List Nat} (hr : r.placement = .list listed)
    {l : List Nat} :
    s.findSlots r = some l ↔ l = listed ∧ ∀ n ∈ listed, s.available n = true := by
  simp only [State.findSlots, hr, Option.ite_none_right_eq_some, List.all_eq_true, Option.some.injEq]
  rw [and_comm, eq_comm]

/-! ### The statements (R69, R70, R74, R75, R80) -/

/-- Settles O20: the fixed bytes and the slot list read back as the fields that made them. -/
theorem reservationReadsExactlyItsBytes : Obligations.ReservationReadsExactlyItsBytes :=
  fun _ _ _ hS => readReservation_eq_some_iff hS

/-- Settles O19: the payload reads as its reservation, and the checks are those of the queue. -/
theorem reserveChecksThenJoinsTheTail : Obligations.ReserveChecksThenJoinsTheTail := by
  intro s p payload ⟨_, hS, _⟩ ht
  refine ⟨fun hp => congrArg _ (State.takeRequest_of_detached (fun u => readReservation u.slots payload) _ ht hp),
    fun hp => ⟨?_, ?_⟩⟩
  · intro r hfits hpayload mine
    have hread : readReservation s.slots payload = some r := (readReservation_eq_some_iff hS).2 ⟨hfits, hpayload⟩
    rw [exec_reserve_of_some ht hp hread, State.pendingCount_eq_length_filter]
    simp only [State.tagPending_iff]
    rfl
  · intro hbad
    refine congrArg _ (State.takeRequest_of_unread (fun u => readReservation u.slots payload) _ ht hp
      (Option.eq_none_iff_forall_ne_some.2 fun r hread => ?_))
    obtain ⟨hfits, hpayload⟩ := (readReservation_eq_some_iff hS).1 hread
    exact hbad r hfits hpayload

/-- Settles O21: the record is the first of the port's with that tag, so it is the one that leaves. -/
theorem cancelRemovesTheOwnRecord : Obligations.CancelRemovesTheOwnRecord := by
  intro s p payload ht
  refine ⟨fun hp => congrArg _ (State.takeRequest_of_detached (fun _ => readName payload) _ ht hp),
    fun hp => ⟨?_, ?_, ?_⟩⟩
  · rintro _ ahead behind r htag hpayload hs rfl hahead
    have herase : s.requests.erase ⟨p, r⟩ = ahead ++ behind := by
      have hnot : (⟨p, r⟩ : Record) ∉ ahead := fun hmem => hahead _ hmem rfl rfl
      rw [hs, List.erase_append_right _ hnot, List.erase_cons_head]
    rw [exec_cancel_of_found ht hp (readName_eq_some_iff.2 ⟨htag, hpayload⟩)
      (State.find?_ownRecords_eq_some hs hahead), herase]
  · intro tag htag hpayload hnone
    exact exec_cancel_of_not_found ht hp (readName_eq_some_iff.2 ⟨htag, hpayload⟩)
      (State.find?_ownRecords_eq_none hnone)
  · intro hbad
    refine congrArg _ (State.takeRequest_of_unread (fun _ => readName payload) _ ht hp
      (Option.eq_none_iff_forall_ne_some.2 fun tag hread => ?_))
    obtain ⟨htag, hpayload⟩ := readName_eq_some_iff.1 hread
    exact hbad tag htag hpayload

/-- Settles O22: one case for each placement. -/
theorem placementTakesTheLowestSlots : Obligations.PlacementTakesTheLowestSlots := by
  intro s r ⟨_, hS, _⟩
  refine ⟨s.available_iff, fun l => ?_⟩
  cases hr : r.placement with
  | any => exact State.findSlots_any_iff hS hr
  | run => exact State.findSlots_run_iff hS hr
  | list listed => exact State.findSlots_list_iff hr

end Sys2Proof.Machine
end

section
/-! SUPPORT. The proofs of the statements about offers: the payload of OFFER, the place of an offer in the table, the
requests that name an open offer by its id, and the effect of an acceptance on the entry and on the ports. -/

namespace Sys2Proof.Machine

open Sys2Proof

/-! ### The payload of OFFER (R89, R165) -/

theorem readPort_eq_some_iff {b : Byte} {q : Port} : readPort b = some q ↔ portCode q = b := by
  constructor
  · intro h
    unfold readPort at h
    split_ifs at h with h1 h2 h3 h4 <;> cases h <;> exact Eq.symm ‹_›
  · rintro rfl
    cases q <;> rfl

theorem readKind_eq_some_iff {b : Byte} {k : OfferKind} : readKind b = some k ↔ k.code = b := by
  constructor
  · intro h
    unfold readKind at h
    split_ifs at h with h0 h1 <;> cases h <;> exact Eq.symm ‹_›
  · rintro rfl
    cases k <;> rfl

/-- The fields meet check 2 of R89 for the giver `p` with `slots` slots per frame. -/
def OfferFields.Fits (slots : Nat) (p : Port) (f : OfferFields) : Prop :=
  f.target ≠ p ∧ 1 ≤ f.slot ∧ f.slot < slots ∧ 1 ≤ f.frames ∧ f.frames ≤ 255

/-- The bytes of an OFFER payload (R166). -/
def OfferFields.payload (f : OfferFields) : List Byte :=
  [portCode f.target, byteOf f.slot, f.kind.code, byteOf f.frames]

/-- A payload reads as the fields of an OFFER exactly when it is their bytes and check 2 of R89 holds of them. -/
theorem readOffer_eq_some_iff {slots : Nat} (hS : slots ≤ 64) {p : Port} {l : List Byte} {f : OfferFields} :
    readOffer slots p l = some f ↔ f.Fits slots p ∧ l = f.payload := by
  constructor
  · intro h
    refine ⟨readOffer_ok h, ?_⟩
    unfold readOffer at h
    split at h
    · split at h
      · rename_i target kind ht hk
        obtain ⟨_, h⟩ := Option.ite_none_right_eq_some.1 h
        cases h
        rw [OfferFields.payload, readPort_eq_some_iff.1 ht, readKind_eq_some_iff.1 hk, byteOf_toNat, byteOf_toNat]
      · cases h
    · cases h
  · rintro ⟨⟨htarget, hpos, hlt, hframes, hmax⟩, rfl⟩
    have hslot : (byteOf f.slot).toNat = f.slot := byteOf_toNat_of_lt (by omega)
    have hleft : (byteOf f.frames).toNat = f.frames := byteOf_toNat_of_lt (by omega)
    have hne : byteOf f.frames ≠ 0 := fun h0 => by
      rw [h0] at hleft
      exact absurd hleft (by simp; omega)
    simpa [OfferFields.payload, readOffer, readPort_eq_some_iff.2 rfl, readKind_eq_some_iff.2 rfl, hslot, hleft,
      htarget, hpos, hlt] using hne

/-! ### The offer table (R87, R88) -/

/-- In a table sorted by slot an offer on a slot without one stands between the lower and the higher slots. -/
theorem insertOffer_eq_filter {o : Offer} {l : List Offer} (hl : l.Pairwise (fun x y => x.slot < y.slot))
    (hfree : ∀ x ∈ l, x.slot ≠ o.slot) :
    insertOffer o l = l.filter (fun x => x.slot < o.slot) ++ o :: l.filter (fun x => o.slot < x.slot) := by
  induction l with
  | nil => rfl
  | cons x xs ih =>
    obtain ⟨hx, hxs⟩ := List.pairwise_cons.1 hl
    have hne : x.slot ≠ o.slot := hfree x List.mem_cons_self
    by_cases hlt : o.slot < x.slot
    · have habove : ∀ y ∈ x :: xs, o.slot < y.slot := by
        rintro y (_ | ⟨_, hy⟩)
        · exact hlt
        · exact hlt.trans (hx y hy)
      have hlow : (x :: xs).filter (fun y => y.slot < o.slot) = [] :=
        List.filter_eq_nil_iff.2 fun y hy => by simpa using (habove y hy).le
      have hhigh : (x :: xs).filter (fun y => o.slot < y.slot) = x :: xs :=
        List.filter_eq_self.2 fun y hy => by simpa using habove y hy
      rw [insertOffer, if_pos hlt, hlow, hhigh, List.nil_append]
    · have hlow : x.slot < o.slot := by omega
      rw [insertOffer, if_neg hlt, ih hxs fun y hy => hfree y (List.mem_cons_of_mem x hy)]
      simp [hlow, hlt]

theorem State.offerOn_isSome_iff (s : State) (n : Nat) :
    (s.offerOn n).isSome = true ↔ ∃ x ∈ s.offers, x.slot = n := by
  simp [State.offerOn]

/-- An id that one open offer alone carries finds that offer. -/
theorem State.offerWithId_eq_some {s : State} {o : Offer} (ho : o ∈ s.offers)
    (halone : ∀ x ∈ s.offers, x.id = o.id → x = o) : s.offerWithId o.id = some o := by
  cases hfind : s.offerWithId o.id with
  | none => simpa using List.find?_eq_none.1 hfind o ho
  | some x => rw [halone x (List.mem_of_find?_eq_some hfind) (by simpa using List.find?_some hfind)]

/-- Distinct ids name their offers (R88). -/
theorem State.OfferIdsOk.offerWithId {s : State} (h : s.OfferIdsOk) {o : Offer} (ho : o ∈ s.offers) :
    s.offerWithId o.id = some o := by
  obtain ⟨_, hnodup, _, _⟩ := h
  exact State.offerWithId_eq_some ho fun x hx hid => List.inj_on_of_nodup_map hnodup hx ho hid

theorem State.OfferIdsOk.id_ne_zero {s : State} (h : s.OfferIdsOk) {o : Offer} (ho : o ∈ s.offers) : o.id ≠ 0 := by
  obtain ⟨_, _, hne, _⟩ := h
  exact hne o ho

/-! ### A notice to another port, then the reply (R140, R154) -/

theorem State.notify_eq_setPort (s : State) (q : Port) (n : Notice) :
    s.notify q n = s.setPort q ((s.port q).told [n]) := by
  unfold State.notify PortState.told State.attached
  split
  · rfl
  · rw [State.setPort_port]

/-- The end of a request of port `p` that sent one notice, to another port. -/
theorem State.reply_notify_deselect (s : State) {p q : Port} (hq : q ≠ p) (n : Notice) (body : List Byte) :
    ((s.deselect p).notify q n).reply p .ok body =
      { s with ports := (s.ports.set q ((s.port q).told [n])).set p ((s.port p).answered .ok body) } := by
  refine State.eq_of_ports (t := ((s.deselect p).notify q n).reply p .ok body) (s := { s with
      ports := (s.ports.set q ((s.port q).told [n])).set p ((s.port p).answered .ok body) }) ?_ fun r => ?_
  · simp
  · rw [State.port_reply, State.port_notify, State.port_notify, State.port_deselect, State.port_deselect]
    simp only [State.port, PerPort.get_set]
    by_cases hp : r = p
    · simp [hp, hq.symm, PortState.answered]
    · by_cases hr : r = q
      · simp [hr, hq]
      · simp [hp, hr]

/-! ### OFFER (R89, R90) -/

/-- The notice of the offer that an OFFER makes (R90). -/
def State.madeNotice (s : State) (p : Port) (f : OfferFields) : Notice :=
  { s.offerNotice .offerMade (s.newOffer p f) (entryAt s.staged f.slot).tag p f.kind.reason with
    count := some f.frames }

/-- The state after an OFFER was answered (R90, R154). -/
def State.afterOffer (s : State) (p : Port) (f : OfferFields) : State :=
  { s with
    offers := insertOffer (s.newOffer p f) s.offers
    offerCounter := nextId s.newOfferId
    ports := (s.ports.set f.target ((s.port f.target).told [s.madeNotice p f])).set p
      ((s.port p).answered .ok [s.newOfferId]) }

theorem State.not_attached_iff (s : State) (p : Port) : ¬ s.attached p = true ↔ (s.port p).attachment = none := by
  simp [State.attached]

/-- OFFER whose fields read: checks 3 to 8 in their order, and the effect (R89, R90). -/
theorem exec_offer_of_some {s : State} {p : Port} {l : List Byte} {f : OfferFields} (ht : s.takes p .offer l = true)
    (hp : (s.port p).attachment ≠ none) (hread : readOffer s.slots p l = some f) :
    exec (.offer p l) s = .next
      (if p ∉ (entryAt s.staged f.slot).parties then s.answered p .notHolder []
      else if (s.port f.target).attachment = none then s.answered p .targetDetached []
      else if ∃ x ∈ s.offers, x.slot = f.slot then s.answered p .slotOffered []
      else if f.target ∈ (entryAt s.staged f.slot).parties then s.answered p .alreadyMember []
      else if f.kind = .share ∧ 4 ≤ (entryAt s.staged f.slot).parties.length then s.answered p .membersFull []
      else if 8 ≤ s.offers.length then s.answered p .tableFull []
      else s.afterOffer p f) := by
  obtain ⟨htarget, _⟩ := readOffer_ok hread
  have hmade := { s with offers := insertOffer (s.newOffer p f) s.offers, offerCounter := nextId s.newOfferId }
    |>.reply_notify_deselect htarget (s.madeNotice p f) [s.newOfferId]
  refine congrArg Host.Outcome.next
    ((State.takeRequest_of_read (fun u => readOffer u.slots p l) _ ht hp hread).trans ?_)
  simp only [apply_ite ((s.deselect p).settle p), State.settle_refuseWith, State.settle_ok, State.attached_deselect,
    Bool.not_eq_true', ← Bool.not_eq_true, Entry.names_iff, State.offerOn_isSome_iff, State.not_attached_iff]
  exact congrArg (fun t => ite _ _ (ite _ _ (ite _ _ (ite _ _ (ite _ _ (ite _ _ t)))))) hmade

/-! ### A request that names an open offer (R91, R95, R96) -/

/-- The judgement of a request of one of an offer's parties: `role` is the party that may ask, and `act` what follows
for the offer found. -/
def judgeParty (role : Offer → Port) (act : State → Offer → Answer) (p : Port) (l : List Byte) (s : State) : Answer :=
  s.whenAttached p <| withFields (readName l) fun i =>
    match s.offerWithId i with
    | none => refuseWith .noOffer
    | some o => if role o ≠ p then refuseWith .noOffer else act s o

theorem judgeAccept_eq_judgeParty (p : Port) (l : List Byte) :
    judgeAccept p l = judgeParty Offer.target (fun s o =>
      if s.quota p < s.holdingCount p + 1 then refuseWith .overQuota
      else .ok (s.acceptOffer o) [byteOf o.slot, o.kind.code, ((entryAt s.staged o.slot).accepted o).tag,
        byteOf ((entryAt s.staged o.slot).accepted o).parties.length]) p l := rfl

theorem judgeDecline_eq_judgeParty (p : Port) (l : List Byte) :
    judgeDecline p l = judgeParty Offer.target (fun s o => .ok (s.refuseOffer o .declined) []) p l := rfl

theorem judgeWithdraw_eq_judgeParty (p : Port) (l : List Byte) :
    judgeWithdraw p l
      = judgeParty Offer.giver (fun s o => .ok (s.voidOffer o (s.slotTag o.slot) .withdrawn) []) p l := rfl

section Party

variable {s : State} {p : Port} {r : RequestCode} {l : List Byte} {role : Offer → Port} {act : State → Offer → Answer}

/-- The party of the offer that the id finds is served. -/
theorem State.takeRequest_party_of_found (ht : s.takes p r l = true) (hp : (s.port p).attachment ≠ none) {o : Offer}
    (hid : o.id ≠ 0) (hl : l = [o.id]) (hfind : s.offerWithId o.id = some o) (hrole : role o = p) :
    s.takeRequest p r l (judgeParty role act p l) = (s.deselect p).settle p (act (s.deselect p) o) := by
  have hfindD : (s.deselect p).offerWithId o.id = some o := hfind
  refine (State.takeRequest_of_read (fun _ => readName l) _ ht hp (readName_eq_some_iff.2 ⟨hid, hl⟩)).trans ?_
  simp only [hfindD, hrole, ne_eq, not_true_eq_false, if_false]

/-- With no open offer of that id and that party the request is refused. -/
theorem State.takeRequest_party_of_no_offer (ht : s.takes p r l = true) (hp : (s.port p).attachment ≠ none) {i : Byte}
    (hi : i ≠ 0) (hl : l = [i]) (hnone : ∀ o ∈ s.offers, o.id = i → role o ≠ p) :
    s.takeRequest p r l (judgeParty role act p l) = s.answered p .noOffer [] := by
  refine (State.takeRequest_of_read (fun _ => readName l) _ ht hp (readName_eq_some_iff.2 ⟨hi, hl⟩)).trans ?_
  rw [← State.settle_refuseWith]
  cases hfind : (s.deselect p).offerWithId i with
  | none => rfl
  | some o =>
    have hrole : role o ≠ p := hnone o (List.mem_of_find?_eq_some hfind) (by simpa using List.find?_some hfind)
    simp only [hrole, ne_eq, not_false_eq_true, if_true]

/-- A payload that is no id is refused. -/
theorem State.takeRequest_party_of_bad_id (ht : s.takes p r l = true) (hp : (s.port p).attachment ≠ none)
    (hbad : ∀ i : Byte, i ≠ 0 → l ≠ [i]) :
    s.takeRequest p r l (judgeParty role act p l) = s.answered p .badField [] := by
  refine State.takeRequest_of_unread (fun _ => readName l) _ ht hp
    (Option.eq_none_iff_forall_ne_some.2 fun i hread => ?_)
  obtain ⟨hi, hl⟩ := readName_eq_some_iff.1 hread
  exact hbad i hi hl

theorem State.takeRequest_party_of_detached (ht : s.takes p r l = true) (hp : (s.port p).attachment = none) :
    s.takeRequest p r l (judgeParty role act p l) = s.answered p .notAttached [] :=
  State.takeRequest_of_detached (fun _ => readName l) _ ht hp

end Party

/-! ### DECLINE and WITHDRAW (R95, R96) -/

/-- The ends of a request of one of an offer's parties that has no checks but those of R95: the port is DETACHED, its
offer is found and `done`, it has no offer of that id, or the payload is no id. -/
theorem exec_of_judgeParty {c : Instr} {s : State} {p : Port} {r : RequestCode} {l : List Byte}
    {judge : State → Answer} {role other : Offer → Port} {act : State → Offer → Answer} {done : Offer → State}
    (hexec : exec c s = .next (s.takeRequest p r l judge)) (hjudge : judge = judgeParty role act p l)
    (ht : s.takes p r l = true) (hids : s.OfferIdsOk)
    (hdone : ∀ o, role o = p → other o ≠ p → (s.deselect p).settle p (act (s.deselect p) o) = done o) :
    ((s.port p).attachment = none → exec c s = .next (s.answered p .notAttached []))
    ∧ ((s.port p).attachment ≠ none →
      (∀ o ∈ s.offers, l = [o.id] → role o = p → other o ≠ p → exec c s = .next (done o))
      ∧ (∀ i : Byte, i ≠ 0 → l = [i] → (∀ o ∈ s.offers, o.id = i → role o ≠ p) →
          exec c s = .next (s.answered p .noOffer []))
      ∧ ((∀ i : Byte, i ≠ 0 → l ≠ [i]) → exec c s = .next (s.answered p .badField []))) := by
  rw [hexec, hjudge]
  refine ⟨fun hp => congrArg _ (State.takeRequest_party_of_detached ht hp), fun hp => ⟨?_, ?_, ?_⟩⟩
  · intro o ho hl hrole hother
    rw [State.takeRequest_party_of_found ht hp (hids.id_ne_zero ho) hl (hids.offerWithId ho) hrole,
      hdone o hrole hother]
  · exact fun i hi hl hnone => congrArg _ (State.takeRequest_party_of_no_offer ht hp hi hl hnone)
  · exact fun hbad => congrArg _ (State.takeRequest_party_of_bad_id ht hp hbad)

/-- The answered DECLINE and WITHDRAW: the offer is gone, and one notice went to the other party. -/
theorem State.reply_dropOffer_notify (s : State) {p q : Port} (hq : q ≠ p) (i : Byte) (n : Notice) :
    (((s.deselect p).dropOffer i).notify q n).reply p .ok [] =
      { s with
        offers := s.offers.filter (fun x => x.id != i)
        ports := (s.ports.set q ((s.port q).told [n])).set p ((s.port p).answered .ok []) } :=
  (s.dropOffer i).reply_notify_deselect hq n []

/-! ### The effect of ACCEPT (R92, R93) -/

theorem map_replace_of_not_mem {l : List Port} {g : Port} (h : g ∉ l) (t : Port) :
    l.map (fun q => if q = g then t else q) = l :=
  (List.map_congr_left fun _ hq => if_neg (ne_of_mem_of_not_mem hq h)).trans (List.map_id l)

/-- The target takes the giver's place in a member list (R92). -/
theorem map_replace_of_nodup {pre post : List Port} {g : Port} (h : (pre ++ g :: post).Nodup) (t : Port) :
    (pre ++ g :: post).map (fun q => if q = g then t else q) = pre ++ t :: post := by
  obtain ⟨hg, -⟩ := List.nodup_cons.1 (List.nodup_middle.1 h)
  obtain ⟨hpre, hpost⟩ := not_or.1 (mt List.mem_append.2 hg)
  rw [List.map_append, List.map_cons, map_replace_of_not_mem hpre, map_replace_of_not_mem hpost, if_pos rfl]

/-- HANDOVER of a SHARED slot (R92). -/
theorem Entry.accepted_shared_handover {o : Offer} (hk : o.kind = .handover) {pre post : List Port} {mark : Port}
    {h : Holding} (hok : (Entry.shared (pre ++ o.giver :: post) mark h).Ok) :
    (Entry.shared (pre ++ o.giver :: post) mark h).accepted o =
      .shared (pre ++ o.target :: post) (if mark = o.giver then o.target else mark)
        { h with warned := (h.warned.set o.giver false).set o.target false } := by
  have hmembers := map_replace_of_nodup (Entry.parties_nodup hok) o.target
  simp only [Entry.accepted, acceptWarned, hk, hmembers]
  rfl

/-- HANDOVER of a HELD slot (R92). -/
theorem Entry.accepted_held_handover {o : Offer} (hk : o.kind = .handover) (g : Port) (h : Holding) :
    (Entry.held g h).accepted o =
      .held o.target { h with warned := (h.warned.set o.giver false).set o.target false } := by
  simp only [Entry.accepted, acceptWarned, hk]
  rfl

/-- SHARE of a HELD slot (R92). -/
theorem Entry.accepted_held_share {o : Offer} (hk : o.kind = .share) (g : Port) (h : Holding) :
    (Entry.held g h).accepted o = .shared [g, o.target] g { h with warned := h.warned.set o.target false } := by
  simp only [Entry.accepted, acceptWarned, hk]
  rfl

/-- SHARE of a SHARED slot (R92). -/
theorem Entry.accepted_shared_share {o : Offer} (hk : o.kind = .share) (ms : List Port) (mark : Port) (h : Holding) :
    (Entry.shared ms mark h).accepted o =
      .shared (ms ++ [o.target]) mark { h with warned := h.warned.set o.target false } := by
  simp only [Entry.accepted, acceptWarned, hk]
  rfl

/-- The notices of an acceptance that makes the entry `e` (R93): OFFER_TAKEN to the giver, MEMBERS_CHANGED to the
parties that are neither giver nor target. -/
def State.acceptNotices (s : State) (o : Offer) (e : Entry) (q : Port) : List Notice :=
  if q = o.giver then
    [⟨.offerTaken, some o.kind.reason, some e.tag, some o.slot, some e.parties.length, some o.target, some o.id,
      s.nextFrame⟩]
  else if q ≠ o.target ∧ q ∈ e.parties then
    [⟨.membersChanged, none, some e.tag, some o.slot, some e.parties.length, some o.target, none, s.nextFrame⟩]
  else []

theorem State.port_acceptOffer (s : State) (o : Offer)
    (hnodup : ((entryAt s.staged o.slot).accepted o).parties.Nodup) (q : Port) :
    (s.acceptOffer o).port q
      = (s.port q).told (s.acceptNotices o ((entryAt s.staged o.slot).accepted o) q) := by
  simp only [State.acceptOffer, State.tellMembers, State.acceptNotices]
  rw [State.port_notifyAll _ (hnodup.filter _), State.port_notify]
  by_cases hg : q = o.giver
  · simp [hg]
    rfl
  · by_cases hm : q ≠ o.target ∧ q ∈ ((entryAt s.staged o.slot).accepted o).parties
    · simp [hg, hm, State.notice, State.nextFrame]
    · have hout : ¬ (q ∈ ((entryAt s.staged o.slot).accepted o).parties ∧ q ≠ o.target) := fun h => hm h.symm
      simp [hg, hm, hout]

theorem State.acceptNotices_target {o : Offer} (h : o.target ≠ o.giver) (s : State) (e : Entry) :
    s.acceptNotices o e o.target = [] := by
  simp [State.acceptNotices, h]

theorem State.acceptNotices_giver (s : State) (o : Offer) (e : Entry) :
    s.acceptNotices o e o.giver =
      [⟨.offerTaken, some o.kind.reason, some e.tag, some o.slot, some e.parties.length, some o.target, some o.id,
        s.nextFrame⟩] := if_pos rfl

theorem State.acceptNotices_other {o : Offer} {q : Port} (ht : q ≠ o.target) (hg : q ≠ o.giver) (s : State)
    (e : Entry) :
    s.acceptNotices o e q =
      if q ∈ e.parties then
        [⟨.membersChanged, none, some e.tag, some o.slot, some e.parties.length, some o.target, none, s.nextFrame⟩]
      else [] := by
  simp [State.acceptNotices, ht, hg]

/-- The state after an ACCEPT was answered (R92, R154). -/
def State.afterAccept (s : State) (o : Offer) : State :=
  ((s.deselect o.target).acceptOffer o).reply o.target .ok
    [byteOf o.slot, o.kind.code, ((entryAt s.staged o.slot).accepted o).tag,
      byteOf ((entryAt s.staged o.slot).accepted o).parties.length]

theorem State.afterAccept_frame (s : State) (o : Offer) :
    { s.afterAccept o with staged := s.staged, offers := s.offers, ports := s.ports } = s := by
  simp [State.afterAccept]

theorem State.afterAccept_offers (s : State) (o : Offer) :
    (s.afterAccept o).offers = s.offers.filter (fun x => x.id != o.id) := by
  simp [State.afterAccept]

theorem State.entryAt_afterAccept (s : State) {o : Offer} (ho : o.slot < 64) (n : Nat) :
    entryAt (s.afterAccept o).staged n =
      if n = o.slot then (entryAt s.staged o.slot).accepted o else entryAt s.staged n := by
  simp [State.afterAccept, State.entryAt_acceptOffer, ho]

theorem State.port_afterAccept_target (s : State) {o : Offer} (hne : o.target ≠ o.giver)
    (hnodup : ((entryAt s.staged o.slot).accepted o).parties.Nodup) :
    (s.afterAccept o).port o.target =
      (s.port o.target).answered .ok [byteOf o.slot, o.kind.code, ((entryAt s.staged o.slot).accepted o).tag,
        byteOf ((entryAt s.staged o.slot).accepted o).parties.length] := by
  have hport := (s.deselect o.target).port_acceptOffer o hnodup o.target
  rw [State.acceptNotices_target hne, PortState.told_nil, State.port_deselect, if_pos rfl] at hport
  rw [State.afterAccept, State.port_reply, if_pos rfl, hport]
  rfl

theorem State.port_afterAccept_ne (s : State) {o : Offer} {q : Port} (hq : q ≠ o.target)
    (hnodup : ((entryAt s.staged o.slot).accepted o).parties.Nodup) :
    (s.afterAccept o).port q
      = (s.port q).told (s.acceptNotices o ((entryAt s.staged o.slot).accepted o) q) := by
  have hport := (s.deselect o.target).port_acceptOffer o hnodup q
  rw [State.port_deselect, if_neg hq] at hport
  rw [State.afterAccept, State.port_reply, if_neg hq, hport]
  rfl

/-- What the laws of the schedule say of an open offer: its slot is not BEACON and obeys R2, and what R87 says of it. -/
theorem State.ScheduleOk.offer {s : State} (h : s.ScheduleOk) {o : Offer} (ho : o ∈ s.offers) :
    (entryAt s.staged o.slot).Ok ∧ entryAt s.staged o.slot ≠ .beacon ∧ o.Ok s.staged := by
  obtain ⟨-, ⟨hbeacon, hentries⟩, -, -, ⟨-, hoffers⟩, -⟩ := h
  obtain ⟨hslot, -, hgiver, -, -⟩ := hoffers o ho
  have hpos : 1 ≤ o.slot := Nat.one_le_iff_ne_zero.2 fun h0 => by
    rw [h0, hbeacon] at hgiver
    exact List.not_mem_nil hgiver
  obtain ⟨hne, hentry⟩ := hentries o.slot hslot hpos
  exact ⟨hentry, hne, hoffers o ho⟩

theorem State.ScheduleOk.target_attached {s : State} (h : s.ScheduleOk) {o : Offer} (ho : o ∈ s.offers) :
    (s.port o.target).attachment ≠ none := by
  obtain ⟨-, -, -, -, -, ⟨-, -, hparties, -⟩, -⟩ := h
  exact Option.isSome_iff_ne_none.1 (hparties o ho).2

/-! ### The outcomes of ACCEPT (R91) -/

theorem exec_accept_of_over_quota {s : State} {p : Port} {l : List Byte} {o : Offer} (ht : s.takes p .accept l = true)
    (hp : (s.port p).attachment ≠ none) (hid : o.id ≠ 0) (hl : l = [o.id]) (hfind : s.offerWithId o.id = some o)
    (htarget : o.target = p) (hquota : s.plan.terms.quotas.get p < (s.ownSlots p).length + 1) :
    exec (.accept p l) s = .next (s.answered p .overQuota []) := by
  have hover : (s.deselect p).quota p < (s.deselect p).holdingCount p + 1 := by
    rw [State.holdingCount_eq_length]
    exact hquota
  refine congrArg Host.Outcome.next ?_
  rw [judgeAccept_eq_judgeParty, State.takeRequest_party_of_found ht hp hid hl hfind htarget, if_pos hover,
    State.settle_refuseWith]

theorem exec_accept_of_within_quota {s : State} {o : Offer} (ht : s.takes o.target .accept [o.id] = true)
    (hp : (s.port o.target).attachment ≠ none) (hid : o.id ≠ 0) (hfind : s.offerWithId o.id = some o)
    (hquota : (s.ownSlots o.target).length + 1 ≤ s.plan.terms.quotas.get o.target) :
    exec (.accept o.target [o.id]) s = .next (s.afterAccept o) := by
  have hwithin : ¬ (s.deselect o.target).quota o.target < (s.deselect o.target).holdingCount o.target + 1 := by
    rw [State.holdingCount_eq_length]
    exact Nat.not_lt.2 hquota
  refine congrArg Host.Outcome.next ?_
  rw [judgeAccept_eq_judgeParty, State.takeRequest_party_of_found ht hp hid rfl hfind rfl, if_neg hwithin]
  rfl

/-! ### The statements (R89 to R93, R95, R96) -/

/-- Settles O25: the payload reads as its fields, the checks are those of the entry and the table, and the table is
sorted, so the offer joins between the lower and the higher slots. -/
theorem offerChecksThenJoinsTheTable : Obligations.OfferChecksThenJoinsTheTable := by
  intro s p payload ⟨_, hS, _⟩ hsorted ht
  refine ⟨fun hp => congrArg _ (State.takeRequest_of_detached (fun u => readOffer u.slots p payload) _ ht hp),
    fun hp => ⟨?_, ?_⟩⟩
  · intro q n k f hq hpos hlt hframes hmax hpayload e o made
    have hread : readOffer s.slots p payload = some ⟨q, n, k, f⟩ :=
      (readOffer_eq_some_iff hS).2 ⟨⟨hq, hpos, hlt, hframes, hmax⟩, hpayload⟩
    rw [exec_offer_of_some ht hp hread]
    refine congrArg _ (if_congr Iff.rfl rfl (if_congr Iff.rfl rfl (ite_congr rfl (fun _ => rfl) fun hfree => ?_)))
    have hjoin := insertOffer_eq_filter (o := o) hsorted fun x hx hslot => hfree ⟨x, hx, hslot⟩
    rw [← hjoin]
    rfl
  · intro hbad
    refine congrArg _ (State.takeRequest_of_unread (fun u => readOffer u.slots p payload) _ ht hp
      (Option.eq_none_iff_forall_ne_some.2 fun ⟨q, n, k, f⟩ hread => ?_))
    obtain ⟨⟨hq, hpos, hlt, hframes, hmax⟩, hpayload⟩ := (readOffer_eq_some_iff hS).1 hread
    exact hbad q n k f hq hpos hlt hframes hmax hpayload

/-- Settles O26: the refusals come in the order of the judgement; and an open offer has its entry in order, so the
acceptance names no port twice and each party has its own notice. -/
theorem acceptMovesOrSharesTheSlot : Obligations.AcceptMovesOrSharesTheSlot := by
  refine ⟨fun s p payload ht => ⟨?_, fun hp => ⟨fun i hi hpayload => ⟨?_, ?_⟩, ?_⟩⟩, ?_⟩
  · exact fun hp => congrArg _ (State.takeRequest_party_of_detached ht hp)
  · exact fun hnone => congrArg _ (State.takeRequest_party_of_no_offer ht hp hi hpayload hnone)
  · rintro o ho rfl htarget halone hquota
    exact exec_accept_of_over_quota ht hp hi hpayload (State.offerWithId_eq_some ho halone) htarget hquota
  · exact fun hbad => congrArg _ (State.takeRequest_party_of_bad_id ht hp hbad)
  · intro s o hschedule hids ho ht hquota
    obtain ⟨hok, hbeacon, hslot, -, hgiver, htarget, hroom⟩ := hschedule.offer ho
    have hne : o.target ≠ o.giver := fun h => htarget (h ▸ hgiver)
    obtain ⟨hafter, -⟩ := Entry.accepted_spec hok hbeacon hgiver htarget hroom
    have hnodup := Entry.parties_nodup hafter
    refine ⟨s.afterAccept o, (entryAt s.staged o.slot).accepted o, ?_, ?_, ?_, ?_,
      exec_accept_of_within_quota ht (hschedule.target_attached ho) (hids.id_ne_zero ho) (hids.offerWithId ho) hquota,
      s.afterAccept_frame o, s.afterAccept_offers o, fun n _ => s.entryAt_afterAccept hslot n,
      s.port_afterAccept_target hne hnodup, ?_, ?_⟩
    · intro h he hk
      rw [he, Entry.accepted_held_handover hk]
    · intro h he hk
      rw [he, Entry.accepted_held_share hk]
    · intro pre post mark h he hk
      rw [he] at hok ⊢
      exact Entry.accepted_shared_handover hk hok
    · intro ms mark h he hk
      rw [he, Entry.accepted_shared_share hk]
    · rw [s.port_afterAccept_ne hne.symm hnodup, State.acceptNotices_giver]
    · intro q hqt hqg
      rw [s.port_afterAccept_ne hqt hnodup, State.acceptNotices_other hqt hqg]

/-- Settles O27: each request drops the offer that its id finds and sends one notice, to the other party. -/
theorem declineAndWithdrawRemoveTheOffer : Obligations.DeclineAndWithdrawRemoveTheOffer := by
  intro s p payload hids told
  refine ⟨fun ht => exec_of_judgeParty (c := .decline p payload) (other := Offer.giver) rfl
      (judgeDecline_eq_judgeParty p payload) ht hids ?_,
    fun ht => exec_of_judgeParty (c := .withdraw p payload) (other := Offer.target) rfl
      (judgeWithdraw_eq_judgeParty p payload) ht hids ?_⟩
  · rintro o rfl hother
    exact s.reply_dropOffer_notify hother o.id (told o .offerRefused .declined)
  · rintro o rfl hother
    exact s.reply_dropOffer_notify hother o.id (told o .offerVoid .withdrawn)

end Sys2Proof.Machine
end

section
/-! SUPPORT. The proofs of the statements about SCHEDULE and UNSCHEDULE: the payload of SCHEDULE, the new id, the place
that an entry takes in the timed edit list, and the outcomes of the two requests. -/

namespace Sys2Proof.Machine

open Sys2Proof

/-! ### The payload of SCHEDULE (R108, R165, R166) -/

theorem wordOf_wordBytes (x : Word) :
    wordOf (x.extractLsb' 24 8) (x.extractLsb' 16 8) (x.extractLsb' 8 8) (x.extractLsb' 0 8) = x := by
  rw [wordOf, BitVec.extractLsb'_append_extractLsb'_eq_extractLsb' (by decide),
    BitVec.extractLsb'_append_extractLsb'_eq_extractLsb' (by decide),
    BitVec.extractLsb'_append_extractLsb'_eq_extractLsb' (by decide)]
  exact BitVec.extractLsb'_eq_self

theorem wordBytes_wordOf (b3 b2 b1 b0 : Byte) : wordBytes (wordOf b3 b2 b1 b0) = [b3, b2, b1, b0] := by
  have h3 : (wordOf b3 b2 b1 b0).extractLsb' 24 8 = b3 :=
    (BitVec.extractLsb'_append_eq_of_le (by decide)).trans
      ((BitVec.extractLsb'_append_eq_of_le (by decide)).trans BitVec.extractLsb'_append_eq_left)
  have h2 : (wordOf b3 b2 b1 b0).extractLsb' 16 8 = b2 :=
    (BitVec.extractLsb'_append_eq_of_le (by decide)).trans
      ((BitVec.extractLsb'_append_eq_of_le (by decide)).trans BitVec.extractLsb'_append_eq_right)
  have h1 : (wordOf b3 b2 b1 b0).extractLsb' 8 8 = b1 :=
    (BitVec.extractLsb'_append_eq_of_le (by decide)).trans BitVec.extractLsb'_append_eq_right
  have h0 : (wordOf b3 b2 b1 b0).extractLsb' 0 8 = b0 := BitVec.extractLsb'_append_eq_right
  rw [wordBytes, h3, h2, h1, h0]

/-- The bytes after the activation frame read as an action exactly when they are its bytes and check 2 of R108 holds of
it. -/
theorem readAction_eq_some_iff {slots : Nat} (hS : slots ≤ 64) {l : List Byte} {act : TimedAction} :
    readAction slots l = some act ↔ act.Fits slots ∧ l = act.payload := by
  constructor
  · intro h
    unfold readAction at h
    split at h
    · split_ifs at h with hrelease hrenew henqueue
      · split at h
        · obtain ⟨hrange, hact⟩ := Option.ite_none_right_eq_some.1 h
          cases hact
          exact ⟨hrange, by rw [hrelease, TimedAction.payload, byteOf_toNat]⟩
        · cases h
      · split at h
        · obtain ⟨hrange, hact⟩ := Option.ite_none_right_eq_some.1 h
          cases hact
          exact ⟨hrange, by rw [hrenew, TimedAction.payload, byteOf_toNat, halfBytes_halfOf]; rfl⟩
        · cases h
      · obtain ⟨r, hr, hact⟩ := Option.map_eq_some_iff.1 h
        cases hact
        obtain ⟨hfits, hrest⟩ := (readReservation_eq_some_iff hS).1 hr
        exact ⟨hfits, by rw [henqueue, hrest, TimedAction.payload]⟩
    · cases h
  · rintro ⟨hfits, rfl⟩
    cases act with
    | release n =>
      obtain ⟨hpos, hlt⟩ := hfits
      have hn : (byteOf n).toNat = n := byteOf_toNat_of_lt (by omega)
      simp [TimedAction.payload, readAction, hn, hpos, hlt]
    | renew n lease =>
      obtain ⟨hpos, hlt, hlease⟩ := hfits
      have hn : (byteOf n).toNat = n := byteOf_toNat_of_lt (by omega)
      simpa [TimedAction.payload, readAction, halfBytes, halfOf_halfBytes, hn, hpos, hlt] using hlease
    | enqueue r =>
      have hr : readReservation slots r.payload = some r := (readReservation_eq_some_iff hS).2 ⟨hfits, rfl⟩
      simp [TimedAction.payload, readAction, hr]

/-- A SCHEDULE payload reads as a frame and an action exactly when it is their bytes and the action fits. -/
theorem readSchedule_eq_some_iff {slots : Nat} (hS : slots ≤ 64) {l : List Byte} {f : Word} {act : TimedAction} :
    readSchedule slots l = some (f, act) ↔ act.Fits slots ∧ l = wordBytes f ++ act.payload := by
  constructor
  · intro h
    unfold readSchedule at h
    split at h
    · obtain ⟨a, ha, hpair⟩ := Option.map_eq_some_iff.1 h
      cases hpair
      obtain ⟨hfits, hrest⟩ := (readAction_eq_some_iff hS).1 ha
      exact ⟨hfits, by rw [wordBytes_wordOf, hrest]; rfl⟩
    · cases h
  · rintro ⟨hfits, rfl⟩
    have hact : readAction slots act.payload = some act := (readAction_eq_some_iff hS).2 ⟨hfits, rfl⟩
    simp [wordBytes, readSchedule, wordOf_wordBytes, hact]

/-! ### The id of a new edit (R107)

The position in the reply is found by the id, so the id must be new whatever value the counter has. -/

theorem length_idChain (n : Nat) (i : Byte) : (idChain n i).length = n := by
  induction n generalizing i with
  | zero => rfl
  | succ n ih => simp [idChain, ih]

/-- Where a run meets an unused value, the id is unused, also when the run starts from 0. -/
theorem freeId_unused {used : Byte → Bool} {fuel : Nat} {i j : Byte} (hj : j ∈ idChain fuel i)
    (hused : used j = false) : used (freeId used fuel i) = false := by
  induction fuel generalizing i with
  | zero => cases hj
  | succ n ih =>
    rw [freeId]
    split
    · rename_i hi
      rcases List.mem_cons.1 hj with rfl | hrest
      · rw [hi] at hused
        cases hused
      · exact ih hrest
    · simpa using ‹¬ used i = true›

/-- Twenty-four values in a row are distinct, from 0 on as well. -/
theorem idChain_24_nodup (i : Byte) : (idChain 24 i).Nodup := by
  rcases idChain_nodup i with h | rfl
  · exact idChain_take 24 25 i (by omega) ▸ h.sublist (List.take_sublist _ _)
  · decide

/-- A list with room carries no entry with the new id. -/
theorem State.newEditId_fresh {s : State} (h : s.edits.length < 24) : ∀ x ∈ s.edits, x.id ≠ s.newEditId := by
  obtain ⟨j, hj, hfree⟩ : ∃ j ∈ idChain 24 s.editCounter, j ∉ s.edits.map Edit.id := by
    by_contra hall
    push Not at hall
    have hle := ((idChain_24_nodup s.editCounter).subperm hall).length_le
    rw [length_idChain, List.length_map] at hle
    omega
  have hchain : j ∈ idChain 255 s.editCounter := by
    rw [← idChain_take 24 255 s.editCounter (by omega)] at hj
    exact List.mem_of_mem_take hj
  simpa [State.newEditId] using freeId_unused (used := fun i => s.edits.any (fun e => e.id == i)) hchain
    (by simpa using hfree)

/-! ### The place in the timed edit list (R105, R110) -/

/-- The entries that activate as near as `f` or nearer. -/
def State.nearer (s : State) (f : Word) : List Edit :=
  s.edits.filter (fun x => s.distance x.activation ≤ s.distance f)

/-- The entries that activate farther ahead than `f`. -/
def State.farther (s : State) (f : Word) : List Edit :=
  s.edits.filter (fun x => s.distance f < s.distance x.activation)

theorem State.insertEdit_perm (s : State) (e : Edit) (l : List Edit) : (s.insertEdit e l).Perm (e :: l) := by
  induction l with
  | nil => exact .refl _
  | cons x xs ih =>
    rw [State.insertEdit]
    split
    · exact .refl _
    · exact (ih.cons x).trans (.swap e x xs)

/-- In a list sorted by distance an entry stands between those as near or nearer and those farther ahead. -/
theorem State.insertEdit_eq_filter {s : State} {e : Edit} {l : List Edit}
    (hl : l.Pairwise (fun x y => s.distance x.activation ≤ s.distance y.activation)) :
    s.insertEdit e l = l.filter (fun x => s.distance x.activation ≤ s.distance e.activation)
      ++ e :: l.filter (fun x => s.distance e.activation < s.distance x.activation) := by
  induction l with
  | nil => rfl
  | cons x xs ih =>
    obtain ⟨hx, hxs⟩ := List.pairwise_cons.1 hl
    by_cases hlt : s.distance e.activation < s.distance x.activation
    · have hall : ∀ y ∈ x :: xs, s.distance e.activation < s.distance y.activation := by
        rintro y (_ | ⟨_, hy⟩)
        · exact hlt
        · exact hlt.trans_le (hx y hy)
      have hnear : (x :: xs).filter (fun y => s.distance y.activation ≤ s.distance e.activation) = [] :=
        List.filter_eq_nil_iff.2 fun y hy => by simpa using hall y hy
      have hfar : (x :: xs).filter (fun y => s.distance e.activation < s.distance y.activation) = x :: xs :=
        List.filter_eq_self.2 fun y hy => by simpa using hall y hy
      rw [State.insertEdit, if_pos hlt, hnear, hfar, List.nil_append]
    · rw [State.insertEdit, if_neg hlt, ih hxs]
      simp [hlt, Nat.not_lt.1 hlt]

/-- A new entry is found by its id behind the entries as near or nearer. -/
theorem State.findIdx_newEdit {s : State} (h : s.edits.length < 24) (p : Port) (f : Word) (act : TimedAction) :
    (s.nearer f ++ s.newEdit p f act :: s.farther f).findIdx (fun x => x.id == s.newEditId)
      = (s.nearer f).length := by
  have hnear : ∀ x ∈ s.nearer f, (x.id == s.newEditId) = false := fun x hx =>
    beq_false_of_ne (State.newEditId_fresh h x (List.mem_of_mem_filter hx))
  rw [List.findIdx_append, List.findIdx_eq_length_of_false hnear, if_neg (Nat.lt_irrefl _), List.findIdx_cons]
  simp [State.newEdit]

/-- A new entry counts for its issuer. -/
theorem State.countP_insertEdit_newEdit (s : State) (p : Port) (f : Word) (act : TimedAction) :
    (s.insertEdit (s.newEdit p f act) s.edits).countP (fun x => x.issuer == p)
      = (s.edits.filter (fun x => x.issuer == p)).length + 1 := by
  rw [(s.insertEdit_perm _ s.edits).countP_eq, List.countP_cons_of_pos (by simp [State.newEdit]),
    List.countP_eq_length_filter]

/-! ### SCHEDULE (R108 to R110) -/

/-- The part after a SCHEDULE that passed its checks (R107, R110). -/
def State.afterSchedule (s : State) (p : Port) (f : Word) (act : TimedAction) : State :=
  { s with
    edits := s.nearer f ++ s.newEdit p f act :: s.farther f
    editCounter := nextId s.newEditId }

/-- The reply body of that SCHEDULE: the id, the position, and the issuer's count (R110). -/
def State.scheduleBody (s : State) (p : Port) (f : Word) : List Byte :=
  [s.newEditId, byteOf ((s.nearer f).length + 1),
    byteOf ((s.edits.filter (fun (x : Edit) => x.issuer == p)).length + 1)]

/-- The OK of a SCHEDULE, in the terms of the sorted list. -/
theorem State.ok_insertEdit {s : State} (hsorted : s.EditsOk) (hroom : s.edits.length < 24) (p : Port) (f : Word)
    (act : TimedAction) :
    let t : State := { s with edits := s.insertEdit (s.newEdit p f act) s.edits, editCounter := nextId s.newEditId }
    Answer.ok t [s.newEditId, byteOf (t.edits.findIdx (fun x => x.id == s.newEditId) + 1), byteOf (t.editCount p)]
      = .ok (s.afterSchedule p f act) (s.scheduleBody p f) := by
  intro t
  obtain ⟨-, hpairwise, -⟩ := hsorted
  have hplace : t.edits = s.nearer f ++ s.newEdit p f act :: s.farther f := State.insertEdit_eq_filter hpairwise
  have hcount : t.editCount p = (s.edits.filter (fun x => x.issuer == p)).length + 1 :=
    s.countP_insertEdit_newEdit p f act
  have hstate : t = s.afterSchedule p f act := by rw [State.afterSchedule, ← hplace]
  rw [hcount, hplace, State.findIdx_newEdit hroom, hstate, State.scheduleBody]

/-- SCHEDULE whose fields read: checks 3 to 5 in their order, and the effect (R108 to R110). -/
theorem exec_schedule_of_some {s : State} {p : Port} {l : List Byte} {f : Word} {act : TimedAction}
    (ht : s.takes p .schedule l = true) (hp : (s.port p).attachment ≠ none) (hsorted : s.EditsOk)
    (hread : readSchedule s.slots l = some (f, act)) :
    exec (.schedule p l) s = .next
      (if s.distance f = 0 then s.answered p .past (wordBytes s.frameCounter)
      else if 1048576 < s.distance f then s.answered p .tooFar (wordBytes s.frameCounter)
      else if 24 ≤ s.edits.length then s.answered p .listFull []
      else (s.afterSchedule p f act).answered p .ok (s.scheduleBody p f)) := by
  have hsortedD : (s.deselect p).EditsOk := hsorted
  refine congrArg Host.Outcome.next
    ((State.takeRequest_of_read (fun u => readSchedule u.slots l) _ ht hp hread).trans ?_)
  simp only [apply_ite ((s.deselect p).settle p), State.settle_refuse, State.settle_refuseWith]
  refine if_congr Iff.rfl rfl (if_congr Iff.rfl rfl (ite_congr rfl (fun _ => rfl) fun hroom => ?_))
  exact (congrArg ((s.deselect p).settle p) (State.ok_insertEdit hsortedD (Nat.not_le.1 hroom) p f act)).trans
    (State.reply_deselect (s.afterSchedule p f act) p .ok (s.scheduleBody p f))

/-! ### UNSCHEDULE (R115) -/

theorem readName_eq_none {l : List Byte} (h : ∀ i : Byte, i ≠ 0 → l ≠ [i]) : readName l = none :=
  Option.eq_none_iff_forall_ne_some.2 fun i hread => by
    obtain ⟨hi, hl⟩ := readName_eq_some_iff.1 hread
    exact h i hi hl

theorem find?_edit_eq_none {l : List Edit} {p : Port} {i : Byte} (h : ∀ x ∈ l, x.issuer = p → x.id ≠ i) :
    l.find? (fun x => x.id == i && x.issuer == p) = none := by
  refine List.find?_eq_none.2 fun x hx hfound => ?_
  obtain ⟨hid, hissuer⟩ : x.id = i ∧ x.issuer = p := by simpa using hfound
  exact h x hx hissuer hid

/-- The first entry that is its issuer's with its id is the one that is found. -/
theorem find?_edit_eq_some {e : Edit} {ahead behind : List Edit}
    (hahead : ∀ x ∈ ahead, x.issuer = e.issuer → x.id ≠ e.id) :
    (ahead ++ e :: behind).find? (fun x => x.id == e.id && x.issuer == e.issuer) = some e := by
  rw [List.find?_append, find?_edit_eq_none hahead, Option.none_or, List.find?_cons_of_pos (by simp)]

theorem exec_unschedule_of_not_found {s : State} {p : Port} {l : List Byte} {i : Byte}
    (ht : s.takes p .unschedule l = true) (hp : (s.port p).attachment ≠ none) (hread : readName l = some i)
    (hfind : s.edits.find? (fun e => e.id == i && e.issuer == p) = none) :
    exec (.unschedule p l) s = .next (s.answered p .noEdit []) := by
  have hfindD : (s.deselect p).edits.find? (fun e => e.id == i && e.issuer == p) = none := hfind
  refine congrArg Host.Outcome.next ((State.takeRequest_of_read (fun _ => readName l) _ ht hp hread).trans ?_)
  simp only [hfindD, State.settle_refuseWith]

theorem exec_unschedule_of_found {s : State} {p : Port} {l : List Byte} {i : Byte} {e : Edit}
    (ht : s.takes p .unschedule l = true) (hp : (s.port p).attachment ≠ none) (hread : readName l = some i)
    (hfind : s.edits.find? (fun e => e.id == i && e.issuer == p) = some e) :
    exec (.unschedule p l) s = .next
      ({ s with edits := s.edits.erase e }.answered p .ok (wordBytes e.activation ++ [e.action.code])) := by
  have hfindD : (s.deselect p).edits.find? (fun e => e.id == i && e.issuer == p) = some e := hfind
  refine congrArg Host.Outcome.next ((State.takeRequest_of_read (fun _ => readName l) _ ht hp hread).trans ?_)
  simp only [hfindD, State.settle_ok]
  exact State.reply_deselect { s with edits := s.edits.erase e } p .ok _

/-! ### The statements (R108 to R110, R115) -/

/-- Settles O30: the payload reads as its frame and its action, the checks are those of the distance and the list, and
the list is sorted by distance, so the entry joins behind those as near or nearer. -/
theorem scheduleChecksThenJoinsTheList : Obligations.ScheduleChecksThenJoinsTheList := by
  intro s p payload ⟨_, hS, _⟩ hsorted ht
  refine ⟨fun hp => congrArg _ (State.takeRequest_of_detached (fun u => readSchedule u.slots payload) _ ht hp),
    fun hp => ⟨?_, ?_⟩⟩
  · intro f act hfits hpayload ahead e nearer farther
    exact exec_schedule_of_some ht hp hsorted ((readSchedule_eq_some_iff hS).2 ⟨hfits, hpayload⟩)
  · intro hbad
    refine congrArg _ (State.takeRequest_of_unread (fun u => readSchedule u.slots payload) _ ht hp
      (Option.eq_none_iff_forall_ne_some.2 fun ⟨f, act⟩ hread => ?_))
    obtain ⟨hfits, hpayload⟩ := (readSchedule_eq_some_iff hS).1 hread
    exact hbad f act hfits hpayload

/-- Settles O31: the entry is the first of the port's with that id, so it is the one that leaves. -/
theorem unscheduleRemovesTheOwnEdit : Obligations.UnscheduleRemovesTheOwnEdit := by
  intro s p payload ht
  refine ⟨fun hp => congrArg _ (State.takeRequest_of_detached (fun _ => readName payload) _ ht hp),
    fun hp => ⟨?_, ?_, ?_⟩⟩
  · rintro ahead behind e hid hpayload rfl hedits hahead
    have hfind := find?_edit_eq_some (behind := behind) hahead
    have herase : s.edits.erase e = ahead ++ behind := by
      have hnot : e ∉ ahead := fun hmem => hahead e hmem rfl rfl
      rw [hedits, List.erase_append_right _ hnot, List.erase_cons_head]
    rw [exec_unschedule_of_found ht hp (readName_eq_some_iff.2 ⟨hid, hpayload⟩) (hedits ▸ hfind), herase]
    cases e.action <;> rfl
  · intro i hi hpayload hnone
    exact exec_unschedule_of_not_found ht hp (readName_eq_some_iff.2 ⟨hi, hpayload⟩) (find?_edit_eq_none hnone)
  · intro hbad
    exact congrArg _ (State.takeRequest_of_unread (fun _ => readName payload) _ ht hp (readName_eq_none hbad))

end Sys2Proof.Machine
end

section
/-! SUPPORT. The proofs of the statements about the plan and its confirmation: the plan record and the read-out of the
proposal, the answer to a request that tells several ports, and the outcomes of PROPOSE, CONFIRM and REJECT. -/

namespace Sys2Proof.Machine

open Sys2Proof

/-! ### Flag bytes and the two ends of a proposal's read-out (R165, R167) -/

/-- The flags byte of a plan record is the sum of its three flags. -/
theorem geometryFlags_eq_sum (g : Geometry) :
    geometryFlags g = byteOf ((if g.source == .external then 2 ^ 0 else 0) + (if g.form == .span then 2 ^ 1 else 0)
      + (if g.polarity == .low then 2 ^ 2 else 0)) := by
  unfold geometryFlags
  cases g.source == .external <;> cases g.form == .span <;> cases g.polarity == .low <;> rfl

/-- The byte of a port set is the sum of its four flags. -/
theorem portSetByte_eq_sum (v : PortSet) :
    portSetByte v = byteOf ((if v.a then 2 ^ 0 else 0) + (if v.b then 2 ^ 1 else 0) + (if v.c then 2 ^ 2 else 0)
      + (if v.d then 2 ^ 3 else 0)) := by
  obtain ⟨a, b, c, d⟩ := v
  cases a <;> cases b <;> cases c <;> cases d <;> rfl

/-- One byte of a number that a word of `w` bits holds. -/
theorem extractLsb'_ofNat_eq_byteOf (w : Nat) {k n : Nat} (h : n < 2 ^ w) :
    (BitVec.ofNat w n).extractLsb' k 8 = byteOf (n / 2 ^ k) := by
  refine BitVec.eq_of_toNat_eq ?_
  rw [BitVec.extractLsb'_toNat, BitVec.toNat_ofNat, Nat.mod_eq_of_lt h, Nat.shiftRight_eq_div_pow]
  rfl

/-- A deadline in range fills the lower half of the last word of a proposal's read-out. -/
theorem wordBytes_ofNat_of_lt {n : Nat} (h : n < 2 ^ 16) :
    wordBytes (BitVec.ofNat 32 n) = [0, 0] ++ halfBytes (BitVec.ofNat 16 n) := by
  have h32 : n < 2 ^ 32 := h.trans (by decide)
  have h3 : n / 2 ^ 24 = 0 := Nat.div_eq_of_lt (h.trans (by decide))
  have h2 : n / 2 ^ 16 = 0 := Nat.div_eq_of_lt h
  simp only [wordBytes, halfBytes, extractLsb'_ofNat_eq_byteOf 32 h32, extractLsb'_ofNat_eq_byteOf 16 h, h3, h2]
  rfl

/-! ### A payload without fields (R165) -/

theorem readEmpty_nil : readEmpty [] = some () := rfl

theorem readEmpty_of_ne_nil {l : List Byte} (h : l ≠ []) : readEmpty l = none := if_neg h

/-! ### READ_PLAN (R136) -/

theorem exec_readPlan_of_nil {s : State} {p : Port} (ht : s.takes p .readPlan [] = true) :
    exec (.readPlan p []) s = .next
      (s.answered p .ok (planBytes s.plan.terms s.plan.number ++ proposalBytes s.proposal)) :=
  congrArg Host.Outcome.next ((s.takeRequest_of_takes p .readPlan [] _ ht).trans (s.reply_deselect p .ok _))

theorem exec_readPlan_of_ne_nil {s : State} {p : Port} {l : List Byte} (ht : s.takes p .readPlan l = true)
    (hl : l ≠ []) : exec (.readPlan p l) s = .next (s.answered p .badField []) := by
  refine congrArg Host.Outcome.next ((s.takeRequest_of_takes p .readPlan l _ ht).trans ?_)
  rw [judgeReadPlan, readEmpty_of_ne_nil hl, withFields_none, State.settle_refuseWith]

/-! ### The payload of PROPOSE (R124, R165, R166) -/

theorem readWidth_eq_some_iff {b : Byte} {w : SlotWidth} : readWidth b = some w ↔ byteOf w.bits = b := by
  constructor
  · intro h
    unfold readWidth at h
    split_ifs at h with h16 h24 h32 <;> cases h <;> exact Eq.symm ‹_›
  · rintro rfl
    cases w <;> rfl

/-- The clock source that a flags byte names. -/
def readSource (f : Byte) : ClockSource := if f.getLsbD 0 then .external else .internal

/-- The sync form that a flags byte names. -/
def readForm (f : Byte) : SyncForm := if f.getLsbD 1 then .span else .pulse

/-- The sync polarity that a flags byte names. -/
def readPolarity (f : Byte) : SyncPolarity := if f.getLsbD 2 then .low else .high

/-- The flags byte of these three fields. -/
def flagsByte (source : ClockSource) (form : SyncForm) (polarity : SyncPolarity) : Byte :=
  bitAt 0 (source == .external) ||| bitAt 1 (form == .span) ||| bitAt 2 (polarity == .low)

theorem geometryFlags_eq_flagsByte (g : Geometry) : geometryFlags g = flagsByte g.source g.form g.polarity := rfl

theorem flagsByte_read_byteOf : ∀ n < 8,
    flagsByte (readSource (byteOf n)) (readForm (byteOf n)) (readPolarity (byteOf n)) = byteOf n := by decide

/-- A flags byte without other bits is that of the fields it names. -/
theorem flagsByte_read {f : Byte} (h : f.toNat < 8) : flagsByte (readSource f) (readForm f) (readPolarity f) = f := by
  have hf := flagsByte_read_byteOf f.toNat h
  rwa [byteOf_toNat] at hf

/-- The flags byte of three fields has no other bits, and names them. -/
theorem read_flagsByte (source : ClockSource) (form : SyncForm) (polarity : SyncPolarity) :
    (flagsByte source form polarity).toNat < 8 ∧ readSource (flagsByte source form polarity) = source
      ∧ readForm (flagsByte source form polarity) = form
      ∧ readPolarity (flagsByte source form polarity) = polarity := by
  cases source <;> cases form <;> cases polarity <;> decide

/-- A payload reads as a plan and a deadline exactly when it is their bytes, with any plan number, and they are in the
ranges of R124. -/
theorem readProposal_eq_some_iff {l : List Byte} {t : PlanTerms} {d : Nat} :
    readProposal l = some (t, d) ↔ t.Ok ∧ 1 ≤ d ∧ d ≤ 4095 ∧ ∃ n1 n0, l = t.payload n1 n0 d := by
  constructor
  · intro h
    obtain ⟨hok, hpos, hmax⟩ := readProposal_ok h
    refine ⟨hok, hpos, hmax, ?_⟩
    unfold readProposal at h
    split at h
    · rename_i slots w f dv qa qb qc qd n1 n0 d1 d0
      obtain ⟨⟨-, -, hflags, -⟩, h⟩ := Option.ite_none_right_eq_some.1 h
      obtain ⟨width, hwidth, hpair⟩ := Option.map_eq_some_iff.1 h
      cases hpair
      refine ⟨n1, n0, ?_⟩
      simp only [PlanTerms.payload, termsBytes, byteOf_toNat, readWidth_eq_some_iff.1 hwidth, ofNat_toNat_half,
        halfBytes_halfOf]
      exact congrArg (fun b => [slots, w, b, dv, qa, qb, qc, qd, n1, n0, d1, d0]) (flagsByte_read hflags).symm
    · cases h
  · rintro ⟨⟨hmin, hmax, hquotas⟩, hpos, hlast, n1, n0, rfl⟩
    obtain ⟨⟨slots, width, source, dv, form, polarity⟩, qa, qb, qc, qd⟩ := t
    have ha : qa ≤ 63 := hquotas .a
    have hb : qb ≤ 63 := hquotas .b
    have hc : qc ≤ 63 := hquotas .c
    have hd : qd ≤ 63 := hquotas .d
    obtain ⟨hflags, hsource, hform, hpolarity⟩ := read_flagsByte source form polarity
    have hdeadline : (BitVec.ofNat 16 d).toNat = d := Nat.mod_eq_of_lt (by omega)
    have hbyte : ∀ n ≤ 64, (byteOf n).toNat = n := fun n hn => byteOf_toNat_of_lt (by omega)
    simp only [readSource, readForm, readPolarity] at hsource hform hpolarity
    simp only [PlanTerms.payload, termsBytes, geometryFlags_eq_flagsByte, halfBytes, List.cons_append,
      List.nil_append, readProposal, halfOf_halfBytes, hdeadline, readWidth_eq_some_iff.2 rfl, Option.map_some, hsource, hform, hpolarity,
      hbyte slots hmax, hbyte qa (by omega), hbyte qb (by omega), hbyte qc (by omega), hbyte qd (by omega)]
    exact if_pos ⟨hmin, hmax, hflags, ha, hb, hc, hd, hpos, hlast⟩

/-! ### A request that tells several ports (R140, R154) -/

/-- `s` after each port `q` was told the notices `news q`. -/
def State.toldAll (s : State) (news : Port → List Notice) : State :=
  { s with
    ports := ⟨(s.port .a).told (news .a), (s.port .b).told (news .b), (s.port .c).told (news .c),
      (s.port .d).told (news .d)⟩ }

theorem State.port_toldAll (s : State) (news : Port → List Notice) (q : Port) :
    (s.toldAll news).port q = (s.port q).told (news q) := by cases q <;> rfl

theorem State.eq_toldAll {s t : State} {news : Port → List Notice} (h : { t with ports := s.ports } = s)
    (hp : ∀ q, t.port q = (s.port q).told (news q)) : t = s.toldAll news :=
  State.eq_of_ports (congrArg (fun u : State => { u with ports := (s.toldAll news).ports }) h)
    fun q => (hp q).trans (s.port_toldAll news q).symm

theorem PortState.told_ite (x : PortState) (c : Prop) [Decidable c] (l : List Notice) :
    x.told (if c then l else []) = if c then x.told l else x := by
  split
  · rfl
  · exact x.told_nil

/-- The same notice to several ports, each named once. -/
theorem State.notifyAll_eq_toldAll (s : State) {ps : List Port} (h : ps.Nodup) (n : Notice) :
    s.notifyAll ps n = s.toldAll (fun q => if q ∈ ps then [n] else []) := by
  refine State.eq_toldAll (by simp) fun q => ?_
  rw [State.port_notifyAll s h, PortState.told_ite]

theorem State.deliver_eq_toldAll (s : State) (l : List (Port × Notice)) :
    s.deliver l = s.toldAll (fun q => (l.filter (fun x => x.1 == q)).map Prod.snd) :=
  State.eq_toldAll (by simp) (s.port_deliver l)

/-- A rise of CSn before some notices is one after them. -/
theorem PortState.told_deselected (x : PortState) (l : List Notice) :
    { x with selected := false, receiver := .idle }.told l
      = { x.told l with selected := false, receiver := .idle } := by
  unfold PortState.told
  split
  · clear * -
    induction l generalizing x with
    | nil => rfl
    | cons n l ih =>
      have hn : { x with selected := false, receiver := .idle }.takeNotice n
          = { x.takeNotice n with selected := false, receiver := .idle } := by
        unfold PortState.takeNotice
        split <;> rfl
      rw [List.foldl_cons, List.foldl_cons, hn, ih]
  · rfl

/-- The end of a request of port `p` that sent notices to any ports. -/
theorem State.reply_toldAll_deselect (s : State) (p : Port) (news : Port → List Notice) (code : ReplyCode)
    (body : List Byte) :
    ((s.deselect p).toldAll news).reply p code body = (s.toldAll news).answered p code body := by
  refine State.eq_of_ports rfl fun q => ?_
  rw [State.port_reply, State.port_answered, State.port_toldAll, State.port_toldAll, State.port_toldAll,
    State.port_deselect, State.port_deselect]
  by_cases hq : q = p
  · rw [if_pos hq, if_pos hq, if_pos rfl, PortState.told_deselected]
    rfl
  · rw [if_neg hq, if_neg hq, if_neg hq, State.port_toldAll]

/-- The ports that notices make, as a value per port. -/
theorem State.toldAll_eq_of_ports {s : State} {news : Port → List Notice} {v : PerPort PortState}
    (h : ∀ q, (s.port q).told (news q) = v.get q) : s.toldAll news = { s with ports := v } :=
  (State.eq_toldAll (s := s) (t := { s with ports := v }) rfl fun q => (h q).symm).symm

/-- An answer after the proposal state became `x` and notices were sent, port by port. -/
theorem State.answered_toldAll {s : State} {news : Port → List Notice} {told : Port → PortState}
    (h : ∀ q, (s.port q).told (news q) = told q) (x : ProposalState) (p : Port) (code : ReplyCode)
    (body : List Byte) :
    ({ s with proposal := x }.toldAll news).answered p code body
      = { s with proposal := x, ports := ⟨told .a, told .b, told .c, told .d⟩ }.answered p code body :=
  congrArg (fun u : State => u.answered p code body)
    (State.toldAll_eq_of_ports fun q => (h q).trans (by cases q <;> rfl))

/-! ### A proposal judged or failed (R126, R127) -/

theorem Proposal.complete_iff (pr : Proposal) : pr.complete = true ↔ pr.confirmed = pr.confirming := by
  simp [Proposal.complete]

theorem State.judgeProposal_of_complete (s : State) {pr : Proposal} (h : pr.confirmed = pr.confirming) (d : Nat) :
    s.judgeProposal pr d
      = { s with proposal := .agreed pr (s.frameCounter + 1) }.toldAll (fun _ => [s.agreedNotice pr]) := by
  rw [State.judgeProposal, if_pos (pr.complete_iff.2 h), State.notifyAll_eq_toldAll _ portList_nodup]
  simp only [mem_portList, if_true]

theorem State.judgeProposal_of_incomplete (s : State) {pr : Proposal} (h : pr.confirmed ≠ pr.confirming) (d : Nat) :
    s.judgeProposal pr d = { s with proposal := .opened pr d } :=
  if_neg (mt pr.complete_iff.1 h)

/-- The end of a request of port `p` that completes the confirmation. -/
theorem State.reply_judgeProposal_of_complete (s : State) {pr : Proposal} (h : pr.confirmed = pr.confirming)
    (p : Port) (d : Nat) (body : List Byte) :
    ((s.deselect p).judgeProposal pr d).reply p .ok body
      = ({ s with proposal := .agreed pr (s.frameCounter + 1) }.toldAll (fun _ => [s.agreedNotice pr])).answered p .ok
          body := by
  rw [State.judgeProposal_of_complete _ h]
  exact State.reply_toldAll_deselect { s with proposal := .agreed pr (s.frameCounter + 1) } p _ .ok body

/-- The end of a request of port `p` that leaves the proposal OPEN. -/
theorem State.reply_judgeProposal_of_incomplete (s : State) {pr : Proposal} (h : pr.confirmed ≠ pr.confirming)
    (p : Port) (d : Nat) (body : List Byte) :
    ((s.deselect p).judgeProposal pr d).reply p .ok body
      = { s with proposal := .opened pr d }.answered p .ok body := by
  rw [State.judgeProposal_of_incomplete _ h]
  exact State.reply_deselect { s with proposal := .opened pr d } p .ok body

theorem Proposal.missing_of_complete {pr : Proposal} (h : pr.confirmed = pr.confirming) : pr.missing = 0 := by
  simp [Proposal.missing, h]

/-- What a failure tells a port: PLAN_FAILED to a member of the confirming set (R127, R128, R129). -/
def State.failNews (s : State) (pr : Proposal) (why : Reason) (who q : Port) : List Notice :=
  if pr.confirming.get q = true then [{ s.notice .planFailed with reason := some why, other := some who }] else []

/-- A failure tells each member of the confirming set once. -/
theorem State.failProposal_eq_toldAll (s : State) (pr : Proposal) (why : Reason) (who : Port) :
    s.failProposal pr why who = { s with proposal := .none }.toldAll (s.failNews pr why who) := by
  rw [State.failProposal, State.deliver_eq_toldAll]
  refine congrArg _ (funext fun q => ?_)
  have hone : pr.confirming.elems.filter (fun r => r == q) = if pr.confirming.get q = true then [q] else [] := by
    rw [List.filter_beq, (PerPort.elems_nodup _).count]
    simp only [PerPort.mem_elems]
    split <;> rfl
  rw [State.failNews, State.failNotices, List.filter_map, List.map_map]
  refine (congrArg (List.map _) hone).trans ?_
  split <;> rfl

/-! ### PROPOSE (R124, R125) -/

theorem State.attached_of_ne_none {s : State} {p : Port} (hp : (s.port p).attachment ≠ none) :
    s.attached p = true :=
  Option.isSome_iff_ne_none.2 hp

theorem State.attachedSet_deselect (s : State) (p : Port) : (s.deselect p).attachedSet = s.attachedSet := by
  simp only [State.attachedSet, State.attached_deselect]

/-- The ATTACHED ports other than the port. -/
def State.others (s : State) (p : Port) : List Port := portList.filter (fun q => q != p && s.attachedSet.get q)

theorem State.mem_others {s : State} {p q : Port} : q ∈ s.others p ↔ q ≠ p ∧ s.attached q = true := by
  simp [State.others]

theorem State.others_nodup (s : State) (p : Port) : (s.others p).Nodup := portList_nodup.filter _

theorem State.others_eq_filter (s : State) (p : Port) : s.attachedSet.elems.filter (· != p) = s.others p :=
  List.filter_filter

/-- An ATTACHED port is counted beside the others. -/
theorem State.size_attachedSet {s : State} {p : Port} (hp : s.attached p = true) :
    s.attachedSet.size = (s.others p).length + 1 := by
  have hmem : p ∈ s.attachedSet.elems := PerPort.mem_elems.2 (by rwa [State.attachedSet_get])
  rw [PerPort.size, ← List.length_erase_add_one hmem, (PerPort.elems_nodup _).erase_eq_filter, State.others_eq_filter]

theorem State.detached_of_others_eq_nil {s : State} {p q : Port} (h : s.others p = []) (hq : q ≠ p) :
    (s.port q).attachment = none := by
  rw [← State.not_attached_iff]
  exact fun ha => List.eq_nil_iff_forall_not_mem.1 h q (State.mem_others.2 ⟨hq, ha⟩)

/-- A notice to the others leaves the port alone, and no DETACHED port is told. -/
theorem State.told_others (s : State) (p q : Port) (n : Notice) :
    (s.port q).told (if q ∈ s.others p then [n] else []) = if q = p then s.port q else (s.port q).told [n] := by
  rw [PortState.told_ite]
  by_cases hq : q = p
  · rw [if_pos hq, if_neg fun h => (State.mem_others.1 h).1 hq]
  · rw [if_neg hq]
    split
    · rfl
    · rename_i hout
      have ha : ¬ s.attached q = true := fun ha => hout (State.mem_others.2 ⟨hq, ha⟩)
      rw [PortState.told_of_detached _ _ ((s.not_attached_iff q).1 ha)]

/-- The proposer confirms alone exactly when no other port is ATTACHED. -/
theorem State.single_eq_attachedSet_iff {s : State} {p : Port} (hp : s.attached p = true) :
    PerPort.single p = s.attachedSet ↔ s.others p = [] := by
  rw [List.eq_nil_iff_forall_not_mem]
  simp only [State.mem_others]
  constructor
  · rintro h q ⟨hq, ha⟩
    rw [← State.attachedSet_get, ← h, PerPort.get_single, beq_iff_eq] at ha
    exact hq ha
  · intro h
    refine PerPort.eq_of_get fun q => ?_
    rw [PerPort.get_single, State.attachedSet_get]
    by_cases hq : q = p
    · rw [hq, hp, beq_self_eq_true]
    · rw [beq_false_of_ne hq, Bool.eq_false_iff.2 fun ha => h q ⟨hq, ha⟩]

/-- PLAN_OPEN of a proposal of port `p` with deadline `d` (R124). -/
def State.openNotice (s : State) (p : Port) (d : Nat) : Notice :=
  { s.notice .planOpen with other := some p, count := some d }

section Propose

variable {s : State} {p : Port} {l : List Byte} {terms : PlanTerms} {d : Nat}

/-- Check 3 of R124: a proposal that stands refuses another. -/
theorem exec_propose_of_standing (ht : s.takes p .propose l = true) (hp : (s.port p).attachment ≠ none)
    (hread : readProposal l = some (terms, d)) (hstanding : s.proposal ≠ .none) :
    exec (.propose p l) s = .next (s.answered p .proposalOpen []) := by
  refine congrArg Host.Outcome.next ((State.takeRequest_of_read (fun _ => readProposal l) _ ht hp hread).trans ?_)
  have hsame : (s.deselect p).proposal = s.proposal := rfl
  rw [← State.settle_refuseWith]
  cases hs : s.proposal with
  | none => exact absurd hs hstanding
  | opened pr left => simp only [hsame, hs]
  | agreed pr f => simp only [hsame, hs]

/-- With no proposal standing, the new one is judged, and while it is OPEN the others are told (R124). -/
theorem exec_propose_of_none (ht : s.takes p .propose l = true) (hp : (s.port p).attachment ≠ none)
    (hread : readProposal l = some (terms, d)) (hnone : s.proposal = .none) :
    let judged := (s.deselect p).judgeProposal (s.newProposal p terms) d
    let told := if (s.newProposal p terms).complete then judged else judged.notifyAll (s.others p) (s.openNotice p d)
    exec (.propose p l) s = .next
      ((s.deselect p).settle p (.ok told [told.proposal.code, byteOf s.attachedSet.size])) := by
  intro judged told
  have hnoneD : (s.deselect p).proposal = .none := hnone
  refine congrArg Host.Outcome.next ((State.takeRequest_of_read (fun _ => readProposal l) _ ht hp hread).trans ?_)
  simp only [hnoneD, State.attachedSet_deselect, State.others_eq_filter]
  rfl

/-- A proposer that is ATTACHED alone confirms its own plan. -/
theorem exec_propose_of_alone (ht : s.takes p .propose l = true) (hp : (s.port p).attachment ≠ none)
    (hread : readProposal l = some (terms, d)) (hnone : s.proposal = .none) (halone : s.others p = []) :
    exec (.propose p l) s = .next
      (({ s with proposal := .agreed (s.newProposal p terms) (s.frameCounter + 1) }.toldAll
        (fun _ => [s.agreedNotice (s.newProposal p terms)])).answered p .ok [2, 1]) := by
  have ha := State.attached_of_ne_none hp
  have hall : (s.newProposal p terms).confirmed = (s.newProposal p terms).confirming :=
    (State.single_eq_attachedSet_iff ha).2 halone
  have hsize : s.attachedSet.size = 1 := by rw [State.size_attachedSet ha, halone]; rfl
  rw [exec_propose_of_none ht hp hread hnone, if_pos ((Proposal.complete_iff _).2 hall), State.settle_ok,
    State.judgeProposal_proposal, if_pos ((Proposal.complete_iff _).2 hall), hsize,
    State.reply_judgeProposal_of_complete s hall]
  rfl

/-- Where other ports are ATTACHED, the proposal waits for them. -/
theorem exec_propose_of_others (ht : s.takes p .propose l = true) (hp : (s.port p).attachment ≠ none)
    (hread : readProposal l = some (terms, d)) (hnone : s.proposal = .none) (hothers : s.others p ≠ []) :
    exec (.propose p l) s = .next
      (({ s with proposal := .opened (s.newProposal p terms) d }.toldAll
        (fun q => if q ∈ s.others p then [s.openNotice p d] else [])).answered p .ok
          [1, byteOf ((s.others p).length + 1)]) := by
  have ha := State.attached_of_ne_none hp
  have hmore : (s.newProposal p terms).confirmed ≠ (s.newProposal p terms).confirming :=
    mt (State.single_eq_attachedSet_iff ha).1 hothers
  rw [exec_propose_of_none ht hp hread hnone, if_neg (mt (Proposal.complete_iff _).1 hmore), State.settle_ok,
    State.judgeProposal_of_incomplete _ hmore, State.notifyAll_eq_toldAll _ (s.others_nodup p),
    State.size_attachedSet ha]
  exact congrArg Host.Outcome.next
    (State.reply_toldAll_deselect { s with proposal := .opened (s.newProposal p terms) d } p _ .ok _)

end Propose

/-! ### The requests of a confirming member (R126, R127) -/

/-- The judgement of CONFIRM and REJECT: the payload is empty, a proposal is OPEN, and the port is of its confirming
set; `act` is what follows. -/
def judgeMember (act : State → Proposal → Nat → Answer) (p : Port) (l : List Byte) (s : State) : Answer :=
  s.whenAttached p <| withFields (readEmpty l) fun _ => s.asMember p (act s)

/-- The proposal with the port in its confirmed set (R126). -/
def Proposal.confirmedBy (pr : Proposal) (p : Port) : Proposal := { pr with confirmed := pr.confirmed.insert p }

/-- What follows from a CONFIRM of the member `p` (R126). -/
def confirmAct (p : Port) (s : State) (pr : Proposal) (d : Nat) : Answer :=
  if pr.confirmed.get p then .ok s [s.proposal.code, byteOf pr.missing]
  else
    .ok (s.judgeProposal (pr.confirmedBy p) d)
      [(s.judgeProposal (pr.confirmedBy p) d).proposal.code, byteOf (pr.confirmedBy p).missing]

theorem judgeConfirm_eq_judgeMember (p : Port) (l : List Byte) :
    judgeConfirm p l = judgeMember (confirmAct p) p l := rfl

section Confirm

variable {s : State} {p : Port} {pr : Proposal} {d : Nat}

/-- A member that has confirmed changes nothing. -/
theorem settle_confirmAct_of_confirmed (hs : s.proposal = .opened pr d) (hdone : pr.confirmed.get p = true) :
    (s.deselect p).settle p (confirmAct p (s.deselect p) pr d) = s.answered p .ok [1, byteOf pr.missing] := by
  have hopen : (s.deselect p).proposal = .opened pr d := hs
  rw [confirmAct, if_pos hdone, State.settle_ok, State.reply_deselect, hopen]
  rfl

/-- A confirmation that is not the last is recorded. -/
theorem settle_confirmAct_of_incomplete (hnew : pr.confirmed.get p = false)
    (hmore : (pr.confirmedBy p).confirmed ≠ (pr.confirmedBy p).confirming) :
    (s.deselect p).settle p (confirmAct p (s.deselect p) pr d)
      = { s with proposal := .opened (pr.confirmedBy p) d }.answered p .ok [1, byteOf (pr.confirmedBy p).missing] := by
  rw [confirmAct, if_neg (Bool.eq_false_iff.1 hnew), State.settle_ok, State.judgeProposal_proposal,
    if_neg (mt (Proposal.complete_iff _).1 hmore), State.reply_judgeProposal_of_incomplete s hmore]
  rfl

/-- The last confirmation is final. -/
theorem settle_confirmAct_of_complete (hnew : pr.confirmed.get p = false)
    (hlast : (pr.confirmedBy p).confirmed = (pr.confirmedBy p).confirming) :
    (s.deselect p).settle p (confirmAct p (s.deselect p) pr d)
      = ({ s with proposal := .agreed (pr.confirmedBy p) (s.frameCounter + 1) }.toldAll
          (fun _ => [s.agreedNotice (pr.confirmedBy p)])).answered p .ok [2, 0] := by
  rw [confirmAct, if_neg (Bool.eq_false_iff.1 hnew), State.settle_ok, State.judgeProposal_proposal,
    if_pos ((Proposal.complete_iff _).2 hlast), Proposal.missing_of_complete hlast,
    State.reply_judgeProposal_of_complete s hlast]
  rfl

end Confirm

theorem judgeReject_eq_judgeMember (p : Port) (l : List Byte) :
    judgeReject p l = judgeMember (fun s pr _ => .ok (s.failProposal pr .rejected p) []) p l := rfl

theorem State.asMember_of_not_opened {s : State} (h : ∀ pr d, s.proposal ≠ .opened pr d) (p : Port)
    (k : Proposal → Nat → Answer) : s.asMember p k = refuseWith .noProposal := by
  unfold State.asMember
  split
  · rfl
  · rfl
  · exact absurd ‹_› (h _ _)

theorem State.asMember_of_opened {s : State} {pr : Proposal} {d : Nat} (h : s.proposal = .opened pr d) (p : Port)
    (k : Proposal → Nat → Answer) :
    s.asMember p k = if pr.confirming.get p then k pr d else refuseWith .notConfirmer := by
  rw [State.asMember, h]

/-- The ends of CONFIRM and REJECT: their checks in the order of R126, and for a member what follows from `act`. -/
theorem exec_of_judgeMember {c : Instr} {s : State} {p : Port} {r : RequestCode} {l : List Byte}
    {judge : State → Answer} {act : State → Proposal → Nat → Answer}
    (hexec : exec c s = .next (s.takeRequest p r l judge)) (hjudge : judge = judgeMember act p l)
    (ht : s.takes p r l = true) :
    ((s.port p).attachment = none → exec c s = .next (s.answered p .notAttached []))
    ∧ ((s.port p).attachment ≠ none → l ≠ [] → exec c s = .next (s.answered p .badField []))
    ∧ ((s.port p).attachment ≠ none → l = [] →
      ((∀ pr d, s.proposal ≠ .opened pr d) → exec c s = .next (s.answered p .noProposal []))
      ∧ ∀ pr d, s.proposal = .opened pr d →
        (pr.confirming.get p = false → exec c s = .next (s.answered p .notConfirmer []))
        ∧ (pr.confirming.get p = true →
          exec c s = .next ((s.deselect p).settle p (act (s.deselect p) pr d)))) := by
  subst hjudge
  rw [hexec]
  refine ⟨fun hp => congrArg _ (State.takeRequest_of_detached (fun _ => readEmpty l) _ ht hp),
    fun hp hl => congrArg _ (State.takeRequest_of_unread (fun _ => readEmpty l) _ ht hp (readEmpty_of_ne_nil hl)),
    fun hp hl => ?_⟩
  have hjudged : s.takeRequest p r l (judgeMember act p l)
      = (s.deselect p).settle p ((s.deselect p).asMember p (act (s.deselect p))) :=
    State.takeRequest_of_read (fun _ => readEmpty l) _ ht hp (by rw [hl, readEmpty_nil])
  rw [hjudged]
  refine ⟨fun hnone => ?_, fun pr d hopened => ⟨fun hout => ?_, fun hin => ?_⟩⟩
  · rw [State.asMember_of_not_opened (s := s.deselect p) hnone, State.settle_refuseWith]
  · rw [State.asMember_of_opened (s := s.deselect p) hopened, hout, if_neg Bool.false_ne_true,
      State.settle_refuseWith]
  · rw [State.asMember_of_opened (s := s.deselect p) hopened, if_pos hin]

/-! ### The statements (R124, R126, R127, R136) -/

/-- Settles O15: the flags bytes are sums of their bits, and a deadline in range leaves the upper half of its word 0. -/
theorem readPlanShowsPlanAndProposal : Obligations.ReadPlanShowsPlanAndProposal := by
  intro s p l ht flag terms ports standing proposal
  have hterms : ∀ t, termsBytes t = terms t := fun t => by rw [termsBytes, geometryFlags_eq_sum]
  have hstanding : ∀ pr last, proposalBytes.standing pr last = standing pr ++ wordBytes last := fun pr last => by
    rw [proposalBytes.standing, planBytes, hterms, portSetByte_eq_sum, portSetByte_eq_sum]
    simp [standing, ports, flag, halfBytes]
  refine ⟨fun hdeadline hl => ?_, exec_readPlan_of_ne_nil ht⟩
  have hproposal : proposalBytes s.proposal = proposal := by
    dsimp only [proposal]
    cases hs : s.proposal with
    | none => rfl
    | opened pr d =>
      have hd := hdeadline pr d hs
      rw [proposalBytes, hstanding, wordBytes_ofNat_of_lt (by omega), ← List.append_assoc]
      rfl
    | agreed pr f =>
      rw [proposalBytes, hstanding]
      rfl
  subst hl
  rw [exec_readPlan_of_nil ht, planBytes, hterms, hproposal]

/-- Settles O35: the answer is that of the judged proposal, and each ATTACHED port is told once. -/
theorem confirmRecordsOrCompletes : Obligations.ConfirmRecordsOrCompletes := by
  intro s p payload ht
  obtain ⟨hdetached, hfields, hmember⟩ :=
    exec_of_judgeMember (c := .confirm p payload) rfl (judgeConfirm_eq_judgeMember p payload) ht
  refine ⟨hdetached, hfields, fun hp hl => ?_⟩
  obtain ⟨hnone, hopened⟩ := hmember hp hl
  refine ⟨hnone, fun pr d hs => ?_⟩
  intro pr' waiting told
  obtain ⟨hout, hin⟩ := hopened pr d hs
  refine ⟨hout, fun hc hdone => ?_, fun hc hnew hmore => ?_, fun hc hnew hlast => ?_⟩
  · exact (hin hc).trans (congrArg _ (settle_confirmAct_of_confirmed hs hdone))
  · exact (hin hc).trans (congrArg _ (settle_confirmAct_of_incomplete hnew hmore))
  · rw [hin hc, settle_confirmAct_of_complete hnew hlast]
    exact congrArg Host.Outcome.next (State.answered_toldAll (told := told) (fun _ => rfl) _ p .ok [2, 0])

/-- Settles O36: the failed proposal tells each member of its confirming set once. -/
theorem rejectFailsTheProposal : Obligations.RejectFailsTheProposal := by
  intro s p payload ht
  obtain ⟨hdetached, hfields, hmember⟩ :=
    exec_of_judgeMember (c := .reject p payload) rfl (judgeReject_eq_judgeMember p payload) ht
  refine ⟨hdetached, hfields, fun hp hl => ?_⟩
  obtain ⟨hnone, hopened⟩ := hmember hp hl
  refine ⟨hnone, fun pr d hs => ?_⟩
  intro told
  obtain ⟨hout, hin⟩ := hopened pr d hs
  refine ⟨hout, fun hc => ?_⟩
  rw [hin hc, State.settle_ok, State.failProposal_eq_toldAll]
  have hreply := State.reply_toldAll_deselect { s with proposal := .none } p (s.failNews pr .rejected p) .ok []
  exact congrArg Host.Outcome.next
    (hreply.trans (State.answered_toldAll (told := told) (fun q => PortState.told_ite ..) _ p .ok []))

/-- Settles O34: the payload reads as its plan and deadline, the proposer confirms alone exactly when no other port is
ATTACHED, and a notice to all tells the ATTACHED ports alone. -/
theorem proposeOpensOrConfirms : Obligations.ProposeOpensOrConfirms := by
  intro s p payload ht
  refine ⟨fun hp => congrArg _ (State.takeRequest_of_detached (fun _ => readProposal payload) _ ht hp),
    fun hp => ⟨?_, ?_⟩⟩
  · intro terms n1 n0 d hok hpos hmax hpayload all others pr
    have hread := readProposal_eq_some_iff.2 ⟨hok, hpos, hmax, n1, n0, hpayload⟩
    refine ⟨exec_propose_of_standing ht hp hread, fun hnone halone => ?_, fun hnone hothers => ?_⟩
    · rw [exec_propose_of_alone ht hp hread hnone halone]
      refine congrArg (fun u : State => Host.Outcome.next (u.answered p .ok [2, 1]))
        (State.toldAll_eq_of_ports fun q => ?_)
      rw [PerPort.get_set]
      split
      · subst q
        rfl
      · exact PortState.told_of_detached _ _ (State.detached_of_others_eq_nil halone ‹_›)
    · intro told
      rw [exec_propose_of_others ht hp hread hnone hothers]
      exact congrArg Host.Outcome.next (State.answered_toldAll (told := told) (fun q => s.told_others p q _) _ p .ok _)
  · intro hbad
    refine congrArg _ (State.takeRequest_of_unread (fun _ => readProposal payload) _ ht hp
      (Option.eq_none_iff_forall_ne_some.2 fun ⟨terms, d⟩ hread => ?_))
    obtain ⟨hok, hpos, hmax, n1, n0, hpayload⟩ := readProposal_eq_some_iff.1 hread
    exact hbad terms n1 n0 d hok hpos hmax hpayload

end Sys2Proof.Machine
end

section
/-! SUPPORT. The proof of the statement about ATTENTION and the attention line: the class of a notice in a mask, the
payload and the outcomes of ATTENTION, and when the line is asserted. -/

namespace Sys2Proof.Machine

open Sys2Proof

/-! ### Notices of a masked class (R139, R144, R165) -/

/-- The bit that the kind's code gives is that of its class. -/
theorem NoticeKind.classBit_eq_classIndex (k : NoticeKind) : k.classBit = k.classIndex := by cases k <;> rfl

theorem maskNames_iff {m : BitVec 7} {n : Notice} : maskNames m n = true ↔ m.getLsbD n.kind.classIndex = true := by
  rw [maskNames, NoticeKind.classBit_eq_classIndex]

theorem countP_maskNames (m : BitVec 7) (l : List Notice) :
    l.countP (maskNames m) = (l.filter (fun n => m.getLsbD n.kind.classIndex)).length := by
  rw [← List.countP_eq_length_filter]
  exact List.countP_congr fun _ _ => maskNames_iff

/-! ### The payload of ATTENTION (R144, R165) -/

/-- A byte is a class mask exactly when it is the seven bits of one, with bit 7 clear. -/
theorem readMask_eq_some_iff {b : Byte} {m : BitVec 7} : readMask b = some m ↔ b = m.setWidth 8 := by
  unfold readMask
  cases h7 : b.getLsbD 7 with
  | true =>
    refine iff_of_false (by simp) ?_
    rintro rfl
    simp at h7
  | false =>
    have hlt : 2 * b.toNat < 2 ^ 8 := BitVec.msb_eq_false_iff_two_mul_lt.1 h7
    rw [if_neg Bool.false_ne_true, Option.some.injEq, ← BitVec.setWidth_eq_extractLsb' (by decide)]
    bv_omega

theorem readAttention_eq_some_iff {l : List Byte} {m : BitVec 7} :
    readAttention l = some m ↔ l = [m.setWidth 8] := by
  match l with
  | [] | _ :: _ :: _ => simp [readAttention]
  | [b] => simp [readAttention, readMask_eq_some_iff]

/-! ### The outcomes of ATTENTION (R144, R156, R163) -/

/-- The port with its mask replaced, and the body that answers it. -/
def replaceMask (p : Port) (u : State) (m : BitVec 7) : Answer :=
  .ok (u.setPort p { u.port p with attachment := (u.port p).attachment.map ({ · with mask := m }) })
    [maskByte m, byteOf ((u.port p).notices.countP (maskNames m))]

/-- ATTENTION checks the port and then reads its mask, as the requests do that an ATTACHED port alone is served. -/
theorem judgeAttention_eq_whenAttached (p : Port) (l : List Byte) :
    judgeAttention p l = fun u => u.whenAttached p (withFields (readAttention l) (replaceMask p u)) := by
  funext u
  unfold judgeAttention State.whenAttached State.attached replaceMask
  cases h : (u.port p).attachment <;> simp [h]

theorem exec_attention_of_detached {s : State} {p : Port} {l : List Byte} (ht : s.takes p .attention l = true)
    (hp : (s.port p).attachment = none) : exec (.attention p l) s = .next (s.answered p .notAttached []) := by
  refine congrArg Host.Outcome.next ?_
  rw [judgeAttention_eq_whenAttached]
  exact State.takeRequest_of_detached (fun _ => readAttention l) (replaceMask p) ht hp

theorem exec_attention_of_none {s : State} {p : Port} {l : List Byte} (ht : s.takes p .attention l = true)
    (hp : (s.port p).attachment ≠ none) (hread : readAttention l = none) :
    exec (.attention p l) s = .next (s.answered p .badField []) := by
  refine congrArg Host.Outcome.next ?_
  rw [judgeAttention_eq_whenAttached]
  exact State.takeRequest_of_unread (fun _ => readAttention l) (replaceMask p) ht hp hread

/-- The reply to a request that set the port's own state alone. -/
theorem State.reply_setPort_deselect (s : State) (p : Port) (x : PortState) (code : ReplyCode) (body : List Byte) :
    ((s.setPort p x).deselect p).reply p code body = s.setPort p (x.answered code body) := by
  rw [State.reply_deselect, State.answered, State.port_setPort_self, State.setPort_setPort]

theorem exec_attention_of_some {s : State} {p : Port} {l : List Byte} {x : Attachment} {m : BitVec 7}
    (ht : s.takes p .attention l = true) (hp : (s.port p).attachment = some x) (hread : readAttention l = some m) :
    exec (.attention p l) s = .next
      (s.setPort p ({ s.port p with attachment := some { x with mask := m } }.answered .ok
        [maskByte m, byteOf ((s.port p).notices.countP (maskNames m))])) := by
  have hattached : (s.port p).attachment ≠ none := by simp [hp]
  refine congrArg Host.Outcome.next ?_
  rw [judgeAttention_eq_whenAttached, ← State.reply_setPort_deselect]
  refine (State.takeRequest_of_read (fun _ => readAttention l) (replaceMask p) ht hattached hread).trans ?_
  simp [replaceMask, State.deselect, hp]

/-! ### The attention line (R145) -/

theorem State.attn_iff {s : State} {p : Port} :
    s.attn p = true ↔ s.resetAsserted = false ∧ ∃ x, (s.port p).attachment = some x
      ∧ ∃ n ∈ (s.port p).notices, x.mask.getLsbD n.kind.classIndex = true := by
  unfold State.attn
  cases (s.port p).attachment with
  | none => simp
  | some x => simp [maskNames_iff]

/-! ### The statement (R144, R145) -/

/-- Settles O42: a payload is read exactly when it is the byte of a mask, and the class bit of a kind is its class. -/
theorem attentionLineFollowsQueueAndMask : Obligations.AttentionLineFollowsQueueAndMask := by
  refine ⟨fun s p payload ht => ⟨exec_attention_of_detached ht, fun x hx => ⟨fun m hm => ?_, fun hbad => ?_⟩⟩,
    fun s p => State.attn_iff⟩
  · rw [exec_attention_of_some ht hx (readAttention_eq_some_iff.2 hm), countP_maskNames]
    rfl
  · refine exec_attention_of_none ht (by simp [hx]) (Option.eq_none_iff_forall_ne_some.2 fun m hread => ?_)
    exact hbad m (readAttention_eq_some_iff.1 hread)

end Sys2Proof.Machine
end

section
/-! SUPPORT. The proofs of the statements about the checks of a transaction, POLL and ATTACH: how a request command runs
and what it leaves of the links, the bytes that pass the checks of R152, and the outcomes of the two requests. -/

namespace Sys2Proof.Machine

open Sys2Proof

/-! ### The command of a request and its judgement (R163, R166) -/

/-- The command that stands for a request. -/
def RequestCode.command (r : RequestCode) (p : Port) (l : List Byte) : Instr :=
  match r with
  | .attach => .attach p l
  | .detach => .detach p l
  | .poll => .poll p l
  | .snapshot => .snapshot p l
  | .readSlot => .readSlot p l
  | .readMap => .readMap p l
  | .renew => .renew p l
  | .release => .release p l
  | .holdings => .holdings p l
  | .reserve => .reserve p l
  | .cancel => .cancel p l
  | .readRequests => .readRequests p l
  | .offer => .offer p l
  | .accept => .accept p l
  | .decline => .decline p l
  | .withdraw => .withdraw p l
  | .schedule => .schedule p l
  | .unschedule => .unschedule p l
  | .readEdits => .readEdits p l
  | .propose => .propose p l
  | .confirm => .confirm p l
  | .reject => .reject p l
  | .readPlan => .readPlan p l
  | .fetch => .fetch p l
  | .attention => .attention p l

theorem requestOf_command (r : RequestCode) (p : Port) (l : List Byte) :
    requestOf (r.command p l) = some (p, r, l) := by
  cases r <;> rfl

/-- The judgement of a request by the block that owns it. -/
def RequestCode.judge (r : RequestCode) (p : Port) (l : List Byte) : State → Answer :=
  match r with
  | .attach => judgeAttach p l
  | .detach => judgeDetach p l
  | .poll => judgePoll p l
  | .snapshot => judgeSnapshot l
  | .readSlot => judgeReadSlot l
  | .readMap => judgeReadMap p l
  | .renew => judgeRenew p l
  | .release => judgeRelease p l
  | .holdings => judgeHoldings p l
  | .reserve => judgeReserve p l
  | .cancel => judgeCancel p l
  | .readRequests => judgeReadRequests p l
  | .offer => judgeOffer p l
  | .accept => judgeAccept p l
  | .decline => judgeDecline p l
  | .withdraw => judgeWithdraw p l
  | .schedule => judgeSchedule p l
  | .unschedule => judgeUnschedule p l
  | .readEdits => judgeReadEdits p l
  | .propose => judgePropose p l
  | .confirm => judgeConfirm p l
  | .reject => judgeReject p l
  | .readPlan => judgeReadPlan l
  | .fetch => judgeFetch p l
  | .attention => judgeAttention p l

/-- Every request command is the taking of its request with its judgement. -/
theorem exec_command (r : RequestCode) (p : Port) (l : List Byte) (s : State) :
    exec (r.command p l) s = .next (s.takeRequest p r l (r.judge p l)) := by
  cases r <;> rfl

/-! ### Judgements leave the links as they were (R149, R154)

Only the answer moves a reply buffer: what a block does to judge a request sends notices and edits its tables. -/

/-- The link of a port, which is CSn, its receiver and its reply buffer with the sequence: the rest is blanked. -/
def PortState.link (x : PortState) : PortState := { x with attachment := none, notices := [], lost := false }

/-- Every port of `t` has the link that it has in `s`. -/
def State.SameLinks (s t : State) : Prop := ∀ q, (t.port q).link = (s.port q).link

theorem State.SameLinks.replySequence {s t : State} (h : s.SameLinks t) (q : Port) :
    (t.port q).replySequence = (s.port q).replySequence := by
  have hlink := congrArg PortState.replySequence (h q)
  exact hlink

theorem State.SameLinks.refl (s : State) : s.SameLinks s := fun _ => rfl

theorem State.SameLinks.trans {s t u : State} (h : s.SameLinks t) (k : t.SameLinks u) : s.SameLinks u :=
  fun q => (k q).trans (h q)

theorem State.SameLinks.of_ports {s t : State} (h : t.ports = s.ports) : s.SameLinks t :=
  fun q => by rw [State.port, State.port, h]

/-- A notice joins a queue and is no part of a link. -/
theorem State.Told.sameLinks {s t : State} (h : s.Told t) : s.SameLinks t := fun q => by
  obtain ⟨l, hl⟩ := h q
  simp [PortState.link, hl]

theorem State.sameLinks_setPort (s : State) (p : Port) {x : PortState} (h : x.link = (s.port p).link) :
    s.SameLinks (s.setPort p x) := fun q => by
  rw [State.port_setPort]
  split
  · rename_i hq; rw [hq, h]
  · rfl

theorem State.sameLinks_detachPort (s : State) (p : Port) : s.SameLinks (s.detachPort p) :=
  s.sameLinks_setPort p (x := { s.port p with attachment := none, notices := [], lost := false }) rfl

/-- A request that is judged OK has moved no link yet. -/
theorem RequestCode.judge_sameLinks {r : RequestCode} {p : Port} {l : List Byte} {s t : State} {body : List Byte}
    (h : r.judge p l s = .ok t body) : s.SameLinks t := by
  cases r with
  | attach =>
    obtain ⟨_, x, _, rfl, _⟩ := judgeAttach_ok h
    exact s.sameLinks_setPort p rfl
  | detach =>
    obtain ⟨_, _, rfl⟩ := judgeDetach_ok h
    have htold := ((s.detachPort p).giveUpSlots_told p .detached (s.ownSlots p)).trans
      (State.dropTargetOffers_told _ p)
    have hdrop (u : State) : u.Told (u.dropOwn p) := State.Told.of_ports rfl
    exact (s.sameLinks_detachPort p).trans
      ((htold.trans (hdrop _)).trans (State.leaveProposal_told _ p)).sameLinks
  | poll => obtain rfl := judgePoll_ok h; exact .refl t
  | snapshot => obtain rfl := judgeSnapshot_ok h; exact .refl t
  | readSlot => obtain rfl := judgeReadSlot_ok h; exact .refl t
  | readMap => obtain rfl := judgeReadMap_ok h; exact .refl t
  | holdings => obtain rfl := judgeHoldings_ok h; exact .refl t
  | readRequests => obtain rfl := judgeReadRequests_ok h; exact .refl t
  | readEdits => obtain rfl := judgeReadEdits_ok h; exact .refl t
  | readPlan => obtain rfl := judgeReadPlan_ok h; exact .refl t
  | renew =>
    obtain ⟨_, _, lease, n, ns, _, _, rfl, _⟩ := judgeRenew_ok h
    exact .of_ports (by simp)
  | release =>
    obtain ⟨_, _, n, ns, _, _, rfl, _⟩ := judgeRelease_ok h
    exact (s.giveUpSlots_told p .released (n :: ns)).sameLinks
  | reserve =>
    obtain ⟨_, r, _, _, _, _, _, rfl, _⟩ := judgeReserve_ok h
    exact .of_ports (by simp)
  | cancel =>
    obtain ⟨_, _, _, r, _, _, rfl, _⟩ := judgeCancel_ok h
    exact .of_ports rfl
  | offer =>
    obtain ⟨_, f, _, _, _, _, _, _, _, rfl, _⟩ := judgeOffer_ok h
    exact .trans (.of_ports rfl) (State.notify_told _ _ _).sameLinks
  | accept =>
    obtain ⟨_, _, o, _, _, _, _, rfl, _⟩ := judgeAccept_ok h
    exact (s.acceptOffer_told o).sameLinks
  | decline =>
    obtain ⟨_, _, o, _, _, _, rfl, _⟩ := judgeDecline_ok h
    exact (s.refuseOffer_told o .declined).sameLinks
  | withdraw =>
    obtain ⟨_, _, o, _, _, _, rfl, _⟩ := judgeWithdraw_ok h
    exact (s.voidOffer_told o _ .withdrawn).sameLinks
  | schedule =>
    obtain ⟨_, f, act, _, _, _, _, rfl, _⟩ := judgeSchedule_ok h
    exact .of_ports rfl
  | unschedule =>
    obtain ⟨_, _, e, _, _, rfl, _⟩ := judgeUnschedule_ok h
    exact .of_ports rfl
  | propose =>
    obtain ⟨_, terms, d, _, _, rfl, _⟩ := judgePropose_ok h
    have hjudged := s.judgeProposal_told (s.newProposal p terms) d
    split
    · exact hjudged.sameLinks
    · exact (hjudged.trans (State.notifyAll_told _ _ _)).sameLinks
  | confirm =>
    obtain ⟨_, _, pr, d, _, _, ⟨_, rfl⟩ | ⟨_, rfl⟩⟩ := judgeConfirm_ok h
    · exact .refl t
    · exact (s.judgeProposal_told _ d).sameLinks
  | reject =>
    obtain ⟨_, _, pr, _, _, _, rfl, _⟩ := judgeReject_ok h
    exact (s.failProposal_told pr .rejected p).sameLinks
  | fetch =>
    obtain ⟨_, _, n, _, _, rfl, _⟩ := judgeFetch_ok h
    exact s.sameLinks_setPort p rfl
  | attention =>
    obtain ⟨x, m, _, _, rfl, _⟩ := judgeAttention_ok h
    exact s.sameLinks_setPort p rfl

/-- The answer advances the sequence by 1 past that of the state it is placed in (R154). -/
theorem State.replySequence_settle (s : State) (p : Port) {a : Answer}
    (h : ∀ t body, a = .ok t body → s.SameLinks t) :
    ((s.settle p a).port p).replySequence = (s.port p).replySequence + 1 := by
  cases a with
  | refuse code body => simp [State.settle, State.port_reply]
  | ok t body => simp [State.port_reply, (h t body rfl).replySequence p]

/-- A request that is taken is answered with the next sequence (R154, R163). -/
theorem exec_command_of_takes {s : State} {p : Port} {r : RequestCode} {l : List Byte} (ht : s.takes p r l = true) :
    ∃ t, exec (r.command p l) s = .next t ∧ (t.port p).replySequence = (s.port p).replySequence + 1 := by
  refine ⟨_, exec_command r p l s, ?_⟩
  rw [s.takeRequest_of_takes p r l _ ht, State.replySequence_settle _ p fun _ _ => RequestCode.judge_sameLinks,
    State.port_deselect, if_pos rfl]

/-! ### The checks of R152 -/

/-- The framing check of a transaction that begins with `b` looks at its length byte and its length. -/
theorem wellFramed_cons_iff {b : Byte} {rest : List Byte} {cut : Bool} :
    wellFramed (b :: rest) cut = true ↔
      ∃ l more, rest = l :: more ∧ l.toNat ≤ 60 ∧ (b :: rest).length = l.toNat + 3 ∧ cut = false := by
  cases rest with
  | nil => simp [wellFramed]
  | cons l more => simp [wellFramed, and_assoc]

theorem RequestCode.mem_list (r : RequestCode) : r ∈ RequestCode.list := by cases r <;> decide

/-- A code is known exactly when a request of R166 carries it. -/
theorem knownCode_iff {b : Byte} : knownCode b = true ↔ ∃ r : RequestCode, r.code = b := by
  simp [knownCode, RequestCode.mem_list]

theorem refusalOf_of_not_framed {bytes : List Byte} {cut : Bool} (h : ¬ wellFramed bytes cut = true) :
    refusalOf bytes cut = some (.framing, [byteOf (min bytes.length 255)]) := by
  simp [refusalOf, h, maxCounted]

theorem refusalOf_of_sum_ne_zero {bytes : List Byte} {cut : Bool} (h : wellFramed bytes cut = true)
    (hsum : byteSum bytes ≠ 0) : refusalOf bytes cut = some (.checksum, []) := by
  rw [refusalOf, h, if_neg (by decide), if_pos hsum]

theorem refusalOf_of_unknown {b : Byte} {rest : List Byte} {cut : Bool} (h : wellFramed (b :: rest) cut = true)
    (hsum : byteSum (b :: rest) = 0) (hb : ∀ r : RequestCode, r.code ≠ b) :
    refusalOf (b :: rest) cut = some (.unknown, [b]) := by
  have hknown : knownCode b = false := Bool.eq_false_iff.2 fun hk => by
    obtain ⟨r, hr⟩ := knownCode_iff.1 hk
    exact hb r hr
  simp [refusalOf, h, hsum, hknown]

/-- A transaction that fails a check is answered with the reply of that check. -/
theorem exec_transactionRefused_of_refusal {s : State} {p : Port} {b : Byte} {rest : List Byte} {cut : Bool}
    {code : ReplyCode} {body : List Byte} (hb : b ≠ 0) (hend : s.canEnd p (b :: rest) = true)
    (h : refusalOf (b :: rest) cut = some (code, body)) :
    exec (.transactionRefused p (b :: rest) cut) s = .next (s.answered p code body) := by
  have hchecked : isChecked (b :: rest) = true := bne_iff_ne.2 hb
  refine congrArg Host.Outcome.next ?_
  simp [hchecked, h, State.endTransaction_of_canEnd _ _ _ _ hend, State.reply_deselect]

theorem byteSum_append_singleton (l : List Byte) (x : Byte) : byteSum (l ++ [x]) = byteSum l + x :=
  List.foldl_append

/-- The bytes that pass the framing check and the checksum are those of a request of their own first byte (R150). -/
theorem exists_payload_of_framed {b : Byte} {rest : List Byte} {cut : Bool}
    (h : wellFramed (b :: rest) cut = true) (hsum : byteSum (b :: rest) = 0) :
    ∃ payload : List Byte, payload.length ≤ 60 ∧ b :: rest = requestBytes b payload := by
  obtain ⟨l, more, rfl, hl, hlen, -⟩ := wellFramed_cons_iff.1 h
  simp only [List.length_cons] at hlen
  obtain ⟨payload, check, rfl⟩ := (List.eq_nil_or_concat' more).resolve_left (by rintro rfl; simp at hlen)
  have hpayload : payload.length = l.toNat := by simp at hlen; omega
  have hcheck : check = -byteSum (b :: l :: payload) := by
    exact eq_neg_of_add_eq_zero_right ((byteSum_append_singleton _ check).symm.trans hsum)
  refine ⟨payload, by omega, ?_⟩
  rw [requestBytes, hpayload, byteOf_toNat, ← hcheck]
  rfl

/-! ### POLL (R162) -/

theorem exec_poll_of_nil {s : State} {p : Port} (ht : s.takes p .poll [] = true) :
    exec (.poll p []) s = .next (s.answered p .ok
      ([s.holdingCount p, s.pendingCount p, s.offers.countP (fun o => o.giver == p),
        s.offers.countP (fun o => o.target == p), s.editCount p, (s.port p).notices.length].map byteOf
          ++ [byteOf (s.quota p)])) := by
  refine congrArg Host.Outcome.next ((s.takeRequest_of_takes p .poll [] _ ht).trans ?_)
  rw [judgePoll, readEmpty_nil, withFields_some, State.settle_ok, State.reply_deselect, State.port_deselect, if_pos rfl]
  rfl

theorem exec_poll_of_ne_nil {s : State} {p : Port} {l : List Byte} (ht : s.takes p .poll l = true) (hl : l ≠ []) :
    exec (.poll p l) s = .next (s.answered p .badField []) := by
  refine congrArg Host.Outcome.next ((s.takeRequest_of_takes p .poll l _ ht).trans ?_)
  rw [judgePoll, readEmpty_of_ne_nil hl, withFields_none, State.settle_refuseWith]

section Detached

variable {s : State} {p : Port}

theorem State.ScheduleOk.roster (h : s.ScheduleOk) : s.RosterOk := by
  obtain ⟨_, _, _, _, _, hroster, _⟩ := h
  exact hroster

/-- What only ATTACHED ports own has nothing of a DETACHED port. -/
theorem filter_owner_eq_nil {α : Type} {l : List α} {owner : α → Port} (h : ∀ x ∈ l, s.attached (owner x) = true)
    (hp : s.attached p = false) : l.filter (fun x => owner x == p) = [] := by
  refine List.filter_eq_nil_iff.2 fun x hx hown => ?_
  rw [← beq_iff_eq.1 hown, h x hx] at hp
  cases hp

theorem State.RosterOk.ownSlots_eq_nil (h : s.RosterOk) (hp : (s.port p).attachment = none) : s.ownSlots p = [] := by
  refine List.filter_eq_nil_iff.2 fun n hn => ?_
  rw [h.names_eq_false hp (mem_slotNumbers.1 hn)]
  exact Bool.false_ne_true

end Detached

/-! ### ATTACH (R157) -/

/-- The payload of ATTACH is a threshold and a class mask, whose bit 7 is clear. -/
theorem readAttach_pair {w m : Byte} (hm : m.getLsbD 7 = false) :
    readAttach [w, m] = some ⟨w, m.extractLsb' 0 7⟩ := by
  have hmask : readMask m = some (m.extractLsb' 0 7) := by rw [readMask, hm]; rfl
  rw [readAttach, hmask, Option.map_some]

theorem readAttach_eq_none {l : List Byte} (h : ∀ w m : Byte, m.getLsbD 7 = false → l ≠ [w, m]) :
    readAttach l = none := by
  match l with
  | [] | [_] | _ :: _ :: _ :: _ => rfl
  | [w, m] =>
    have hm : m.getLsbD 7 = true := by_contra fun hm => h w m (Bool.eq_false_iff.2 hm) rfl
    have hmask : readMask m = none := by rw [readMask, if_pos hm]
    rw [readAttach, hmask, Option.map_none]

theorem exec_attach_of_attached {s : State} {p : Port} {l : List Byte} (ht : s.takes p .attach l = true)
    (hp : (s.port p).attachment ≠ none) : exec (.attach p l) s = .next (s.answered p .alreadyAttached []) := by
  have ha : (s.deselect p).attached p = true := by rw [State.attached_deselect, State.attached_of_ne_none hp]
  refine congrArg Host.Outcome.next ((s.takeRequest_of_takes p .attach l _ ht).trans ?_)
  rw [judgeAttach, if_pos ha, State.settle_refuseWith]

/-- The port ATTACHED with a threshold and a mask, and the body that answers it. -/
def attachWith (p : Port) (u : State) (x : Attachment) : Answer :=
  .ok (u.setPort p { u.port p with attachment := some x }) (u.snapshotBytes ++ [byteOf (u.quota p)])

/-- At a DETACHED port the payload decides. -/
theorem exec_attach_of_detached {s : State} {p : Port} {l : List Byte} (ht : s.takes p .attach l = true)
    (hp : (s.port p).attachment = none) :
    exec (.attach p l) s = .next
      ((s.deselect p).settle p (withFields (readAttach l) (attachWith p (s.deselect p)))) := by
  have ha : ¬ (s.deselect p).attached p = true := by
    rw [State.attached_deselect, State.not_attached_iff, hp]
  refine congrArg Host.Outcome.next ((s.takeRequest_of_takes p .attach l _ ht).trans ?_)
  rw [judgeAttach, if_neg ha]
  rfl

/-- The rise of CSn and a new attachment touch different fields of the port. -/
theorem State.setPort_attachment_deselect (s : State) (p : Port) (x : Option Attachment) :
    (s.deselect p).setPort p { (s.deselect p).port p with attachment := x }
      = (s.setPort p { s.port p with attachment := x }).deselect p := by
  simp [State.deselect]

theorem exec_attach_of_some {s : State} {p : Port} {l : List Byte} {x : Attachment} (ht : s.takes p .attach l = true)
    (hp : (s.port p).attachment = none) (hread : readAttach l = some x) :
    exec (.attach p l) s = .next (s.setPort p ({ s.port p with attachment := some x }.answered .ok
      (s.snapshotBytes ++ [byteOf (s.quota p)]))) := by
  rw [exec_attach_of_detached ht hp, hread, withFields_some, attachWith, State.settle_ok,
    State.setPort_attachment_deselect, State.reply_setPort_deselect]
  rfl

theorem exec_attach_of_none {s : State} {p : Port} {l : List Byte} (ht : s.takes p .attach l = true)
    (hp : (s.port p).attachment = none) (hread : readAttach l = none) :
    exec (.attach p l) s = .next (s.answered p .badField []) := by
  rw [exec_attach_of_detached ht hp, hread, withFields_none, State.settle_refuseWith]

/-- The line of a port with an empty queue is negated. -/
theorem State.attn_eq_false_of_notices_eq_nil {s : State} {p : Port} (h : (s.port p).notices = []) :
    s.attn p = false := by
  refine Bool.eq_false_iff.2 fun hattn => ?_
  obtain ⟨_, _, _, n, hn, _⟩ := State.attn_iff.1 hattn
  simp [h] at hn

/-! ### The statements (R152, R157, R162) -/

/-- Settles O7: the three checks are those of the bytes, and bytes that pass them are the bytes of one request, whose
judgement leaves the sequence to the answer. -/
theorem transactionChecksInOrder : Obligations.TransactionChecksInOrder := by
  intro s p b rest cut hb hend bytes framed
  have hframed : wellFramed bytes cut = true ↔ framed := wellFramed_cons_iff
  rw [← hframed]
  refine ⟨fun h => ?_, fun h hsum => ?_, fun h hsum hunknown => ?_, fun h hsum r hr => ?_⟩
  · exact exec_transactionRefused_of_refusal hb hend (refusalOf_of_not_framed h)
  · exact exec_transactionRefused_of_refusal hb hend (refusalOf_of_sum_ne_zero h hsum)
  · exact exec_transactionRefused_of_refusal hb hend (refusalOf_of_unknown h hsum hunknown)
  · obtain ⟨payload, hlen, hbytes⟩ := exists_payload_of_framed h hsum
    have hrequest : bytes = requestBytes r.code payload := hr ▸ hbytes
    have ht : s.takes p r payload = true := by
      rw [State.takes, ← hrequest, hend, decide_eq_true hlen, Bool.and_self]
    exact ⟨r.command p payload, payload, requestOf_command r p payload, hrequest, ht, exec_command_of_takes ht⟩

/-- Settles O10: each count is the length of what the port owns, and no block keeps anything of a DETACHED port. -/
theorem pollReportsThePortsShare : Obligations.PollReportsThePortsShare := by
  intro s p l ht counts
  refine ⟨?_, fun hl => exec_poll_of_ne_nil ht hl, fun hsched hnotices hp => ?_⟩
  · rintro rfl
    rw [exec_poll_of_nil ht, State.holdingCount_eq_length, State.pendingCount_eq_length_filter, State.editCount]
    simp only [List.countP_eq_length_filter]
    rfl
  · have hd : s.attached p = false := by rw [State.attached, hp]; rfl
    obtain ⟨_, hrequests, hoffers, hedits⟩ := hsched.roster
    have hqueue : (s.port p).notices = [] := ((hnotices p).2 hd).1
    simp only [counts, hsched.roster.ownSlots_eq_nil hp, hqueue, filter_owner_eq_nil hrequests hd,
      filter_owner_eq_nil (fun o ho => (hoffers o ho).1) hd, filter_owner_eq_nil (fun o ho => (hoffers o ho).2) hd,
      filter_owner_eq_nil hedits hd, List.length_nil]

/-- Settles O38: a payload is read exactly when it is a threshold and a mask, and a DETACHED port has no notice waiting
that its new mask could name. -/
theorem attachTakesThresholdAndMask : Obligations.AttachTakesThresholdAndMask := by
  intro s p payload ht
  refine ⟨exec_attach_of_attached ht, fun hp => ⟨?_, fun hbad => ?_⟩⟩
  · rintro w m rfl hm
    refine ⟨_, exec_attach_of_some ht hp (readAttach_pair hm), rfl, fun hnotices => ?_⟩
    have hd : s.attached p = false := by rw [State.attached, hp]; rfl
    have hqueue : (s.port p).notices = [] := ((hnotices p).2 hd).1
    exact State.attn_eq_false_of_notices_eq_nil (by rw [State.port_setPort_self]; exact hqueue)
  · exact exec_attach_of_none ht hp (readAttach_eq_none hbad)

end Sys2Proof.Machine
end

section
/-! SUPPORT. What the operations on the Staged table and the offer table leave, up to the notices they send: the form
`{ s.setStaged n e with offers := … }`, and which offers stay. -/

-- One proof after another: many at once take more memory than the check allows.
set_option Elab.async false

namespace Sys2Proof.Machine

open Sys2Proof

/-! ### States alike but for their ports -/

theorem State.Alike.withOffers {s t : State} (h : s.Alike t) (l : List Offer) :
    ({ s with offers := l } : State).Alike { t with offers := l } := by
  obtain ⟨ps, rfl, h⟩ := h
  exact ⟨ps, rfl, h⟩

theorem State.Alike.withEdits {s t : State} (h : s.Alike t) (l : List Edit) :
    ({ s with edits := l } : State).Alike { t with edits := l } := by
  obtain ⟨ps, rfl, h⟩ := h
  exact ⟨ps, rfl, h⟩

theorem State.Alike.withRequests {s t : State} (h : s.Alike t) (l : List Record) :
    ({ s with requests := l } : State).Alike { t with requests := l } := by
  obtain ⟨ps, rfl, h⟩ := h
  exact ⟨ps, rfl, h⟩

/-- Replacing a port by one with the same attachment makes an alike state. -/
theorem State.Alike.self_setPort (s : State) {p : Port} {x : PortState} (h : x.attachment = (s.port p).attachment) :
    s.Alike (s.setPort p x) := by
  refine ⟨_, rfl, fun q => ?_⟩
  rw [PerPort.get_set]
  split
  · rw [h, ‹q = p›]
  · rfl

/-- A property of the rest of the state and of the attachments goes over to an alike state, when it does not read the
ports otherwise. -/
theorem State.Alike.of_told {s t : State} (h : { t with ports := s.ports } = s) (k : s.Told t) : s.Alike t := by
  refine ⟨t.ports, by rw [← h], fun q => ?_⟩
  obtain ⟨l, hl⟩ := k q
  exact (congrArg PortState.attachment hl).trans (by simp)

/-! ### Offers that leave (R100) -/

theorem State.Alike.self_voidOfferOn (s : State) (n : Nat) (tag : Byte) (why : Reason) :
    ({ s with offers := (s.voidOfferOn n tag why).offers } : State).Alike (s.voidOfferOn n tag why) := by
  unfold State.voidOfferOn
  split
  · simpa [State.voidOffer, State.dropOffer] using State.Alike.self_notify (s.dropOffer _) _ _
  · exact .refl s

theorem State.Alike.self_voidOfferBy (s : State) (p : Port) (n : Nat) (tag : Byte) (why : Reason) :
    ({ s with offers := (s.voidOfferBy p n tag why).offers } : State).Alike (s.voidOfferBy p n tag why) := by
  unfold State.voidOfferBy
  split
  · split
    · simpa [State.voidOffer, State.dropOffer] using State.Alike.self_notify (s.dropOffer _) _ _
    · exact .refl s
  · exact .refl s

/-- The offer found on a slot is an open offer on that slot. -/
theorem State.mem_of_offerOn {s : State} {n : Nat} {o : Offer} (h : s.offerOn n = some o) : o ∈ s.offers ∧ o.slot = n :=
  ⟨List.mem_of_find?_eq_some h, by simpa using List.find?_some h⟩

/-- In a table sorted by slot two offers on one slot are the same. -/
theorem eq_of_slot_eq {l : List Offer} (h : l.Pairwise (fun x y => x.slot < y.slot)) {o x : Offer} (ho : o ∈ l)
    (hx : x ∈ l) (he : x.slot = o.slot) : x = o := by
  have hnodup : (l.map Offer.slot).Nodup := List.pairwise_map.2 (h.imp fun hlt => hlt.ne)
  exact List.inj_on_of_nodup_map hnodup hx ho he

theorem State.voidOfferOn_sublist (s : State) (n : Nat) (tag : Byte) (why : Reason) :
    (s.voidOfferOn n tag why).offers.Sublist s.offers := by
  rw [State.voidOfferOn_offers]
  split
  · exact List.filter_sublist
  · exact .refl _

theorem State.voidOfferBy_sublist (s : State) (p : Port) (n : Nat) (tag : Byte) (why : Reason) :
    (s.voidOfferBy p n tag why).offers.Sublist s.offers := by
  rw [State.voidOfferBy_offers]
  split
  · split
    · exact List.filter_sublist
    · exact .refl _
  · exact .refl _

/-- No offer on the slot stays (R100). -/
theorem State.slot_ne_of_mem_voidOfferOn {s : State} (h : s.offers.Pairwise (fun x y => x.slot < y.slot)) {n : Nat}
    {tag : Byte} {why : Reason} {o : Offer} (ho : o ∈ (s.voidOfferOn n tag why).offers) : o.slot ≠ n := by
  rw [State.voidOfferOn_offers] at ho
  cases hf : s.offerOn n with
  | none => rw [hf] at ho; exact State.offerOn_none hf o ho
  | some x =>
    rw [hf] at ho
    obtain ⟨hm, hid⟩ := List.mem_filter.1 ho
    obtain ⟨hx, hslot⟩ := State.mem_of_offerOn hf
    rintro rfl
    simp [eq_of_slot_eq h hm hx hslot] at hid

/-- No offer of the port on the slot stays (R100). -/
theorem State.giver_ne_of_mem_voidOfferBy {s : State} (h : s.offers.Pairwise (fun x y => x.slot < y.slot)) {p : Port}
    {n : Nat} {tag : Byte} {why : Reason} {o : Offer} (ho : o ∈ (s.voidOfferBy p n tag why).offers)
    (hn : o.slot = n) : o.giver ≠ p := by
  have hmem := (s.voidOfferBy_sublist p n tag why).subset ho
  rw [State.voidOfferBy_offers] at ho
  cases hf : s.offerOn n with
  | none => exact absurd hn (State.offerOn_none hf o hmem)
  | some x =>
    obtain ⟨hx, hslot⟩ := State.mem_of_offerOn hf
    obtain rfl := eq_of_slot_eq h hmem hx (hslot.trans hn.symm)
    rintro rfl
    simp [hf] at ho

/-! ### A slot edited, its offers voided and its ports told -/

theorem State.endLease_alike (s : State) (n : Nat) :
    ({ s.setStaged n .cooling with offers := (s.endLease n).offers } : State).Alike (s.endLease n) :=
  ((State.Alike.self_notifyAll _ _ _).withOffers _).trans (State.Alike.self_voidOfferOn _ _ _ _)

theorem State.revokeSlot_alike (s : State) (n : Nat) :
    ({ s.setStaged n .free with offers := (s.revokeSlot n).offers } : State).Alike (s.revokeSlot n) :=
  ((State.Alike.self_notifyAll _ _ _).withOffers _).trans (State.Alike.self_voidOfferOn _ _ _ _)

theorem State.giveUpSlot_alike (s : State) (p : Port) (why : Reason) (n : Nat) :
    ({ s.setStaged n ((entryAt s.staged n).without p) with offers := (s.giveUpSlot p why n).offers } : State).Alike
      (s.giveUpSlot p why n) :=
  ((State.Alike.self_notifyAll _ _ _).withOffers _).trans (State.Alike.self_voidOfferBy _ _ _ _ _)

theorem State.acceptOffer_alike (s : State) (o : Offer) :
    ({ s.setStaged o.slot ((entryAt s.staged o.slot).accepted o) with offers := (s.acceptOffer o).offers } : State).Alike
      (s.acceptOffer o) := by
  rw [State.acceptOffer_offers]
  exact (State.Alike.self_notify ((s.setStaged o.slot ((entryAt s.staged o.slot).accepted o)).dropOffer o.id) _ _).trans
    (State.Alike.self_notifyAll _ _ _)

/-- Offers of a state after one on a slot was voided and ports were told are those left by the voiding. -/
theorem State.endLease_offers_sublist (s : State) (n : Nat) : (s.endLease n).offers.Sublist s.offers :=
  (State.voidOfferOn_sublist _ _ _ _).trans (by simp)

theorem State.revokeSlot_offers_sublist (s : State) (n : Nat) : (s.revokeSlot n).offers.Sublist s.offers :=
  (State.voidOfferOn_sublist _ _ _ _).trans (by simp)

theorem State.giveUpSlot_offers_sublist (s : State) (p : Port) (why : Reason) (n : Nat) :
    (s.giveUpSlot p why n).offers.Sublist s.offers :=
  (State.voidOfferBy_sublist _ _ _ _ _).trans (by simp)

theorem State.slot_ne_of_mem_endLease {s : State} (h : s.offers.Pairwise (fun x y => x.slot < y.slot)) {n : Nat}
    {o : Offer} (ho : o ∈ (s.endLease n).offers) : o.slot ≠ n :=
  State.slot_ne_of_mem_voidOfferOn (by simpa using h) ho

theorem State.slot_ne_of_mem_revokeSlot {s : State} (h : s.offers.Pairwise (fun x y => x.slot < y.slot)) {n : Nat}
    {o : Offer} (ho : o ∈ (s.revokeSlot n).offers) : o.slot ≠ n :=
  State.slot_ne_of_mem_voidOfferOn (by simpa using h) ho

theorem State.giver_ne_of_mem_giveUpSlot {s : State} (h : s.offers.Pairwise (fun x y => x.slot < y.slot)) {p : Port}
    {why : Reason} {n : Nat} {o : Offer} (ho : o ∈ (s.giveUpSlot p why n).offers) (hn : o.slot = n) : o.giver ≠ p :=
  State.giver_ne_of_mem_voidOfferBy (by simpa using h) ho hn

/-! ### The commit steps on one slot -/

/-- The warned set after a warning check of the parties `ps` (R49). -/
def State.warnedAfter (s : State) (ps : List Port) (h : Holding) : PortSet :=
  (ps.filter (s.dueWarning h)).foldl PerPort.insert h.warned

theorem PerPort.get_foldl_insert (l : List Port) (v : PortSet) (q : Port) :
    (l.foldl PerPort.insert v).get q = (l.contains q || v.get q) := by
  induction l generalizing v with
  | nil => simp
  | cons p l ih =>
    rw [List.foldl_cons, ih, PerPort.get_insert, List.contains_cons, Bool.or_left_comm, Bool.or_assoc]

theorem State.warnedAfter_get (s : State) (ps : List Port) (h : Holding) (q : Port) :
    (s.warnedAfter ps h).get q = ((ps.contains q && s.dueWarning h q) || h.warned.get q) := by
  rw [State.warnedAfter, PerPort.get_foldl_insert]
  congr 1
  rw [Bool.eq_iff_iff]
  simp

/-- The entry of a holding whose lease has not run out after commit step 2 (R48, R49). -/
def State.countedEntry (s : State) (e : Entry) (h : Holding) : Entry :=
  e.withHolding { h.counted with warned := s.warnedAfter e.parties h.counted }

@[simp] theorem Entry.holding?_withHolding (e : Entry) (x : Holding) :
    (e.withHolding x).holding? = e.holding?.map (fun _ => x) := by cases e <;> rfl

@[simp] theorem Entry.withHolding_withHolding (e : Entry) (x y : Holding) :
    (e.withHolding x).withHolding y = e.withHolding y := by cases e <;> rfl

@[simp] theorem State.setStaged_setStaged (s : State) (n : Nat) (e f : Entry) :
    (s.setStaged n e).setStaged n f = s.setStaged n f := by
  have h : ((s.setStaged n e).setStaged n f).staged = (s.setStaged n f).staged := by
    refine Table.eq_of_entryAt fun m hm => ?_
    simp only [State.entryAt_setStaged]
    split <;> rfl
  exact congrArg (fun t => ({ s with staged := t } : State)) h

/-- All that commit step 2 does to one slot: nothing, the end of the lease, or the countdown with the warnings. -/
theorem State.countLease_cases (s : State) {n : Nat} (hn : n < 64) :
    ((entryAt s.staged n).holding? = none ∧ s.countLease n = s)
    ∨ ∃ h, (entryAt s.staged n).holding? = some h
      ∧ ((h.counted.lease = 0 ∧ s.countLease n = s.endLease n)
        ∨ (h.counted.lease ≠ 0 ∧ s.countLease n
          = (s.setStaged n (s.countedEntry (entryAt s.staged n) h)).notifyAll
            ((entryAt s.staged n).parties.filter (s.dueWarning h.counted))
            { s.notice .leaseLow with
              slot := some n, tag := some h.counted.tag, count := some h.counted.lease.toNat })) := by
  unfold State.countLease
  dsimp only
  cases hh : (entryAt s.staged n).holding? with
  | none => exact .inl ⟨rfl, rfl⟩
  | some h =>
    refine .inr ⟨h, rfl, ?_⟩
    by_cases h0 : h.counted.lease = 0
    · exact .inl ⟨h0, if_pos h0⟩
    · refine .inr ⟨h0, (if_neg h0).trans ?_⟩
      have hentry : entryAt (s.setStaged n ((entryAt s.staged n).withHolding h.counted)).staged n
          = (entryAt s.staged n).withHolding h.counted := s.entryAt_setStaged_self hn _
      simp only [State.warnSlot, hentry, Entry.holding?_withHolding, hh, Option.map_some, Entry.withHolding_parties,
        Entry.withHolding_withHolding, State.setStaged_setStaged]
      rfl

theorem State.rotateSlot_cases (s : State) (n : Nat) :
    s.rotateSlot n = s ∨ ∃ ms dr h, entryAt s.staged n = .shared ms dr h
      ∧ s.rotateSlot n = s.setStaged n (.shared ms (memberAfter ms dr) h) := by
  unfold State.rotateSlot
  split
  · exact .inr ⟨_, _, _, by assumption, rfl⟩
  all_goals exact .inl rfl

end Sys2Proof.Machine
end

section
/-! SUPPORT. The laws of the schedule, in the form in which the pieces of a step keep them: the Staged side, for any slot
count and any set of ports that may be named, and the Active side. -/

-- One proof after another: many at once take more memory than the check allows.
set_option Elab.async false

namespace Sys2Proof.Machine

open Sys2Proof

/-! ### The two sides of the laws -/

/-- The laws of the schedule but for the Active table, with `S` slots per frame and the ports of `A` as those that may be
named. Every piece of a frame end keeps them; of the ports they read nothing. -/
structure State.StagedOk (S : Nat) (A : Port → Prop) (s : State) : Prop where
  table : Table.Ok s.staged
  beyond : ∀ n, S ≤ n → n < 64 → entryAt s.staged n = .free
  roster : ∀ n, n < 64 → ∀ p, p ∈ (entryAt s.staged n).parties → A p
  sorted : s.offers.Pairwise (fun x y => x.slot < y.slot)
  offers : ∀ o ∈ s.offers, o.Ok s.staged
  traders : ∀ o ∈ s.offers, A o.giver ∧ A o.target
  requests : ∀ r ∈ s.requests, A r.port ∧ r.res.lease ≠ 0
  edits : ∀ e ∈ s.edits, A e.issuer ∧ e.action.Ok
  slots : 4 ≤ S
  proposal : s.proposal.Ok

/-- The laws of the schedule that speak of the Active table. -/
structure State.ActiveOk (s : State) : Prop where
  table : Table.Ok s.active
  cooling : ∀ n, n < 64 → entryAt s.active n = .cooling → (entryAt s.staged n).parties = []
  beyond : ∀ n, s.slots ≤ n → n < 64 → entryAt s.active n = .free

/-- The ports that are ATTACHED. -/
def State.Attached (s : State) (p : Port) : Prop := s.attached p = true

theorem State.scheduleOk_iff (s : State) : s.ScheduleOk ↔ s.StagedOk s.slots s.Attached ∧ s.ActiveOk := by
  constructor
  · rintro ⟨hactive, hstaged, hcool, hbeyond, ⟨hsorted, hoffers⟩, ⟨hnamed, hreq, htraders, hissuers⟩, hlease, hacts, hS,
      hprop⟩
    exact ⟨⟨hstaged, fun n hn h64 => (hbeyond n hn h64).2, hnamed, hsorted, hoffers, htraders,
      fun r hr => ⟨hreq r hr, hlease r hr⟩, fun e he => ⟨hissuers e he, hacts e he⟩, hS, hprop⟩,
      ⟨hactive, hcool, fun n hn h64 => (hbeyond n hn h64).1⟩⟩
  · rintro ⟨h, k⟩
    exact ⟨k.table, h.table, k.cooling, fun n hn h64 => ⟨k.beyond n hn h64, h.beyond n hn h64⟩, ⟨h.sorted, h.offers⟩,
      ⟨h.roster, fun r hr => (h.requests r hr).1, h.traders, fun e he => (h.edits e he).1⟩,
      fun r hr => (h.requests r hr).2, fun e he => (h.edits e he).2, h.slots, h.proposal⟩

/-- The laws hold of a state with the same ATTACHED ports when both sides do. -/
theorem State.ScheduleOk.of_attached {s t : State} (h : t.StagedOk t.slots s.Attached) (k : t.ActiveOk)
    (ha : ∀ q, t.attached q = s.attached q) : t.ScheduleOk := by
  have hA : t.Attached = s.Attached := funext fun q => by rw [State.Attached, State.Attached, ha]
  exact t.scheduleOk_iff.2 ⟨hA ▸ h, k⟩

/-- The Active side stays when the Staged entries under a COOLING Active one still name no port. -/
theorem State.ActiveOk.of_eq {s t : State} (k : s.ActiveOk) (ha : t.active = s.active) (hp : t.plan = s.plan)
    (hc : ∀ n, n < 64 → entryAt s.active n = .cooling → (entryAt t.staged n).parties = []) : t.ActiveOk := by
  have hS : t.slots = s.slots := by rw [State.slots, State.slots, hp]
  exact ⟨ha ▸ k.table, fun n hn h => hc n hn (ha ▸ h), fun n hn h => ha ▸ k.beyond n (hS ▸ hn) h⟩

/-! ### What each kind of update keeps of the Staged side -/

section

variable {S : Nat} {A : Port → Prop} {s t : State}

theorem State.StagedOk.alike (h : s.StagedOk S A) (k : s.Alike t) : t.StagedOk S A := by
  obtain ⟨ps, rfl, -⟩ := k
  exact ⟨h.table, h.beyond, h.roster, h.sorted, h.offers, h.traders, h.requests, h.edits, h.slots, h.proposal⟩

theorem State.StagedOk.withOffers (h : s.StagedOk S A) {l : List Offer} (hl : l.Sublist s.offers) :
    ({ s with offers := l } : State).StagedOk S A :=
  ⟨h.table, h.beyond, h.roster, h.sorted.sublist hl, fun o ho => h.offers o (hl.subset ho),
    fun o ho => h.traders o (hl.subset ho), h.requests, h.edits, h.slots, h.proposal⟩

theorem State.StagedOk.withRequests (h : s.StagedOk S A) {l : List Record} (hl : ∀ r ∈ l, A r.port ∧ r.res.lease ≠ 0) :
    ({ s with requests := l } : State).StagedOk S A :=
  ⟨h.table, h.beyond, h.roster, h.sorted, h.offers, h.traders, hl, h.edits, h.slots, h.proposal⟩

theorem State.StagedOk.withEdits (h : s.StagedOk S A) {l : List Edit} (hl : ∀ e ∈ l, A e.issuer ∧ e.action.Ok) :
    ({ s with edits := l } : State).StagedOk S A :=
  ⟨h.table, h.beyond, h.roster, h.sorted, h.offers, h.traders, h.requests, hl, h.slots, h.proposal⟩

theorem State.StagedOk.withProposal (h : s.StagedOk S A) {x : ProposalState} (hx : x.Ok) :
    ({ s with proposal := x } : State).StagedOk S A :=
  ⟨h.table, h.beyond, h.roster, h.sorted, h.offers, h.traders, h.requests, h.edits, h.slots, hx⟩

/-- The Staged side speaks of five fields. -/
theorem State.StagedOk.of_fields (h : s.StagedOk S A) (h1 : t.staged = s.staged) (h2 : t.offers = s.offers)
    (h3 : t.requests = s.requests) (h4 : t.edits = s.edits) (h5 : t.proposal = s.proposal) : t.StagedOk S A := by
  constructor
  · exact h1 ▸ h.table
  · exact h1 ▸ h.beyond
  · exact h1 ▸ h.roster
  · exact h2 ▸ h.sorted
  · exact h1 ▸ h2 ▸ h.offers
  · exact h2 ▸ h.traders
  · exact h3 ▸ h.requests
  · exact h4 ▸ h.edits
  · exact h.slots
  · exact h5 ▸ h.proposal

/-- A slot that a port holds or shares is in the frame, and its entry obeys R2. -/
theorem State.StagedOk.of_party (h : s.StagedOk S A) {n : Nat} {p : Port} (hp : p ∈ (entryAt s.staged n).parties) :
    1 ≤ n ∧ n < 64 ∧ n < S ∧ (entryAt s.staged n).Ok ∧ entryAt s.staged n ≠ .beacon := by
  have h64 : n < 64 := by
    by_contra hn
    rw [entryAt_of_le _ (Nat.not_lt.1 hn)] at hp
    cases hp
  have h1 : 1 ≤ n := by
    by_contra hn
    obtain rfl : n = 0 := by omega
    rw [h.table.1] at hp
    cases hp
  have hS : n < S := by
    by_contra hn
    rw [h.beyond n (Nat.not_lt.1 hn) h64] at hp
    cases hp
  obtain ⟨hb, hok⟩ := h.table.2 n h64 h1
  exact ⟨h1, h64, hS, hok, hb⟩

theorem State.StagedOk.of_holding (h : s.StagedOk S A) {n : Nat} {x : Holding}
    (hx : (entryAt s.staged n).holding? = some x) :
    1 ≤ n ∧ n < 64 ∧ n < S ∧ (entryAt s.staged n).Ok ∧ entryAt s.staged n ≠ .beacon := by
  obtain ⟨p, hp⟩ := Entry.exists_party (h.table.entryAt_ok n) hx
  exact h.of_party hp

/-- One slot from 1 on edited: the new entry obeys R2, lies in the frame unless it is FREE, names ports that may be named,
and leaves in order the offers on the slot that stay. -/
theorem State.StagedOk.setSlot (h : s.StagedOk S A) {n : Nat} {e : Entry} {l : List Offer} (h1 : 1 ≤ n) (he : e.Ok)
    (hb : e ≠ .beacon) (hS : n < S ∨ e = .free) (hA : ∀ q ∈ e.parties, A q) (hl : l.Sublist s.offers)
    (ho : ∀ o ∈ l, o.slot = n →
      o.giver ∈ e.parties ∧ o.target ∉ e.parties ∧ (o.kind = .share → e.parties.length < 4)) :
    ({ s.setStaged n e with offers := l } : State).StagedOk S A := by
  have hentry : ∀ m, entryAt (s.setStaged n e).staged m = if m = n ∧ n < 64 then e else entryAt s.staged m :=
    fun m => s.entryAt_setStaged n m e
  refine ⟨⟨?_, fun m hm hm1 => ?_⟩, fun m hm h64 => ?_, fun m h64 p hp => ?_, h.sorted.sublist hl, fun o hmem => ?_,
    fun o hmem => h.traders o (hl.subset hmem), h.requests, h.edits, h.slots, h.proposal⟩
  · change entryAt (s.setStaged n e).staged 0 = _
    rw [hentry, if_neg (by omega)]
    exact h.table.1
  · change entryAt (s.setStaged n e).staged m ≠ _ ∧ (entryAt (s.setStaged n e).staged m).Ok
    rw [hentry]
    split
    · exact ⟨hb, he⟩
    · exact h.table.2 m hm hm1
  · change entryAt (s.setStaged n e).staged m = _
    rw [hentry]
    split
    · exact hS.resolve_left (by omega)
    · exact h.beyond m hm h64
  · change p ∈ (entryAt (s.setStaged n e).staged m).parties at hp
    rw [hentry] at hp
    split at hp
    · exact hA p hp
    · exact h.roster m h64 p hp
  · obtain ⟨hslot, hleft, hg, ht, hk⟩ := h.offers o (hl.subset hmem)
    refine ⟨hslot, hleft, ?_⟩
    change o.giver ∈ (entryAt (s.setStaged n e).staged o.slot).parties
      ∧ o.target ∉ (entryAt (s.setStaged n e).staged o.slot).parties
      ∧ (_ → (entryAt (s.setStaged n e).staged o.slot).parties.length < 4)
    rw [hentry]
    split
    · rename_i hc
      exact ho o hmem hc.1
    · exact ⟨hg, ht, hk⟩

/-- One slot edited that no offer names any more. -/
theorem State.StagedOk.clearSlot (h : s.StagedOk S A) {n : Nat} {e : Entry} {l : List Offer} (h1 : 1 ≤ n)
    (he : e = .free ∨ e = .cooling ∧ n < S) (hl : l.Sublist s.offers) (ho : ∀ o ∈ l, o.slot ≠ n) :
    ({ s.setStaged n e with offers := l } : State).StagedOk S A := by
  refine h.setSlot h1 ?_ ?_ ?_ ?_ hl fun o hmem hs => absurd hs (ho o hmem) <;> rcases he with rfl | ⟨rfl, hn⟩
  · trivial
  · trivial
  · simp
  · simp
  · exact .inr rfl
  · exact .inl hn
  · simp [Entry.parties]
  · simp [Entry.parties]

/-- One holding edited, with the same parties. -/
theorem State.StagedOk.setHolding (h : s.StagedOk S A) {n : Nat} {x y : Holding}
    (hx : (entryAt s.staged n).holding? = some x) (hy : y.lease ≠ 0) :
    (s.setStaged n ((entryAt s.staged n).withHolding y)).StagedOk S A := by
  obtain ⟨h1, h64, hS, hok, hb⟩ := h.of_holding hx
  have hparties := Entry.withHolding_parties (entryAt s.staged n) y
  refine h.setSlot h1 (Entry.withHolding_ok hok hy) (Entry.withHolding_ne_beacon hb) (.inl hS) ?_ (.refl _) ?_
  · rw [hparties]
    exact h.roster n h64
  · rintro o ho rfl
    rw [hparties]
    obtain ⟨-, -, hrest⟩ := h.offers o ho
    exact hrest

theorem State.setStaged_self (s : State) (n : Nat) : s.setStaged n (entryAt s.staged n) = s := by
  have h : (s.setStaged n (entryAt s.staged n)).staged = s.staged := by
    refine Table.eq_of_entryAt fun m _ => ?_
    rw [State.entryAt_setStaged]
    split
    · rw [‹m = n ∧ n < 64›.1]
    · rfl
  exact congrArg (fun t => ({ s with staged := t } : State)) h

/-- An entry that does not name a port is left as it is (R53). -/
theorem Entry.without_of_not_party {e : Entry} {p : Port} (h : p ∉ e.parties) : e.without p = e := by
  cases e with
  | held q x => exact if_neg fun hq => h (by simp [Entry.parties, hq])
  | shared ms dr x => exact if_neg (by simpa [Entry.parties] using h)
  | _ => rfl

theorem State.StagedOk.giveUpSlot (h : s.StagedOk S A) (p : Port) (why : Reason) (n : Nat) :
    (s.giveUpSlot p why n).StagedOk S A := by
  refine State.StagedOk.alike ?_ (s.giveUpSlot_alike p why n)
  have hsub := s.giveUpSlot_offers_sublist p why n
  by_cases hp : p ∈ (entryAt s.staged n).parties
  · obtain ⟨h1, h64, hS, hok, hb⟩ := h.of_party hp
    obtain ⟨hok', hb', hparties⟩ := Entry.without_spec _ p hok hb hp
    refine h.setSlot h1 hok' hb' (.inl hS) ?_ hsub ?_ <;> rw [hparties]
    · exact fun q hq => h.roster n h64 q (List.mem_of_mem_filter hq)
    · rintro o ho rfl
      obtain ⟨-, -, hg, ht, hk⟩ := h.offers o (hsub.subset ho)
      have hne := State.giver_ne_of_mem_giveUpSlot h.sorted ho rfl
      exact ⟨List.mem_filter.2 ⟨hg, by simpa using hne⟩, fun hm => ht (List.mem_of_mem_filter hm),
        fun hs => (List.length_filter_le _ _).trans_lt (hk hs)⟩
  · rw [Entry.without_of_not_party hp, State.setStaged_self]
    exact h.withOffers hsub

theorem State.StagedOk.giveUpSlots (h : s.StagedOk S A) (p : Port) (why : Reason) (ns : List Nat) :
    (s.giveUpSlots p why ns).StagedOk S A :=
  foldl_invariant _ (fun t => t.StagedOk S A) _ _ h fun _ n _ h => h.giveUpSlot p why n

theorem State.StagedOk.endLease (h : s.StagedOk S A) {n : Nat} {x : Holding}
    (hx : (entryAt s.staged n).holding? = some x) : (s.endLease n).StagedOk S A := by
  obtain ⟨h1, -, hS, -, -⟩ := h.of_holding hx
  refine State.StagedOk.alike ?_ (s.endLease_alike n)
  exact h.clearSlot h1 (.inr ⟨rfl, hS⟩) (s.endLease_offers_sublist n) fun o => State.slot_ne_of_mem_endLease h.sorted

theorem State.StagedOk.revokeSlot (h : s.StagedOk S A) {n : Nat} (h1 : 1 ≤ n) : (s.revokeSlot n).StagedOk S A := by
  refine State.StagedOk.alike ?_ (s.revokeSlot_alike n)
  exact h.clearSlot h1 (.inl rfl) (s.revokeSlot_offers_sublist n) fun o => State.slot_ne_of_mem_revokeSlot h.sorted

theorem State.StagedOk.setRenewal (h : s.StagedOk S A) (lease : Half) (n : Nat) :
    (s.setRenewal lease n).StagedOk S A := by
  unfold State.setRenewal
  dsimp only
  split
  · rename_i x hx
    have hlease : x.lease ≠ 0 := Entry.lease_ne_zero (h.table.entryAt_ok n) hx
    exact h.setHolding hx (y := { x with renewal := some lease }) hlease
  · exact h

theorem State.StagedOk.acceptOffer (h : s.StagedOk S A) {o : Offer} (ho : o ∈ s.offers) :
    (s.acceptOffer o).StagedOk S A := by
  refine State.StagedOk.alike ?_ (s.acceptOffer_alike o)
  obtain ⟨-, -, hg, ht, hk⟩ := h.offers o ho
  obtain ⟨h1, h64, hS, hok, hb⟩ := h.of_party hg
  obtain ⟨hok', hb', hparties⟩ := Entry.accepted_spec hok hb hg ht hk
  rw [State.acceptOffer_offers]
  refine h.setSlot h1 hok' hb' (.inl hS) ?_ List.filter_sublist ?_
  · intro q hq
    rcases hparties q hq with rfl | hq
    · exact (h.traders o ho).2
    · exact h.roster _ h64 q hq
  · intro x hx hslot
    obtain ⟨hx, hid⟩ := List.mem_filter.1 hx
    rw [eq_of_slot_eq h.sorted ho hx hslot] at hid
    simp at hid

/-! ### The pieces of a commit -/

theorem State.StagedOk.coolSlot (h : s.StagedOk S A) (k : s.ActiveOk) {n : Nat} (hn : n < 64) :
    (s.coolSlot n).StagedOk S A := by
  unfold State.coolSlot
  split
  · rename_i hc
    have hc : entryAt s.active n = .cooling := by simpa [Entry.isCooling] using hc
    have h1 : 1 ≤ n := by
      by_contra h0
      obtain rfl : n = 0 := by omega
      rw [k.table.1] at hc
      cases hc
    refine h.clearSlot h1 (.inl rfl) (.refl _) ?_
    rintro o ho rfl
    obtain ⟨-, -, hg, -, -⟩ := h.offers o ho
    rw [k.cooling _ hn hc] at hg
    cases hg
  · exact h

theorem State.entryAt_coolSlot (s : State) (n m : Nat) :
    entryAt (s.coolSlot n).staged m
      = if m = n ∧ n < 64 ∧ entryAt s.active n = .cooling then .free else entryAt s.staged m := by
  unfold State.coolSlot
  by_cases hc : entryAt s.active n = .cooling
  · rw [if_pos (by simp [Entry.isCooling, hc]), State.entryAt_setStaged]
    simp [hc]
  · rw [if_neg (by simpa [Entry.isCooling] using hc), if_neg fun h => hc h.2.2]

/-- The Staged entries after commit step 1 (R19). -/
theorem State.entryAt_commitCooling (s : State) {m : Nat} (hm : m < 64) :
    entryAt s.commitCooling.staged m = if entryAt s.active m = .cooling then .free else entryAt s.staged m := by
  have fold : ∀ (l : List Nat) (u : State), u.active = s.active →
      entryAt (l.foldl State.coolSlot u).staged m
        = if m ∈ l ∧ entryAt s.active m = .cooling then .free else entryAt u.staged m := by
    intro l
    induction l with
    | nil => intro u _; simp
    | cons n l ih =>
      intro u hu
      rw [List.foldl_cons, ih _ (by simpa using hu), State.entryAt_coolSlot, hu]
      by_cases hmn : m = n
      · subst hmn; by_cases hc : entryAt s.active m = .cooling <;> simp [hm, hc]
      · simp [hmn]
  rw [State.commitCooling, fold _ _ rfl]
  simp [hm]

theorem State.ActiveOk.coolSlot (k : s.ActiveOk) (n : Nat) : (s.coolSlot n).ActiveOk := by
  refine k.of_eq (by simp) (by simp) fun m hm hc => ?_
  rw [State.entryAt_coolSlot]
  split
  · rfl
  · exact k.cooling m hm hc

theorem State.StagedOk.commitCooling (h : s.StagedOk S A) (k : s.ActiveOk) : s.commitCooling.StagedOk S A :=
  (foldl_invariant _ (fun t => t.StagedOk S A ∧ t.ActiveOk) slotNumbers s ⟨h, k⟩ fun _ n hn ⟨h, k⟩ =>
    ⟨h.coolSlot k (mem_slotNumbers.1 hn), k.coolSlot n⟩).1

theorem State.StagedOk.countLease (h : s.StagedOk S A) {n : Nat} (hn : n < 64) : (s.countLease n).StagedOk S A := by
  rcases s.countLease_cases hn with ⟨-, e⟩ | ⟨x, hx, ⟨-, e⟩ | ⟨h0, e⟩⟩ <;> rw [e]
  · exact h
  · exact h.endLease hx
  · refine State.StagedOk.alike ?_ (State.Alike.self_notifyAll _ _ _)
    exact h.setHolding hx h0

theorem State.StagedOk.commitLeases (h : s.StagedOk S A) : s.commitLeases.StagedOk S A :=
  foldl_invariant _ (fun t => t.StagedOk S A) _ _ h fun _ _ hn h => h.countLease (mem_slotNumbers.1 hn)

theorem State.StagedOk.rotateSlot (h : s.StagedOk S A) (n : Nat) : (s.rotateSlot n).StagedOk S A := by
  rcases s.rotateSlot_cases n with e | ⟨ms, dr, x, hentry, e⟩ <;> rw [e]
  · exact h
  · obtain ⟨h1, h64, hS, hok, -⟩ := h.of_holding (n := n) (x := x) (by rw [hentry]; rfl)
    rw [hentry] at hok
    obtain ⟨h2, h4, hnodup, hdr, hlease⟩ := hok
    have hparties : (entryAt s.staged n).parties = ms := by rw [hentry]; rfl
    refine h.setSlot h1 ⟨h2, h4, hnodup, memberAfter_mem ms dr hdr, hlease⟩ (by simp) (.inl hS) ?_ (.refl _) ?_
    · exact fun q hq => h.roster n h64 q (hparties ▸ hq)
    · rintro o ho rfl
      obtain ⟨-, -, hrest⟩ := h.offers o ho
      rwa [hparties] at hrest

theorem State.StagedOk.commitRotation (h : s.StagedOk S A) : s.commitRotation.StagedOk S A :=
  foldl_invariant _ (fun t => t.StagedOk S A) _ _ h fun _ n _ h => h.rotateSlot n

theorem State.StagedOk.enqueue (h : s.StagedOk S A) {p : Port} {r : Reservation} (hp : A p) (hr : r.lease ≠ 0) :
    (s.enqueue p r).StagedOk S A := by
  refine h.withRequests fun x hx => ?_
  rcases List.mem_append.1 hx with hx | hx
  · exact h.requests x hx
  · rw [List.mem_singleton.1 hx]
    exact ⟨hp, hr⟩

/-- A reservation in the ranges of R67 has a lease. -/
theorem Reservation.Ok.lease_ne_zero {r : Reservation} (h : r.Ok) : r.lease ≠ 0 := by
  obtain ⟨-, -, -, hlease, -⟩ := h
  exact hlease

theorem State.StagedOk.applyEdit (h : s.StagedOk S A) {e : Edit} (hA : A e.issuer) (hok : e.action.Ok) :
    (s.applyEdit e).StagedOk S A := by
  have hfail (why : Reason) : (s.failEdit e why).StagedOk S A := h.alike (.self_notify s _ _)
  unfold State.applyEdit
  split
  · unfold State.applyRelease
    dsimp only
    split
    · exact (h.giveUpSlot _ _ _).alike (.self_notify _ _ _)
    · exact hfail _
  · rename_i n lease hact
    rw [hact] at hok
    unfold State.applyRenew
    dsimp only
    split
    · rename_i x hx
      split
      · refine State.StagedOk.alike ?_ (.self_notify _ _ _)
        exact h.setHolding hx hok.2
      · exact hfail _
    · exact hfail _
  · rename_i r hact
    rw [hact] at hok
    unfold State.applyEnqueue
    split
    · exact hfail _
    · split
      · exact hfail _
      · split
        · exact hfail _
        · exact (h.enqueue hA (Reservation.Ok.lease_ne_zero hok)).alike (.self_notify _ _ _)

theorem State.StagedOk.applyHead (h : s.StagedOk S A) {e : Edit} (hA : A e.issuer) (hok : e.action.Ok) :
    (s.applyHead e).StagedOk S A :=
  (h.withEdits fun x hx => h.edits x (List.mem_of_mem_tail hx)).applyEdit hA hok

theorem State.StagedOk.commitEdits (h : s.StagedOk S A) : s.commitEdits.StagedOk S A :=
  foldl_invariant _ (fun t => t.StagedOk S A) _ _ h fun _ e he k => by
    obtain ⟨hA, hok⟩ := h.edits e ((List.takeWhile_sublist _).subset he)
    exact k.applyHead hA hok

theorem State.StagedOk.lapseRecords (h : s.StagedOk S A) (gone : Record → Bool) (why : Reason) :
    (s.lapseRecords gone why).StagedOk S A :=
  (h.withRequests fun r hr => h.requests r (List.mem_of_mem_filter hr)).alike (.self_deliver _ _)

theorem State.StagedOk.dropEdits (h : s.StagedOk S A) (n : Nat) : (s.dropEdits n).StagedOk S A :=
  (h.withEdits fun e he => h.edits e (List.mem_of_mem_filter he)).alike (.self_deliver _ _)

/-- With fewer slots per frame, once the positions beyond are FREE. -/
theorem State.StagedOk.narrow (h : s.StagedOk S A) {S' : Nat} (h4 : 4 ≤ S')
    (hfree : ∀ n, S' ≤ n → n < 64 → entryAt s.staged n = .free) : s.StagedOk S' A :=
  ⟨h.table, hfree, h.roster, h.sorted, h.offers, h.traders, h.requests, h.edits, h4, h.proposal⟩

/-- A smaller plan leaves the Staged side in order for the smaller S, a larger one for the larger (R131, R133). -/
theorem State.StagedOk.shrink {old new : Nat} (h : s.StagedOk old A) (h4 : 4 ≤ new) :
    (s.shrink old new).StagedOk new A := by
  have hfree : ∀ n, new ≤ n → n < 64 → entryAt (s.shrink old new).staged n = .free := by
    intro n hn h64
    rw [State.entryAt_shrink]
    split
    · rfl
    · exact h.beyond n (by omega) h64
  refine State.StagedOk.narrow (S := old) ?_ h4 hfree
  unfold State.shrink
  split
  · refine State.StagedOk.dropEdits (State.StagedOk.lapseRecords ?_ _ _) _
    refine foldl_invariant _ (fun t => t.StagedOk old A) _ _ h fun u n hn hu => hu.revokeSlot ?_
    have := (List.mem_filter.1 hn).2
    simp only [Bool.and_eq_true, decide_eq_true_eq] at this
    omega
  · exact h

theorem State.StagedOk.applyPlan (h : s.StagedOk s.slots A) {terms : PlanTerms} (hok : terms.Ok) :
    (s.applyPlan terms).StagedOk terms.geometry.slots A := by
  have hu : ({ s with plan := ⟨terms, s.plan.number + 1⟩, proposal := .none } : State).StagedOk s.slots A :=
    h.withProposal (x := .none) trivial |>.of_fields rfl rfl rfl rfl rfl
  exact (hu.shrink hok.1).alike (.self_deliver _ _)

/-- The plan that is due is in the ranges of R120. -/
theorem State.dueTerms_ok {terms : PlanTerms} (h : s.proposal.Ok) (hd : s.dueTerms = some terms) : terms.Ok := by
  unfold State.dueTerms at hd
  split at hd
  · rename_i pr f hpr
    rw [hpr] at h
    obtain ⟨-, ht⟩ := Option.ite_none_right_eq_some.1 hd
    cases ht
    exact h.1
  all_goals cases hd

theorem State.StagedOk.commitPlan (h : s.StagedOk s.slots A) : s.commitPlan.StagedOk s.commitPlan.slots A := by
  unfold State.commitPlan
  split
  · rename_i terms hd
    have hS : (s.applyPlan terms).slots = terms.geometry.slots := by simp [State.slots]
    rw [hS]
    exact h.applyPlan (State.dueTerms_ok h.proposal hd)
  · exact h

/-- A grant of available slots (R77). -/
theorem State.StagedOk.grant (h : s.StagedOk S A) {r : Record} {l : List Nat} (hA : A r.port) (hr : r.res.lease ≠ 0)
    (hl : ∀ n ∈ l, entryAt s.staged n = .free ∧ 1 ≤ n ∧ n < S) : (s.grant r l).StagedOk S A := by
  have hset : (l.foldl (fun s n => s.setStaged n (grantedEntry r.port r.res)) s).StagedOk S A := by
    refine (foldl_invariant _ (fun t => t.StagedOk S A ∧ t.offers = s.offers) l s ⟨h, rfl⟩ ?_).1
    rintro u n hn ⟨hu, ho⟩
    obtain ⟨hfree, h1, hS⟩ := hl n hn
    refine ⟨hu.setSlot h1 hr (by simp [grantedEntry]) (.inl hS) ?_ (.refl _) ?_, ho⟩
    · intro q hq
      rwa [List.mem_singleton.1 hq]
    · rintro o hmem rfl
      obtain ⟨-, -, hg, -⟩ := h.offers o (ho ▸ hmem)
      rw [hfree] at hg
      cases hg
  exact (hset.withRequests fun x hx => hset.requests x (List.mem_of_mem_erase hx)).alike (.self_notify _ _ _)

theorem State.StagedOk.visit (h : s.StagedOk s.slots A) {r : Record} (hA : A r.port) (hr : r.res.lease ≠ 0) :
    (s.visit r).StagedOk s.slots A := by
  rcases s.visit_cases r with e | ⟨l, hfind, -, e⟩ <;> rw [e]
  · exact h
  · exact h.grant hA hr fun n hn => State.available_spec (State.findSlots_available hfind n hn)

theorem State.StagedOk.visitAll (h : s.StagedOk s.slots A) : s.visitAll.StagedOk s.slots A := by
  refine (foldl_invariant _ (fun t => t.StagedOk s.slots A ∧ t.plan = s.plan) _ _ ⟨h, rfl⟩ ?_).1
  rintro u r hr ⟨hu, hplan⟩
  obtain ⟨hA, hlease⟩ := h.requests r hr
  have hS : u.slots = s.slots := by rw [State.slots, State.slots, hplan]
  exact ⟨hS ▸ State.StagedOk.visit (hS ▸ hu) hA hlease, by simp [hplan]⟩

theorem State.StagedOk.countWaits (h : s.StagedOk S A) : s.countWaits.StagedOk S A := by
  refine (h.lapseRecords _ _).withRequests fun r hr => ?_
  obtain ⟨x, hx, rfl⟩ := List.mem_map.1 hr
  exact (h.lapseRecords _ _).requests x hx

theorem State.StagedOk.commitAllocator (h : s.StagedOk s.slots A) : s.commitAllocator.StagedOk s.slots A :=
  h.visitAll.countWaits

theorem State.StagedOk.countOffers (h : s.StagedOk S A) : s.countOffers.StagedOk S A := by
  have hmem : ∀ o ∈ s.countOffers.offers, ∃ x ∈ s.offers, 1 < x.left ∧ o = { x with left := x.left - 1 } := by
    intro o ho
    obtain ⟨x, hx, rfl⟩ := List.mem_map.1 ho
    obtain ⟨hx, hleft⟩ := List.mem_filter.1 hx
    exact ⟨x, hx, by simpa [Offer.lapses] using hleft, rfl⟩
  refine ⟨h.table, h.beyond, h.roster, ?_, fun o ho => ?_, fun o ho => ?_, h.requests, h.edits, h.slots, h.proposal⟩
  · exact List.pairwise_map.2 (h.sorted.filter _)
  · obtain ⟨x, hx, hleft, rfl⟩ := hmem o ho
    obtain ⟨hslot, -, hrest⟩ := h.offers x hx
    exact ⟨hslot, Nat.le_sub_one_of_lt hleft, hrest⟩
  · obtain ⟨x, hx, -, rfl⟩ := hmem o ho
    exact h.traders x hx

/-- The deadline countdown leaves a proposal in the ranges of R123. -/
theorem State.countDeadline_proposal_ok (h : s.proposal.Ok) : s.countDeadline.proposal.Ok := by
  unfold State.countDeadline
  split
  · rename_i pr d hp
    rw [hp] at h
    obtain ⟨hterms, h1, hd, hsub⟩ := h
    dsimp only
    split
    · trivial
    · exact ⟨hterms, by omega, by omega, hsub⟩
  all_goals exact h

theorem State.StagedOk.countDeadline (h : s.StagedOk S A) : s.countDeadline.StagedOk S A :=
  (h.withProposal (State.countDeadline_proposal_ok h.proposal)).of_fields (by simp) (by simp) (by simp) (by simp) rfl

end

/-- After a commit the Staged side is in order, and the Active table is the Staged one (R17, R21). -/
theorem State.StagedOk.commit {A : Port → Prop} {s : State} (h : s.StagedOk s.slots A) (k : s.ActiveOk) :
    s.commit.StagedOk s.commit.slots A ∧ s.commit.active = s.commit.staged := by
  refine s.commit_stages (fun i t => t.StagedOk t.slots A ∧ (i = 0 → t.ActiveOk) ∧ (i = 7 → t.active = t.staged))
    ?_ ?_ ?_ ?_ ?_ ?_ ?_ ?_ ?_ |>.imp id (fun x => x.2 rfl)
  · have hS : s.countOffers.countDeadline.slots = s.slots := by simp [State.slots]
    refine ⟨hS ▸ h.countOffers.countDeadline, fun _ => k.of_eq (by simp) (by simp) ?_, fun h0 => by omega⟩
    intro n hn hc
    simpa using k.cooling n hn hc
  · rintro t ⟨ht, kt, -⟩
    have hS : t.commitCooling.slots = t.slots := by simp [State.slots]
    exact ⟨by rw [hS]; exact ht.commitCooling (kt rfl), by omega, by omega⟩
  · rintro t ⟨ht, -⟩
    have hS : t.commitLeases.slots = t.slots := by simp [State.slots]
    exact ⟨by rw [hS]; exact ht.commitLeases, by omega, by omega⟩
  · rintro t ⟨ht, -⟩
    have hS : t.commitRotation.slots = t.slots := by simp [State.slots]
    exact ⟨by rw [hS]; exact ht.commitRotation, by omega, by omega⟩
  · rintro t ⟨ht, -⟩
    have hS : t.commitEdits.slots = t.slots := by simp [State.slots]
    exact ⟨by rw [hS]; exact ht.commitEdits, by omega, by omega⟩
  · rintro t ⟨ht, -⟩
    exact ⟨ht.commitPlan, by omega, by omega⟩
  · rintro t ⟨ht, -⟩
    have hS : t.commitAllocator.slots = t.slots := by simp [State.slots]
    exact ⟨by rw [hS]; exact ht.commitAllocator, by omega, by omega⟩
  · rintro t ⟨ht, -⟩
    exact ⟨ht.of_fields rfl rfl rfl rfl rfl, by omega, fun _ => rfl⟩
  · rintro i t ns ⟨ht, kt, ha⟩
    have hS : (t.deliver ns).slots = t.slots := by simp [State.slots]
    refine ⟨hS ▸ ht.alike (.self_deliver t ns), fun hi => (kt hi).of_eq (by simp) (by simp) ?_, fun hi => by
      simpa using ha hi⟩
    intro n hn hc
    simpa using (kt hi).cooling n hn hc

/-- A commit leaves the whole schedule in order, for the ports named before it. -/
theorem State.ScheduleOk.commit {s : State} (h : s.ScheduleOk) : s.commit.ScheduleOk := by
  obtain ⟨hst, k⟩ := s.scheduleOk_iff.1 h
  obtain ⟨hc, hact⟩ := hst.commit k
  refine .of_attached hc ⟨hact ▸ hc.table, fun n _ hcool => ?_, hact ▸ hc.beyond⟩ s.commit_told.attached
  rw [← hact, hcool]
  rfl

end Sys2Proof.Machine
end

section
/-! SUPPORT. Which entries an operation can make of which: no port joins a slot, no slot becomes FREE, and the bookkeeping
of the holdings stays. All that gives slots up, counts leases and rotates does no more than that (`Entry.Ages`). -/

-- One proof after another: many at once take more memory than the check allows.
set_option Elab.async false

namespace Sys2Proof.Machine

open Sys2Proof

/-- No renewal is pending on the entry. -/
def Entry.Plain (e : Entry) : Prop := ∀ h, e.holding? = some h → h.renewal = none

/-- `e'` can come of `e` without a grant, an acceptance or a RENEW. -/
structure Entry.Wanes (e e' : Entry) : Prop where
  parties : ∀ p ∈ e'.parties, p ∈ e.parties
  kept : e.Kept → e'.Kept
  plain : e.Plain → e'.Plain

/-- The same, and no entry becomes FREE. -/
structure Entry.Ages (e e' : Entry) : Prop extends e.Wanes e' where
  free : e' = .free → e = .free

theorem Entry.Wanes.refl (e : Entry) : e.Wanes e := ⟨fun _ h => h, id, id⟩

theorem Entry.Wanes.trans {e f g : Entry} (h : e.Wanes f) (k : f.Wanes g) : e.Wanes g :=
  ⟨fun p hp => h.parties p (k.parties p hp), fun he => k.kept (h.kept he), fun he => k.plain (h.plain he)⟩

theorem Entry.Wanes.free (e : Entry) : e.Wanes .free :=
  ⟨fun _ h => (nomatch h), fun _ _ h => (nomatch h), fun _ _ h => (nomatch h)⟩

theorem Entry.Ages.refl (e : Entry) : e.Ages e := ⟨.refl e, id⟩

theorem Entry.Ages.trans {e f g : Entry} (h : e.Ages f) (k : f.Ages g) : e.Ages g :=
  ⟨h.toWanes.trans k.toWanes, fun hg => h.free (k.free hg)⟩

theorem Entry.Ages.cooling (e : Entry) : e.Ages .cooling :=
  ⟨⟨fun _ h => (nomatch h), fun _ _ h => (nomatch h), fun _ _ h => (nomatch h)⟩, fun h => (nomatch h)⟩

/-- The common fields edited: the tag stays, the warned set stays among the parties, and no renewal comes up. -/
theorem Entry.Ages.withHolding {e : Entry} {x y : Holding} (hx : e.holding? = some x) (htag : y.tag = x.tag)
    (hw : ∀ p, y.warned.get p = true → x.warned.get p = true ∨ p ∈ e.parties)
    (hr : x.renewal = none → y.renewal = none) : e.Ages (e.withHolding y) := by
  refine ⟨⟨fun p hp => by rwa [Entry.withHolding_parties] at hp, fun hk z hz => ?_, fun hp z hz => ?_⟩, fun hf => ?_⟩
  · obtain rfl : y = z := by simpa [hx] using hz
    obtain ⟨ht, hin⟩ := hk x hx
    rw [Entry.withHolding_parties]
    exact ⟨htag ▸ ht, fun p hp => (hw p hp).elim (hin p) id⟩
  · obtain rfl : y = z := by simpa [hx] using hz
    exact hr (hp x hx)
  · cases e <;> cases hf
    rfl

theorem Entry.Ages.leaveShared (p : Port) (ms : List Port) (dr : Port) (h : Holding) :
    (Entry.shared ms dr h).Ages (Machine.leaveShared p ms dr h) := by
  have key : ∀ e : Entry, e.parties = ms.filter (· != p) → e ≠ .free →
      e.holding? = some { h with warned := h.warned.erase p } → (Entry.shared ms dr h).Ages e := by
    intro e hps hfree hh
    refine ⟨⟨fun q hq => List.mem_of_mem_filter (hps ▸ hq), fun hk z hz => ?_, fun hp z hz => ?_⟩, fun hf =>
      absurd hf hfree⟩
    · obtain ⟨ht, hin⟩ := hk h rfl
      obtain rfl : _ = z := Option.some.inj (hh.symm.trans hz)
      refine ⟨ht, fun q hq => ?_⟩
      have hq : q ≠ p ∧ h.warned.get q = true := by simpa using hq
      rw [hps, List.mem_filter]
      exact ⟨hin q hq.2, by simpa using hq.1⟩
    · obtain rfl : _ = z := Option.some.inj (hh.symm.trans hz)
      exact hp h rfl
  unfold Machine.leaveShared
  dsimp only
  split
  · rename_i q hrest
    exact key _ hrest.symm (by simp) rfl
  · exact key _ rfl (by simp) rfl

theorem Entry.Ages.without (e : Entry) (p : Port) : e.Ages (e.without p) := by
  cases e with
  | held q h =>
    unfold Entry.without
    dsimp only
    split
    · exact .cooling _
    · exact .refl _
  | shared ms dr h =>
    unfold Entry.without
    dsimp only
    split
    · exact .leaveShared p ms dr h
    · exact .refl _
  | _ => exact .refl _

theorem Entry.Ages.rotate (ms : List Port) (dr dr' : Port) (h : Holding) :
    (Entry.shared ms dr h).Ages (.shared ms dr' h) :=
  ⟨⟨fun _ hp => hp, id, id⟩, fun hf => (nomatch hf)⟩

/-! ### State by state -/

/-- Every Staged entry of `t` can come of that of `s` in this way. -/
def State.Ages (s t : State) : Prop := ∀ n, (entryAt s.staged n).Ages (entryAt t.staged n)

/-- Every Staged entry of `t` can come of that of `s` in this way, or by becoming FREE. -/
def State.Wanes (s t : State) : Prop := ∀ n, (entryAt s.staged n).Wanes (entryAt t.staged n)

namespace State

variable {s t u : State}

theorem Wanes.refl (s : State) : s.Wanes s := fun _ => .refl _

theorem Wanes.trans (h : s.Wanes t) (k : t.Wanes u) : s.Wanes u := fun n => (h n).trans (k n)

theorem Wanes.of_staged (h : t.staged = s.staged) : s.Wanes t := fun n => by rw [h]; exact .refl _

theorem Wanes.set (s : State) {n : Nat} {e : Entry} (h : (entryAt s.staged n).Wanes e) : s.Wanes (s.setStaged n e) := by
  intro m
  rw [State.entryAt_setStaged]
  split
  · rwa [‹m = n ∧ n < 64›.1]
  · exact .refl _

theorem Wanes.of_set (n : Nat) {e : Entry} (h : (entryAt s.staged n).Wanes e) (ht : t.staged = (s.setStaged n e).staged) :
    s.Wanes t :=
  (Wanes.set s h).trans (.of_staged ht)

theorem Wanes.foldl {α : Type} {f : State → α → State} {l : List α} (h : ∀ (u : State) a, a ∈ l → u.Wanes (f u a))
    (s : State) : s.Wanes (l.foldl f s) :=
  foldl_invariant f s.Wanes l s (.refl s) fun u a ha hu => hu.trans (h u a ha)

theorem Ages.wanes (h : s.Ages t) : s.Wanes t := fun n => (h n).toWanes

theorem Ages.refl (s : State) : s.Ages s := fun _ => .refl _

theorem Ages.trans (h : s.Ages t) (k : t.Ages u) : s.Ages u := fun n => (h n).trans (k n)

theorem Ages.of_staged (h : t.staged = s.staged) : s.Ages t := fun n => by rw [h]; exact .refl _

theorem Ages.set (s : State) {n : Nat} {e : Entry} (h : (entryAt s.staged n).Ages e) : s.Ages (s.setStaged n e) := by
  intro m
  rw [State.entryAt_setStaged]
  split
  · rwa [‹m = n ∧ n < 64›.1]
  · exact .refl _

theorem Ages.of_set (n : Nat) {e : Entry} (h : (entryAt s.staged n).Ages e) (ht : t.staged = (s.setStaged n e).staged) :
    s.Ages t :=
  (Ages.set s h).trans (.of_staged ht)

theorem Ages.foldl {α : Type} {f : State → α → State} {l : List α} (h : ∀ (u : State) a, a ∈ l → u.Ages (f u a))
    (s : State) : s.Ages (l.foldl f s) :=
  foldl_invariant f s.Ages l s (.refl s) fun u a ha hu => hu.trans (h u a ha)

/-! ### The operations -/

theorem Ages.giveUpSlot (s : State) (p : Port) (why : Reason) (n : Nat) : s.Ages (s.giveUpSlot p why n) :=
  Ages.of_set n (.without _ p) (by simp)

theorem Ages.giveUpSlots (s : State) (p : Port) (why : Reason) (ns : List Nat) : s.Ages (s.giveUpSlots p why ns) :=
  Ages.foldl (fun u n _ => .giveUpSlot u p why n) s

theorem Ages.endLease (s : State) (n : Nat) : s.Ages (s.endLease n) :=
  Ages.of_set n (.cooling _) (by simp)

/-- The countdown keeps the tag, warns parties alone, and leaves no renewal pending (R48, R49). -/
theorem Ages.counted (s : State) {e : Entry} {h : Holding} (hh : e.holding? = some h) :
    e.Ages (s.countedEntry e h) := by
  refine .withHolding hh ?_ ?_ ?_
  · dsimp only
    unfold Holding.counted
    split <;> rfl
  · intro p hp
    have hp : (e.parties.contains p && s.dueWarning h.counted p || h.counted.warned.get p) = true :=
      (s.warnedAfter_get _ _ p) ▸ hp
    rw [Bool.or_eq_true, Bool.and_eq_true, List.contains_iff_mem] at hp
    refine hp.symm.imp (fun hw => ?_) And.left
    unfold Holding.counted at hw
    split at hw
    · exact hw
    · simp at hw
  · intro hr
    dsimp only
    unfold Holding.counted
    rw [hr]

theorem Ages.countLease (s : State) {n : Nat} (hn : n < 64) : s.Ages (s.countLease n) := by
  rcases s.countLease_cases hn with ⟨-, e⟩ | ⟨x, hx, ⟨-, e⟩ | ⟨h0, e⟩⟩ <;> rw [e]
  · exact .refl s
  · exact .endLease s n
  · exact Ages.of_set n (Ages.counted s hx) (by simp)

theorem Ages.commitLeases (s : State) : s.Ages s.commitLeases :=
  Ages.foldl (fun u _ hn => .countLease u (mem_slotNumbers.1 hn)) s

theorem Ages.rotateSlot (s : State) (n : Nat) : s.Ages (s.rotateSlot n) := by
  rcases s.rotateSlot_cases n with e | ⟨ms, dr, x, hentry, e⟩ <;> rw [e]
  · exact .refl s
  · exact Ages.set s (hentry ▸ .rotate ms dr _ x)

theorem Ages.commitRotation (s : State) : s.Ages s.commitRotation := Ages.foldl (fun u n _ => .rotateSlot u n) s

theorem Ages.applyRelease (s : State) (e : Edit) (n : Nat) : s.Ages (s.applyRelease e n) := by
  unfold State.applyRelease
  dsimp only
  split
  · exact (Ages.giveUpSlot s e.issuer .released n).trans (.of_staged (by simp))
  · exact .of_staged (by simp)

theorem Ages.applyRenew (s : State) (e : Edit) (n : Nat) (l : Half) : s.Ages (s.applyRenew e n l) := by
  unfold State.applyRenew
  dsimp only
  split
  · rename_i x hx
    split
    · refine Ages.of_set n (.withHolding hx (y := { x with lease := l, warned := PerPort.all false }) rfl ?_ id) (by simp)
      exact fun p hp => by simp at hp
    · exact .of_staged (by simp)
  · exact .of_staged (by simp)

theorem Ages.applyEdit (s : State) (e : Edit) : s.Ages (s.applyEdit e) := by
  unfold State.applyEdit
  split
  · exact .applyRelease s e _
  · exact .applyRenew s e _ _
  · exact .of_staged (by simp)

theorem Ages.applyHead (s : State) (e : Edit) : s.Ages (s.applyHead e) := Ages.applyEdit { s with edits := s.edits.tail } e

theorem Ages.commitEdits (s : State) : s.Ages s.commitEdits := Ages.foldl (fun u e _ => .applyHead u e) s

theorem Wanes.coolSlot (s : State) (n : Nat) : s.Wanes (s.coolSlot n) := by
  unfold State.coolSlot
  split
  · exact Wanes.set s (.free _)
  · exact .refl s

theorem Wanes.commitCooling (s : State) : s.Wanes s.commitCooling := Wanes.foldl (fun u n _ => .coolSlot u n) s

theorem Wanes.revokeSlot (s : State) (n : Nat) : s.Wanes (s.revokeSlot n) :=
  Wanes.of_set n (.free _) (by simp)

theorem Wanes.shrink (s : State) (old new : Nat) : s.Wanes (s.shrink old new) := by
  intro n
  rw [State.entryAt_shrink]
  split
  · exact .free _
  · exact .refl _

theorem Wanes.applyPlan (s : State) (terms : PlanTerms) : s.Wanes (s.applyPlan terms) := by
  intro n
  rw [State.entryAt_applyPlan]
  split
  · exact .free _
  · exact .refl _

theorem Wanes.commitPlan (s : State) : s.Wanes s.commitPlan := by
  unfold State.commitPlan
  split
  · exact .applyPlan s _
  · exact .refl s

/-- A RENEW names nobody new, frees no slot and keeps the bookkeeping; it does leave a renewal pending (R50). -/
theorem setRenewal_entry (s : State) (lease : Half) (ns : List Nat) (n : Nat) :
    (entryAt (ns.foldl (fun s n => s.setRenewal lease n) s).staged n).parties = (entryAt s.staged n).parties
      ∧ ((entryAt s.staged n).Kept → (entryAt (ns.foldl (fun s n => s.setRenewal lease n) s).staged n).Kept) := by
  have one : ∀ (u : State) m, (entryAt (u.setRenewal lease m).staged n).parties = (entryAt u.staged n).parties
      ∧ ((entryAt u.staged n).Kept → (entryAt (u.setRenewal lease m).staged n).Kept) := by
    intro u m
    unfold State.setRenewal
    dsimp only
    split
    · rename_i x hx
      rw [State.entryAt_setStaged]
      split
      · rename_i hm
        obtain ⟨rfl, -⟩ := hm
        refine ⟨Entry.withHolding_parties _ _, fun hk y hy => ?_⟩
        rw [Entry.holding?_withHolding, hx] at hy
        obtain rfl := Option.some.inj hy
        rw [Entry.withHolding_parties]
        exact hk x hx
      · exact ⟨rfl, id⟩
    · exact ⟨rfl, id⟩
  refine foldl_invariant _ (fun t => (entryAt t.staged n).parties = (entryAt s.staged n).parties
    ∧ ((entryAt s.staged n).Kept → (entryAt t.staged n).Kept)) ns s ⟨rfl, id⟩ ?_
  rintro u m - ⟨hp, hk⟩
  exact ⟨(one u m).1.trans hp, fun h => (one u m).2 (hk h)⟩

end State

end Sys2Proof.Machine
end

section
/-! SUPPORT. The proof of the statement about the laws of the schedule: one lemma for each thing a step does. -/

-- One proof after another: many at once take more memory than the check allows.
set_option Elab.async false

namespace Sys2Proof.Machine

open Sys2Proof

/-! ### The proposal (R123) -/

theorem Proposal.confirmed_insert {pr : Proposal} {p : Port}
    (h : ∀ q, pr.confirmed.get q = true → pr.confirming.get q = true) (hp : pr.confirming.get p = true) (q : Port)
    (hq : (pr.confirmed.insert p).get q = true) : pr.confirming.get q = true := by
  rw [PerPort.get_insert, Bool.or_eq_true, beq_iff_eq] at hq
  rcases hq with rfl | hq
  · exact hp
  · exact h q hq

/-- A proposal judged stays in the ranges of R123. -/
theorem State.judgeProposal_ok (s : State) {pr : Proposal} {d : Nat} (ht : pr.terms.Ok) (hd : 1 ≤ d ∧ d ≤ 4095)
    (h : ∀ q, pr.confirmed.get q = true → pr.confirming.get q = true) : (s.judgeProposal pr d).proposal.Ok := by
  rw [State.judgeProposal_proposal]
  split
  · exact ⟨ht, h⟩
  · exact ⟨ht, hd.1, hd.2, h⟩

theorem State.newProposal_ok (s : State) {p : Port} {l : List Byte} {terms : PlanTerms} {d : Nat}
    (hp : s.attached p = true) (hl : readProposal l = some (terms, d)) :
    (s.judgeProposal (s.newProposal p terms) d).proposal.Ok := by
  obtain ⟨hterms, h1, hd⟩ := readProposal_ok hl
  refine s.judgeProposal_ok hterms ⟨h1, hd⟩ fun q hq => ?_
  have hq : q = p := by simpa [State.newProposal] using hq
  simpa [State.newProposal, hq] using hp

theorem State.leaveProposal_ok {s : State} (h : s.proposal.Ok) (p : Port) : (s.leaveProposal p).1.proposal.Ok := by
  unfold State.leaveProposal
  split
  · exact h
  · exact h
  · rename_i pr d hpr
    rw [hpr] at h
    obtain ⟨hterms, h1, hd, hsub⟩ := h
    split
    · rw [hpr]
      exact ⟨hterms, h1, hd, hsub⟩
    · dsimp only
      split
      · rw [State.failProposal_proposal]
        trivial
      · refine State.judgeProposal_ok s hterms ⟨h1, hd⟩ fun q hq => ?_
        rw [PerPort.get_erase, Bool.and_eq_true] at hq ⊢
        exact ⟨hq.1, hsub q hq.2⟩

theorem State.confirm_ok {s : State} (h : s.proposal.Ok) {pr : Proposal} {d : Nat} {p : Port}
    (hpr : s.proposal = .opened pr d) (hp : pr.confirming.get p = true) :
    (s.judgeProposal { pr with confirmed := pr.confirmed.insert p } d).proposal.Ok := by
  rw [hpr] at h
  obtain ⟨hterms, h1, hd, hsub⟩ := h
  exact s.judgeProposal_ok hterms ⟨h1, hd⟩ (Proposal.confirmed_insert hsub hp)

/-! ### Offers that a detach removes (R102, R160) -/

/-- No offer to the port stays. -/
theorem State.mem_dropTargetOffers {s : State} {p : Port} {o : Offer} (ho : o ∈ (s.dropTargetOffers p).offers) :
    o ∈ s.offers ∧ o.target ≠ p := by
  have fold : ∀ (l : List Offer) (u : State), o ∈ (l.foldl (fun s x => s.refuseOffer x .detached) u).offers →
      o ∈ u.offers ∧ o ∉ l := by
    intro l
    induction l with
    | nil => exact fun u h => ⟨h, by simp⟩
    | cons x l ih =>
      intro u h
      obtain ⟨hu, hl⟩ := ih _ h
      rw [State.refuseOffer_offers, List.mem_filter] at hu
      refine ⟨hu.1, fun hm => (List.mem_cons.1 hm).elim ?_ hl⟩
      rintro rfl
      simp at hu
  obtain ⟨hs, hl⟩ := fold _ s ho
  exact ⟨hs, fun ht => hl (List.mem_filter.2 ⟨hs, by simpa using ht⟩)⟩

theorem State.dropTargetOffers_sublist (s : State) (p : Port) : (s.dropTargetOffers p).offers.Sublist s.offers :=
  foldl_invariant _ (fun t => t.offers.Sublist s.offers) _ _ (.refl _) fun t o _ h => by
    rw [State.refuseOffer_offers]
    exact List.filter_sublist.trans h

/-- Once a port has given up all its slots, no Staged entry names it (R63). -/
theorem State.StagedOk.not_party_giveUpSlots {S : Nat} {A : Port → Prop} {s : State} (h : s.StagedOk S A) (p : Port)
    (why : Reason) (n : Nat) : p ∉ (entryAt (s.giveUpSlots p why (s.ownSlots p)).staged n).parties := by
  rw [State.entryAt_giveUpSlots s p why (ns := s.ownSlots p) (slotNumbers_nodup.filter _)]
  by_cases hp : p ∈ (entryAt s.staged n).parties
  · obtain ⟨-, h64, -, hok, hb⟩ := h.of_party hp
    have hown : n ∈ s.ownSlots p := List.mem_filter.2 ⟨mem_slotNumbers.2 h64, Entry.names_iff.2 hp⟩
    rw [if_pos ⟨hown, h64⟩, (Entry.without_spec _ p hok hb hp).2.2]
    simp
  · split
    · rwa [Entry.without_of_not_party hp]
    · exact hp

/-! ### The laws after each edit -/

section

variable {s t : State}

/-- The laws read these fields and the set of the ATTACHED ports, which may grow. -/
theorem State.ScheduleOk.same (h : s.ScheduleOk) (h1 : t.staged = s.staged) (h2 : t.active = s.active)
    (h3 : t.offers = s.offers) (h4 : t.requests = s.requests) (h5 : t.edits = s.edits) (h6 : t.plan = s.plan)
    (h7 : t.proposal = s.proposal) (hA : ∀ q, s.attached q = true → t.attached q = true) : t.ScheduleOk := by
  obtain ⟨hst, k⟩ := s.scheduleOk_iff.1 h
  have hS : t.slots = s.slots := by rw [State.slots, State.slots, h6]
  have ht := hst.of_fields h1 h3 h4 h5 h7
  refine t.scheduleOk_iff.2 ⟨hS ▸ ?_, k.of_eq h2 h6 fun n hn hc => h1 ▸ k.cooling n hn hc⟩
  exact ⟨ht.table, ht.beyond, fun n hn q hq => hA q (ht.roster n hn q hq), ht.sorted, ht.offers,
    fun o ho => (ht.traders o ho).imp (hA _) (hA _), fun r hr => (ht.requests r hr).imp_left (hA _),
    fun e he => (ht.edits e he).imp_left (hA _), ht.slots, ht.proposal⟩

/-- The laws after an edit of the Staged side that brings no party to an empty slot. -/
theorem State.ScheduleOk.edited (h : s.ScheduleOk) (k : s.StagedOk s.slots s.Attached → t.StagedOk s.slots s.Attached)
    (ha : t.active = s.active) (hp : t.plan = s.plan)
    (hw : ∀ n, n < 64 → (entryAt s.staged n).parties = [] → (entryAt t.staged n).parties = [])
    (hA : ∀ q, t.attached q = s.attached q) : t.ScheduleOk := by
  obtain ⟨hst, ka⟩ := s.scheduleOk_iff.1 h
  have hS : t.slots = s.slots := by rw [State.slots, State.slots, hp]
  exact .of_attached (hS ▸ k hst) (ka.of_eq ha hp fun n hn hc => hw n hn (ka.cooling n hn hc)) hA

theorem State.Wanes.parties_nil (h : s.Wanes t) (n : Nat) (_ : n < 64) (hn : (entryAt s.staged n).parties = []) :
    (entryAt t.staged n).parties = [] :=
  List.eq_nil_iff_forall_not_mem.2 fun p hp => by
    have := (h n).parties p hp
    simp [hn] at this

/-- The ports named after a DETACH are those still ATTACHED. -/
theorem State.ScheduleOk.detach (h : s.ScheduleOk) (p : Port) :
    (((((s.detachPort p).giveUpSlots p .detached (s.ownSlots p)).dropTargetOffers p).dropOwn p).leaveProposal
      p).1.ScheduleOk := by
  obtain ⟨hst, ka⟩ := s.scheduleOk_iff.1 h
  set u := (s.detachPort p).giveUpSlots p .detached (s.ownSlots p) with hu
  set t := (((u.dropTargetOffers p).dropOwn p).leaveProposal p).1 with ht
  have hu0 : (s.detachPort p).StagedOk s.slots s.Attached := hst.of_fields rfl rfl rfl rfl rfl
  have huok : u.StagedOk s.slots s.Attached := hu0.giveUpSlots p .detached _
  have hnone : ∀ n, p ∉ (entryAt u.staged n).parties := hu0.not_party_giveUpSlots p .detached
  have hA : ∀ q, s.Attached q → q ≠ p → t.Attached q := by
    intro q hq hne
    have hport : u.attached q = true := by
      rw [hu, (State.giveUpSlots_told (s.detachPort p) p .detached (s.ownSlots p)).attached, State.attached,
        State.port_detachPort, if_neg hne]
      exact hq
    have : ((u.dropTargetOffers p).dropOwn p).attached q = true := ((u.dropTargetOffers_told p).attached q).trans hport
    exact ((((u.dropTargetOffers p).dropOwn p).leaveProposal_told p).attached q).trans this
  have hstaged : t.staged = u.staged := by simp [ht]
  have hoffers : t.offers = (u.dropTargetOffers p).offers := by simp [ht]
  have hS : t.slots = s.slots := by simp [ht, hu, State.slots]
  have hreq : t.requests = s.requests.filter (fun r => r.port != p) := by simp [ht, hu, State.dropOwn]
  have hedits : t.edits = s.edits.filter (fun e => e.issuer != p) := by simp [ht, hu, State.dropOwn]
  have hsub : t.offers.Sublist u.offers := hoffers ▸ u.dropTargetOffers_sublist p
  have hmem : ∀ o ∈ t.offers, o.giver ≠ p ∧ o.target ≠ p := by
    intro o ho
    obtain ⟨hou, htarget⟩ := State.mem_dropTargetOffers (hoffers ▸ ho)
    obtain ⟨-, -, hg, -⟩ := huok.offers o hou
    exact ⟨fun hgp => hnone _ (hgp ▸ hg), htarget⟩
  refine t.scheduleOk_iff.2 ⟨hS ▸ ⟨hstaged ▸ huok.table, hstaged ▸ huok.beyond, fun n hn q hq => ?_,
    huok.sorted.sublist hsub, fun o ho => hstaged ▸ huok.offers o (hsub.subset ho), fun o ho => ?_, fun r hr => ?_,
    fun e he => ?_, hst.slots, State.leaveProposal_ok ?_ p⟩, ka.of_eq ?_ ?_ ?_⟩
  · rw [hstaged] at hq
    exact hA q (huok.roster n hn q hq) fun hqp => hnone n (hqp ▸ hq)
  · obtain ⟨hg, htarget⟩ := huok.traders o (hsub.subset ho)
    exact ⟨hA _ hg (hmem o ho).1, hA _ htarget (hmem o ho).2⟩
  · rw [hreq, List.mem_filter, bne_iff_ne] at hr
    obtain ⟨ha, hl⟩ := hst.requests r hr.1
    exact ⟨hA _ ha hr.2, hl⟩
  · rw [hedits, List.mem_filter, bne_iff_ne] at he
    obtain ⟨ha, hok⟩ := hst.edits e he.1
    exact ⟨hA _ ha he.2, hok⟩
  · simpa [hu] using hst.proposal
  · simp [ht, hu]
  · simp [ht, hu]
  · intro n hn hc
    rw [hstaged]
    exact ((Ages.of_staged rfl).trans (.giveUpSlots _ p .detached _)).wanes.parties_nil n hn (ka.cooling n hn hc)

/-- An offer that passed the checks of R89 joins the table in order (R87). -/
theorem State.ScheduleOk.insertOffer (h : s.ScheduleOk) {p : Port} {l : List Byte} {f : OfferFields} (n : Notice)
    (hp : s.attached p = true) (hl : readOffer s.slots p l = some f)
    (hg : (entryAt s.staged f.slot).names p = true) (ht : s.attached f.target = true)
    (hnone : s.offerOn f.slot = none) (hnot : (entryAt s.staged f.slot).names f.target = false)
    (hroom : f.kind = .share → (entryAt s.staged f.slot).parties.length < 4) :
    (({ s with offers := Machine.insertOffer (s.newOffer p f) s.offers, offerCounter := nextId s.newOfferId }.notify
      f.target n) : State).ScheduleOk := by
  obtain ⟨-, -, -, hleft, -⟩ := readOffer_ok hl
  refine h.edited (fun hst => .alike ?_ (.self_notify _ _ _)) (by simp) (by simp) (by simp)
    (fun q => State.attached_notify _ _ _ _)
  have hg := Entry.names_iff.1 hg
  obtain ⟨-, h64, -⟩ := hst.of_party hg
  have htp : f.target ∉ (entryAt s.staged f.slot).parties := fun hm => by
    rw [Entry.names_iff.2 hm] at hnot
    cases hnot
  refine ⟨hst.table, hst.beyond, hst.roster, sorted_insertOffer hst.sorted (State.offerOn_none hnone), fun o ho => ?_,
    fun o ho => ?_, hst.requests, hst.edits, hst.slots, hst.proposal⟩ <;>
    rcases mem_insertOffer.1 ho with rfl | ho
  · exact ⟨h64, hleft, hg, htp, hroom⟩
  · exact hst.offers o ho
  · exact ⟨hp, ht⟩
  · exact hst.traders o ho

/-- An acceptance brings its target to a slot that its giver holds or shares (R92). -/
theorem State.ScheduleOk.accept (h : s.ScheduleOk) {o : Offer} (ho : o ∈ s.offers) : (s.acceptOffer o).ScheduleOk := by
  refine h.edited (fun hst => hst.acceptOffer ho) (by simp) (by simp) (fun n hn hnil => ?_) (s.acceptOffer_told o).attached
  rw [State.entryAt_acceptOffer]
  split
  · rename_i hc
    obtain ⟨rfl, -⟩ := hc
    obtain ⟨-, -, -, -, hg, -⟩ := h.offer ho
    rw [hnil] at hg
    cases hg
  · exact hnil

/-- The smaller of the two frames is cleared in both tables, and the geometry follows (R6, R131). -/
theorem State.ScheduleOk.planApplication (h : s.ScheduleOk) {terms : PlanTerms} (hd : s.dueTerms = some terms) :
    (s.applyPlan terms).publishRevoked.loadGeometry.ScheduleOk := by
  obtain ⟨hst, ka⟩ := s.scheduleOk_iff.1 h
  have hok := State.dueTerms_ok hst.proposal hd
  have hS : (s.applyPlan terms).publishRevoked.loadGeometry.slots = terms.geometry.slots := by simp [State.slots]
  have hS' : (s.applyPlan terms).slots = terms.geometry.slots := by simp [State.slots]
  have hactive : ∀ n, entryAt (s.applyPlan terms).publishRevoked.loadGeometry.active n
      = if terms.geometry.slots ≤ n then .free else entryAt s.active n := by
    intro n
    have : (s.applyPlan terms).publishRevoked.loadGeometry.active = (s.applyPlan terms).activeWithin := by simp
    rw [this, State.entryAt_activeWithin, hS']
    simp
  have h4 := hok.1
  refine .of_attached (hS ▸ (hst.applyPlan hok).of_fields (by simp) (by simp) (by simp) (by simp) (by simp))
    ⟨⟨?_, fun n hn h1 => ?_⟩, fun n hn hc => ?_, fun n hn _ => ?_⟩ fun q => ?_
  · rw [hactive, if_neg (by omega)]
    exact ka.table.1
  · rw [hactive]
    split
    · exact ⟨by simp, trivial⟩
    · exact ka.table.2 n hn h1
  · rw [hactive] at hc
    split at hc
    · cases hc
    · have hstaged : (s.applyPlan terms).publishRevoked.loadGeometry.staged = (s.applyPlan terms).staged := by simp
      rw [hstaged]
      exact (State.Wanes.applyPlan s terms).parties_nil n hn (ka.cooling n hn hc)
  · rw [hactive, if_pos (hS ▸ hn)]
  · exact (State.Told.of_ports (s := s.applyPlan terms) (by simp)).attached q |>.trans ((s.applyPlan_told terms).attached q)

theorem Table.atReset_ok : Table.Ok Table.atReset := Table.ok_of_check (by decide)

theorem Table.entryAt_atReset {n : Nat} (h : 1 ≤ n) (hn : n < 64) : entryAt Table.atReset n = .free := by
  have := forall_slot (f := fun n => n == 0 || entryAt Table.atReset n == .free) (by decide) hn
  simpa [show n ≠ 0 by omega] using this

theorem State.ScheduleOk.reset (s : State) {slots : Nat} {width : SlotWidth} (h : ∃ a b, slots = strapSlots a b) :
    (s.resetAll slots width).ScheduleOk := by
  have h4 : 4 ≤ slots := by
    obtain ⟨a, b, rfl⟩ := h
    cases a <;> cases b <;> decide
  have hfree : ∀ n, slots ≤ n → n < 64 → entryAt Table.atReset n = .free :=
    fun n hn h64 => Table.entryAt_atReset (by omega) h64
  have hnone : ∀ n, n < 64 → (entryAt Table.atReset n).parties = [] := by
    intro n h64
    by_cases h0 : n = 0
    · subst h0; rfl
    · rw [Table.entryAt_atReset (by omega) h64]; rfl
  refine ⟨Table.atReset_ok, Table.atReset_ok, fun n hn _ => hnone n hn, fun n hn h64 => ⟨hfree n hn h64, hfree n hn h64⟩,
    ⟨List.Pairwise.nil, List.forall_mem_nil _⟩,
    ⟨fun n hn p hp => ?_, List.forall_mem_nil _, List.forall_mem_nil _, List.forall_mem_nil _⟩,
    List.forall_mem_nil _, List.forall_mem_nil _, h4, trivial⟩
  have : p ∈ (entryAt Table.atReset n).parties := hp
  rw [hnone n hn] at this
  cases this

/-- What a due timed edit at the head of the list makes of the state. -/
theorem State.ScheduleOk.applyEdit (h : s.ScheduleOk) {e : Edit} {l : List Edit} (hl : s.edits = e :: l) :
    (({ s with edits := l } : State).applyEdit e).ScheduleOk := by
  have hsub : ∀ x ∈ l, x ∈ s.edits := fun x hx => hl ▸ List.mem_cons_of_mem e hx
  refine h.edited (fun hst => ?_) (by simp) (by simp) ?_ fun q => ((State.applyEdit_told _ e).attached q).trans rfl
  · obtain ⟨hA, hok⟩ := hst.edits e (hl ▸ List.mem_cons_self)
    exact (hst.withEdits fun x hx => hst.edits x (hsub x hx)).applyEdit hA hok
  · exact (State.Ages.applyEdit ({ s with edits := l } : State) e).wanes.parties_nil

theorem State.ScheduleOk.endFrame (h : s.ScheduleOk) : s.endFrame.ScheduleOk := by
  have hport : ∀ q, s.endFrame.attached q = s.commit.attached q :=
    (State.Told.of_ports (by simp [State.endFrame])).attached
  exact h.commit.same (by simp [State.endFrame]) (by simp [State.endFrame]) (by simp [State.endFrame])
    (by simp [State.endFrame]) (by simp [State.endFrame]) (by simp [State.endFrame]) (by simp [State.endFrame])
    fun q hq => (hport q).trans hq

end

/-! ### Every step -/

theorem keeps_scheduleOk : Keeps State.ScheduleOk where
  queue _ _ h := h.same rfl rfl rfl rfl rfl rfl rfl fun _ hq => hq
  link s p _ h ha _ _ := h.same rfl rfl rfl rfl rfl rfl rfl fun q hq => (s.attached_setPort_same p q _ ha).trans hq
  attach s p x h _ := h.same rfl rfl rfl rfl rfl rfl rfl fun q hq => by rw [State.attached_setPort]; split <;> simp [hq]
  attention s p x m h hx := h.same rfl rfl rfl rfl rfl rfl rfl fun q hq => by
    rw [State.attached_setPort]; split <;> simp [hq]
  fetch s p n h _ := h.same rfl rfl rfl rfl rfl rfl rfl fun q hq => (State.attached_setPort_same s p q
    { s.port p with notices := (s.port p).notices.drop n, lost := false } rfl).trans hq
  detach _ p h _ := h.detach p
  renew s p l sel lease ns h _ _ _ := by
    refine h.edited (fun hst => ?_) (by simp) (by simp) (fun n _ hn => ?_) fun q => ?_
    · exact foldl_invariant _ (fun t => t.StagedOk s.slots s.Attached) ns s hst fun _ n _ h => h.setRenewal lease n
    · rwa [(s.setRenewal_entry lease ns n).1]
    · exact (State.Told.of_ports (by simp)).attached q
  release s p l sel ns h _ _ _ :=
    h.edited (fun hst => hst.giveUpSlots p .released ns) (by simp) (by simp)
      (State.Ages.giveUpSlots s p .released ns).wanes.parties_nil (s.giveUpSlots_told p .released ns).attached
  reserve s p l r h hp hl _ _ _ _ :=
    h.edited (fun hst => hst.enqueue hp (Reservation.Ok.lease_ne_zero (readReservation_ok hl))) rfl rfl
      (fun _ _ hn => hn) fun _ => rfl
  cancel s r h :=
    h.edited (fun hst => hst.withRequests fun x hx => hst.requests x (List.mem_of_mem_erase hx)) rfl rfl
      (fun _ _ hn => hn) fun _ => rfl
  offer _ _ _ _ n h hp hl hg ht hnone hnot hroom _ := h.insertOffer n hp hl hg ht hnone hnot hroom
  accept _ _ _ h _ ho _ _ := h.accept ho
  decline s o why h _ :=
    h.edited (fun hst => (hst.withOffers List.filter_sublist).alike (.self_notify _ _ _)) (by simp) (by simp) (by simp)
      (s.refuseOffer_told o why).attached
  withdraw s o tag why h _ :=
    h.edited (fun hst => (hst.withOffers List.filter_sublist).alike (.self_notify _ _ _)) (by simp) (by simp) (by simp)
      (s.voidOffer_told o tag why).attached
  schedule s p l f act h hp hl _ _ _ :=
    h.edited
      (fun hst => .of_fields (hst.withEdits (l := s.insertEdit (s.newEdit p f act) s.edits) fun x hx => by
        rcases State.mem_insertEdit.1 hx with rfl | hx
        · exact ⟨hp, readSchedule_ok hl⟩
        · exact hst.edits x hx) rfl rfl rfl rfl rfl)
      rfl rfl (fun _ _ hn => hn) fun _ => rfl
  unschedule s e h _ :=
    h.edited (fun hst => hst.withEdits fun x hx => hst.edits x (List.mem_of_mem_erase hx)) rfl rfl
      (fun _ _ hn => hn) fun _ => rfl
  propose s p l terms d ps n h hp hl _ :=
    h.edited
      (fun hst => ((hst.withProposal (s.newProposal_ok hp hl)).of_fields (t := s.judgeProposal (s.newProposal p terms) d)
        (by simp) (by simp) (by simp) (by simp) rfl).alike (.self_notifyAll _ _ _))
      (by simp) (by simp) (by simp)
      ((s.judgeProposal_told (s.newProposal p terms) d).trans (State.notifyAll_told _ _ _)).attached
  confirm s p pr d h hpr hp :=
    h.edited
      (fun hst => (hst.withProposal (State.confirm_ok hst.proposal hpr hp)).of_fields
        (by simp) (by simp) (by simp) (by simp) rfl)
      (by simp) (by simp) (by simp) (s.judgeProposal_told _ d).attached
  fail s pr d why who h _ :=
    h.edited (fun hst => (hst.withProposal (x := .none) trivial).alike (.self_deliver _ _)) (by simp) (by simp) (by simp)
      (s.failProposal_told pr why who).attached
  frameEnd _ h _ := h.endFrame
  leaseEnd s n h _ hr := by
    refine h.edited (fun hst => ?_) (by simp) (by simp) (State.Ages.endLease s n).wanes.parties_nil
      (s.endLease_told n).attached
    unfold State.leaseRunsOut at hr
    split at hr
    · exact hst.endLease (by assumption)
    · cases hr
  timedRelease s e l n h hl ha _ := by simpa [State.applyEdit, ha] using h.applyEdit hl
  timedRenew s e l n x h hl ha _ := by simpa [State.applyEdit, ha] using h.applyEdit hl
  timedEnqueue s e l r h hl ha _ := by simpa [State.applyEdit, ha] using h.applyEdit hl
  planApplication _ _ h _ hd := h.planApplication hd
  waitLapse s h :=
    h.edited State.StagedOk.countWaits (by simp) (by simp) (by simp) s.countWaits_told.attached
  offerLapse s o h _ _ :=
    h.edited (fun hst => (hst.withOffers List.filter_sublist).alike (.self_deliver _ _)) (by simp) (by simp) (by simp)
      ((State.Told.of_ports rfl).trans (State.deliver_told _ _)).attached
  clockLoss s h _ _ := h.same (by simp) (by simp) (by simp) (by simp) (by simp) (by simp) (by simp)
    fun q hq => (s.loseClock_told.attached q).trans hq
  stallGap _ h := h.same rfl rfl rfl rfl rfl rfl rfl fun _ hq => hq
  recover s h _ _ := h.same (by simp) (by simp) (by simp) (by simp) (by simp) (by simp) (by simp)
    fun q hq => (s.recover_told.attached q).trans hq
  edge _ h := h.same rfl rfl rfl rfl rfl rfl rfl fun _ hq => hq
  countEdge _ h _ := h.same rfl rfl rfl rfl rfl rfl rfl fun _ hq => hq
  reset s _ _ _ h := .reset s h
  resetPin _ h := h.same rfl rfl rfl rfl rfl rfl rfl fun _ hq => hq
  edgeBegins _ h := h.same rfl rfl rfl rfl rfl rfl rfl fun _ hq => hq
  leadIn _ h _ := h.same rfl rfl rfl rfl rfl rfl rfl fun _ hq => hq
  beginFrame _ h _ := h.same rfl rfl rfl rfl rfl rfl rfl fun _ hq => hq
  beginBit _ _ h _ _ := h.same rfl rfl rfl rfl rfl rfl rfl fun _ hq => hq
  timer _ h _ := h.same rfl rfl rfl rfl rfl rfl rfl fun _ hq => hq
  phase _ h _ := h.same rfl rfl rfl rfl rfl rfl rfl fun _ hq => hq

/-- Settles O54: each thing a step does keeps the Staged side of the laws (`State.StagedOk`) and the Active side, and the
ports that may be named are those ATTACHED afterwards. -/
theorem everyStepKeepsTheSchedule : Obligations.EveryStepKeepsTheSchedule := fun _ _ h e => keeps_scheduleOk.step h e

end Sys2Proof.Machine
end

section
/-! SUPPORT. The request queue through every step: what a law of the queue must survive (`QueueLaw`), and that every step
then keeps it, beside the ranges of the timed actions that may still join the queue. -/

-- One proof after another: many at once take more memory than the check allows.
set_option Elab.async false

namespace Sys2Proof.Machine

open Sys2Proof

/-- A law of the request queue that stays when records leave, when their waits are counted down, and when a record that
passed the checks of R69 or R114 joins the tail. -/
structure QueueLaw (L : List Record → Prop) : Prop where
  nil : L []
  sublist : ∀ {l m : List Record}, L l → m.Sublist l → L m
  waited : ∀ {l : List Record}, L l → L (l.map Record.waited)
  joins : ∀ {s : State} {p : Port} {r : Reservation}, L s.requests → r.Ok → s.tagPending p r.tag = false →
    s.pendingCount p < 6 → s.requests.length < 16 → L (s.requests ++ [⟨p, r⟩])

/-- The queue obeys the law, and the timed actions are in their ranges. -/
def State.Queued (L : List Record → Prop) (s : State) : Prop := L s.requests ∧ ∀ e ∈ s.edits, e.action.Ok

section

variable {L : List Record → Prop} {s t : State}

theorem State.Queued.sub (hL : QueueLaw L) (h : s.Queued L) (hr : t.requests.Sublist s.requests)
    (he : ∀ e ∈ t.edits, e ∈ s.edits) : t.Queued L :=
  ⟨hL.sublist h.1 hr, fun e hm => h.2 e (he e hm)⟩

/-- The law speaks of two fields. -/
theorem State.Queued.same (h : s.Queued L) (hr : t.requests = s.requests) (he : t.edits = s.edits) : t.Queued L :=
  ⟨hr ▸ h.1, he ▸ h.2⟩

theorem State.Queued.enqueue (hL : QueueLaw L) (h : s.Queued L) {p : Port} {r : Reservation} (hr : r.Ok)
    (ht : s.tagPending p r.tag = false) (hp : s.pendingCount p < 6) (hl : s.requests.length < 16) :
    (s.enqueue p r).Queued L :=
  ⟨hL.joins h.1 hr ht hp hl, h.2⟩

theorem State.Queued.applyEnqueue (hL : QueueLaw L) (h : s.Queued L) (e : Edit) {r : Reservation} (hr : r.Ok) :
    (s.applyEnqueue e r).Queued L := by
  unfold State.applyEnqueue
  split
  · exact h.same (by simp) (by simp)
  · rename_i ht
    split
    · exact h.same (by simp) (by simp)
    · rename_i hp
      split
      · exact h.same (by simp) (by simp)
      · rename_i hl
        exact (h.enqueue hL hr (by simpa using ht) (Nat.not_le.1 hp) (Nat.not_le.1 hl)).same (by simp) (by simp)

theorem State.Queued.applyEdit (hL : QueueLaw L) (h : s.Queued L) {e : Edit} (he : e.action.Ok) :
    (s.applyEdit e).Queued L := by
  unfold State.applyEdit
  split
  · exact h.same (by simp) (by simp)
  · exact h.same (by simp) (by simp)
  · rename_i r ha
    rw [ha] at he
    exact h.applyEnqueue hL e he

theorem State.Queued.applyHead (hL : QueueLaw L) (h : s.Queued L) {e : Edit} (he : e.action.Ok) :
    (s.applyHead e).Queued L :=
  State.Queued.applyEdit hL (h.sub (t := { s with edits := s.edits.tail }) hL (.refl _) fun _ hm =>
    List.mem_of_mem_tail hm) he

theorem State.Queued.commitEdits (hL : QueueLaw L) (h : s.Queued L) : s.commitEdits.Queued L :=
  foldl_invariant _ (State.Queued L) _ s h fun _ e he hu =>
    hu.applyHead hL (h.2 e ((List.takeWhile_sublist _).subset he))

theorem State.Queued.applyPlan (hL : QueueLaw L) (h : s.Queued L) (terms : PlanTerms) :
    (s.applyPlan terms).Queued L := by
  refine h.sub hL ?_ fun e he => ?_
  · rw [State.applyPlan_requests]
    split
    · exact List.filter_sublist
    · exact .refl _
  · rw [State.applyPlan_edits] at he
    split at he
    · exact List.mem_of_mem_filter he
    · exact he

theorem State.Queued.commitPlan (hL : QueueLaw L) (h : s.Queued L) : s.commitPlan.Queued L := by
  unfold State.commitPlan
  split
  · exact h.applyPlan hL _
  · exact h

theorem State.Queued.visit (hL : QueueLaw L) (h : s.Queued L) (r : Record) : (s.visit r).Queued L := by
  rcases s.visit_cases r with e | ⟨l, -, -, e⟩ <;> rw [e]
  · exact h
  · exact h.sub hL (by simpa using List.erase_sublist) (by simp)

theorem State.Queued.countWaits (hL : QueueLaw L) (h : s.Queued L) : s.countWaits.Queued L := by
  refine ⟨?_, by simpa using h.2⟩
  rw [State.countWaits_requests]
  exact hL.waited (hL.sublist h.1 List.filter_sublist)

theorem State.Queued.commitAllocator (hL : QueueLaw L) (h : s.Queued L) : s.commitAllocator.Queued L :=
  State.Queued.countWaits hL (foldl_invariant _ (State.Queued L) _ s h fun _ r _ hu => hu.visit hL r)

theorem State.Queued.commit (hL : QueueLaw L) (h : s.Queued L) : s.commit.Queued L := by
  refine s.commit_induction (State.Queued L) ?_ ?_ ?_ ?_ ?_ ?_ ?_ ?_ ?_
  · exact h.same (by simp) (by simp)
  · exact fun t ht => ht.same (by simp) (by simp)
  · exact fun t ht => ht.same (by simp) (by simp)
  · exact fun t ht => ht.same (by simp) (by simp)
  · exact fun t ht => ht.commitEdits hL
  · exact fun t ht => ht.commitPlan hL
  · exact fun t ht => ht.commitAllocator hL
  · exact fun t ht => ht.same (by simp) (by simp)
  · exact fun t ns ht => ht.same (by simp) (by simp)

/-- A due timed edit at the head of the list applied. -/
theorem State.Queued.applyDue (hL : QueueLaw L) (h : s.Queued L) {e : Edit} {l : List Edit} (hl : s.edits = e :: l) :
    (({ s with edits := l } : State).applyEdit e).Queued L :=
  .applyEdit hL (h.sub (t := { s with edits := l }) hL (.refl _) fun _ hx => hl ▸ List.mem_cons_of_mem e hx)
    (h.2 e (hl ▸ List.mem_cons_self))

end

/-- Every step keeps a law of the request queue. -/
theorem QueueLaw.keeps {L : List Record → Prop} (hL : QueueLaw L) : Keeps (State.Queued L) where
  queue _ _ h := h.same rfl rfl
  link _ _ _ h _ _ _ := h.same rfl rfl
  attach _ _ _ h _ := h.same rfl rfl
  attention _ _ _ _ h _ := h.same rfl rfl
  fetch _ _ _ h _ := h.same rfl rfl
  detach s p h _ := by
    refine h.sub hL ?_ ?_
    · simp [State.dropOwn]
    · simp only [State.leaveProposal_fields, State.dropOwn, State.dropTargetOffers_fields, State.giveUpSlots_fields,
        State.detachPort_fields]
      exact fun e he => List.mem_of_mem_filter he
  renew _ _ _ _ _ _ h _ _ _ := h.same (by simp) (by simp)
  release _ _ _ _ _ h _ _ _ := h.same (by simp) (by simp)
  reserve _ _ _ _ h _ hl ht _ hp hn := h.enqueue hL (readReservation_ok hl) ht hp hn
  cancel _ _ h := h.sub hL List.erase_sublist fun _ he => he
  offer _ _ _ _ _ h _ _ _ _ _ _ _ _ := h.same (by simp) (by simp)
  accept _ _ _ h _ _ _ _ := h.same (by simp) (by simp)
  decline _ _ _ h _ := h.same (by simp) (by simp)
  withdraw _ _ _ _ h _ := h.same (by simp) (by simp)
  schedule s p l f act h _ hl _ _ _ := ⟨h.1, fun x hx => by
    rcases State.mem_insertEdit.1 hx with rfl | hx
    · exact readSchedule_ok hl
    · exact h.2 x hx⟩
  unschedule _ _ h _ := h.sub hL (.refl _) fun _ he => List.mem_of_mem_erase he
  propose _ _ _ _ _ _ _ h _ _ _ := h.same (by simp) (by simp)
  confirm _ _ _ _ h _ _ := h.same (by simp) (by simp)
  fail _ _ _ _ _ h _ := h.same (by simp) (by simp)
  frameEnd _ h _ := (h.commit hL).same (by simp [State.endFrame]) (by simp [State.endFrame])
  leaseEnd _ _ h _ _ := h.same (by simp) (by simp)
  timedRelease _ _ _ _ h hl ha _ := by simpa [State.applyEdit, ha] using h.applyDue hL hl
  timedRenew _ _ _ _ _ h hl ha _ := by simpa [State.applyEdit, ha] using h.applyDue hL hl
  timedEnqueue _ _ _ _ h hl ha _ := by simpa [State.applyEdit, ha] using h.applyDue hL hl
  planApplication _ terms h _ _ := (h.applyPlan hL terms).same (by simp) (by simp)
  waitLapse _ h := h.countWaits hL
  offerLapse _ _ h _ _ := h.same (by simp) (by simp)
  clockLoss _ h _ _ := h.same (by simp) (by simp)
  stallGap _ h := h.same rfl rfl
  recover _ h _ _ := h.same (by simp) (by simp)
  edge _ h := h.same rfl rfl
  countEdge _ h _ := h.same rfl rfl
  reset _ _ _ _ _ := ⟨hL.nil, List.forall_mem_nil _⟩
  resetPin _ h := h.same rfl rfl
  edgeBegins _ h := h.same rfl rfl
  leadIn _ h _ := h.same rfl rfl
  beginFrame _ h _ := h.same rfl rfl
  beginBit _ _ h _ _ := h.same rfl rfl
  timer _ h _ := h.same rfl rfl
  phase _ h _ := h.same rfl rfl

/-! ### The laws of R66 and R67 -/

/-- Every record of the queue has a property that a reservation in range has, and that counting a wait down keeps. -/
theorem QueueLaw.forall {Q : Reservation → Prop} (hok : ∀ r : Reservation, r.Ok → Q r)
    (hw : ∀ r : Reservation, Q r → Q { r with wait := r.wait - 1 }) : QueueLaw (fun l => ∀ r ∈ l, Q r.res) where
  nil := List.forall_mem_nil _
  sublist h hs r hr := h r (hs.subset hr)
  waited h r hr := by
    obtain ⟨x, hx, rfl⟩ := List.mem_map.1 hr
    exact hw _ (h x hx)
  joins h hr _ _ _ x hx := by
    rcases List.mem_append.1 hx with hx | hx
    · exact h x hx
    · rw [List.mem_singleton.1 hx]
      exact hok _ hr

theorem Reservation.Ok.waited {r : Reservation} (h : r.Ok) : Reservation.Ok { r with wait := r.wait - 1 } := by
  obtain ⟨htag, h1, h8, hlease, hwait, hpl⟩ := h
  exact ⟨htag, h1, h8, hlease, (Nat.sub_le _ _).trans hwait, hpl⟩

/-- Every record in the ranges of R67. -/
theorem queueLaw_reservationOk : QueueLaw (fun l => ∀ r ∈ l, r.res.Ok) := .forall (fun _ h => h) fun _ h => h.waited

/-- Every record with a tag. -/
theorem queueLaw_tag : QueueLaw (fun l => ∀ r ∈ l, r.res.tag ≠ 0) := .forall (fun _ h => h.1) fun _ h => h

/-- The bounds of R66 and the distinct tags of R71. -/
def QueueBounds (l : List Record) : Prop :=
  l.length ≤ 16 ∧ (∀ p, l.countP (fun r => r.port == p) ≤ 6)
    ∧ l.Pairwise (fun x y => x.port ≠ y.port ∨ x.res.tag ≠ y.res.tag)

theorem queueLaw_bounds : QueueLaw QueueBounds where
  nil := ⟨Nat.zero_le _, fun _ => Nat.zero_le _, List.Pairwise.nil⟩
  sublist h hs := by
    obtain ⟨hlen, hcount, hdist⟩ := h
    exact ⟨hs.length_le.trans hlen, fun p => hs.countP_le.trans (hcount p), hdist.sublist hs⟩
  waited h := by
    obtain ⟨hlen, hcount, hdist⟩ := h
    refine ⟨by simpa using hlen, fun p => ?_, List.pairwise_map.2 hdist⟩
    rw [List.countP_map]
    exact hcount p
  joins {s p r} h _ ht hp hl := by
    obtain ⟨hlen, hcount, hdist⟩ := h
    refine ⟨by simpa using hl, fun q => ?_, List.pairwise_append.2 ⟨hdist, List.pairwise_singleton _ _, ?_⟩⟩
    · rw [List.countP_append, List.countP_singleton]
      by_cases hq : p = q
      · subst hq
        have : s.requests.countP (fun r => r.port == p) < 6 := hp
        simpa using this
      · simpa [hq] using hcount q
    · intro x hx y hy
      rw [List.mem_singleton.1 hy]
      have : ¬ (x.port = p ∧ x.res.tag = r.tag) := fun hc => by
        have := List.any_eq_false.1 ht x hx
        simp [hc.1, hc.2] at this
      exact not_and_or.1 this

theorem State.requestsOk_iff (s : State) :
    s.RequestsOk ↔ s.Queued QueueBounds ∧ s.Queued (fun l => ∀ r ∈ l, r.res.Ok) := by
  unfold State.RequestsOk State.Queued QueueBounds State.pendingCount
  tauto

theorem State.RequestsOk.step {s t : State} (h : s.RequestsOk) (e : Machine.step s = .next t) : t.RequestsOk := by
  obtain ⟨hbounds, hok⟩ := s.requestsOk_iff.1 h
  exact t.requestsOk_iff.2 ⟨queueLaw_bounds.keeps.step hbounds e, queueLaw_reservationOk.keeps.step hok e⟩

end Sys2Proof.Machine
end

section
/-! SUPPORT. The proof of the statement about the bookkeeping of the holdings: tags, warned sets and pending renewals,
entry by entry. -/

-- One proof after another: many at once take more memory than the check allows.
set_option Elab.async false

namespace Sys2Proof.Machine

open Sys2Proof

/-! ### The entries of a step -/

/-- An acceptance keeps the tag, and nobody but a party stays warned (R92). -/
theorem Entry.Kept.accepted {e : Entry} (h : e.Kept) {o : Offer} (hg : o.giver ∈ e.parties) : (e.accepted o).Kept := by
  cases e with
  | held g x =>
    obtain ⟨htag, hw⟩ := h x rfl
    obtain rfl : o.giver = g := by simpa [Entry.parties] using hg
    have hgiver : ∀ p, x.warned.get p = true → p = o.giver := fun p hp => by simpa [Entry.parties] using hw p hp
    intro y hy
    cases hk : o.kind <;> simp only [Entry.accepted, hk, Entry.holding?, Option.some.injEq] at hy <;> subst hy <;>
      refine ⟨htag, fun p hp => ?_⟩ <;> simp [acceptWarned, hk] at hp
    · exact absurd (hgiver p hp.2.2) hp.2.1
    · simp [Entry.accepted, hk, Entry.parties, hgiver p hp.2]
  | shared ms dr x =>
    obtain ⟨htag, hw⟩ := h x rfl
    intro y hy
    cases hk : o.kind <;> simp only [Entry.accepted, hk, Entry.holding?, Option.some.injEq] at hy <;> subst hy <;>
      refine ⟨htag, fun p hp => ?_⟩ <;> simp [acceptWarned, hk] at hp
    · simp only [Entry.accepted, hk, Entry.parties, List.mem_map]
      exact ⟨p, hw p hp.2.2, if_neg hp.2.1⟩
    · simp only [Entry.accepted, hk, Entry.parties, List.mem_append]
      exact .inl (hw p hp.2)
  | _ => exact h

/-- A granted entry has the record's tag, nobody warned and no renewal (R77). -/
theorem grantedEntry_kept {p : Port} {r : Reservation} (h : r.tag ≠ 0) : (grantedEntry p r).Kept := by
  rintro x hx
  cases hx
  exact ⟨h, fun q hq => by simp at hq⟩

theorem grantedEntry_plain (p : Port) (r : Reservation) : (grantedEntry p r).Plain := by
  rintro x hx
  cases hx
  rfl

theorem Entry.kept_free : Entry.free.Kept := fun _ h => nomatch h

theorem Entry.plain_free : Entry.free.Plain := fun _ h => nomatch h

/-! ### The stages of a commit -/

/-- Commit step 2 leaves no renewal pending on the slot (R48). -/
theorem State.countLease_plain (s : State) {n : Nat} (hn : n < 64) : (entryAt (s.countLease n).staged n).Plain := by
  rcases s.countLease_cases hn with ⟨hx, e⟩ | ⟨x, hx, ⟨-, e⟩ | ⟨h0, e⟩⟩ <;> rw [e]
  · intro h hh
    rw [hx] at hh
    cases hh
  · rw [State.endLease_staged, State.entryAt_setStaged_self _ hn]
    exact fun _ h => nomatch h
  · intro y hy
    have hentry : entryAt (s.setStaged n (s.countedEntry (entryAt s.staged n) x)).staged n
      = s.countedEntry (entryAt s.staged n) x := s.entryAt_setStaged_self hn _
    rw [(State.notifyAll_fields _ _ _).2.2.2.1, hentry, State.countedEntry, Entry.holding?_withHolding, hx] at hy
    cases hy
    dsimp only
    unfold Holding.counted
    split
    · assumption
    · rfl

theorem State.commitLeases_plain (s : State) (n : Nat) : (entryAt s.commitLeases.staged n).Plain := by
  have fold : ∀ (l : List Nat) (u : State), (∀ m ∈ l, m < 64) → n ∈ l →
      (entryAt (l.foldl State.countLease u).staged n).Plain := by
    intro l
    induction l with
    | nil => intro u _ h; cases h
    | cons m l ih =>
      intro u hl hn
      by_cases hm : n ∈ l
      · exact ih _ (fun k hk => hl k (List.mem_cons_of_mem m hk)) hm
      · obtain rfl := (List.mem_cons.1 hn).resolve_right hm
        exact (State.Ages.foldl (fun v k hk => .countLease v (hl k (List.mem_cons_of_mem n hk))) _ n).plain
          (u.countLease_plain (hl n List.mem_cons_self))
  by_cases hn : n < 64
  · exact fold _ s (fun m hm => mem_slotNumbers.1 hm) (mem_slotNumbers.2 hn)
  · rw [entryAt_of_le _ (Nat.not_lt.1 hn)]
    exact Entry.plain_free

/-- Every entry of the Staged table is kept. -/
def State.StagedKept (s : State) : Prop := ∀ n, (entryAt s.staged n).Kept

/-- No renewal is pending in the Staged table. -/
def State.StagedPlain (s : State) : Prop := ∀ n, (entryAt s.staged n).Plain

theorem State.Wanes.kept {s t : State} (h : s.Wanes t) (k : s.StagedKept) : t.StagedKept := fun n => (h n).kept (k n)

theorem State.Wanes.plain {s t : State} (h : s.Wanes t) (k : s.StagedPlain) : t.StagedPlain := fun n => (h n).plain (k n)

theorem State.commitAllocator_kept {s : State} (hr : ∀ r ∈ s.requests, r.res.tag ≠ 0) (h : s.StagedKept ∧ s.StagedPlain) :
    s.commitAllocator.StagedKept ∧ s.commitAllocator.StagedPlain := by
  have hvisit : s.visitAll.StagedKept ∧ s.visitAll.StagedPlain := by
    refine foldl_invariant _ (fun t => t.StagedKept ∧ t.StagedPlain) _ s h ?_
    rintro u r hmem ⟨hk, hp⟩
    rcases u.visit_cases r with e | ⟨l, -, -, e⟩ <;> rw [e]
    · exact ⟨hk, hp⟩
    · refine ⟨fun n => ?_, fun n => ?_⟩ <;> rw [State.entryAt_grant] <;> split
      · exact grantedEntry_kept (hr r hmem)
      · exact hk n
      · exact grantedEntry_plain _ _
      · exact hp n
  have hstaged : s.commitAllocator.staged = s.visitAll.staged := by simp [State.commitAllocator]
  unfold State.StagedKept State.StagedPlain
  rw [hstaged]
  exact hvisit

/-- After a commit both tables are kept and no renewal is pending (R4, R21). -/
theorem State.commit_kept {s : State} (hq : s.Queued fun l => ∀ r ∈ l, r.res.tag ≠ 0) (h : s.StagedKept) :
    s.commit.StagedKept ∧ s.commit.StagedPlain ∧ s.commit.active = s.commit.staged := by
  refine s.commit_stages (fun i t => t.Queued (fun l => ∀ r ∈ l, r.res.tag ≠ 0) ∧ t.StagedKept
    ∧ (2 ≤ i → t.StagedPlain) ∧ (i = 7 → t.active = t.staged)) ?_ ?_ ?_ ?_ ?_ ?_ ?_ ?_ ?_
    |>.2 |> fun ⟨hk, hp, ha⟩ => ⟨hk, hp (by omega), ha rfl⟩
  · exact ⟨hq.same (by simp) (by simp), (State.Wanes.of_staged (by simp)).kept h, by omega, by omega⟩
  · rintro t ⟨htq, hk, -⟩
    exact ⟨htq.same (by simp) (by simp), (State.Wanes.commitCooling t).kept hk, by omega, by omega⟩
  · rintro t ⟨htq, hk, -⟩
    exact ⟨htq.same (by simp) (by simp), (State.Ages.commitLeases t).wanes.kept hk, fun _ => t.commitLeases_plain, by omega⟩
  · rintro t ⟨htq, hk, hp, -⟩
    have w := (State.Ages.commitRotation t).wanes
    exact ⟨htq.same (by simp) (by simp), w.kept hk, fun _ => w.plain (hp (by omega)), by omega⟩
  · rintro t ⟨htq, hk, hp, -⟩
    have w := (State.Ages.commitEdits t).wanes
    exact ⟨htq.commitEdits queueLaw_tag, w.kept hk, fun _ => w.plain (hp (by omega)), by omega⟩
  · rintro t ⟨htq, hk, hp, -⟩
    have w := State.Wanes.commitPlan t
    exact ⟨htq.commitPlan queueLaw_tag, w.kept hk, fun _ => w.plain (hp (by omega)), by omega⟩
  · rintro t ⟨htq, hk, hp, -⟩
    obtain ⟨hk', hp'⟩ := State.commitAllocator_kept htq.1 ⟨hk, hp (by omega)⟩
    exact ⟨htq.commitAllocator queueLaw_tag, hk', fun _ => hp', by omega⟩
  · rintro t ⟨htq, hk, hp, -⟩
    have w : t.Wanes t.publish := .of_staged (by simp)
    exact ⟨htq.same (by simp) (by simp), w.kept hk, fun _ => w.plain (hp (by omega)), fun _ => rfl⟩
  · rintro i t ns ⟨htq, hk, hp, ha⟩
    have w : t.Wanes (t.deliver ns) := .of_staged (by simp)
    exact ⟨htq.same (by simp) (by simp), w.kept hk, fun hi => w.plain (hp hi), fun hi => by simpa using ha hi⟩

/-! ### Every step -/

/-- The bookkeeping of the two tables. -/
structure State.TablesKept (s : State) : Prop where
  active : ∀ n, (entryAt s.active n).Kept
  staged : s.StagedKept
  plain : ∀ n, (entryAt s.active n).Plain

theorem State.bookkeepingOk_iff (s : State) :
    s.BookkeepingOk ↔ s.TablesKept ∧ s.Queued fun l => ∀ r ∈ l, r.res.tag ≠ 0 := by
  constructor
  · rintro ⟨hkept, hplain, hqueued⟩
    have all {P : Nat → Prop} (h : ∀ n, n < 64 → P n) (h' : ∀ n, 64 ≤ n → P n) (n : Nat) : P n :=
      (Nat.lt_or_ge n 64).elim (h n) (h' n)
    refine ⟨⟨all (fun n hn => (hkept n hn).1) ?_, all (fun n hn => (hkept n hn).2) ?_, all (fun n hn => hplain n hn) ?_⟩,
      hqueued⟩ <;>
      intro n hn <;> rw [entryAt_of_le _ hn]
    · exact Entry.kept_free
    · exact Entry.kept_free
    · exact Entry.plain_free
  · rintro ⟨h, hqueued⟩
    exact ⟨fun n _ => ⟨h.active n, h.staged n⟩, fun n _ => h.plain n, hqueued⟩

section

variable {s t : State}

theorem State.TablesKept.edited (h : s.TablesKept) (ha : t.active = s.active) (hk : s.StagedKept → t.StagedKept) :
    t.TablesKept :=
  ⟨ha ▸ h.active, hk h.staged, ha ▸ h.plain⟩

theorem State.TablesKept.same (h : s.TablesKept) (ha : t.active = s.active) (hs : t.staged = s.staged) : t.TablesKept :=
  h.edited ha (State.Wanes.of_staged hs).kept

theorem State.TablesKept.accept (h : s.TablesKept) (hs : s.ScheduleOk) {o : Offer} (ho : o ∈ s.offers) :
    (s.acceptOffer o).TablesKept := by
  refine h.edited (by simp) fun hk n => ?_
  rw [State.entryAt_acceptOffer]
  split
  · obtain ⟨-, -, -, -, hg, -⟩ := hs.offer ho
    exact (hk o.slot).accepted hg
  · exact hk n

theorem State.TablesKept.planApplication (h : s.TablesKept) (terms : PlanTerms) :
    (s.applyPlan terms).publishRevoked.loadGeometry.TablesKept := by
  have hactive : ∀ n, entryAt (s.applyPlan terms).publishRevoked.loadGeometry.active n = .free
      ∨ entryAt (s.applyPlan terms).publishRevoked.loadGeometry.active n = entryAt s.active n := by
    intro n
    have : (s.applyPlan terms).publishRevoked.loadGeometry.active = (s.applyPlan terms).activeWithin := by simp
    rw [this, State.entryAt_activeWithin]
    split
    · exact .inl rfl
    · exact .inr (by simp)
  refine ⟨fun n => ?_, (State.Wanes.of_staged (s := s.applyPlan terms) (by simp)).kept
    ((State.Wanes.applyPlan s terms).kept h.staged), fun n => ?_⟩ <;> rcases hactive n with e | e <;> rw [e]
  · exact Entry.kept_free
  · exact h.active n
  · exact Entry.plain_free
  · exact h.plain n

theorem State.TablesKept.reset (s : State) (slots : Nat) (width : SlotWidth) : (s.resetAll slots width).TablesKept := by
  have hnone : ∀ n, (entryAt Table.atReset n).holding? = none := by
    intro n
    by_cases hn : n < 64
    · by_cases h0 : n = 0
      · subst h0; rfl
      · rw [Table.entryAt_atReset (by omega) hn]; rfl
    · rw [entryAt_of_le _ (Nat.not_lt.1 hn)]; rfl
  refine ⟨fun n h hh => ?_, fun n h hh => ?_, fun n h hh => ?_⟩ <;> cases (hnone n).symm.trans hh

end

/-- What the bookkeeping needs of a state, and each thing a step does keeps. -/
def State.Books (s : State) : Prop :=
  s.ScheduleOk ∧ s.Queued (fun l => ∀ r ∈ l, r.res.tag ≠ 0) ∧ s.TablesKept

theorem State.TablesKept.detach {s : State} (h : s.TablesKept) (p : Port) :
    (((((s.detachPort p).giveUpSlots p .detached (s.ownSlots p)).dropTargetOffers p).dropOwn p).leaveProposal
      p).1.TablesKept := by
  refine h.edited (by simp) fun hk => ?_
  have hgive := (State.Ages.giveUpSlots (s.detachPort p) p .detached (s.ownSlots p)).wanes.kept hk
  exact (State.Wanes.of_staged (by simp)).kept hgive

theorem State.TablesKept.endFrame {s : State} (h : s.TablesKept) (hq : s.Queued fun l => ∀ r ∈ l, r.res.tag ≠ 0) :
    s.endFrame.TablesKept := by
  obtain ⟨hk, hp, ha⟩ := State.commit_kept hq h.staged
  have hcommit : s.commit.TablesKept := ⟨ha ▸ hk, hk, ha ▸ hp⟩
  exact hcommit.same (by simp [State.endFrame]) (by simp [State.endFrame])

/-- What the bookkeeping reads, and each thing a step does keeps. -/
theorem keeps_books : Keeps State.Books := by
  have kS := keeps_scheduleOk
  have kQ := queueLaw_tag.keeps
  exact {
    queue := fun s l ⟨h, q, k⟩ => ⟨kS.queue s l h, kQ.queue s l q, k.same rfl rfl⟩
    link := fun s p x ⟨h, q, k⟩ h1 h2 h3 => ⟨kS.link s p x h h1 h2 h3, kQ.link s p x q h1 h2 h3, k.same rfl rfl⟩
    attach := fun s p x ⟨h, q, k⟩ h1 => ⟨kS.attach s p x h h1, kQ.attach s p x q h1, k.same rfl rfl⟩
    attention := fun s p x m ⟨h, q, k⟩ h1 => ⟨kS.attention s p x m h h1, kQ.attention s p x m q h1, k.same rfl rfl⟩
    fetch := fun s p n ⟨h, q, k⟩ h1 => ⟨kS.fetch s p n h h1, kQ.fetch s p n q h1, k.same rfl rfl⟩
    detach := fun s p ⟨h, q, k⟩ h1 => ⟨kS.detach s p h h1, kQ.detach s p q h1, k.detach p⟩
    renew := fun s p l sel lease ns ⟨h, q, k⟩ h1 h2 h3 =>
      ⟨kS.renew s p l sel lease ns h h1 h2 h3, kQ.renew s p l sel lease ns q h1 h2 h3,
      k.edited (by simp) fun hk n => (s.setRenewal_entry lease ns n).2 (hk n)⟩
    release := fun s p l sel ns ⟨h, q, k⟩ h1 h2 h3 =>
      ⟨kS.release s p l sel ns h h1 h2 h3, kQ.release s p l sel ns q h1 h2 h3,
      k.edited (by simp) (State.Ages.giveUpSlots s p .released ns).wanes.kept⟩
    reserve := fun s p l r ⟨h, q, k⟩ h1 h2 h3 h4 h5 h6 =>
      ⟨kS.reserve s p l r h h1 h2 h3 h4 h5 h6, kQ.reserve s p l r q h1 h2 h3 h4 h5 h6,
      k.same rfl rfl⟩
    cancel := fun s r ⟨h, q, k⟩ => ⟨kS.cancel s r h, kQ.cancel s r q, k.same rfl rfl⟩
    offer := fun s p l f n ⟨h, q, k⟩ h1 h2 h3 h4 h5 h6 h7 h8 =>
      ⟨kS.offer s p l f n h h1 h2 h3 h4 h5 h6 h7 h8, kQ.offer s p l f n q h1 h2 h3 h4 h5 h6 h7 h8,
      k.same (by simp) (by simp)⟩
    accept := fun s p o ⟨h, q, k⟩ ha ho ht hc => ⟨kS.accept s p o h ha ho ht hc, kQ.accept s p o q ha ho ht hc,
      k.accept h ho⟩
    decline := fun s o why ⟨h, q, k⟩ h1 => ⟨kS.decline s o why h h1, kQ.decline s o why q h1,
      k.same (by simp) (by simp)⟩
    withdraw := fun s o tag why ⟨h, q, k⟩ h1 => ⟨kS.withdraw s o tag why h h1, kQ.withdraw s o tag why q h1,
      k.same (by simp) (by simp)⟩
    schedule := fun s p l f act ⟨h, q, k⟩ h1 h2 h3 h4 h5 =>
      ⟨kS.schedule s p l f act h h1 h2 h3 h4 h5, kQ.schedule s p l f act q h1 h2 h3 h4 h5,
      k.same rfl rfl⟩
    unschedule := fun s e ⟨h, q, k⟩ h1 => ⟨kS.unschedule s e h h1, kQ.unschedule s e q h1, k.same rfl rfl⟩
    propose := fun s p l terms d ps n ⟨h, q, k⟩ h1 h2 h3 =>
      ⟨kS.propose s p l terms d ps n h h1 h2 h3, kQ.propose s p l terms d ps n q h1 h2 h3,
      k.same (by simp) (by simp)⟩
    confirm := fun s p pr d ⟨h, q, k⟩ h1 h2 => ⟨kS.confirm s p pr d h h1 h2, kQ.confirm s p pr d q h1 h2,
      k.same (by simp) (by simp)⟩
    fail := fun s pr d why who ⟨h, q, k⟩ h1 => ⟨kS.fail s pr d why who h h1, kQ.fail s pr d why who q h1,
      k.same (by simp) (by simp)⟩
    frameEnd := fun s ⟨h, q, k⟩ h1 => ⟨kS.frameEnd s h h1, kQ.frameEnd s q h1, k.endFrame q⟩
    leaseEnd := fun s n ⟨h, q, k⟩ h1 h2 => ⟨kS.leaseEnd s n h h1 h2, kQ.leaseEnd s n q h1 h2,
      k.edited (by simp) (State.Ages.endLease s n).wanes.kept⟩
    timedRelease := fun s e l n ⟨h, q, k⟩ h1 h2 h3 =>
      ⟨kS.timedRelease s e l n h h1 h2 h3, kQ.timedRelease s e l n q h1 h2 h3,
      k.edited (by simp) (State.Ages.applyRelease { s with edits := l } e n).wanes.kept⟩
    timedRenew := fun s e l n x ⟨h, q, k⟩ h1 h2 h3 =>
      ⟨kS.timedRenew s e l n x h h1 h2 h3, kQ.timedRenew s e l n x q h1 h2 h3,
      k.edited (by simp) (State.Ages.applyRenew { s with edits := l } e n x).wanes.kept⟩
    timedEnqueue := fun s e l r ⟨h, q, k⟩ h1 h2 h3 =>
      ⟨kS.timedEnqueue s e l r h h1 h2 h3, kQ.timedEnqueue s e l r q h1 h2 h3,
      k.same (by simp) (by simp)⟩
    planApplication := fun s terms ⟨h, q, k⟩ h1 h2 =>
      ⟨kS.planApplication s terms h h1 h2, kQ.planApplication s terms q h1 h2,
      k.planApplication terms⟩
    waitLapse := fun s ⟨h, q, k⟩ => ⟨kS.waitLapse s h, kQ.waitLapse s q, k.same (by simp) (by simp)⟩
    offerLapse := fun s o ⟨h, q, k⟩ h1 h2 => ⟨kS.offerLapse s o h h1 h2, kQ.offerLapse s o q h1 h2,
      k.same (by simp) (by simp)⟩
    clockLoss := fun s ⟨h, q, k⟩ h1 h2 => ⟨kS.clockLoss s h h1 h2, kQ.clockLoss s q h1 h2, k.same (by simp) (by simp)⟩
    stallGap := fun s ⟨h, q, k⟩ => ⟨kS.stallGap s h, kQ.stallGap s q, k.same rfl rfl⟩
    recover := fun s ⟨h, q, k⟩ h1 h2 => ⟨kS.recover s h h1 h2, kQ.recover s q h1 h2, k.same (by simp) (by simp)⟩
    edge := fun s ⟨h, q, k⟩ => ⟨kS.edge s h, kQ.edge s q, k.same rfl rfl⟩
    countEdge := fun s ⟨h, q, k⟩ h1 => ⟨kS.countEdge s h h1, kQ.countEdge s q h1, k.same rfl rfl⟩
    reset := fun s slots width ⟨h, q, k⟩ h1 => ⟨kS.reset s slots width h h1, kQ.reset s slots width q h1,
      .reset s slots width⟩
    resetPin := fun s ⟨h, q, k⟩ => ⟨kS.resetPin s h, kQ.resetPin s q, k.same rfl rfl⟩
    edgeBegins := fun s ⟨h, q, k⟩ => ⟨kS.edgeBegins s h, kQ.edgeBegins s q, k.same rfl rfl⟩
    leadIn := fun s ⟨h, q, k⟩ h1 => ⟨kS.leadIn s h h1, kQ.leadIn s q h1, k.same rfl rfl⟩
    beginFrame := fun s ⟨h, q, k⟩ h1 => ⟨kS.beginFrame s h h1, kQ.beginFrame s q h1, k.same rfl rfl⟩
    beginBit := fun s n ⟨h, q, k⟩ h1 h2 => ⟨kS.beginBit s n h h1 h2, kQ.beginBit s n q h1 h2, k.same rfl rfl⟩
    timer := fun s ⟨h, q, k⟩ h1 => ⟨kS.timer s h h1, kQ.timer s q h1, k.same rfl rfl⟩
    phase := fun s ⟨h, q, k⟩ h1 => ⟨kS.phase s h h1, kQ.phase s q h1, k.same rfl rfl⟩ }

/-- Settles O57: beside the laws of the schedule, which say who the holder of an accepted offer's slot is, and the tags of
the waiting records, each thing a step does keeps the holdings of both tables. -/
theorem everyStepKeepsTheBookkeeping : Obligations.EveryStepKeepsTheBookkeeping := by
  intro s t hs hb e
  obtain ⟨hk, hq⟩ := s.bookkeepingOk_iff.1 hb
  obtain ⟨-, hq', hk'⟩ := keeps_books.step ⟨hs, hq, hk⟩ e
  exact t.bookkeepingOk_iff.2 ⟨hk', hq'⟩

end Sys2Proof.Machine
end

section
/-! SUPPORT. The proof of the statement about the queues, lists and ids: the notice queues, the offer ids, the timed edit
list and the edit ids. -/

-- One proof after another: many at once take more memory than the check allows.
set_option Elab.async false

namespace Sys2Proof.Machine

open Sys2Proof

section

variable {s t : State}

/-! ### The notice queues (R137, R146) -/

/-- Telling keeps every queue at most 16 long, and a DETACHED port is told nothing. -/
theorem State.NoticesOk.told (h : s.NoticesOk) (k : s.Told t) : t.NoticesOk := by
  intro p
  obtain ⟨l, hl⟩ := k p
  obtain ⟨hlen, hdet⟩ := h p
  rw [k.attached p, hl]
  refine ⟨PortState.told_length _ _ hlen, fun ha => ?_⟩
  rw [PortState.told_of_detached _ _ (by simpa [State.attached] using ha)]
  exact hdet ha

theorem State.NoticesOk.same (h : s.NoticesOk) (hp : t.ports = s.ports) : t.NoticesOk := h.told (.of_ports hp)

/-- One port replaced by one in order. -/
theorem State.NoticesOk.setPort (h : s.NoticesOk) (p : Port) {x : PortState} (hlen : x.notices.length ≤ 16)
    (hdet : x.attachment = none → x.notices = [] ∧ x.lost = false) : (s.setPort p x).NoticesOk := by
  intro q
  by_cases hq : q = p
  · subst hq
    rw [State.attached, State.port_setPort_self]
    exact ⟨hlen, fun ha => hdet (by simpa using ha)⟩
  · rw [State.attached, State.port_setPort_ne s hq]
    exact h q

theorem State.NoticesOk.detach (h : s.NoticesOk) (p : Port) :
    (((((s.detachPort p).giveUpSlots p .detached (s.ownSlots p)).dropTargetOffers p).dropOwn p).leaveProposal
      p).1.NoticesOk := by
  have hport : (s.detachPort p).NoticesOk :=
    (h.setPort p (x := { s.port p with attachment := none, notices := [], lost := false }) (by simp)
      fun _ => ⟨rfl, rfl⟩).same rfl
  have hdrop := (hport.told (State.giveUpSlots_told _ p .detached (s.ownSlots p))).told (State.dropTargetOffers_told _ p)
  exact (hdrop.same (t := State.dropOwn _ p) rfl).told (State.leaveProposal_told _ p)

theorem State.NoticesOk.reset (s : State) (slots : Nat) (width : SlotWidth) : (s.resetAll slots width).NoticesOk := by
  intro p
  cases p <;> exact ⟨Nat.zero_le _, fun _ => ⟨rfl, rfl⟩⟩

theorem keeps_noticesOk : Keeps State.NoticesOk where
  queue _ _ h := h.same rfl
  link s p x h ha hn hl := h.setPort p (hn ▸ (h p).1) fun hx => by
    rw [hn, hl]
    exact (h p).2 (by simpa [State.attached] using ha.symm.trans hx)
  attach s p x h _ := h.setPort p (h p).1 fun hx => nomatch hx
  attention s p x m h _ := h.setPort p (h p).1 fun hx => nomatch hx
  fetch s p n h ha := h.setPort p (by simpa using (Nat.sub_le _ _).trans (h p).1) fun hx => by
    rw [State.attached, hx] at ha
    cases ha
  detach _ p h _ := h.detach p
  renew _ _ _ _ _ _ h _ _ _ := h.same (by simp)
  release s p _ _ ns h _ _ _ := h.told (s.giveUpSlots_told p .released ns)
  reserve _ _ _ _ h _ _ _ _ _ _ := h.same rfl
  cancel _ _ h := h.same rfl
  offer _ _ _ _ _ h _ _ _ _ _ _ _ _ := (h.same rfl).told (State.notify_told _ _ _)
  accept s _ o h _ _ _ _ := h.told (s.acceptOffer_told o)
  decline s o why h _ := h.told (s.refuseOffer_told o why)
  withdraw s o tag why h _ := h.told (s.voidOffer_told o tag why)
  schedule _ _ _ _ _ h _ _ _ _ _ := h.same rfl
  unschedule _ _ h _ := h.same rfl
  propose s p _ terms d _ _ h _ _ _ := (h.told (s.judgeProposal_told _ d)).told (State.notifyAll_told _ _ _)
  confirm s _ _ d h _ _ := h.told (s.judgeProposal_told _ d)
  fail s pr _ why who h _ := h.told (s.failProposal_told pr why who)
  frameEnd s h _ := h.told s.endFrame_told
  leaseEnd s n h _ _ := h.told (s.endLease_told n)
  timedRelease _ e _ n h _ _ _ := (h.same rfl).told (State.applyRelease_told _ e n)
  timedRenew _ e _ n x h _ _ _ := (h.same rfl).told (State.applyRenew_told _ e n x)
  timedEnqueue _ e _ r h _ _ _ := (h.same rfl).told (State.applyEnqueue_told _ e r)
  planApplication s terms h _ _ := (h.told (s.applyPlan_told terms)).same (by simp)
  waitLapse s h := h.told s.countWaits_told
  offerLapse _ _ h _ _ := (h.same rfl).told (State.deliver_told _ _)
  clockLoss s h _ _ := h.told s.loseClock_told
  stallGap _ h := h.same rfl
  recover s h _ _ := h.told s.recover_told
  edge _ h := h.same rfl
  countEdge _ h _ := h.same rfl
  reset s slots width _ _ := .reset s slots width
  resetPin _ h := h.same rfl
  edgeBegins _ h := h.same rfl
  leadIn _ h _ := h.same rfl
  beginFrame _ h _ := h.same rfl
  beginBit _ _ h _ _ := h.same rfl
  timer _ h _ := h.same rfl
  phase _ h _ := h.same rfl

/-! ### The offer ids (R87, R88) -/

theorem State.OfferIdsOk.sub (h : s.OfferIdsOk) (hs : (t.offers.map Offer.id).Sublist (s.offers.map Offer.id))
    (hc : t.offerCounter = s.offerCounter) : t.OfferIdsOk := by
  obtain ⟨hlen, hnodup, hne, hcounter⟩ := h
  refine ⟨by simpa using hs.length_le.trans (by simpa using hlen), hnodup.sublist hs, fun o ho => ?_, hc ▸ hcounter⟩
  obtain ⟨x, hx, he⟩ := List.mem_map.1 (hs.subset (List.mem_map_of_mem ho))
  exact he ▸ hne x hx

theorem State.OfferIdsOk.sublist (h : s.OfferIdsOk) (hs : t.offers.Sublist s.offers)
    (hc : t.offerCounter = s.offerCounter) : t.OfferIdsOk := h.sub (hs.map _) hc

theorem State.OfferIdsOk.same (h : s.OfferIdsOk) (hs : t.offers = s.offers) (hc : t.offerCounter = s.offerCounter) :
    t.OfferIdsOk := h.sublist (by rw [hs]) hc

/-- A new offer takes an unused id (R88). -/
theorem State.OfferIdsOk.insertOffer (h : s.OfferIdsOk) {o : Offer} (hid : o.id = s.newOfferId)
    (hroom : s.offers.length < 8) (ho : t.offers = Machine.insertOffer o s.offers)
    (hc : t.offerCounter = nextId s.newOfferId) : t.OfferIdsOk := by
  obtain ⟨-, hnodup, hne, hcounter⟩ := h
  obtain ⟨hnew, hzero⟩ := s.newOfferId_spec hroom hcounter
  have hperm : t.offers.Perm (o :: s.offers) := ho ▸ insertOffer_perm o s.offers
  refine ⟨by simpa [hperm.length_eq] using hroom, (hperm.map Offer.id).nodup_iff.2 ?_, fun x hx => ?_,
    hc ▸ nextId_ne_zero _⟩
  · exact List.nodup_cons.2 ⟨hid ▸ hnew, hnodup⟩
  · rcases List.mem_cons.1 (hperm.subset hx) with rfl | hx
    · exact hid ▸ hzero
    · exact hne x hx

theorem State.giveUpSlots_offers_sublist (s : State) (p : Port) (why : Reason) (ns : List Nat) :
    (s.giveUpSlots p why ns).offers.Sublist s.offers :=
  foldl_invariant _ (fun t => t.offers.Sublist s.offers) ns s (.refl _) fun t n _ h =>
    (t.giveUpSlot_offers_sublist p why n).trans h

theorem State.applyEdit_offers_sublist (s : State) (e : Edit) : (s.applyEdit e).offers.Sublist s.offers := by
  unfold State.applyEdit
  split
  · unfold State.applyRelease
    dsimp only
    split
    · simpa using s.giveUpSlot_offers_sublist e.issuer .released _
    · simp
  · simp
  · simp

theorem State.applyPlan_offers_sublist (s : State) (terms : PlanTerms) :
    (s.applyPlan terms).offers.Sublist s.offers := by
  have revoke : ∀ (l : List Nat) (u : State), (l.foldl State.revokeSlot u).offers.Sublist u.offers := fun l u =>
    foldl_invariant _ (fun t => t.offers.Sublist u.offers) l u (.refl _) fun t n _ h =>
      (t.revokeSlot_offers_sublist n).trans h
  have shrink : ∀ (u : State) old new, (u.shrink old new).offers.Sublist u.offers := by
    intro u old new
    unfold State.shrink
    split
    · simpa using revoke _ u
    · exact .refl _
  simpa [State.applyPlan] using
    shrink { s with plan := ⟨terms, s.plan.number + 1⟩, proposal := .none } s.slots terms.geometry.slots

theorem State.countLease_offers_sublist (s : State) {n : Nat} (hn : n < 64) :
    (s.countLease n).offers.Sublist s.offers := by
  rcases s.countLease_cases hn with ⟨-, e⟩ | ⟨x, -, ⟨-, e⟩ | ⟨-, e⟩⟩ <;> rw [e]
  · exact s.endLease_offers_sublist n
  · simp

/-- A commit only removes offers, after the countdown (R97, R100, R103). -/
theorem State.commit_offers_sublist (s : State) : s.commit.offers.Sublist s.countOffers.offers := by
  refine s.commit_induction (fun t => t.offers.Sublist s.countOffers.offers) ?_ ?_ ?_ ?_ ?_ ?_ ?_ ?_ ?_
  · simp
  · simp
  · exact fun t h => (foldl_invariant _ (fun u => u.offers.Sublist t.offers) _ t (.refl _) fun u n hn hu =>
      (u.countLease_offers_sublist (mem_slotNumbers.1 hn)).trans hu).trans h
  · simp
  · exact fun t h => (foldl_invariant _ (fun u => u.offers.Sublist t.offers) _ t (.refl _) fun u e _ hu =>
      (State.applyEdit_offers_sublist { u with edits := u.edits.tail } e).trans hu).trans h
  · intro t h
    unfold State.commitPlan
    split
    · exact (t.applyPlan_offers_sublist _).trans h
    · exact h
  · simp
  · simp
  · simp

/-- The countdown keeps the ids of the offers that stay (R97). -/
theorem State.countOffers_ids (s : State) :
    (s.countOffers.offers.map Offer.id).Sublist (s.offers.map Offer.id) := by
  have : s.countOffers.offers.map Offer.id = (s.offers.filter fun o => !o.lapses).map Offer.id := by
    simp [State.countOffers, Function.comp_def]
  rw [this]
  exact List.filter_sublist.map _

theorem keeps_offerIdsOk : Keeps State.OfferIdsOk where
  queue _ _ h := h.same rfl rfl
  link _ _ _ h _ _ _ := h.same rfl rfl
  attach _ _ _ h _ := h.same rfl rfl
  attention _ _ _ _ h _ := h.same rfl rfl
  fetch _ _ _ h _ := h.same rfl rfl
  detach s p h _ := by
    refine h.sublist ?_ (by simp)
    simpa using (State.dropTargetOffers_sublist _ p).trans
      ((s.detachPort p).giveUpSlots_offers_sublist p .detached (s.ownSlots p))
  renew _ _ _ _ _ _ h _ _ _ := h.same (by simp) (by simp)
  release s p _ _ ns h _ _ _ := h.sublist (s.giveUpSlots_offers_sublist p .released ns) (by simp)
  reserve _ _ _ _ h _ _ _ _ _ _ := h.same rfl rfl
  cancel _ _ h := h.same rfl rfl
  offer s p _ f _ h _ _ _ _ _ _ _ hroom := h.insertOffer (o := s.newOffer p f) rfl hroom (by simp) (by simp)
  accept _ _ _ h _ _ _ _ := h.sublist (by simp) (by simp)
  decline _ _ _ h _ := h.sublist (by simp) (by simp)
  withdraw _ _ _ _ h _ := h.sublist (by simp) (by simp)
  schedule _ _ _ _ _ h _ _ _ _ _ := h.same rfl rfl
  unschedule _ _ h _ := h.same rfl rfl
  propose _ _ _ _ _ _ _ h _ _ _ := h.same (by simp) (by simp)
  confirm _ _ _ _ h _ _ := h.same (by simp) (by simp)
  fail _ _ _ _ _ h _ := h.same (by simp) (by simp)
  frameEnd s h _ := h.sub
    (by simpa [State.endFrame] using (s.commit_offers_sublist.map Offer.id).trans s.countOffers_ids)
    (by simp [State.endFrame])
  leaseEnd s n h _ _ := h.sublist (s.endLease_offers_sublist n) (by simp)
  timedRelease s e l _ h _ ha _ := h.sublist
    (by simpa [State.applyEdit, ha] using State.applyEdit_offers_sublist { s with edits := l } e) (by simp)
  timedRenew _ _ _ _ _ h _ _ _ := h.same (by simp) (by simp)
  timedEnqueue _ _ _ _ h _ _ _ := h.same (by simp) (by simp)
  planApplication s terms h _ _ := h.sublist (by simpa using s.applyPlan_offers_sublist terms) (by simp)
  waitLapse _ h := h.same (by simp) (by simp)
  offerLapse _ _ h _ _ := h.sublist (by simp) (by simp)
  clockLoss _ h _ _ := h.same (by simp) (by simp)
  stallGap _ h := h.same rfl rfl
  recover _ h _ _ := h.same (by simp) (by simp)
  edge _ h := h.same rfl rfl
  countEdge _ h _ := h.same rfl rfl
  reset _ _ _ _ _ := ⟨Nat.zero_le _, List.nodup_nil, List.forall_mem_nil _, show (1 : Byte) ≠ 0 by decide⟩
  resetPin _ h := h.same rfl rfl
  edgeBegins _ h := h.same rfl rfl
  leadIn _ h _ := h.same rfl rfl
  beginFrame _ h _ := h.same rfl rfl
  beginBit _ _ h _ _ := h.same rfl rfl
  timer _ h _ := h.same rfl rfl
  phase _ h _ := h.same rfl rfl

/-! ### The timed edit list (R105, R107, R117) -/

/-- A commit only removes timed edits: the due ones, and those a smaller plan cannot meet (R111, R118). -/
theorem State.commit_edits_sublist (s : State) : s.commit.edits.Sublist (s.edits.dropWhile s.editDue) := by
  have hdue (u : State) (hu : u.frameCounter = s.frameCounter) : u.editDue = s.editDue :=
    funext fun e => by rw [State.editDue, State.editDue, hu]
  refine s.commit_stages (fun i t => t.frameCounter = s.frameCounter ∧ (i < 4 → t.edits = s.edits)
    ∧ (4 ≤ i → t.edits.Sublist (s.edits.dropWhile s.editDue))) ?_ ?_ ?_ ?_ ?_ ?_ ?_ ?_ ?_ |>.2.2 (by omega)
  · exact ⟨by simp, by simp, by omega⟩
  · exact fun t ⟨hf, he, _⟩ => ⟨by simpa using hf, fun _ => by simpa using he (by omega), by omega⟩
  · exact fun t ⟨hf, he, _⟩ => ⟨by simpa using hf, fun _ => by simpa using he (by omega), by omega⟩
  · exact fun t ⟨hf, he, _⟩ => ⟨by simpa using hf, fun _ => by simpa using he (by omega), by omega⟩
  · exact fun t ⟨hf, he, _⟩ => ⟨by simpa using hf, by omega, fun _ => by
      rw [State.commitEdits_edits, hdue t hf, he (by omega)]⟩
  · refine fun t ⟨hf, _, he⟩ => ⟨by simpa using hf, by omega, fun _ => .trans ?_ (he (by omega))⟩
    unfold State.commitPlan
    split
    · rw [State.applyPlan_edits]
      split
      · exact List.filter_sublist
      · exact .refl _
    · exact .refl _
  · exact fun t ⟨hf, _, he⟩ => ⟨by simpa using hf, by omega, fun _ => by simpa using he (by omega)⟩
  · exact fun t ⟨hf, _, he⟩ => ⟨by simpa using hf, by omega, fun _ => by simpa using he (by omega)⟩
  · exact fun i t ns ⟨hf, he, he'⟩ => ⟨by simpa using hf, fun hi => by simpa using he hi, fun hi => by
      simpa using he' hi⟩

theorem State.applyPlan_edits_sublist (s : State) (terms : PlanTerms) : (s.applyPlan terms).edits.Sublist s.edits := by
  rw [State.applyPlan_edits]
  split
  · exact List.filter_sublist
  · exact .refl _

theorem State.EditIdsOk.sublist (h : s.EditIdsOk) (hs : t.edits.Sublist s.edits) (hc : t.editCounter = s.editCounter) :
    t.EditIdsOk := by
  obtain ⟨hlen, hnodup, hne, hcounter⟩ := h
  exact ⟨hs.length_le.trans hlen, hnodup.sublist (hs.map _), fun e he => hne e (hs.subset he), hc ▸ hcounter⟩

theorem State.EditsOk.sublist (h : s.EditsOk) (hs : t.edits.Sublist s.edits) (hf : t.frameCounter = s.frameCounter) :
    t.EditsOk := by
  obtain ⟨hlen, hsorted, hrange⟩ := h
  unfold State.EditsOk State.distance
  rw [hf]
  exact ⟨hs.length_le.trans hlen, hsorted.sublist hs, fun e he => hrange e (hs.subset he)⟩

/-- A new entry takes an unused id (R107). -/
theorem State.EditIdsOk.schedule (h : s.EditIdsOk) (hroom : s.edits.length < 24) (p : Port) (f : Word)
    (act : TimedAction) : State.EditIdsOk
      { s with edits := s.insertEdit (s.newEdit p f act) s.edits, editCounter := nextId s.newEditId } := by
  obtain ⟨-, hnodup, hne, hcounter⟩ := h
  obtain ⟨hnew, hzero⟩ := s.newEditId_spec hroom hcounter
  have hperm := s.insertEdit_perm (s.newEdit p f act) s.edits
  refine ⟨by simpa [hperm.length_eq] using hroom, (hperm.map Edit.id).nodup_iff.2 ?_, fun x hx => ?_, nextId_ne_zero _⟩
  · exact List.nodup_cons.2 ⟨hnew, hnodup⟩
  · rcases List.mem_cons.1 (hperm.subset hx) with rfl | hx
    · exact hzero
    · exact hne x hx

theorem State.sorted_insertEdit (s : State) (e : Edit) {l : List Edit}
    (h : l.Pairwise fun x y => s.distance x.activation ≤ s.distance y.activation) :
    (s.insertEdit e l).Pairwise fun x y => s.distance x.activation ≤ s.distance y.activation := by
  induction l with
  | nil => simp [State.insertEdit]
  | cons x l ih =>
    obtain ⟨hx, hl⟩ := List.pairwise_cons.1 h
    unfold State.insertEdit
    split
    · rename_i hlt
      exact List.pairwise_cons.2 ⟨fun y hy => (List.mem_cons.1 hy).elim (fun he => he ▸ hlt.le)
        fun hy => hlt.le.trans (hx y hy), h⟩
    · rename_i hge
      exact List.pairwise_cons.2 ⟨fun y hy => (State.mem_insertEdit.1 hy).elim (fun he => he ▸ Nat.not_lt.1 hge) (hx y),
        ih hl⟩

/-- The entry inserted is in range, and the list stays nearest first (R109, R110). -/
theorem State.EditsOk.schedule (h : s.EditsOk) (hroom : s.edits.length < 24) (p : Port) {f : Word} (act : TimedAction)
    (hd : 1 ≤ s.distance f ∧ s.distance f ≤ 1048576) : State.EditsOk
      { s with edits := s.insertEdit (s.newEdit p f act) s.edits, editCounter := nextId s.newEditId } := by
  obtain ⟨-, hsorted, hrange⟩ := h
  have hperm := s.insertEdit_perm (s.newEdit p f act) s.edits
  refine ⟨by simpa [hperm.length_eq] using hroom, s.sorted_insertEdit _ hsorted, fun x hx => ?_⟩
  rcases State.mem_insertEdit.1 hx with rfl | hx
  · exact hd
  · exact hrange x hx

/-- With the frame counter one further, a frame that was ahead is one frame nearer. -/
theorem distance_next {f c : Word} (h : 1 ≤ (f - c).toNat) : (f - (c + 1)).toNat = (f - c).toNat - 1 := by
  bv_omega

/-- The entries that are not due at a frame end are 1 frame or more ahead after it (R105, R111). -/
theorem State.EditsOk.endFrame (h : s.EditsOk) : s.endFrame.EditsOk := by
  obtain ⟨hlen, hsorted, hrange⟩ := h
  have hsub := s.commit_edits_sublist
  have hall : (s.edits.dropWhile s.editDue).Sublist s.edits := List.dropWhile_sublist _
  have hedits : s.endFrame.edits = s.commit.edits := by simp [State.endFrame]
  have hcount : s.endFrame.frameCounter = s.frameCounter + 1 := by simp [State.endFrame, State.finishFrame]
  have hfar : ∀ e ∈ s.edits.dropWhile s.editDue, 2 ≤ s.distance e.activation := by
    intro e he
    have hge := (hrange e (hall.subset he)).1
    cases hd : s.edits.dropWhile s.editDue with
    | nil => rw [hd] at he; cases he
    | cons x l =>
      have hx : s.editDue x = false := by
        have := List.head?_dropWhile_not s.editDue s.edits
        rw [hd] at this
        simpa using this
      have hx2 : 2 ≤ s.distance x.activation := by
        have h1 := (hrange x (hall.subset (hd ▸ List.mem_cons_self))).1
        have hne : s.distance x.activation ≠ 1 := fun h1 => by
          rw [(s.editDue_iff x).2 h1] at hx
          cases hx
        omega
      rcases List.mem_cons.1 (hd ▸ he) with rfl | hl
      · exact hx2
      · exact hx2.trans ((List.pairwise_cons.1 (hd ▸ hsorted.sublist hall)).1 e hl)
  have hdist : ∀ e ∈ s.commit.edits, s.endFrame.distance e.activation = s.distance e.activation - 1 := by
    intro e he
    have h2 := hfar e (hsub.subset he)
    unfold State.distance at h2 ⊢
    rw [hcount]
    exact distance_next (by omega)
  refine ⟨?_, ?_, fun e he => ?_⟩
  · rw [hedits]
    exact (hsub.trans hall).length_le.trans hlen
  · rw [hedits]
    refine (hsorted.sublist (hsub.trans hall)).imp_of_mem fun {x y} hx hy hxy => ?_
    rw [hdist x hx, hdist y hy]
    omega
  · rw [hedits] at he
    have h2 := hfar e (hsub.subset he)
    have hle := (hrange e ((hsub.trans hall).subset he)).2
    rw [hdist e he]
    omega

/-- The list stays a part of itself under one counter, but for an entry that joins and for a frame end. -/
theorem keeps_of_edits {P : State → Prop}
    (hsub : ∀ s t : State, P s → t.edits.Sublist s.edits → t.editCounter = s.editCounter →
      t.frameCounter = s.frameCounter → P t)
    (hjoin : ∀ s p f act, P s → s.edits.length < 24 → 1 ≤ s.distance f ∧ s.distance f ≤ 1048576 →
      P { s with edits := s.insertEdit (s.newEdit p f act) s.edits, editCounter := nextId s.newEditId })
    (hend : ∀ s, P s → P s.endFrame) (hreset : ∀ s slots width, P (State.resetAll s slots width)) : Keeps P := by
  have same : ∀ s t : State, P s → t.edits = s.edits → t.editCounter = s.editCounter →
      t.frameCounter = s.frameCounter → P t := fun s t h he => hsub s t h (by rw [he])
  exact {
    queue := fun s _ h => same s _ h rfl rfl rfl
    link := fun s _ _ h _ _ _ => same s _ h rfl rfl rfl
    attach := fun s _ _ h _ => same s _ h rfl rfl rfl
    attention := fun s _ _ _ h _ => same s _ h rfl rfl rfl
    fetch := fun s _ _ h _ => same s _ h rfl rfl rfl
    detach := fun s p h _ => hsub s _ h (by simp [State.dropOwn]) (by simp) (by simp)
    renew := fun s _ _ _ _ _ h _ _ _ => same s _ h (by simp) (by simp) (by simp)
    release := fun s _ _ _ _ h _ _ _ => same s _ h (by simp) (by simp) (by simp)
    reserve := fun s _ _ _ h _ _ _ _ _ _ => same s _ h rfl rfl rfl
    cancel := fun s _ h => same s _ h rfl rfl rfl
    offer := fun s _ _ _ _ h _ _ _ _ _ _ _ _ => same s _ h (by simp) (by simp) (by simp)
    accept := fun s _ _ h _ _ _ _ => same s _ h (by simp) (by simp) (by simp)
    decline := fun s _ _ h _ => same s _ h (by simp) (by simp) (by simp)
    withdraw := fun s _ _ _ h _ => same s _ h (by simp) (by simp) (by simp)
    schedule := fun s p _ f act h _ _ h1 h2 hroom => hjoin s p f act h hroom ⟨h1, h2⟩
    unschedule := fun s _ h _ => hsub s _ h List.erase_sublist rfl rfl
    propose := fun s _ _ _ _ _ _ h _ _ _ => same s _ h (by simp) (by simp) (by simp)
    confirm := fun s _ _ _ h _ _ => same s _ h (by simp) (by simp) (by simp)
    fail := fun s _ _ _ _ h _ => same s _ h (by simp) (by simp) (by simp)
    frameEnd := fun s h _ => hend s h
    leaseEnd := fun s _ h _ _ => same s _ h (by simp) (by simp) (by simp)
    timedRelease := fun s _ _ _ h hl _ _ => hsub s _ h (by simp [hl]) (by simp) (by simp)
    timedRenew := fun s _ _ _ _ h hl _ _ => hsub s _ h (by simp [hl]) (by simp) (by simp)
    timedEnqueue := fun s _ _ _ h hl _ _ => hsub s _ h (by simp [hl]) (by simp) (by simp)
    planApplication := fun s terms h _ _ =>
      hsub s _ h (by simpa using s.applyPlan_edits_sublist terms) (by simp) (by simp)
    waitLapse := fun s h => same s _ h (by simp) (by simp) (by simp)
    offerLapse := fun s _ h _ _ => same s _ h (by simp) (by simp) (by simp)
    clockLoss := fun s h _ _ => same s _ h (by simp) (by simp) (by simp)
    stallGap := fun s h => same s _ h rfl rfl rfl
    recover := fun s h _ _ => same s _ h (by simp) (by simp) (by simp)
    edge := fun s h => same s _ h rfl rfl rfl
    countEdge := fun s h _ => same s _ h rfl rfl rfl
    reset := fun s slots width _ _ => hreset s slots width
    resetPin := fun s h => same s _ h rfl rfl rfl
    edgeBegins := fun s h => same s _ h rfl rfl rfl
    leadIn := fun s h _ => same s _ h rfl rfl rfl
    beginFrame := fun s h _ => same s _ h rfl rfl rfl
    beginBit := fun s _ h _ _ => same s _ h rfl rfl rfl
    timer := fun s h _ => same s _ h rfl rfl rfl
    phase := fun s h _ => same s _ h rfl rfl rfl }

theorem keeps_editsOk : Keeps State.EditsOk :=
  keeps_of_edits (fun _ _ h hs _ hf => h.sublist hs hf) (fun _ p _ act h hroom hd => h.schedule hroom p act hd)
    (fun _ h => h.endFrame) fun _ _ _ => ⟨Nat.zero_le _, List.Pairwise.nil, List.forall_mem_nil _⟩

theorem keeps_editIdsOk : Keeps State.EditIdsOk :=
  keeps_of_edits (fun _ _ h hs hc _ => h.sublist hs hc) (fun _ p f act h hroom _ => h.schedule hroom p f act)
    (fun s h => h.sublist (by simpa [State.endFrame] using s.commit_edits_sublist.trans (List.dropWhile_sublist _))
      (by simp [State.endFrame]))
    fun _ _ _ => ⟨Nat.zero_le _, List.nodup_nil, List.forall_mem_nil _, show (1 : Byte) ≠ 0 by decide⟩

end

/-- Settles O55: the five laws, each kept by each thing a step does. -/
theorem everyStepKeepsTheQueues : Obligations.EveryStepKeepsTheQueues :=
  ⟨fun _ _ h e => h.step e, fun _ _ h e => keeps_editsOk.step h e, fun _ _ h e => keeps_noticesOk.step h e,
    fun _ _ h e => keeps_offerIdsOk.step h e, fun _ _ h e => keeps_editIdsOk.step h e⟩

end Sys2Proof.Machine
end

section
/-! SUPPORT. The proof of the statement about the plan and the Frame Generator. -/

-- One proof after another: many at once take more memory than the check allows.
set_option Elab.async false

namespace Sys2Proof.Machine

open Sys2Proof

/-- The laws of the plan and the Frame Generator, with the law of the beacon word when `B` holds. -/
def State.FrameOk (B : Prop) (s : State) : Prop := s.TimingOk ∧ (B → s.BeaconOk)

/-- What these laws read besides the proposal. -/
def State.frameSide (s : State) : Geometry × Plan × FrameState × Nat × Nat × Nat × List Byte :=
  (s.geometry, s.plan, s.frame, s.edgeTimer, s.recoveryCount, s.clockPhase, s.beacon)

theorem SlotWidth.bits_pos (w : SlotWidth) : 0 < w.bits := by cases w <;> decide

theorem Geometry.bitPeriod_pos (g : Geometry) : 0 < g.bitPeriod := Nat.mul_pos (by decide) (Nat.succ_pos _)

/-- The beacon word fills slot 0 (R42). -/
theorem State.length_beaconWord (s : State) : s.beaconWord.length * 8 = s.geometry.width.bits := by
  unfold State.beaconWord
  dsimp only
  split <;> rw [‹s.geometry.width = _›] <;> rfl

section

variable {B : Prop} {s t : State}

theorem State.FrameOk.with_proposal (h : s.FrameOk B) (e : t.frameSide = s.frameSide) (hp : t.proposal.Ok) :
    t.FrameOk B := by
  obtain ⟨⟨hg, hplan, -, hframe, hedge, hrec, hphase⟩, hb⟩ := h
  simp only [State.frameSide, Prod.mk.injEq] at e
  obtain ⟨e1, e2, e3, e4, e5, e6, e7⟩ := e
  unfold State.FrameOk State.TimingOk State.BeaconOk
  rw [e1, e2, e3, e4, e5, e6, e7]
  exact ⟨⟨hg, hplan, hp, hframe, hedge, hrec, hphase⟩, hb⟩

theorem State.FrameOk.same (h : s.FrameOk B) (e : t.frameSide = s.frameSide) (hp : t.proposal = s.proposal) :
    t.FrameOk B := h.with_proposal e (hp ▸ h.1.2.2.1)

theorem State.FrameOk.proposal (h : s.FrameOk B) : s.proposal.Ok := h.1.2.2.1

/-- Only the timers have moved, within their ranges. -/
theorem State.FrameOk.timers (h : s.FrameOk B) {a b c : Nat} (ha : a < 1024) (hb : b ≤ 16)
    (hc : c < s.geometry.bitPeriod) :
    State.FrameOk B { s with edgeTimer := a, recoveryCount := b, clockPhase := c } := by
  obtain ⟨⟨hg, hplan, hprop, hframe, -, -, -⟩, hbeacon⟩ := h
  exact ⟨⟨hg, hplan, hprop, hframe, ha, hb, hc⟩, hbeacon⟩

theorem State.FrameOk.edgeTimer_lt (h : s.FrameOk B) : s.edgeTimer < 1024 := h.1.2.2.2.2.1

theorem State.FrameOk.recoveryCount_le (h : s.FrameOk B) : s.recoveryCount ≤ 16 := h.1.2.2.2.2.2.1

theorem State.FrameOk.clockPhase_lt (h : s.FrameOk B) : s.clockPhase < s.geometry.bitPeriod := h.1.2.2.2.2.2.2

/-- A new frame state in range, with a beacon word as `BeaconOk` has it. -/
theorem State.FrameOk.frame (h : s.FrameOk B) {f : FrameState} {l : List Byte} (hf : f.Ok s.geometry)
    (hl : B → State.BeaconOk { s with frame := f, beacon := l }) :
    State.FrameOk B { s with frame := f, beacon := l } := by
  obtain ⟨⟨hg, hplan, hprop, -, hedge, hrec, hphase⟩, -⟩ := h
  exact ⟨⟨hg, hplan, hprop, hf, hedge, hrec, hphase⟩, hl⟩

theorem State.FrameOk.frameBits_pos (h : s.FrameOk B) : 0 < s.geometry.frameBits := by
  obtain ⟨hg, hplan, -⟩ := h.1
  have := PlanTerms.frameBits_ge hplan
  rw [hg]
  omega

theorem State.FrameOk.beginFrame (h : s.FrameOk B) : s.beginFrame.FrameOk B := by
  refine h.frame h.frameBits_pos fun _ => ?_
  show if 0 < s.geometry.width.bits then s.beaconWord.length * 8 = s.geometry.width.bits else s.beaconWord = []
  rw [if_pos (SlotWidth.bits_pos _)]
  exact s.length_beaconWord

/-- The geometry of a plan in range loaded (R28, R29, R39). -/
theorem State.loadGeometry_frameOk (hplan : s.plan.terms.Ok) (hprop : s.proposal.Ok) (hrec : s.recoveryCount ≤ 16) :
    s.loadGeometry.FrameOk B := by
  have hpos : 0 < s.plan.terms.geometry.frameBits := by
    have := PlanTerms.frameBits_ge hplan
    omega
  have hfields : s.loadGeometry.geometry = s.plan.terms.geometry ∧ s.loadGeometry.plan = s.plan
      ∧ s.loadGeometry.proposal = s.proposal ∧ s.loadGeometry.edgeTimer = 0 ∧ s.loadGeometry.clockPhase = 0 := by simp
  obtain ⟨e1, e2, e3, e4, e5⟩ := hfields
  have hlen := s.loadGeometry.length_beaconWord
  rw [e1] at hlen
  unfold State.FrameOk State.TimingOk State.BeaconOk
  rw [e1, e2, e3, e4, e5]
  rcases s.loadGeometry_cases with ⟨-, hx, hf, hr, hb⟩ | ⟨-, hf, hr, hb⟩ <;> rw [hf, hr, hb]
  · exact ⟨⟨rfl, hplan, hprop, ⟨by decide, hx⟩, by decide, by decide, Geometry.bitPeriod_pos _⟩, fun _ => rfl⟩
  · refine ⟨⟨rfl, hplan, hprop, hpos, by decide, hrec, Geometry.bitPeriod_pos _⟩, fun _ => ?_⟩
    dsimp only
    rw [if_pos (SlotWidth.bits_pos _)]
    exact hlen

/-- Commit step 5 puts a plan in range in use and leaves no proposal (R130, R131). -/
theorem State.commit_plan_ok (hplan : s.plan.terms.Ok) (hprop : s.proposal.Ok) :
    s.commit.plan.terms.Ok ∧ s.commit.proposal.Ok := by
  refine s.commit_induction (fun t => t.plan.terms.Ok ∧ t.proposal.Ok) ?_ ?_ ?_ ?_ ?_ ?_ ?_ ?_ ?_
  · exact ⟨by simpa using hplan, State.countDeadline_proposal_ok (by simpa using hprop)⟩
  · simp
  · simp
  · simp
  · simp
  · rintro t ⟨h1, h2⟩
    unfold State.commitPlan
    split
    · rename_i terms hd
      simp only [State.applyPlan_plan, State.applyPlan_proposal]
      exact ⟨State.dueTerms_ok h2 hd, trivial⟩
    · exact ⟨h1, h2⟩
  · simp
  · simp
  · simp

theorem State.FrameOk.endFrame (h : s.FrameOk B) : s.endFrame.FrameOk B := by
  obtain ⟨-, hplan, hprop, -⟩ := h.1
  obtain ⟨hplan', hprop'⟩ := State.commit_plan_ok hplan hprop
  exact State.loadGeometry_frameOk hplan' hprop' (by simpa using h.recoveryCount_le)

theorem State.FrameOk.reset (s : State) {slots : Nat} (width : SlotWidth) (h : ∃ a b, slots = strapSlots a b) :
    (s.resetAll slots width).FrameOk B := by
  have hS : 4 ≤ slots ∧ slots ≤ 64 := by
    obtain ⟨a, b, rfl⟩ := h
    cases a <;> cases b <;> decide
  refine ⟨⟨rfl, ⟨hS.1, hS.2, fun p => ?_⟩, trivial, trivial, show 0 < 1024 by decide, Nat.zero_le 16, ?_⟩, fun _ => rfl⟩
  · exact (PerPort.get_all 63 p).le
  · show 16 < 2 * ((15 : Byte).toNat + 1)
    decide

theorem State.FrameOk.loseClock (h : s.FrameOk B) (hx : s.geometry.source = .external) : s.loseClock.FrameOk B :=
  ((h.timers (a := 0) (b := 0) (by decide) (by decide) h.clockPhase_lt).frame
    (f := .stalled .lost s.slotIndex) (l := []) ⟨State.slotIndex_lt h.1, hx⟩ fun _ => rfl).same
    (by simp [State.loseClock, State.frameSide]) (by simp)

theorem State.FrameOk.recover (h : s.FrameOk B) (hr : s.frame.isRunning = false) : s.recover.FrameOk B := by
  obtain ⟨cause, k, hf⟩ : ∃ cause k, s.frame = .stalled cause k := by
    cases hf : s.frame with
    | running pos => rw [hf] at hr; cases hr
    | stalled cause k => exact ⟨cause, k, rfl⟩
  have hbeacon (b : B) : s.beacon = [] := by
    have := h.2 b
    rwa [State.BeaconOk, hf] at this
  refine ((h.timers (a := 0) (b := 16) (by decide) (by decide) h.clockPhase_lt).frame
    (f := .running .leadInWait) (l := s.beacon) trivial hbeacon).same ?_ (by simp)
  rw [State.recover, hf]
  cases cause <;> simp [State.frameSide, recoveryEdges]

theorem State.FrameOk.beginBit (h : s.FrameOk B) {n : Nat} (hf : s.frame = .running (.bit n))
    (hn : n + 1 < s.geometry.frameBits) : (s.beginBit (n + 1)).FrameOk B := by
  refine h.frame (f := .running (.bit (n + 1))) hn fun b => ?_
  show if n + 1 < s.geometry.width.bits then
    (if n + 1 < s.geometry.width.bits then s.beacon else []).length * 8 = s.geometry.width.bits
    else (if n + 1 < s.geometry.width.bits then s.beacon else []) = []
  split
  · have := h.2 b
    rw [State.BeaconOk, hf] at this
    exact (if_pos (by omega)).mp this
  · rfl

end

theorem keeps_frameOk (B : Prop) : Keeps (State.FrameOk B) where
  queue _ _ h := h.same rfl rfl
  link _ _ _ h _ _ _ := h.same rfl rfl
  attach _ _ _ h _ := h.same rfl rfl
  attention _ _ _ _ h _ := h.same rfl rfl
  fetch _ _ _ h _ := h.same rfl rfl
  detach s p h _ := h.with_proposal (by simp [State.frameSide]) (State.leaveProposal_ok (by simpa using h.proposal) p)
  renew _ _ _ _ _ _ h _ _ _ := h.same (by simp [State.frameSide]) (by simp)
  release _ _ _ _ _ h _ _ _ := h.same (by simp [State.frameSide]) (by simp)
  reserve _ _ _ _ h _ _ _ _ _ _ := h.same rfl rfl
  cancel _ _ h := h.same rfl rfl
  offer _ _ _ _ _ h _ _ _ _ _ _ _ _ := h.same (by simp [State.frameSide]) (by simp)
  accept _ _ _ h _ _ _ _ := h.same (by simp [State.frameSide]) (by simp)
  decline _ _ _ h _ := h.same (by simp [State.frameSide]) (by simp)
  withdraw _ _ _ _ h _ := h.same (by simp [State.frameSide]) (by simp)
  schedule _ _ _ _ _ h _ _ _ _ _ := h.same rfl rfl
  unschedule _ _ h _ := h.same rfl rfl
  propose s p _ terms d ps n h hp hl _ := by
    have hprop : ((s.judgeProposal (s.newProposal p terms) d).notifyAll ps n).proposal
      = (s.judgeProposal (s.newProposal p terms) d).proposal := by simp
    exact h.with_proposal (by simp [State.frameSide]) (hprop ▸ s.newProposal_ok hp hl)
  confirm _ _ _ _ h hpr hp := h.with_proposal (by simp [State.frameSide]) (State.confirm_ok h.proposal hpr hp)
  fail _ _ _ _ _ h _ := h.with_proposal (by simp [State.frameSide]) (by rw [State.failProposal_proposal]; trivial)
  frameEnd _ h _ := h.endFrame
  leaseEnd _ _ h _ _ := h.same (by simp [State.frameSide]) (by simp)
  timedRelease _ _ _ _ h _ _ _ := h.same (by simp [State.frameSide]) (by simp)
  timedRenew _ _ _ _ _ h _ _ _ := h.same (by simp [State.frameSide]) (by simp)
  timedEnqueue _ _ _ _ h _ _ _ := h.same (by simp [State.frameSide]) (by simp)
  planApplication s terms h _ hd := by
    refine State.loadGeometry_frameOk ?_ ?_ (by simpa using h.recoveryCount_le)
    · simpa using State.dueTerms_ok h.proposal hd
    · have hnone : (s.applyPlan terms).publishRevoked.proposal = .none := by simp
      rw [hnone]
      trivial
  waitLapse _ h := h.same (by simp [State.frameSide]) (by simp)
  offerLapse _ _ h _ _ := h.same (by simp [State.frameSide]) (by simp)
  clockLoss _ h _ hx := h.loseClock hx
  stallGap _ h := h.timers (by decide) (by decide) h.clockPhase_lt
  recover _ h hr _ := h.recover hr
  edge _ h := h.timers (by decide) h.recoveryCount_le h.clockPhase_lt
  countEdge _ h hn := h.timers (by decide) hn.le h.clockPhase_lt
  reset s _ width _ h := .reset s width h
  resetPin _ h := h.same rfl rfl
  edgeBegins _ h := h.timers (by decide) h.recoveryCount_le (Geometry.bitPeriod_pos _)
  leadIn s h hf := h.frame (f := .running .leadIn) (l := s.beacon) trivial fun b => by
    have := h.2 b
    rwa [State.BeaconOk, hf] at this
  beginFrame _ h _ := h.beginFrame
  beginBit _ _ h hf hn := h.beginBit hf hn
  timer _ h hn := h.timers hn h.recoveryCount_le h.clockPhase_lt
  phase _ h hn := h.timers h.edgeTimer_lt h.recoveryCount_le hn

/-- Settles O56: each thing a step does keeps the laws of the Frame Generator, and those of the beacon word where they
hold. -/
theorem everyStepKeepsTheTiming : Obligations.EveryStepKeepsTheTiming := fun s _ h e =>
  (keeps_frameOk s.BeaconOk).step ⟨h, id⟩ e

end Sys2Proof.Machine
end

section
/-! SUPPORT. The proofs of the statements about quotas and about how a port joins a slot: what one command does to the
parties of the entries (`exec_joins`), and where the parties after a frame end come from. -/

-- One proof after another: many at once take more memory than the check allows.
set_option Elab.async false

namespace Sys2Proof.Machine

open Sys2Proof

/-! ### One command -/

/-- No port is a party to an entry of either table of `t` that it was none to in `s`. -/
def State.NoneJoins (s t : State) : Prop :=
  (∀ n, ∀ p ∈ (entryAt t.staged n).parties, p ∈ (entryAt s.staged n).parties)
    ∧ ∀ n, ∀ p ∈ (entryAt t.active n).parties, p ∈ (entryAt s.active n).parties

theorem State.NoneJoins.of_same {s t : State} (hs : t.staged = s.staged) (ha : t.active = s.active) : s.NoneJoins t :=
  ⟨fun n p hp => by rwa [hs] at hp, fun n p hp => by rwa [ha] at hp⟩

theorem State.Wanes.noneJoins {s t : State} (h : s.Wanes t) (ha : t.active = s.active) : s.NoneJoins t :=
  ⟨fun n => (h n).parties, fun n p hp => by rwa [ha] at hp⟩

theorem State.NoneJoins.detach (s : State) (p : Port) :
    s.NoneJoins
      (((((s.detachPort p).giveUpSlots p .detached (s.ownSlots p)).dropTargetOffers p).dropOwn p).leaveProposal p).1 := by
  refine State.Wanes.noneJoins ?_ (by simp)
  exact (State.Ages.giveUpSlots (s.detachPort p) p .detached (s.ownSlots p)).wanes.trans (.of_staged (by simp))

/-- A request that is judged OK brings no port to a slot, unless it is an ACCEPT (R91, R92). -/
theorem RequestCode.judge_joins {r : RequestCode} {p : Port} {l : List Byte} {s t : State} {body : List Byte}
    (h : r.judge p l s = .ok t body) :
    s.NoneJoins t ∨ (r = .accept ∧ ∃ o ∈ s.offers, l = [o.id] ∧ o.target = p ∧ s.holdingCount p + 1 ≤ s.quota p
      ∧ t = s.acceptOffer o) := by
  cases r with
  | attach => obtain ⟨_, x, _, rfl, _⟩ := judgeAttach_ok h; exact .inl (.of_same rfl rfl)
  | detach => obtain ⟨_, _, rfl⟩ := judgeDetach_ok h; exact .inl (.detach s p)
  | poll => obtain rfl := judgePoll_ok h; exact .inl (.of_same rfl rfl)
  | snapshot => obtain rfl := judgeSnapshot_ok h; exact .inl (.of_same rfl rfl)
  | readSlot => obtain rfl := judgeReadSlot_ok h; exact .inl (.of_same rfl rfl)
  | readMap => obtain rfl := judgeReadMap_ok h; exact .inl (.of_same rfl rfl)
  | holdings => obtain rfl := judgeHoldings_ok h; exact .inl (.of_same rfl rfl)
  | readRequests => obtain rfl := judgeReadRequests_ok h; exact .inl (.of_same rfl rfl)
  | readEdits => obtain rfl := judgeReadEdits_ok h; exact .inl (.of_same rfl rfl)
  | readPlan => obtain rfl := judgeReadPlan_ok h; exact .inl (.of_same rfl rfl)
  | renew =>
    obtain ⟨_, _, lease, n, ns, _, _, rfl, _⟩ := judgeRenew_ok h
    refine .inl ⟨fun m q hq => ?_, fun m q hq => by simpa using hq⟩
    rwa [(s.setRenewal_entry lease (n :: ns) m).1] at hq
  | release =>
    obtain ⟨_, _, n, ns, _, _, rfl, _⟩ := judgeRelease_ok h
    exact .inl ((State.Ages.giveUpSlots s p .released (n :: ns)).wanes.noneJoins (by simp))
  | reserve => obtain ⟨_, r, _, _, _, _, _, rfl, _⟩ := judgeReserve_ok h; exact .inl (.of_same rfl rfl)
  | cancel => obtain ⟨_, _, _, r, _, _, rfl, _⟩ := judgeCancel_ok h; exact .inl (.of_same rfl rfl)
  | offer => obtain ⟨_, f, _, _, _, _, _, _, _, rfl, _⟩ := judgeOffer_ok h; exact .inl (.of_same (by simp) (by simp))
  | accept =>
    obtain ⟨_, i, o, hl, ho, ht, hq, rfl, _⟩ := judgeAccept_ok h
    have hid : o.id = i := by simpa using List.find?_some ho
    exact .inr ⟨rfl, o, List.mem_of_find?_eq_some ho, hid ▸ (readName_eq_some_iff.1 hl).2, ht, hq, rfl⟩
  | decline => obtain ⟨_, _, o, _, _, _, rfl, _⟩ := judgeDecline_ok h; exact .inl (.of_same (by simp) (by simp))
  | withdraw => obtain ⟨_, _, o, _, _, _, rfl, _⟩ := judgeWithdraw_ok h; exact .inl (.of_same (by simp) (by simp))
  | schedule => obtain ⟨_, f, act, _, _, _, _, rfl, _⟩ := judgeSchedule_ok h; exact .inl (.of_same rfl rfl)
  | unschedule => obtain ⟨_, _, e, _, _, rfl, _⟩ := judgeUnschedule_ok h; exact .inl (.of_same rfl rfl)
  | propose =>
    obtain ⟨_, terms, d, _, _, rfl, _⟩ := judgePropose_ok h
    split <;> exact .inl (.of_same (by simp) (by simp))
  | confirm =>
    obtain ⟨_, _, pr, d, _, _, ⟨_, rfl⟩ | ⟨_, rfl⟩⟩ := judgeConfirm_ok h
    · exact .inl (.of_same rfl rfl)
    · exact .inl (.of_same (by simp) (by simp))
  | reject => obtain ⟨_, _, pr, _, _, _, rfl, _⟩ := judgeReject_ok h; exact .inl (.of_same (by simp) (by simp))
  | fetch => obtain ⟨_, _, n, _, _, rfl, _⟩ := judgeFetch_ok h; exact .inl (.of_same rfl rfl)
  | attention => obtain ⟨x, m, _, _, rfl, _⟩ := judgeAttention_ok h; exact .inl (.of_same rfl rfl)

/-- `t` has the tables and the plan of an acceptance of one of the offers of `s` by port `p`, within its quota. -/
def State.Accepted (s t : State) (p : Port) (o : Offer) : Prop :=
  o ∈ s.offers ∧ o.target = p ∧ s.holdingCount p + 1 ≤ s.quota p ∧ t.staged = (s.acceptOffer o).staged
    ∧ t.active = s.active ∧ t.plan = s.plan

/-- `t` is the frame end of `s`, the timers of `s` aside. -/
def State.Ended (s t : State) : Prop := t = s.endFrame ∨ t = State.endFrame { s with edgeTimer := 0, clockPhase := 0 }

/-- What the command did to the parties of the entries: nobody joined, an ACCEPT, or a frame end. -/
def Joins (c : Instr) (s t : State) : Prop :=
  s.NoneJoins t ∨ (∃ p o, c = .accept p [o.id] ∧ s.Accepted t p o) ∨ ((c = .frameEnd ∨ c = .bitTimeBegins) ∧ s.Ended t)

theorem Joins.of_same {c : Instr} {s t : State} (hs : t.staged = s.staged) (ha : t.active = s.active) : Joins c s t :=
  .inl (.of_same hs ha)

theorem Joins.command (r : RequestCode) (p : Port) (l : List Byte) (s : State) :
    ∃ t, exec (r.command p l) s = .next t ∧ Joins (r.command p l) s t := by
  refine ⟨_, exec_command r p l s, ?_⟩
  rcases s.takeRequest_cases p r l (r.judge p l) with e | e | ⟨-, e⟩ <;> rw [e]
  · exact .of_same rfl rfl
  · exact .of_same rfl rfl
  · cases hj : r.judge p l (s.deselect p) with
    | refuse code body => exact .of_same rfl rfl
    | ok t body =>
      rw [State.settle_ok]
      rcases RequestCode.judge_joins hj with h | ⟨rfl, o, ho, rfl, ht, hq, rfl⟩
      · exact .inl h
      · refine .inr (.inl ⟨p, o, rfl, ho, ht, hq, ?_, by simp, by simp⟩)
        rw [(State.reply_fields _ _ _ _).2.2.2.1]
        exact Table.eq_of_entryAt fun n _ => by rw [State.entryAt_acceptOffer, State.entryAt_acceptOffer]; rfl

theorem eq_command_of_requestOf {c : Instr} {p : Port} {r : RequestCode} {l : List Byte}
    (h : requestOf c = some (p, r, l)) : c = r.command p l := by
  cases c <;> cases h <;> rfl

theorem Joins.of_request {c : Instr} {p : Port} {r : RequestCode} {l : List Byte} {s : State}
    (h : requestOf c = some (p, r, l)) : ∃ t, exec c s = .next t ∧ Joins c s t :=
  eq_command_of_requestOf h ▸ Joins.command r p l s

theorem State.endTransaction_noneJoins (s : State) (p : Port) (bytes : List Byte) {act : State → State}
    (h : ∀ u, s.NoneJoins u → s.NoneJoins (act u)) : s.NoneJoins (s.endTransaction p bytes act) := by
  rcases s.endTransaction_cases p bytes act with e | e | ⟨-, e⟩ <;> rw [e]
  · exact .of_same rfl rfl
  · exact .of_same rfl rfl
  · exact h _ (.of_same rfl rfl)

theorem State.NoneJoins.planApplication (s : State) (terms : PlanTerms) :
    s.NoneJoins (s.applyPlan terms).publishRevoked.loadGeometry := by
  refine ⟨fun n p hp => (State.Wanes.applyPlan s terms n).parties p (by simpa using hp), fun n p hp => ?_⟩
  have : (s.applyPlan terms).publishRevoked.loadGeometry.active = (s.applyPlan terms).activeWithin := by simp
  rw [this, State.entryAt_activeWithin] at hp
  split at hp
  · cases hp
  · simpa using hp

theorem Table.parties_atReset (n : Nat) : (entryAt Table.atReset n).parties = [] := by
  by_cases hn : n < 64
  · by_cases h0 : n = 0
    · subst h0; rfl
    · rw [Table.entryAt_atReset (by omega) hn]; rfl
  · rw [entryAt_of_le _ (Nat.not_lt.1 hn)]; rfl

/-- After reset nobody holds or shares a slot. -/
theorem State.NoneJoins.of_reset {s t : State} (hs : t.staged = Table.atReset) (ha : t.active = Table.atReset) :
    s.NoneJoins t := by
  refine ⟨fun n p hp => ?_, fun n p hp => ?_⟩
  · rw [hs, Table.parties_atReset] at hp
    cases hp
  · rw [ha, Table.parties_atReset] at hp
    cases hp

theorem State.risingEdge_joins (s : State) : Joins .bitTimeBegins s s.risingEdge := by
  unfold State.risingEdge
  split
  · exact .of_same rfl rfl
  · unfold State.nextBit
    split
    · exact .of_same rfl rfl
    · exact .of_same rfl rfl
    · split
      · exact .of_same rfl rfl
      · exact .inr (.inr ⟨.inr rfl, .inr rfl⟩)

/-- Every command completes, and brings a port to a slot by an ACCEPT or a frame end alone. -/
theorem exec_joins (c : Instr) (s : State) : ∃ t, exec c s = .next t ∧ Joins c s t := by
  cases c with
  | attach p l | detach p l | poll p l | snapshot p l | readSlot p l | readMap p l | renew p l | release p l
  | holdings p l | reserve p l | cancel p l | readRequests p l | offer p l | accept p l | decline p l
  | withdraw p l | schedule p l | unschedule p l | readEdits p l | propose p l | confirm p l | reject p l
  | readPlan p l | fetch p l | attention p l => exact Joins.of_request rfl
  | csAsserted p => exact ⟨_, rfl, by split <;> exact .of_same rfl rfl⟩
  | byteReceived p b => exact ⟨_, rfl, .of_same rfl rfl⟩
  | transactionIgnored p => exact ⟨_, rfl, .inl (s.endTransaction_noneJoins p _ fun _ h => h)⟩
  | noneTransaction p l => exact ⟨_, rfl, .inl (s.endTransaction_noneJoins p _ fun _ h => h)⟩
  | transactionRefused p bytes cut =>
    refine ⟨_, rfl, ?_⟩
    split
    · split
      · exact .inl (s.endTransaction_noneJoins p _ fun _ h => h)
      · exact .of_same rfl rfl
    · exact .of_same rfl rfl
  | frameEnd =>
    refine ⟨_, rfl, ?_⟩
    split
    · exact .inr (.inr ⟨.inl rfl, .inl rfl⟩)
    · exact .of_same rfl rfl
  | leaseEnd n =>
    refine ⟨_, rfl, ?_⟩
    split
    · exact .inl ((State.Ages.endLease s n).wanes.noneJoins (by simp))
    · exact .of_same rfl rfl
  | timedRelease =>
    refine ⟨_, rfl, ?_⟩
    split
    · exact .inl ((State.Ages.applyRelease { s with edits := s.edits.tail } _ _).wanes.noneJoins (by simp))
    all_goals exact .of_same rfl rfl
  | timedRenew =>
    refine ⟨_, rfl, ?_⟩
    split
    · exact .inl ((State.Ages.applyRenew { s with edits := s.edits.tail } _ _ _).wanes.noneJoins (by simp))
    all_goals exact .of_same rfl rfl
  | timedEnqueue =>
    refine ⟨_, rfl, ?_⟩
    split
    · exact .of_same (by simp) (by simp)
    all_goals exact .of_same rfl rfl
  | planApplication =>
    refine ⟨_, rfl, ?_⟩
    split
    · split
      · exact .inl (.planApplication s _)
      · exact .of_same rfl rfl
    · exact .of_same rfl rfl
  | waitLapse => exact ⟨_, rfl, by split <;> exact .of_same (by simp) (by simp)⟩
  | offerLapse i =>
    refine ⟨_, rfl, ?_⟩
    split
    · exact .of_same rfl rfl
    · split <;> exact .of_same (by simp) (by simp)
  | proposalLapse =>
    refine ⟨_, rfl, ?_⟩
    split
    · split <;> exact .of_same (by simp) (by simp)
    · exact .of_same rfl rfl
  | clockLoss => exact ⟨_, rfl, by split <;> exact .of_same (by simp) (by simp)⟩
  | stallGap => exact ⟨_, rfl, by split <;> exact .of_same rfl rfl⟩
  | clockRecovery => exact ⟨_, rfl, by split <;> exact .of_same (by simp) (by simp)⟩
  | bclkEdge =>
    refine ⟨_, rfl, ?_⟩
    split
    · unfold State.clockEdge
      split
      · exact .of_same rfl rfl
      · split
        · exact .of_same rfl rfl
        · exact .of_same (by simp) (by simp)
    · exact .of_same rfl rfl
  | bitTimeBegins =>
    refine ⟨_, rfl, ?_⟩
    split
    · exact s.risingEdge_joins
    · exact .of_same rfl rfl
  | resetAsserted => exact ⟨_, rfl, .inl (.of_reset rfl rfl)⟩
  | resetNegated a b c d =>
    refine ⟨_, rfl, ?_⟩
    split
    · exact .inl (.of_reset rfl rfl)
    · exact .of_same rfl rfl

end Sys2Proof.Machine
end

section
/-! SUPPORT. The proofs of the statements about quotas and about how a port joins a slot, the frame end included. -/

-- One proof after another: many at once take more memory than the check allows.
set_option Elab.async false

namespace Sys2Proof.Machine

open Sys2Proof

/-! ### Holding counts (R15) -/

theorem State.mem_ownSlots {s : State} {p : Port} {n : Nat} :
    n ∈ s.ownSlots p ↔ n < 64 ∧ p ∈ (entryAt s.staged n).parties := by
  rw [State.ownSlots, List.mem_filter, mem_slotNumbers, Entry.names_iff]

/-- A port that holds or shares no slots but its old ones and those of `l` has at most so many more. -/
theorem State.holdingCount_le {s t : State} {p : Port} (l : List Nat)
    (h : ∀ n, p ∈ (entryAt t.staged n).parties → p ∈ (entryAt s.staged n).parties ∨ n ∈ l) :
    t.holdingCount p ≤ s.holdingCount p + l.length := by
  rw [State.holdingCount_eq_length, State.holdingCount_eq_length, ← List.length_append]
  refine ((slotNumbers_nodup.filter _).subperm fun n hn => ?_).length_le
  obtain ⟨h64, hp⟩ := State.mem_ownSlots.1 hn
  exact List.mem_append.2 ((h n hp).imp_left fun hs => State.mem_ownSlots.2 ⟨h64, hs⟩)

theorem State.holdingCount_mono {s t : State} {p : Port}
    (h : ∀ n, p ∈ (entryAt t.staged n).parties → p ∈ (entryAt s.staged n).parties) :
    t.holdingCount p ≤ s.holdingCount p := by
  simpa using State.holdingCount_le [] fun n hp => .inl (h n hp)

/-- An acceptance names its target and nobody else anew (R92). -/
theorem Entry.accepted_parties {e : Entry} {o : Offer} {q : Port} (h : q ∈ (e.accepted o).parties) :
    q = o.target ∨ q ∈ e.parties := by
  cases e with
  | held g x => cases hk : o.kind <;> simp_all [Entry.accepted, Entry.parties, or_comm]
  | shared ms dr x =>
    cases hk : o.kind with
    | share => simpa [Entry.accepted, hk, Entry.parties, or_comm] using h
    | handover =>
      simp only [Entry.accepted, hk, Entry.parties, List.mem_map] at h
      obtain ⟨m, hm, rfl⟩ := h
      split
      · exact .inl rfl
      · exact .inr hm
  | _ => exact .inr h

theorem State.acceptOffer_parties {s : State} {o : Offer} {n : Nat} {q : Port}
    (h : q ∈ (entryAt (s.acceptOffer o).staged n).parties) :
    q ∈ (entryAt s.staged n).parties ∨ (n = o.slot ∧ q = o.target) := by
  rw [State.entryAt_acceptOffer] at h
  split at h
  · rename_i hn
    rw [hn.1]
    exact (Entry.accepted_parties h).symm.imp_right fun hq => ⟨rfl, hq⟩
  · exact .inl h

/-- The slots found are as many as the record asks for (R68). -/
theorem State.findSlots_length {s : State} {r : Reservation} {l : List Nat} (h : s.findSlots r = some l) (hr : r.Ok) :
    l.length = r.count := by
  obtain ⟨-, -, -, -, -, hpl⟩ := hr
  unfold State.findSlots at h
  split at h
  · obtain ⟨hlen, hl⟩ := Option.ite_none_right_eq_some.1 h
    cases hl
    exact hlen
  · obtain ⟨n, -, rfl⟩ := Option.map_eq_some_iff.1 h
    simp [runFrom]
  · rename_i slots hlist
    obtain ⟨-, hl⟩ := Option.ite_none_right_eq_some.1 h
    cases hl
    rw [hlist] at hpl
    exact hpl.1

/-! ### The quota at a frame end (R64, R76) -/

/-- One visit of the allocator takes no port above its quota (R76). -/
theorem State.visit_quota {s : State} {r : Record} (hr : r.res.Ok) (p : Port) :
    (s.visit r).holdingCount p ≤ s.holdingCount p ∨ (s.visit r).holdingCount p ≤ s.quota p := by
  rcases s.visit_cases r with e | ⟨l, hfind, hquota, e⟩ <;> rw [e]
  · exact .inl le_rfl
  · have hparties : ∀ n, p ∈ (entryAt (s.grant r l).staged n).parties →
        p ∈ (entryAt s.staged n).parties ∨ (n ∈ l ∧ p = r.port) := by
      intro n hp
      rw [State.entryAt_grant] at hp
      split at hp
      · rename_i hn
        exact .inr ⟨hn.1, List.mem_singleton.1 hp⟩
      · exact .inl hp
    by_cases hp : p = r.port
    · subst hp
      refine .inr ((State.holdingCount_le l fun n hn => (hparties n hn).imp_right And.left).trans ?_)
      rwa [State.findSlots_length hfind hr]
    · exact .inl (State.holdingCount_mono fun n hn => (hparties n hn).resolve_right fun h => hp h.2)

theorem State.commitAllocator_quota {s : State} (h : ∀ r ∈ s.requests, r.res.Ok) (p : Port) :
    s.commitAllocator.holdingCount p ≤ s.holdingCount p ∨ s.commitAllocator.holdingCount p ≤ s.quota p := by
  have hstaged : s.commitAllocator.staged = s.visitAll.staged := by simp [State.commitAllocator]
  have hcount : s.commitAllocator.holdingCount p = s.visitAll.holdingCount p := by
    rw [State.holdingCount, State.holdingCount, hstaged]
  rw [hcount]
  refine (foldl_invariant _ (fun t => t.quota p = s.quota p
    ∧ (t.holdingCount p ≤ s.holdingCount p ∨ t.holdingCount p ≤ s.quota p)) _ s ⟨rfl, .inl le_rfl⟩ ?_).2
  rintro u r hr ⟨hq, hu⟩
  refine ⟨by simpa [State.quota] using hq, ?_⟩
  rcases State.visit_quota (s := u) (h r hr) p with hv | hv
  · exact hu.imp hv.trans hv.trans
  · exact .inr (hq ▸ hv)

/-- The holding count is that of the Staged table. -/
theorem State.holdingCount_of_staged {s t : State} (h : t.staged = s.staged) (p : Port) :
    t.holdingCount p = s.holdingCount p := by
  rw [State.holdingCount, State.holdingCount, h]

/-- A commit takes no port above its quota in the plan then in use (R64, R134). -/
theorem State.commit_quota {s : State} (h : s.RequestsOk) (p : Port) :
    s.commit.holdingCount p ≤ s.holdingCount p ∨ s.commit.holdingCount p ≤ s.commit.quota p := by
  have hok := (s.requestsOk_iff.1 h).2
  have mono (t u : State) (w : t.Wanes u) (ht : t.holdingCount p ≤ s.holdingCount p) :
      u.holdingCount p ≤ s.holdingCount p := (State.holdingCount_mono fun n => (w n).parties p).trans ht
  have same (t u : State) (hs : u.staged = t.staged) (hq : u.plan = t.plan)
      (ht : t.holdingCount p ≤ s.holdingCount p ∨ t.holdingCount p ≤ t.quota p) :
      u.holdingCount p ≤ s.holdingCount p ∨ u.holdingCount p ≤ u.quota p := by
    rwa [State.holdingCount_of_staged hs, State.quota, hq]
  refine s.commit_stages (fun i t => t.Queued (fun l => ∀ r ∈ l, r.res.Ok)
    ∧ (i < 6 → t.holdingCount p ≤ s.holdingCount p)
    ∧ (6 ≤ i → t.holdingCount p ≤ s.holdingCount p ∨ t.holdingCount p ≤ t.quota p)) ?_ ?_ ?_ ?_ ?_ ?_ ?_ ?_ ?_
    |>.2.2 (by omega)
  · exact ⟨hok.same (by simp) (by simp), fun _ => mono s _ (.of_staged (by simp)) le_rfl, by omega⟩
  · exact fun t ⟨hq, ht, _⟩ => ⟨hq.same (by simp) (by simp), fun _ => mono t _ (.commitCooling t) (ht (by omega)), by omega⟩
  · exact fun t ⟨hq, ht, _⟩ =>
      ⟨hq.same (by simp) (by simp), fun _ => mono t _ (State.Ages.commitLeases t).wanes (ht (by omega)), by omega⟩
  · exact fun t ⟨hq, ht, _⟩ =>
      ⟨hq.same (by simp) (by simp), fun _ => mono t _ (State.Ages.commitRotation t).wanes (ht (by omega)), by omega⟩
  · exact fun t ⟨hq, ht, _⟩ => ⟨hq.commitEdits queueLaw_reservationOk,
      fun _ => mono t _ (State.Ages.commitEdits t).wanes (ht (by omega)), by omega⟩
  · exact fun t ⟨hq, ht, _⟩ =>
      ⟨hq.commitPlan queueLaw_reservationOk, fun _ => mono t _ (.commitPlan t) (ht (by omega)), by omega⟩
  · intro t ⟨hq, ht, _⟩
    have hplan : t.commitAllocator.quota p = t.quota p := by simp [State.quota]
    exact ⟨hq.commitAllocator queueLaw_reservationOk, by omega, fun _ =>
      (State.commitAllocator_quota hq.1 p).imp (fun hle => hle.trans (ht (by omega))) fun hle => hplan ▸ hle⟩
  · exact fun t ⟨hq, _, ht⟩ =>
      ⟨hq.same (by simp) (by simp), by omega, fun _ => same t _ (by simp) (by simp) (ht (by omega))⟩
  · exact fun i t ns ⟨hq, ht, ht'⟩ => ⟨hq.same (by simp) (by simp), fun hi => mono t _ (.of_staged (by simp)) (ht hi),
      fun hi => same t _ (by simp) (by simp) (ht' hi)⟩

theorem State.endFrame_quota {s : State} (h : s.RequestsOk) (p : Port) :
    s.endFrame.holdingCount p ≤ s.holdingCount p ∨ s.endFrame.holdingCount p ≤ s.endFrame.quota p := by
  have hplan : s.endFrame.quota p = s.commit.quota p := by simp [State.quota, State.endFrame]
  rw [hplan, State.holdingCount_of_staged (s := s.commit) (t := s.endFrame) (by simp [State.endFrame])]
  exact State.commit_quota h p

/-- Settles O59: of the two ways in which a port joins a slot, an ACCEPT checks the quota of its port, and the allocator
that of each record it grants. -/
theorem noCommandExceedsAQuota : Obligations.NoCommandExceedsAQuota := by
  intro c s p h
  obtain ⟨t, e, hjoins⟩ := exec_joins c s
  refine ⟨t, e, ?_⟩
  rcases hjoins with hnone | ⟨q, o, -, ho, htarget, hquota, hstaged, -, hplan⟩ | ⟨-, rfl | rfl⟩
  · exact .inl (State.holdingCount_mono fun n => hnone.1 n p)
  · rw [State.holdingCount_of_staged hstaged]
    by_cases hp : p = o.target
    · refine .inr ((State.holdingCount_le (s := s) [o.slot] fun n hn => ?_).trans ?_)
      · exact (State.acceptOffer_parties hn).imp_right fun hslot => List.mem_singleton.2 hslot.1
      · rw [hplan]
        rwa [hp, htarget]
    · exact .inl (State.holdingCount_mono fun n hn => (State.acceptOffer_parties hn).resolve_right fun hc => hp hc.2)
  · exact State.endFrame_quota h p
  · exact State.endFrame_quota (s := { s with edgeTimer := 0, clockPhase := 0 }) h p

/-! ### Where the parties of a frame end come from (R10, R12, R19) -/

/-- The slot was FREE, or its Active entry COOLING. -/
def State.Vacant (s : State) (n : Nat) : Prop := entryAt s.staged n = .free ∨ entryAt s.active n = .cooling

/-- The parties of `t` were parties before, or came to a vacant slot. -/
def State.JoinVacant (s t : State) : Prop :=
  ∀ n, ∀ p ∈ (entryAt t.staged n).parties, p ∈ (entryAt s.staged n).parties ∨ s.Vacant n

/-- The FREE slots below `S` of `t` were vacant. -/
def State.FreeVacant (s t : State) (S : Nat) : Prop := ∀ n, n < S → entryAt t.staged n = .free → s.Vacant n

section

variable {s t u : State}

theorem State.JoinVacant.wanes (h : s.JoinVacant t) (w : t.Wanes u) : s.JoinVacant u :=
  fun n p hp => h n p ((w n).parties p hp)

theorem State.FreeVacant.ages {S : Nat} (h : s.FreeVacant t S) (w : t.Ages u) : s.FreeVacant u S :=
  fun n hn hf => h n hn ((w n).free hf)

theorem State.FreeVacant.commitCooling {S : Nat} (h : s.FreeVacant t S) (ha : t.active = s.active) :
    s.FreeVacant t.commitCooling S := by
  intro n hn hf
  by_cases h64 : n < 64
  · rw [State.entryAt_commitCooling _ h64] at hf
    split at hf
    · exact .inr (ha ▸ by assumption)
    · exact h n hn hf
  · exact h n hn (entryAt_of_le _ (Nat.not_lt.1 h64))

/-- A plan applied frees slots from the new S on alone (R131, R133). -/
theorem State.FreeVacant.commitPlan (h : ∀ S, s.FreeVacant t S) : s.FreeVacant t.commitPlan t.commitPlan.slots := by
  intro n hn hf
  refine h (n + 1) n (Nat.lt_succ_self n) ?_
  unfold State.commitPlan at hn hf
  split at hf
  · rename_i terms hd
    simp only [hd] at hn
    rw [State.entryAt_applyPlan] at hf
    split at hf
    · rename_i hc
      have hS : (t.applyPlan terms).slots = terms.geometry.slots := by simp [State.slots]
      omega
    · exact hf
  · exact hf

/-- The allocator grants FREE slots of the frame alone (R74). -/
theorem State.JoinVacant.commitAllocator (h : s.JoinVacant t) (hf : s.FreeVacant t t.slots) :
    s.JoinVacant t.commitAllocator := by
  have hstaged : t.commitAllocator.staged = t.visitAll.staged := by simp [State.commitAllocator]
  unfold State.JoinVacant
  rw [hstaged]
  refine (foldl_invariant _ (fun u => u.plan = t.plan ∧ s.JoinVacant u ∧ s.FreeVacant u t.slots) _ t ⟨rfl, h, hf⟩ ?_).2.1
  rintro u r - ⟨hplan, hu, huf⟩
  have hS : u.slots = t.slots := by rw [State.slots, State.slots, hplan]
  rcases u.visit_cases r with e | ⟨l, hfind, -, e⟩ <;> rw [e]
  · exact ⟨hplan, hu, huf⟩
  · refine ⟨by simpa using hplan, fun n p hp => ?_, fun n hn hfree => ?_⟩
    · rw [State.entryAt_grant] at hp
      split at hp
      · rename_i hn
        obtain ⟨hfree, -, hlt⟩ := State.available_spec (State.findSlots_available hfind n hn.1)
        exact .inr (huf n (hS ▸ hlt) hfree)
      · exact hu n p hp
    · rw [State.entryAt_grant] at hfree
      split at hfree
      · cases hfree
      · exact huf n hn hfree

theorem State.commit_joinVacant (s : State) : s.JoinVacant s.commit ∧ s.commit.active = s.commit.staged := by
  refine s.commit_stages (fun i t => (i < 7 → t.active = s.active) ∧ s.JoinVacant t
    ∧ (i < 5 → ∀ S, s.FreeVacant t S) ∧ (i = 5 → s.FreeVacant t t.slots) ∧ (i = 7 → t.active = t.staged))
    ?_ ?_ ?_ ?_ ?_ ?_ ?_ ?_ ?_ |> fun ⟨_, hj, _, _, ha⟩ => ⟨hj, ha rfl⟩
  · have w : s.Ages s.countOffers.countDeadline := .of_staged (by simp)
    exact ⟨fun _ => by simp, fun n p hp => .inl ((w n).parties p hp), fun _ S n _ hf => .inl ((w n).free hf), by omega,
      by omega⟩
  · exact fun t ⟨ha, hj, hf, _⟩ => ⟨fun _ => by simpa using ha (by omega), hj.wanes (.commitCooling t),
      fun _ S => (hf (by omega) S).commitCooling (ha (by omega)), by omega, by omega⟩
  · exact fun t ⟨ha, hj, hf, _⟩ => ⟨fun _ => by simpa using ha (by omega), hj.wanes (State.Ages.commitLeases t).wanes,
      fun _ S => (hf (by omega) S).ages (.commitLeases t), by omega, by omega⟩
  · exact fun t ⟨ha, hj, hf, _⟩ => ⟨fun _ => by simpa using ha (by omega), hj.wanes (State.Ages.commitRotation t).wanes,
      fun _ S => (hf (by omega) S).ages (.commitRotation t), by omega, by omega⟩
  · exact fun t ⟨ha, hj, hf, _⟩ => ⟨fun _ => by simpa using ha (by omega), hj.wanes (State.Ages.commitEdits t).wanes,
      fun _ S => (hf (by omega) S).ages (.commitEdits t), by omega, by omega⟩
  · exact fun t ⟨ha, hj, hf, _⟩ => ⟨fun _ => by simpa using ha (by omega), hj.wanes (.commitPlan t), by omega,
      fun _ => .commitPlan (hf (by omega)), by omega⟩
  · exact fun t ⟨ha, hj, _, hf, _⟩ => ⟨fun _ => by simpa using ha (by omega), hj.commitAllocator (hf rfl), by omega,
      by omega, by omega⟩
  · exact fun t ⟨_, hj, _⟩ => ⟨by omega, hj.wanes (.of_staged (by simp)), by omega, by omega, fun _ => rfl⟩
  · intro i t ns ⟨ha, hj, hf, hf', ha'⟩
    have w : t.Ages (t.deliver ns) := .of_staged (by simp)
    have hS : (t.deliver ns).slots = t.slots := by simp [State.slots]
    exact ⟨fun hi => by simpa using ha hi, hj.wanes w.wanes, fun hi S => (hf hi S).ages w, fun hi => hS ▸ (hf' hi).ages w,
      fun hi => by simpa using ha' hi⟩

theorem State.endFrame_joinVacant (s : State) : s.JoinVacant s.endFrame ∧ s.endFrame.active = s.endFrame.staged := by
  obtain ⟨hj, ha⟩ := s.commit_joinVacant
  exact ⟨hj.wanes (.of_staged (by simp [State.endFrame])), by simpa [State.endFrame] using ha⟩

end

/-- Settles O60: a request brings no port to a slot but the target of an accepted offer, and a frame end brings one only
where the entry was FREE or its Active entry COOLING. -/
theorem aStrangerJoinsASlotInTwoWays : Obligations.AStrangerJoinsASlotInTwoWays := by
  intro c s _ _
  obtain ⟨t, e, hjoins⟩ := exec_joins c s
  refine ⟨t, e, fun n _ p => ?_⟩
  have ended (u : State) (hu : u.JoinVacant t) (hs : u.staged = s.staged) (ha : u.active = s.active)
      (hc : c = .frameEnd ∨ c = .bitTimeBegins) (hp : p ∈ (entryAt t.staged n).parties) :
      p ∈ (entryAt s.staged n).parties
        ∨ (c = .frameEnd ∨ c = .bitTimeBegins) ∧ (entryAt s.staged n = .free ∨ entryAt s.active n = .cooling) := by
    have := hu n p hp
    rw [State.Vacant, hs, ha] at this
    exact this.imp_right fun hv => ⟨hc, hv⟩
  rcases hjoins with hnone | ⟨q, o, rfl, ho, rfl, -, hstaged, hactive, -⟩ | ⟨hc, rfl | rfl⟩
  · exact ⟨fun hp => .inl (hnone.1 n p hp), fun hp => .inl (hnone.2 n p hp)⟩
  · refine ⟨fun hp => ?_, fun hp => .inl (by rwa [hactive] at hp)⟩
    rw [hstaged] at hp
    exact (State.acceptOffer_parties hp).imp_right fun ⟨hn, hq⟩ => .inl ⟨o, ho, hn.symm, hq.symm, hq ▸ rfl⟩
  · obtain ⟨hj, ha⟩ := s.endFrame_joinVacant
    exact ⟨fun hp => (ended s hj rfl rfl hc hp).imp_right .inr, fun _ => .inr ⟨hc, by rw [ha]⟩⟩
  · obtain ⟨hj, ha⟩ := State.endFrame_joinVacant { s with edgeTimer := 0, clockPhase := 0 }
    exact ⟨fun hp => (ended _ hj rfl rfl hc hp).imp_right .inr, fun _ => .inr ⟨hc, by rw [ha]⟩⟩

end Sys2Proof.Machine
end

section
/-! SUPPORT. The proofs of the statements about one step, about the link, and about the bytes of a request. -/

-- One proof after another: many at once take more memory than the check allows.
set_option Elab.async false

namespace Sys2Proof.Machine

open Sys2Proof

/-! ### One step -/

/-- Settles O1: by the definition of `step`. -/
theorem stepRunsTheFrontCommand : Obligations.StepRunsTheFrontCommand := fun _ _ _ => rfl

theorem step_idle {s : State} (h : s.pending = []) : step s = .next s.refclkTick := by
  unfold step
  rw [h]

theorem State.refclkTick_external {s : State} (hr : s.resetAsserted = false) (hx : s.geometry.source = .external) :
    s.refclkTick = s.externalTick := by
  simp [State.refclkTick, hr, State.external, hx]

theorem State.refclkTick_internal {s : State} (hr : s.resetAsserted = false) (hx : s.geometry.source = .internal) :
    s.refclkTick = s.internalTick := by
  simp [State.refclkTick, hr, State.external, hx]

/-- Settles O2: the branches of one REFCLK period, each beside the command that stands for the same event. -/
theorem idleStepIsOneReferencePeriod : Obligations.IdleStepIsOneReferencePeriod := by
  intro s hs
  rw [step_idle hs]
  refine ⟨fun hr => ?_, fun hr hx => ?_, fun hr hx => ?_⟩
  · rw [State.refclkTick, if_pos hr]
  · rw [State.refclkTick_external hr hx, State.externalTick, edgeLimit]
    refine ⟨fun ht => by rw [if_pos ht], fun ht pos hf => ?_, fun ht cause k hf => ?_⟩ <;>
      rw [if_neg (Nat.not_lt.2 ht), hf]
    · simp [FrameState.isRunning, exec, execClockLoss, State.framesRun, State.external, hr, hx, hf]
    · simp [FrameState.isRunning, exec, execStallGap, State.inStall, State.external, hr, hx, hf]
  · rw [State.refclkTick_internal hr hx, State.internalTick, Geometry.bitPeriod]
    refine ⟨fun ht => by rw [if_pos ht], fun ht => ?_⟩
    rw [if_neg (Nat.not_lt.2 ht)]
    cases hf : s.frame with
    | running pos => simp [exec, execBitTimeBegins, State.framesRun, hr, hf, FrameState.isRunning]
    | stalled cause k => simp [exec, execBitTimeBegins, State.framesRun, hr, hf, FrameState.isRunning, State.risingEdge]

/-! ### The fall of CSn (R151, R155) -/

/-- The status byte has the four flags above the sequence (R155, R167). -/
theorem statusBits (a b c d : Bool) (sequence : BitVec 4) :
    let x : Byte := bitAt 7 a ||| bitAt 6 b ||| bitAt 5 c ||| bitAt 4 d ||| sequence.setWidth 8
    x.getLsbD 7 = a ∧ x.getLsbD 6 = b ∧ x.getLsbD 5 = c ∧ x.getLsbD 4 = d ∧ x.extractLsb' 0 4 = sequence := by
  revert a b c d sequence
  decide +kernel

/-- Settles O3: what SDO carries is the reply as it is captured, with its checksum. -/
theorem csFallCapturesOneWholeReply : Obligations.CsFallCapturesOneWholeReply := by
  intro s p
  refine ⟨fun hr hsel => ?_, fun hr hsel => ?_, fun hsel => ?_, fun falls hi => ?_⟩
  · obtain ⟨h7, h6, h5, h4, hseq⟩ := statusBits (s.port p).attachment.isSome (!(s.port p).notices.isEmpty) (s.port p).lost
      (!s.frame.isRunning) (s.port p).replySequence
    refine ⟨s.statusByte p, _, s.captureReply p, s.setPort p
      { s.port p with selected := true, receiver := .receiving 0 [] (s.captureReply p) }, rfl, ?_, h7, h6, h5, h4, hseq,
      ?_, rfl, fun falls => ?_⟩
    · exact (byteSum_append_singleton _ _).trans (add_neg_cancel _)
    · simp [exec, execCsAsserted, hr, hsel]
    · simp [State.sdo, State.sdoByte]
  · simp [exec, execCsAsserted, hr, hsel]
  · simp [exec, execCsAsserted, hsel]
  · simp [State.sdo, State.sdoByte, hi]

/-! ### Bytes received (R148, R149) -/

/-- The eight levels of a byte make that byte again. -/
theorem byteOfLevels_levelsOf (b : Byte) : byteOfLevels (levelsOf b) = b := by
  revert b
  decide +kernel

theorem getElem_levelsOf (b : Byte) (k : Nat) (h : k < 8) : (levelsOf b)[k] = b.getMsbD k := by
  interval_cases k <;> rfl

theorem byteOfLevels_eq {sdi : Vector Bool 8} {b : Byte} (h : ∀ (k : Nat) (hk : k < 8), b.getMsbD k = sdi[k]) :
    byteOfLevels sdi = b := by
  have : sdi = levelsOf b := Vector.ext fun k hk => by rw [getElem_levelsOf, h k hk]
  rw [this, byteOfLevels_levelsOf]

theorem exec_byteReceived (s : State) (p : Port) (sdi : Vector Bool 8) :
    exec (.byteReceived p sdi) s
      = .next (s.setPort p { s.port p with receiver := (s.port p).receiver.receive (byteOfLevels sdi) }) := rfl

theorem Receiver.receive_receiving (count : Nat) (stored sent : List Byte) (b : Byte) :
    (Receiver.receiving count stored sent).receive b
      = .receiving (min (count + 1) 255) (if stored.length < 63 then stored ++ [b] else stored) sent := rfl

theorem runs_cons {c : Instr} {cs : List Instr} {s t : State} (h : exec c s = .next t) : runs (c :: cs) s = runs cs t := by
  rw [runs, h]

/-- The bytes of one transaction after another: the first 63 are stored, and the count stops at 255 (R149). -/
theorem runs_bytes (p : Port) (l : List Byte) (s : State) {count : Nat} {stored sent : List Byte}
    (h : (s.port p).receiver = .receiving count stored sent) (hc : count ≤ 255) (hst : stored.length ≤ 63) :
    runs (l.map fun b => .byteReceived p (levelsOf b)) s = .next
      (s.setPort p
        { s.port p with receiver := .receiving (min (count + l.length) 255) ((stored ++ l).take 63) sent }) := by
  induction l generalizing s count stored with
  | nil =>
    have : s.port p = { s.port p with receiver := .receiving count stored sent } := by rw [← h]
    simp [runs, Nat.min_eq_left hc, List.take_of_length_le hst, ← this]
  | cons b l ih =>
    rw [List.map_cons, runs_cons (exec_byteReceived s p _), byteOfLevels_levelsOf, h]
    have hcount : min (min (count + 1) 255 + l.length) 255 = min (count + (b :: l).length) 255 := by
      rw [List.length_cons]
      omega
    have hstored : ((if stored.length < 63 then stored ++ [b] else stored) ++ l).take 63 = (stored ++ b :: l).take 63 := by
      rcases Nat.lt_or_ge stored.length 63 with hlt | hge
      · rw [if_pos hlt, List.append_assoc, List.singleton_append]
      · rw [if_neg hge.not_gt, List.take_append_of_le_length hge, List.take_append_of_le_length hge]
    have hlen : (if stored.length < 63 then stored ++ [b] else stored).length ≤ 63 := by
      split
      · simpa using ‹stored.length < 63›
      · exact hst
    rw [Receiver.receive_receiving]
    refine (ih _ (congrArg PortState.receiver (State.port_setPort_self s p _)) (Nat.min_le_right _ _) hlen).trans ?_
    rw [State.setPort_setPort, State.port_setPort_self, hstored, hcount]

theorem length_requestBytes (code : Byte) (payload : List Byte) :
    (requestBytes code payload).length = payload.length + 3 := by
  simp [requestBytes]

/-- Settles O4: each byte shifts into the receiver, and the receiver then agrees with the bytes of the request. -/
theorem bytesMakeATransaction : Obligations.BytesMakeATransaction := by
  refine ⟨fun s p => ⟨fun count stored sent sdi b h hst hc hb => ?_, getElem_levelsOf, fun sent l h => ?_, fun sdi h => ?_⟩,
    fun s p r payload hr hsel hlen => ?_⟩
  · rw [exec_byteReceived, byteOfLevels_eq hb, h, Receiver.receive_receiving, if_pos hst, Nat.min_eq_left (by omega)]
  · simpa using runs_bytes p l s h (by decide) (by decide)
  · rw [exec_byteReceived, h]
    have : s.port p = { s.port p with receiver := .idle } := by rw [← h]
    simp [Receiver.receive, ← this]
  · set u := s.setPort p { s.port p with selected := true, receiver := .receiving 0 [] (s.captureReply p) } with hu
    have hcs : exec (.csAsserted p) s = .next u := by simp [exec, execCsAsserted, hr, hsel, hu]
    have hrec : (u.port p).receiver = .receiving 0 [] (s.captureReply p) := by simp [hu]
    refine ⟨_, .receiving (min (requestBytes r.code payload).length 255) ((requestBytes r.code payload).take 63)
      (s.captureReply p), (runs_cons hcs).trans (runs_bytes p _ u hrec (by decide) (by decide)), by simp [hu], ?_⟩
    have hlen' := length_requestBytes r.code payload
    have hport (x : PortState) : (u.setPort p x).port p = x := u.port_setPort_self p x
    have hreset : u.resetAsserted = false := hr
    simp [State.takes, State.canEnd, hport, hlen, hreset, PortState.discarding, Receiver.agrees, maxStored, hlen']
    omega

/-! ### The bytes of a request (R150, R152, R166) -/

/-- No two requests of R166 carry the same code. -/
theorem RequestCode.eq_of_code_eq {r r' : RequestCode} (h : r.code = r'.code) : r = r' :=
  List.inj_on_of_nodup_map (f := RequestCode.code) (l := RequestCode.list) (by decide) r.mem_list r'.mem_list h

theorem byteSum_requestBytes (code : Byte) (payload : List Byte) : byteSum (requestBytes code payload) = 0 :=
  (byteSum_append_singleton _ _).trans (add_neg_cancel _)

/-- The bytes of a request pass the three checks of R152. -/
theorem refusalOf_requestBytes (r : RequestCode) {payload : List Byte} (h : payload.length ≤ 60) :
    refusalOf (requestBytes r.code payload) false = none := by
  have hlen : (byteOf payload.length).toNat = payload.length := byteOf_toNat_of_lt (by omega)
  have hframed : wellFramed (requestBytes r.code payload) false = true :=
    wellFramed_cons_iff.2 ⟨_, payload ++ [_], rfl, hlen ▸ h, by rw [hlen]; simp, rfl⟩
  have hhead : (requestBytes r.code payload).headD 0 = r.code := rfl
  rw [refusalOf, hframed, if_neg (by decide), if_neg (not_not.2 (byteSum_requestBytes _ _)), hhead,
    knownCode_iff.2 ⟨r, rfl⟩, if_neg (by decide)]

/-- Settles O5: a request transaction is built from its code and payload, and taken apart again. -/
theorem requestBytesNameOneRequest : Obligations.RequestBytesNameOneRequest := by
  refine ⟨fun r payload h => ⟨⟨_, rfl⟩, byteSum_requestBytes _ _, refusalOf_requestBytes r h⟩, fun r r' l l' _ _ h => ?_,
    fun bytes hchecked hnone => ?_⟩
  · obtain ⟨hcode, hrest⟩ := List.cons.inj h
    obtain ⟨-, hrest⟩ := List.cons.inj hrest
    exact ⟨RequestCode.eq_of_code_eq hcode, (List.append_inj' hrest rfl).1⟩
  · cases bytes with
    | nil => cases hchecked
    | cons b rest =>
      have hframed : wellFramed (b :: rest) false = true := by
        by_contra hc
        rw [refusalOf_of_not_framed hc] at hnone
        cases hnone
      have hsum : byteSum (b :: rest) = 0 := by
        by_contra hc
        rw [refusalOf_of_sum_ne_zero hframed hc] at hnone
        cases hnone
      obtain ⟨r, rfl⟩ : ∃ r : RequestCode, r.code = b := by
        by_contra hc
        rw [refusalOf_of_unknown hframed hsum (not_exists.1 hc)] at hnone
        cases hnone
      exact ⟨r, exists_payload_of_framed hframed hsum⟩

/-! ### Ends without a request (R149, R153, R164) -/

/-- Under reset, and for a transaction begun or discarded under it, the end of a transaction is at most the rise of CSn
(R164). -/
theorem State.endTransaction_under_reset {s : State} {p : Port}
    (h : s.resetAsserted = true ∨ (s.port p).discarding = true) (bytes : List Byte) (act : State → State) :
    s.endTransaction p bytes act = s ∨ s.endTransaction p bytes act = s.deselect p := by
  rcases s.endTransaction_cases p bytes act with e | e | ⟨hend, -⟩
  · exact .inl e
  · exact .inr e
  · obtain ⟨hr, hd, -⟩ := (s.canEnd_iff p bytes).1 hend
    rw [hr, hd] at h
    simp at h

/-- Settles O6: an ignored or NONE transaction ends with no act, and under reset every end is at most the rise of CSn. -/
theorem endsWithoutARequestLeaveTheReply : Obligations.EndsWithoutARequestLeaveTheReply := by
  refine ⟨fun s p => ⟨fun h => ?_, fun rest h => ?_⟩, fun c s p hc h => ?_⟩
  · exact congrArg Host.Outcome.next (s.endTransaction_of_canEnd p [] id h)
  · exact congrArg Host.Outcome.next (s.endTransaction_of_canEnd p (0 :: rest) id h)
  · have outcome {t : State} (ht : t = s ∨ t = s.deselect p) :
        Host.Outcome.next (φ := Fault) (ρ := Refusal) t = .next s
          ∨ Host.Outcome.next (φ := Fault) (ρ := Refusal) t = .next (s.deselect p) := ht.imp (congrArg _) (congrArg _)
    cases hreq : requestOf c with
    | some x =>
      obtain ⟨q, r, l⟩ := x
      obtain rfl := eq_command_of_requestOf hreq
      have hq : endsTransaction (r.command q l) = some q := by cases r <;> rfl
      obtain rfl : q = p := Option.some.inj (hq.symm.trans hc)
      rw [exec_command]
      refine outcome ?_
      unfold State.takeRequest
      split
      · exact State.endTransaction_under_reset h _ _
      · exact .inl rfl
    | none =>
      cases c <;> cases hreq <;> cases hc
      case transactionIgnored.refl.refl => exact outcome (State.endTransaction_under_reset h _ _)
      case noneTransaction.refl.refl => exact outcome (State.endTransaction_under_reset h _ _)
      case transactionRefused.refl.refl bytes cut =>
        refine outcome ?_
        split
        · split
          · exact State.endTransaction_under_reset h _ _
          · exact .inl rfl
        · exact .inl rfl

end Sys2Proof.Machine
end

section
/-! SUPPORT. The proofs of the statements about how every request is answered: the checks that come first (R156, R165), and
what each judgement answers with. -/

-- One proof after another: many at once take more memory than the check allows.
set_option Elab.async false

namespace Sys2Proof.Machine

open Sys2Proof

/-! ### The lengths that payloads read at (R166) -/

theorem readRanged_of_length {lo hi : Nat} {l : List Byte} (h : l.length ∉ [1]) : readRanged lo hi l = none := by
  unfold readRanged
  split
  · simp at h
  · rfl

theorem readName_of_length {l : List Byte} (h : l.length ∉ [1]) : readName l = none := by
  unfold readName
  split
  · simp at h
  · rfl

theorem readAttention_of_length {l : List Byte} (h : l.length ∉ [1]) : readAttention l = none := by
  unfold readAttention
  split
  · simp at h
  · rfl

theorem readAttach_of_length {l : List Byte} (h : l.length ∉ [2]) : readAttach l = none := by
  unfold readAttach
  split
  · simp at h
  · rfl

theorem readRelease_of_length {slots : Nat} {l : List Byte} (h : l.length ∉ [2]) : readRelease slots l = none := by
  unfold readRelease
  split
  · simp at h
  · rfl

theorem readRenew_of_length {slots : Nat} {l : List Byte} (h : l.length ∉ [4]) : readRenew slots l = none := by
  unfold readRenew
  split
  · simp at h
  · rfl

theorem readOffer_of_length {slots : Nat} {p : Port} {l : List Byte} (h : l.length ∉ [4]) :
    readOffer slots p l = none := by
  unfold readOffer
  split
  · simp at h
  · rfl

theorem readProposal_of_length {l : List Byte} (h : l.length ∉ [12]) : readProposal l = none := by
  unfold readProposal
  split
  · simp at h
  · rfl

theorem readEmpty_of_length {l : List Byte} (h : l.length ∉ [0]) : readEmpty l = none :=
  readEmpty_of_ne_nil fun hl => h (by simp [hl])

/-- A reservation has at most eight listed slots after its seven fixed bytes (R70, R165). -/
theorem readReservation_length {slots : Nat} {l : List Byte} {r : Reservation} (h : readReservation slots l = some r) :
    7 ≤ l.length ∧ l.length ≤ 15 := by
  unfold readReservation at h
  split at h
  · obtain ⟨⟨-, -, hmax, -⟩, h⟩ := Option.ite_none_right_eq_some.1 h
    obtain ⟨pl, hpl, -⟩ := Option.map_eq_some_iff.1 h
    unfold readPlacement at hpl
    dsimp only at hpl
    have hlen : ∀ n, n ≤ 8 → ∀ rest : List Byte, rest.length = n → 7 ≤ rest.length + 7 ∧ rest.length + 7 ≤ 15 := by
      intro n hn rest hrest
      omega
    split_ifs at hpl with h1 h2 h3 h4 h5 h6
    · exact hlen 0 (by decide) _ (by simpa using congrArg List.length h2)
    · exact hlen 0 (by decide) _ (by simpa using congrArg List.length h4)
    · exact hlen _ hmax _ (by simpa using h6.1)
  · cases h

theorem readAction_length {slots : Nat} {l : List Byte} {act : TimedAction} (h : readAction slots l = some act) :
    l.length = 2 ∨ l.length = 4 ∨ (8 ≤ l.length ∧ l.length ≤ 16) := by
  unfold readAction at h
  split at h
  · split_ifs at h
    · split at h
      · exact .inl rfl
      · cases h
    · split at h
      · exact .inr (.inl rfl)
      · cases h
    · obtain ⟨r, hr, -⟩ := Option.map_eq_some_iff.1 h
      have := readReservation_length hr
      simp only [List.length_cons]
      omega
  · cases h

theorem readReservation_of_length {slots : Nat} {l : List Byte} (h : l.length ∉ [7, 8, 9, 10, 11, 12, 13, 14, 15]) :
    readReservation slots l = none :=
  Option.eq_none_iff_forall_ne_some.2 fun r hr => h (by
    obtain ⟨h7, h15⟩ := readReservation_length hr
    simp only [List.mem_cons, List.not_mem_nil]
    omega)

theorem readSchedule_of_length {slots : Nat} {l : List Byte}
    (h : l.length ∉ [6, 8, 12, 13, 14, 15, 16, 17, 18, 19, 20]) : readSchedule slots l = none := by
  unfold readSchedule
  split
  · refine Option.map_eq_none_iff.2 (Option.eq_none_iff_forall_ne_some.2 fun act hact => h ?_)
    have := readAction_length hact
    simp only [List.length_cons, List.mem_cons, List.not_mem_nil]
    omega
  · rfl

/-! ### Port state and length are checked first (R156, R163) -/

theorem judgeAttach_of_detached {p : Port} {l : List Byte} {u : State} (h : u.attached p = false) :
    judgeAttach p l u = withFields (readAttach l) fun x =>
      .ok (u.setPort p { u.port p with attachment := some x }) (u.snapshotBytes ++ [byteOf (u.quota p)]) := by
  rw [judgeAttach, if_neg (by simp [h])]

theorem judgeAttention_of_attached {p : Port} {l : List Byte} {u : State} (h : u.attached p = true)
    (hl : readAttention l = none) : judgeAttention p l u = refuseWith .badField := by
  unfold judgeAttention
  dsimp only
  split
  · rename_i hx
    rw [State.attached, hx] at h
    cases h
  · rw [hl, withFields_none]

theorem whenAttached_none {α : Type} {p : Port} {u : State} {fields : Option α} {k : α → Answer}
    (h : u.attached p = true) (hf : fields = none) : u.whenAttached p (withFields fields k) = refuseWith .badField := by
  rw [u.whenAttached_of_attached p _ h, hf, withFields_none]

theorem withFields_of_none {α : Type} {fields : Option α} {k : α → Answer} (hf : fields = none) :
    withFields fields k = refuseWith .badField := by
  rw [hf, withFields_none]

/-- A payload of a length that the layout of its request does not give is refused BAD_FIELD (R165). -/
theorem RequestCode.judge_of_length {r : RequestCode} {p : Port} {l : List Byte} {u : State} (h : l.length ∉ r.lengths)
    (hd : r = .attach → u.attached p = false) (ha : r.needsAttached = true → u.attached p = true) :
    r.judge p l u = refuseWith .badField := by
  cases r with
  | attach => exact (judgeAttach_of_detached (hd rfl)).trans (withFields_of_none (readAttach_of_length h))
  | poll => exact withFields_of_none (readEmpty_of_length h)
  | snapshot => exact withFields_of_none (readEmpty_of_length h)
  | readPlan => exact withFields_of_none (readEmpty_of_length h)
  | readSlot => exact withFields_of_none (readRanged_of_length h)
  | readMap => exact withFields_of_none (readRanged_of_length h)
  | attention => exact judgeAttention_of_attached (ha rfl) (readAttention_of_length h)
  | detach => exact whenAttached_none (ha rfl) (readEmpty_of_length h)
  | confirm => exact whenAttached_none (ha rfl) (readEmpty_of_length h)
  | reject => exact whenAttached_none (ha rfl) (readEmpty_of_length h)
  | renew => exact whenAttached_none (ha rfl) (readRenew_of_length h)
  | release => exact whenAttached_none (ha rfl) (readRelease_of_length h)
  | holdings => exact whenAttached_none (ha rfl) (readRanged_of_length h)
  | readRequests => exact whenAttached_none (ha rfl) (readRanged_of_length h)
  | readEdits => exact whenAttached_none (ha rfl) (readRanged_of_length h)
  | fetch => exact whenAttached_none (ha rfl) (readRanged_of_length h)
  | reserve => exact whenAttached_none (ha rfl) (readReservation_of_length h)
  | offer => exact whenAttached_none (ha rfl) (readOffer_of_length h)
  | schedule => exact whenAttached_none (ha rfl) (readSchedule_of_length h)
  | propose => exact whenAttached_none (ha rfl) (readProposal_of_length h)
  | cancel => exact whenAttached_none (ha rfl) (readName_of_length h)
  | accept => exact whenAttached_none (ha rfl) (readName_of_length h)
  | decline => exact whenAttached_none (ha rfl) (readName_of_length h)
  | withdraw => exact whenAttached_none (ha rfl) (readName_of_length h)
  | unschedule => exact whenAttached_none (ha rfl) (readName_of_length h)

/-- A DETACHED port is refused every request that needs an ATTACHED one (R156). -/
theorem RequestCode.judge_of_detached {r : RequestCode} {p : Port} {l : List Byte} {u : State}
    (hr : r.needsAttached = true) (h : u.attached p = false) : r.judge p l u = refuseWith .notAttached := by
  have detached (k : Answer) : u.whenAttached p k = refuseWith .notAttached := u.whenAttached_of_detached p k h
  cases r with
  | attach | poll | snapshot | readSlot | readMap | readPlan => cases hr
  | attention =>
    have hx : (u.port p).attachment = none := by simpa [State.attached] using h
    simp only [RequestCode.judge, judgeAttention, hx]
  | detach | renew | release | holdings | reserve | cancel | readRequests | offer | accept | decline | withdraw
  | schedule | unschedule | readEdits | propose | confirm | reject | fetch => exact detached _

/-- Fields that decide alone are answered OK or refused BAD_FIELD. -/
theorem withFields_served {α : Type} (fields : Option α) {k : α → Answer} (h : ∀ x, ∃ t b, k x = .ok t b) :
    (∃ t b, withFields fields k = .ok t b) ∨ withFields fields k = refuseWith .badField := by
  cases fields with
  | none => exact .inr rfl
  | some x => exact .inl (h x)

/-- The other requests are served to a DETACHED port (R156). -/
theorem RequestCode.judge_served {r : RequestCode} {p : Port} {l : List Byte} {u : State}
    (hr : r.needsAttached = false) (h : u.attached p = false) :
    (∃ t b, r.judge p l u = .ok t b) ∨ r.judge p l u = refuseWith .badField := by
  cases r with
  | attach =>
    change (∃ t b, judgeAttach p l u = .ok t b) ∨ judgeAttach p l u = refuseWith .badField
    rw [judgeAttach_of_detached h]
    exact withFields_served _ fun x => ⟨_, _, rfl⟩
  | poll | snapshot | readSlot | readMap | readPlan => exact withFields_served _ fun x => ⟨_, _, rfl⟩
  | detach | renew | release | holdings | reserve | cancel | readRequests | offer | accept | decline | withdraw
  | schedule | unschedule | readEdits | propose | confirm | reject | fetch | attention => cases hr

/-- A request that is taken is judged, and the answer settled, at the rise of CSn (R163). -/
theorem exec_of_takes {c : Instr} {s : State} {p : Port} {r : RequestCode} {l : List Byte}
    (hc : requestOf c = some (p, r, l)) (ht : s.takes p r l = true) :
    exec c s = .next ((s.deselect p).settle p (r.judge p l (s.deselect p))) := by
  rw [eq_command_of_requestOf hc, exec_command, s.takeRequest_of_takes p r l _ ht]

theorem exec_of_refused {c : Instr} {s : State} {p : Port} {r : RequestCode} {l : List Byte} {code : ReplyCode}
    (hc : requestOf c = some (p, r, l)) (ht : s.takes p r l = true)
    (h : r.judge p l (s.deselect p) = refuseWith code) : exec c s = .next (s.answered p code []) := by
  rw [exec_of_takes hc ht, h, State.settle_refuseWith]

theorem RequestCode.needsAttached_iff (r : RequestCode) :
    r.needsAttached = true ↔ r ∉ [RequestCode.attach, .poll, .snapshot, .readSlot, .readMap, .readPlan] := by
  cases r <;> decide

/-- Settles O9: each judgement looks at the port, then at the length of the payload, then at the rest. -/
theorem portStateAndLengthAreCheckedFirst : Obligations.PortStateAndLengthAreCheckedFirst := by
  refine ⟨fun c s p r l hc ht => ⟨fun hp hr => ?_, fun hp hr => ?_, fun hp hr => ?_⟩, fun c s p r l hc ht hl hd ha => ?_⟩
  · have hdet : (s.deselect p).attached p = false := by rw [State.attached_deselect, State.attached, hp]; rfl
    exact exec_of_refused hc ht (RequestCode.judge_of_detached (r.needsAttached_iff.2 hr) hdet)
  · have hdet : (s.deselect p).attached p = false := by rw [State.attached_deselect, State.attached, hp]; rfl
    have hr : r.needsAttached = false := by
      rw [← Bool.not_eq_true, r.needsAttached_iff]
      exact not_not.2 hr
    rcases RequestCode.judge_served (l := l) hr hdet with ⟨t, b, h⟩ | h
    · exact ⟨_, exec_of_takes hc ht, .inl (by rw [h, State.settle_ok, State.port_reply, if_pos rfl])⟩
    · exact ⟨_, exec_of_refused hc ht h, .inr (by rw [State.port_answered, if_pos rfl]; rfl)⟩
  · subst hr
    rw [eq_command_of_requestOf hc]
    exact exec_attach_of_attached ht hp
  · refine exec_of_refused hc ht (RequestCode.judge_of_length hl (fun hr => ?_) fun hr => ?_)
    · rw [State.attached_deselect, State.attached, hd hr]; rfl
    · rw [State.attached_deselect, State.attached_of_ne_none (ha hr)]

end Sys2Proof.Machine
end

section
/-! SUPPORT. The proof of the statement about the answer to every request: what each judgement can refuse with, how long
its body is, and which fields it leaves. -/

-- One proof after another: many at once take more memory than the check allows.
set_option Elab.async false

namespace Sys2Proof.Machine

open Sys2Proof

/-! ### The lengths of the replies (R167, R168) -/

theorem length_fillTo {α : Type} (n : Nat) (x : α) (l : List α) : (fillTo n x l).length = n := by
  simp [fillTo]

theorem length_recordBytes (k : Nat) (r : Record) : (recordBytes k r).length = 16 := by
  simp [recordBytes, reservationBytes, slotListBytes, length_fillTo, halfBytes]

theorem length_editBytes (k : Nat) (e : Edit) : (editBytes k e).length = 23 := by
  unfold editBytes
  split <;> simp [wordBytes, halfBytes, slotListBytes, length_fillTo]

theorem length_noticeBytes (n : Notice) : (noticeBytes n).length = 10 := by simp [noticeBytes, halfBytes]

theorem length_entryBytes (e : Entry) : (entryBytes e).length = 12 := by simp [entryBytes, length_fillTo, halfBytes]

theorem length_holdingBytes (s : State) (n : Nat) : (holdingBytes s n).length = 4 := by simp [holdingBytes, halfBytes]

theorem length_snapshotBytes (s : State) : s.snapshotBytes.length = 9 := by
  simp [State.snapshotBytes, wordBytes, halfBytes]

theorem length_planBytes (t : PlanTerms) (n : Half) : (planBytes t n).length = 10 := by
  simp [planBytes, termsBytes, halfBytes]

theorem length_proposalBytes (x : ProposalState) : (proposalBytes x).length = 18 := by
  cases x <;> simp [proposalBytes, proposalBytes.standing, length_planBytes, wordBytes]

/-- A page of at most `k` items of `n` bytes each. -/
theorem length_page {α : Type} (l : List α) (k : Nat) {n : Nat} {f : α → List Byte} (h : ∀ x, (f x).length = n) :
    ((l.take k).flatMap f).length ≤ k * n := by
  rw [List.length_flatMap, List.map_congr_left (g := fun _ => n) fun x _ => h x, List.map_const', List.sum_replicate,
    smul_eq_mul]
  exact Nat.mul_le_mul_right n (List.length_take_le k l)

/-! ### What a judgement answers with (R154, R163) -/

/-- A refusal has a code of a block and an empty body, but for PAST and TOO_FAR; the body of an OK fits the buffer. -/
def Answer.Proper : Answer → Prop
  | .refuse code body =>
    code ∉ [ReplyCode.ok, .reset, .framing, .checksum, .unknown] ∧ body.length ≤ 72
      ∧ (body = [] ∨ code = .past ∨ code = .tooFar)
  | .ok _ body => body.length ≤ 72

theorem Answer.Proper.refuseWith {code : ReplyCode}
    (h : code ∉ [ReplyCode.ok, .reset, .framing, .checksum, .unknown]) : (Machine.refuseWith code).Proper :=
  ⟨h, Nat.zero_le _, .inl rfl⟩

theorem Answer.Proper.whenAttached {s : State} {p : Port} {k : Answer} (h : k.Proper) : (s.whenAttached p k).Proper := by
  unfold State.whenAttached
  split
  · exact h
  · exact .refuseWith (by decide)

theorem Answer.Proper.withFields {α : Type} {fields : Option α} {k : α → Answer} (h : ∀ x, (k x).Proper) :
    (Machine.withFields fields k).Proper := by
  cases fields with
  | none => exact .refuseWith (by decide)
  | some x => exact h x

theorem Answer.Proper.ok {s : State} {body : List Byte} (h : body.length ≤ 72) : (Answer.ok s body).Proper := h

theorem Answer.Proper.asMember {s : State} {p : Port} {k : Proposal → Nat → Answer} (h : ∀ pr d, (k pr d).Proper) :
    (s.asMember p k).Proper := by
  unfold State.asMember
  split
  · exact .refuseWith (by decide)
  · exact .refuseWith (by decide)
  · split
    · exact h _ _
    · exact .refuseWith (by decide)

theorem judgeOffer_proper (p : Port) (l : List Byte) (u : State) : (judgeOffer p l u).Proper := by
  refine .whenAttached (.withFields fun f => ?_)
  dsimp only
  iterate 6
    split
    · exact .refuseWith (by decide)
  exact .ok (by simp)

theorem judgeReserve_proper (p : Port) (l : List Byte) (u : State) : (judgeReserve p l u).Proper := by
  refine .whenAttached (.withFields fun r => ?_)
  iterate 4
    split
    · exact .refuseWith (by decide)
  exact .ok (by simp)

theorem judgeSchedule_proper (p : Port) (l : List Byte) (u : State) : (judgeSchedule p l u).Proper := by
  refine .whenAttached (.withFields fun x => ?_)
  dsimp only
  split
  · exact ⟨by decide, by simp [wordBytes], .inr (.inl rfl)⟩
  · split
    · exact ⟨by decide, by simp [wordBytes], .inr (.inr rfl)⟩
    · split
      · exact .refuseWith (by decide)
      · exact .ok (by simp)

theorem judgeAccept_proper (p : Port) (l : List Byte) (u : State) : (judgeAccept p l u).Proper := by
  refine .whenAttached (.withFields fun i => ?_)
  split
  · exact .refuseWith (by decide)
  · split
    · exact .refuseWith (by decide)
    · split
      · exact .refuseWith (by decide)
      · exact .ok (by simp)

theorem judgeFetch_proper (p : Port) (l : List Byte) (u : State) : (judgeFetch p l u).Proper := by
  refine .whenAttached (.withFields fun k => .ok ?_)
  have h := length_page (u.port p).notices (min (min k (u.port p).notices.length) maxFetched) length_noticeBytes
  have h7 : min (min k (u.port p).notices.length) maxFetched ≤ 7 := Nat.min_le_right _ _
  simp only [List.length_append, List.length_cons, List.length_nil]
  omega

theorem judgeReadMap_proper (p : Port) (l : List Byte) (u : State) : (judgeReadMap p l u).Proper := by
  refine .withFields fun view => .ok ?_
  simp only [List.length_append, List.length_map, List.length_cons, List.length_nil, List.length_take,
    Vector.length_toList]
  omega

/-- The three requests for a page answer at most 72 bytes (R62, R82, R116). -/
theorem Answer.Proper.page {α : Type} {s : State} {a b c : Byte} {l : List α} {k n : Nat} {f : α → List Byte}
    (h : ∀ x, (f x).length = n) (hkn : k * n ≤ 69) : (Answer.ok s ([a, b, c] ++ (l.take k).flatMap f)).Proper := by
  have := length_page l k h
  refine .ok ?_
  simp only [List.length_append, List.length_cons, List.length_nil]
  omega

theorem RequestCode.judge_proper (r : RequestCode) (p : Port) (l : List Byte) (u : State) : (r.judge p l u).Proper := by
  cases r with
  | attach =>
    change (judgeAttach p l u).Proper
    unfold judgeAttach
    split
    · exact .refuseWith (by decide)
    · exact .withFields fun x => .ok (by simp [length_snapshotBytes])
  | detach => exact .whenAttached (.withFields fun _ => .ok (by simp))
  | poll => exact .withFields fun _ => .ok (by simp)
  | snapshot => exact .withFields fun _ => .ok (by simp [length_snapshotBytes])
  | readSlot => exact .withFields fun _ => .ok (by simp [stagedBytes, length_entryBytes, halfBytes])
  | readMap => exact judgeReadMap_proper p l u
  | renew =>
    refine .whenAttached (.withFields fun x => ?_)
    dsimp only
    split
    · exact .refuseWith (by decide)
    · exact .ok (by simp)
  | release =>
    refine .whenAttached (.withFields fun x => ?_)
    split
    · exact .refuseWith (by decide)
    · exact .ok (by simp)
  | holdings => exact .whenAttached (.withFields fun _ => .page (length_holdingBytes u) (by decide))
  | reserve => exact judgeReserve_proper p l u
  | cancel =>
    refine .whenAttached (.withFields fun x => ?_)
    split
    · exact .refuseWith (by decide)
    · exact .ok (by simp [halfBytes])
  | readRequests => exact .whenAttached (.withFields fun _ => .page (fun x => length_recordBytes x.1 x.2) (by decide))
  | offer => exact judgeOffer_proper p l u
  | accept => exact judgeAccept_proper p l u
  | decline =>
    refine .whenAttached (.withFields fun x => ?_)
    split
    · exact .refuseWith (by decide)
    · split
      · exact .refuseWith (by decide)
      · exact .ok (by simp)
  | withdraw =>
    refine .whenAttached (.withFields fun x => ?_)
    split
    · exact .refuseWith (by decide)
    · split
      · exact .refuseWith (by decide)
      · exact .ok (by simp)
  | schedule => exact judgeSchedule_proper p l u
  | unschedule =>
    refine .whenAttached (.withFields fun x => ?_)
    split
    · exact .refuseWith (by decide)
    · exact .ok (by simp [wordBytes])
  | readEdits => exact .whenAttached (.withFields fun _ => .page (fun x => length_editBytes x.1 x.2) (by decide))
  | propose =>
    refine .whenAttached (.withFields fun x => ?_)
    dsimp only
    split
    · exact .refuseWith (by decide)
    · exact .refuseWith (by decide)
    · exact .ok (by simp)
  | confirm =>
    refine .whenAttached (.withFields fun _ => .asMember fun pr d => ?_)
    split
    · exact .ok (by simp)
    · exact .ok (by simp)
  | reject => exact .whenAttached (.withFields fun _ => .asMember fun _ _ => .ok (by simp))
  | readPlan => exact .withFields fun _ => .ok (by simp [length_planBytes, length_proposalBytes])
  | fetch => exact judgeFetch_proper p l u
  | attention =>
    change (judgeAttention p l u).Proper
    unfold judgeAttention
    dsimp only
    split
    · exact .refuseWith (by decide)
    · exact .withFields fun _ => .ok (by simp)

/-! ### What a judgement leaves (R12) -/

/-- `t` differs from `s` in the Staged table, the queues and lists, the proposal, the drive-cut marks and the ports
alone. -/
def State.SameCore (s t : State) : Prop :=
  { t with
      staged := s.staged, requests := s.requests, offers := s.offers, offerCounter := s.offerCounter
      edits := s.edits, editCounter := s.editCounter, proposal := s.proposal, driveCut := s.driveCut
      ports := s.ports } = s

theorem State.SameCore.of_fields {s t : State} (h : t.pending = s.pending ∧ t.resetAsserted = s.resetAsserted
    ∧ t.active = s.active ∧ t.generation = s.generation ∧ t.geometry = s.geometry ∧ t.frame = s.frame
    ∧ t.frameCounter = s.frameCounter ∧ t.changed = s.changed ∧ t.edgeTimer = s.edgeTimer
    ∧ t.recoveryCount = s.recoveryCount ∧ t.clockPhase = s.clockPhase ∧ t.beacon = s.beacon ∧ t.plan = s.plan
    ∧ t.choiceIndex = s.choiceIndex) : s.SameCore t := by
  obtain ⟨h1, h2, h3, h4, h5, h6, h7, h8, h9, h10, h11, h12, h13, h14⟩ := h
  unfold State.SameCore
  rw [h1, h2, h3, h4, h5, h6, h7, h8, h9, h10, h11, h12, h13, h14]

/-- The other ports keep their attachment. -/
def State.OthersAttached (p : Port) (s t : State) : Prop :=
  ∀ q, q ≠ p → (t.port q).attachment = (s.port q).attachment

theorem State.Told.othersAttached {s t : State} (h : s.Told t) (p : Port) : s.OthersAttached p t := fun q _ => by
  obtain ⟨l, hl⟩ := h q
  simp [hl]

theorem State.OthersAttached.of_ports {s t : State} (h : t.ports = s.ports) (p : Port) : s.OthersAttached p t :=
  (State.Told.of_ports h).othersAttached p

theorem State.OthersAttached.setPort (s : State) (p : Port) (x : PortState) : s.OthersAttached p (s.setPort p x) :=
  fun q hq => by rw [State.port_setPort_ne s hq]

theorem State.OthersAttached.trans {s t u : State} {p : Port} (h : s.OthersAttached p t) (k : t.OthersAttached p u) :
    s.OthersAttached p u := fun q hq => (k q hq).trans (h q hq)

/-- A request moves neither the Active table, nor the plan in use, nor the Frame Generator, nor another port's
attachment (R12). -/
theorem RequestCode.judge_leaves {r : RequestCode} {p : Port} {l : List Byte} {s t : State} {body : List Byte}
    (h : r.judge p l s = .ok t body) : s.SameCore t ∧ s.OthersAttached p t := by
  have reads {u : State} : u.SameCore u ∧ u.OthersAttached p u := ⟨rfl, .of_ports rfl p⟩
  cases r with
  | attach =>
    obtain ⟨_, x, _, rfl, _⟩ := judgeAttach_ok h
    exact ⟨rfl, .setPort s p _⟩
  | detach =>
    obtain ⟨_, _, rfl⟩ := judgeDetach_ok h
    refine ⟨.of_fields (by simp), ?_⟩
    have hport : s.OthersAttached p (s.detachPort p) := fun q hq => by rw [State.port_detachPort, if_neg hq]
    have hgive := (State.giveUpSlots_told (s.detachPort p) p .detached (s.ownSlots p)).othersAttached p
    have hdrop (u : State) : u.OthersAttached p (u.dropTargetOffers p) := (u.dropTargetOffers_told p).othersAttached p
    have hown (u : State) : u.OthersAttached p (u.dropOwn p) := .of_ports rfl p
    have hleave (u : State) : u.OthersAttached p (u.leaveProposal p).1 := (u.leaveProposal_told p).othersAttached p
    exact ((((hport.trans hgive).trans (hdrop _)).trans (hown _)).trans (hleave _))
  | poll => obtain rfl := judgePoll_ok h; exact reads
  | snapshot => obtain rfl := judgeSnapshot_ok h; exact reads
  | readSlot => obtain rfl := judgeReadSlot_ok h; exact reads
  | readMap => obtain rfl := judgeReadMap_ok h; exact reads
  | holdings => obtain rfl := judgeHoldings_ok h; exact reads
  | readRequests => obtain rfl := judgeReadRequests_ok h; exact reads
  | readEdits => obtain rfl := judgeReadEdits_ok h; exact reads
  | readPlan => obtain rfl := judgeReadPlan_ok h; exact reads
  | renew =>
    obtain ⟨_, _, lease, n, ns, _, _, rfl, _⟩ := judgeRenew_ok h
    exact ⟨.of_fields (by simp), .of_ports (by simp) p⟩
  | release =>
    obtain ⟨_, _, n, ns, _, _, rfl, _⟩ := judgeRelease_ok h
    exact ⟨.of_fields (by simp), (s.giveUpSlots_told p .released (n :: ns)).othersAttached p⟩
  | reserve =>
    obtain ⟨_, r, _, _, _, _, _, rfl, _⟩ := judgeReserve_ok h
    exact ⟨rfl, .of_ports rfl p⟩
  | cancel =>
    obtain ⟨_, _, _, r, _, _, rfl, _⟩ := judgeCancel_ok h
    exact ⟨rfl, .of_ports rfl p⟩
  | offer =>
    obtain ⟨_, f, _, _, _, _, _, _, _, rfl, _⟩ := judgeOffer_ok h
    exact ⟨.of_fields (by simp),
      (State.OthersAttached.of_ports (s := s) rfl p).trans ((State.notify_told _ _ _).othersAttached p)⟩
  | accept =>
    obtain ⟨_, _, o, _, _, _, _, rfl, _⟩ := judgeAccept_ok h
    exact ⟨.of_fields (by simp), (s.acceptOffer_told o).othersAttached p⟩
  | decline =>
    obtain ⟨_, _, o, _, _, _, rfl, _⟩ := judgeDecline_ok h
    exact ⟨.of_fields (by simp), (s.refuseOffer_told o .declined).othersAttached p⟩
  | withdraw =>
    obtain ⟨_, _, o, _, _, _, rfl, _⟩ := judgeWithdraw_ok h
    exact ⟨.of_fields (by simp), (s.voidOffer_told o _ .withdrawn).othersAttached p⟩
  | schedule =>
    obtain ⟨_, f, act, _, _, _, _, rfl, _⟩ := judgeSchedule_ok h
    exact ⟨rfl, .of_ports rfl p⟩
  | unschedule =>
    obtain ⟨_, _, e, _, _, rfl, _⟩ := judgeUnschedule_ok h
    exact ⟨rfl, .of_ports rfl p⟩
  | propose =>
    obtain ⟨_, terms, d, _, _, rfl, _⟩ := judgePropose_ok h
    have hjudged := (s.judgeProposal_told (s.newProposal p terms) d).othersAttached p
    split
    · exact ⟨.of_fields (by simp), hjudged⟩
    · exact ⟨.of_fields (by simp), hjudged.trans ((State.notifyAll_told _ _ _).othersAttached p)⟩
  | confirm =>
    obtain ⟨_, _, pr, d, _, _, ⟨_, rfl⟩ | ⟨_, rfl⟩⟩ := judgeConfirm_ok h
    · exact reads
    · exact ⟨.of_fields (by simp), (s.judgeProposal_told _ d).othersAttached p⟩
  | reject =>
    obtain ⟨_, _, pr, _, _, _, rfl, _⟩ := judgeReject_ok h
    exact ⟨.of_fields (by simp), (s.failProposal_told pr .rejected p).othersAttached p⟩
  | fetch =>
    obtain ⟨_, _, n, _, _, rfl, _⟩ := judgeFetch_ok h
    exact ⟨rfl, .setPort s p _⟩
  | attention =>
    obtain ⟨x, m, _, _, rfl, _⟩ := judgeAttention_ok h
    exact ⟨rfl, .setPort s p _⟩

/-- Equal links have equal CSn levels, receivers and reply buffers. -/
theorem PortState.of_link {x y : PortState} (h : x.link = y.link) :
    x.selected = y.selected ∧ x.receiver = y.receiver ∧ x.replyCode = y.replyCode ∧ x.replyBody = y.replyBody
      ∧ x.replySequence = y.replySequence := by
  obtain ⟨⟩ := x
  obtain ⟨⟩ := y
  simp only [PortState.link, PortState.mk.injEq] at h
  obtain ⟨h1, h2, h3, h4, h5, -⟩ := h
  exact ⟨h1, h2, h3, h4, h5⟩

/-- Settles O8: a refusal only moves the reply buffer, and an OK what its judgement leaves free to move. -/
theorem everyTakenRequestIsAnswered : Obligations.EveryTakenRequestIsAnswered := by
  intro c s p r l hc ht
  refine ⟨_, exec_of_takes hc ht, ?_⟩
  have hproper := r.judge_proper p l (s.deselect p)
  have hother (q : Port) (hq : q ≠ p) : (s.deselect p).port q = s.port q := by rw [State.port_deselect, if_neg hq]
  cases h : r.judge p l (s.deselect p) with
  | refuse code body =>
    rw [h] at hproper
    obtain ⟨hcode, hlen, hbody⟩ := hproper
    rw [State.settle_refuse]
    simp only [State.port_answered, if_true]
    refine ⟨rfl, rfl, rfl, hlen, fun hm => hcode (List.mem_cons_of_mem _ hm), fun _ => ⟨rfl, hbody⟩, rfl, fun q hq => ?_⟩
    rw [if_neg hq]
    exact ⟨rfl, rfl, rfl, rfl, rfl, rfl⟩
  | ok t body =>
    rw [h] at hproper
    obtain ⟨hcore, hattached⟩ := RequestCode.judge_leaves h
    have hlink := RequestCode.judge_sameLinks h
    obtain ⟨hsel, hrec, -, -, hseq⟩ := PortState.of_link (hlink p)
    rw [State.port_deselect, if_pos rfl] at hsel hrec hseq
    rw [State.settle_ok]
    simp only [State.port_reply, if_true]
    refine ⟨hsel, hrec, congrArg (· + 1) hseq, hproper, by decide, fun hne => absurd rfl hne,
      congrArg (fun u : State => { u with ports := s.ports }) hcore, fun q hq => ?_⟩
    rw [if_neg hq]
    obtain ⟨hsel, hrec, hcode, hbody, hseq⟩ := PortState.of_link (hlink q)
    rw [hother q hq] at hsel hrec hcode hbody hseq
    exact ⟨hsel, hrec, hcode, hbody, hseq, (hattached q hq).trans (by rw [hother q hq])⟩

end Sys2Proof.Machine
end

section
/-! SUPPORT. The proofs of the tier 1 statements about SNAPSHOT, the stall, the bit times, FSYNC and reset. -/

-- One proof after another: many at once take more memory than the check allows.
set_option Elab.async false

namespace Sys2Proof.Machine

open Sys2Proof

/-! ### SNAPSHOT (R45) -/

theorem exec_snapshot_of_nil {s : State} {p : Port} (ht : s.takes p .snapshot [] = true) :
    exec (.snapshot p []) s = .next (s.answered p .ok s.snapshotBytes) := by
  refine congrArg Host.Outcome.next ((s.takeRequest_of_takes p .snapshot [] _ ht).trans ?_)
  rw [judgeSnapshot, readEmpty_nil, withFields_some, State.settle_ok, State.reply_deselect]
  rfl

theorem exec_snapshot_of_ne_nil {s : State} {p : Port} {l : List Byte} (ht : s.takes p .snapshot l = true)
    (hl : l ≠ []) : exec (.snapshot p l) s = .next (s.answered p .badField []) := by
  refine congrArg Host.Outcome.next ((s.takeRequest_of_takes p .snapshot l _ ht).trans ?_)
  rw [judgeSnapshot, readEmpty_of_ne_nil hl, withFields_none, State.settle_refuseWith]

/-- Settles O11: the snapshot values are the bytes of the frame state as it stands. -/
theorem snapshotValuesAreTakenTogether : Obligations.SnapshotValuesAreTakenTogether := by
  intro s p l place values
  have hvalues : values = s.snapshotBytes := by
    unfold values place State.snapshotBytes FrameState.code State.slotIndex
    split <;> simp_all
  refine ⟨?_, fun ht hl => exec_snapshot_of_ne_nil ht hl, ?_⟩
  · rintro ht rfl
    rw [hvalues]
    exact exec_snapshot_of_nil ht
  · rintro w m t rfl hm ht hp hexec
    rw [exec_attach_of_some ht hp (readAttach_pair hm)] at hexec
    injection hexec with hexec
    subst hexec
    rw [State.port_setPort_self, hvalues, ← length_snapshotBytes s]
    exact List.take_left

/-! ### Frames that do not run (R36, R41, R46) -/

theorem State.framesRun_eq_false {s : State} (h : s.resetAsserted = true ∨ ∃ cause k, s.frame = .stalled cause k) :
    s.framesRun = false := by
  obtain h | ⟨cause, k, h⟩ := h <;> simp [State.framesRun, FrameState.isRunning, h]

theorem State.framesRun_of_running {s : State} {pos : BitPosition} (hr : s.resetAsserted = false)
    (h : s.frame = .running pos) : s.framesRun = true := by
  simp [State.framesRun, FrameState.isRunning, hr, h]

theorem State.dueHead_eq_none {s : State} (h : s.framesRun = false) : s.dueHead = none := by
  unfold State.dueHead
  split
  · rfl
  · rw [h]
    rfl

/-- Settles O46: every one of these commands asks first whether frames run. -/
theorem noFrameWorkWhileStalledOrReset : Obligations.NoFrameWorkWhileStalledOrReset := by
  intro s h
  have hstop := State.framesRun_eq_false h
  have hnone := State.dueHead_eq_none hstop
  have keep (f : Bool) (t : State) : (if (s.framesRun && f) = true then t else s) = s := by rw [hstop]; rfl
  have stay (t : State) : (if s.framesRun = true then t else s) = s := by rw [hstop]; rfl
  refine ⟨congrArg _ (stay _), fun n => congrArg _ (keep _ _), ?_, ?_, ?_, ?_, congrArg _ (stay _), fun i => ?_, ?_,
    congrArg _ (stay _), congrArg _ (keep _ _)⟩
  · change execTimedRelease s = _
    rw [execTimedRelease, hnone]
  · change execTimedRenew s = _
    rw [execTimedRenew, hnone]
  · change execTimedEnqueue s = _
    rw [execTimedEnqueue, hnone]
  · change execPlanApplication s = _
    rw [execPlanApplication]
    cases s.dueTerms with
    | none => rfl
    | some terms => exact congrArg _ (stay _)
  · change execOfferLapse i s = _
    rw [execOfferLapse]
    cases s.offerWithId i with
    | none => rfl
    | some o => exact congrArg _ (keep _ _)
  · change execProposalLapse s = _
    rw [execProposalLapse]
    cases s.lapsingProposal with
    | none => rfl
    | some pr => exact congrArg _ (stay _)

/-! ### Bit times (R30, R32, R34) -/

theorem exec_bitTimeBegins {s : State} {pos : BitPosition} (hr : s.resetAsserted = false)
    (h : s.frame = .running pos) :
    exec .bitTimeBegins s = .next (({ s with edgeTimer := 0, clockPhase := 0 } : State).nextBit pos) := by
  change execBitTimeBegins s = _
  rw [execBitTimeBegins, if_pos (State.framesRun_of_running hr h), State.risingEdge, h]

theorem exec_frameEnd {s : State} (h : s.framesRun = true) : exec .frameEnd s = .next s.endFrame :=
  congrArg Host.Outcome.next (if_pos h)

/-- A frame that runs after the geometry is loaded has begun with its beacon word. -/
theorem State.loadGeometry_begun {s : State} (h : s.loadGeometry.frame.isRunning = true) :
    { s.loadGeometry with frame := .running (.bit 0), beacon := s.loadGeometry.beaconWord } = s.loadGeometry := by
  unfold State.loadGeometry at h ⊢
  dsimp only at h ⊢
  split at h
  · cases h
  next hno =>
    rw [if_neg hno]
    rfl

theorem State.bclk_of_internal {s : State} (hr : s.resetAsserted = false) (hs : s.geometry.source = .internal) :
    s.bclk = some (decide (s.clockPhase < s.geometry.divider.toNat + 1)) := by
  simp [State.bclk, State.external, hr, hs]

/-- Settles O47: the arm of BIT_TIME_BEGINS by bit position; the clock phase is 0 after each. -/
theorem bitTimesFollowOneAnother : Obligations.BitTimesFollowOneAnother := by
  refine ⟨fun s => ⟨fun hr => ?_, fun hr hs => ?_, fun hr hs => ⟨fun hlt => ?_, fun hle => ?_⟩⟩, fun s t hrun hexec => ?_,
    ?_⟩
  · simp [State.bclk, hr]
  · simp [State.bclk, State.external, hr, hs]
  · rw [State.bclk_of_internal hr hs, decide_eq_true hlt]
  · rw [State.bclk_of_internal hr hs, decide_eq_false (by omega)]
  · obtain ⟨hr, pos, hf⟩ : s.resetAsserted = false ∧ ∃ pos, s.frame = .running pos := by
      cases hf : s.frame <;> simp_all [State.framesRun, FrameState.isRunning]
    rw [exec_bitTimeBegins hr hf] at hexec
    injection hexec with hexec
    have hphase : t.clockPhase = 0 ∧ t.resetAsserted = false := by
      subst hexec
      cases pos with
      | leadInWait => exact ⟨rfl, hr⟩
      | leadIn => exact ⟨rfl, hr⟩
      | bit n =>
        unfold State.nextBit
        dsimp only
        split
        · exact ⟨rfl, hr⟩
        · simp [State.endFrame, State.finishFrame, hr]
    obtain ⟨hzero, hreset⟩ := hphase
    exact ⟨hzero, fun hs => by simp [State.bclk_of_internal hreset hs, hzero]⟩
  · intro s hr edge begun
    refine ⟨fun hf => ?_, fun hf => ?_, fun k hf => ⟨fun hlt => ?_, fun hle => ?_⟩⟩
    · exact exec_bitTimeBegins hr hf
    · exact exec_bitTimeBegins hr hf
    · rw [exec_bitTimeBegins hr hf]
      exact congrArg Host.Outcome.next (if_pos hlt)
    · have hrun : edge.framesRun = true := State.framesRun_of_running (s := edge) hr hf
      refine ⟨_, exec_frameEnd hrun, ?_, fun h => State.loadGeometry_begun h⟩
      rw [exec_bitTimeBegins hr hf]
      exact congrArg Host.Outcome.next (if_neg (Nat.not_lt.2 hle))

/-! ### The stall (R37 to R40) -/

theorem State.notifyAll_portList (s : State) (n : Notice) :
    s.notifyAll portList n = { s with
      ports := ⟨(s.port .a).told [n], (s.port .b).told [n], (s.port .c).told [n], (s.port .d).told [n]⟩ } := by
  rw [State.notifyAll_eq_toldAll s portList_nodup]
  rfl

theorem State.external_of_source {s : State} (h : s.geometry.source = .external) : s.external = true := by
  simp [State.external, h]

theorem State.external_of_internal {s : State} (h : s.geometry.source = .internal) : s.external = false := by
  simp [State.external, h]

/-- Settles O48: the slot index of the frame in progress by bit position. -/
theorem clockLossAbandonsTheFrame : Obligations.ClockLossAbandonsTheFrame := by
  intro s pos hr hf
  have hrun := State.framesRun_of_running hr hf
  refine ⟨fun hs => ?_, ?_⟩
  · exact congrArg Host.Outcome.next (if_neg (by rw [State.external_of_internal hs]; simp))
  · intro hs index told
    have hindex : s.slotIndex = index := by
      unfold State.slotIndex index
      rw [hf]
      cases pos <;> rfl
    refine congrArg Host.Outcome.next ((if_pos (by rw [hrun, State.external_of_source hs]; rfl)).trans ?_)
    rw [State.loseClock, State.notifyAll_portList, hindex]
    rfl

/-- Settles O49: the arms of the four clock events by frame state. -/
theorem sixteenEdgesEndTheStall : Obligations.SixteenEdgesEndTheStall := by
  refine ⟨fun s hr hs => ⟨?_, ?_⟩, fun s hoff => ?_⟩
  · rintro ⟨pos, hf⟩
    have hstall : s.inStall = false := by simp [State.inStall, hf, FrameState.isRunning]
    refine ⟨?_, ?_, ?_⟩
    · refine congrArg Host.Outcome.next ((if_pos (by rw [hr, State.external_of_source hs]; rfl)).trans ?_)
      exact if_pos (by rw [hf]; rfl)
    · exact congrArg Host.Outcome.next (if_neg (by rw [hstall]; simp))
    · exact congrArg Host.Outcome.next (if_neg (by rw [hstall]; simp))
  · intro cause k hf told back
    have hnot : ¬ s.frame.isRunning = true := by simp [hf, FrameState.isRunning]
    have hstall : (s.inStall && s.external) = true := by
      simp [State.inStall, hr, hf, FrameState.isRunning, State.external_of_source hs]
    have hedge : (!s.resetAsserted && s.external) = true := by rw [hr, State.external_of_source hs]; rfl
    have hback : s.recover = back := by
      unfold State.recover
      rw [hf]
      cases cause with
      | lost => exact State.notifyAll_portList _ _
      | switch => rfl
    refine ⟨congrArg Host.Outcome.next (if_pos hstall),
      congrArg Host.Outcome.next ((if_pos hstall).trans hback), fun hlt => ?_, fun hle => ?_⟩
    · refine congrArg Host.Outcome.next ((if_pos hedge).trans ((if_neg hnot).trans (if_pos ?_)))
      exact Nat.succ_lt_succ hlt
    · refine congrArg Host.Outcome.next ((if_pos hedge).trans ((if_neg hnot).trans ((if_neg ?_).trans hback)))
      exact Nat.not_lt.2 (Nat.succ_le_succ hle)
  · have hstall : (s.inStall && s.external) = false := by
      obtain hr | hs := hoff
      · simp [State.inStall, hr]
      · simp [State.external_of_internal hs]
    have hedge : (!s.resetAsserted && s.external) = false := by
      obtain hr | hs := hoff
      · simp [hr]
      · simp [State.external_of_internal hs]
    have hloss : (s.framesRun && s.external) = false := by
      obtain hr | hs := hoff
      · simp [State.framesRun, hr]
      · simp [State.external_of_internal hs]
    exact ⟨congrArg Host.Outcome.next (if_neg (by rw [hedge]; simp)),
      congrArg Host.Outcome.next (if_neg (by rw [hstall]; simp)),
      congrArg Host.Outcome.next (if_neg (by rw [hstall]; simp)),
      congrArg Host.Outcome.next (if_neg (by rw [hloss]; simp))⟩

/-! ### FSYNC (R33) -/

/-- Settles O52: FSYNC by frame state, form and polarity. -/
theorem frameSyncMarksTheFrame : Obligations.FrameSyncMarksTheFrame := by
  intro s
  refine ⟨?_, fun hr => ?_, fun cause k hf => ?_, fun hf => ?_, fun hr hf => ?_, fun k hr hf => ⟨fun hform => ?_, fun hform => ?_⟩⟩
  · unfold State.fsyncLevel
    cases s.geometry.polarity <;> cases s.fsyncAsserted <;> rfl
  · simp [State.fsyncAsserted, hr]
  · simp [State.fsyncAsserted, hf]
  · simp [State.fsyncAsserted, hf]
  · cases hform : s.geometry.form <;> simp [State.fsyncAsserted, hr, hf, hform]
  · simp [State.fsyncAsserted, hr, hf, hform, Geometry.frameBits]
  · simp [State.fsyncAsserted, hr, hf, hform]

/-! ### Reset (R46, R122) -/

/-- Settles O58: the checks of the laws hold of the reset state. -/
theorem resetObeysEveryLaw : Obligations.ResetObeysEveryLaw :=
  ⟨State.scheduleOk_of_check (by decide +kernel), State.requestsOk_of_check (by decide +kernel),
    State.editsOk_of_check (by decide +kernel), State.noticesOk_of_check (by decide +kernel),
    State.offerIdsOk_of_check (by decide +kernel), State.editIdsOk_of_check (by decide +kernel),
    State.timingOk_of_check (by decide +kernel), rfl, State.bookkeepingOk_of_check (by decide +kernel)⟩

theorem State.port_resetAll (s : State) (slots : Nat) (width : SlotWidth) (p : Port) :
    (s.resetAll slots width).port p = (s.port p).resetPort := by cases p <;> rfl

theorem Table.entryAt_reset {n : Nat} (h : n < 64) :
    entryAt Table.atReset n = if n = 0 then .beacon else .free := by
  split
  next h0 => subst h0; rfl
  next h0 => exact Table.entryAt_atReset (by omega) h

/-- Settles O50: both commands load all reset values; the straps give S and W case by case. -/
theorem resetClearsEverything : Obligations.ResetClearsEverything := by
  refine ⟨fun s slt1 slt0 wid1 wid0 hr => ?_, fun s slt1 slt0 wid1 wid0 => ⟨fun hr => ?_, ?_⟩⟩
  · refine ⟨_, congrArg Host.Outcome.next (if_pos hr), ?_, rfl⟩
    change Plan.atReset _ _ = _
    cases slt1 <;> cases slt0 <;> cases wid1 <;> cases wid0 <;> rfl
  · exact congrArg Host.Outcome.next (if_neg (by rw [hr]; simp))
  · refine ⟨_, _, rfl, congrArg Host.Outcome.next (if_pos rfl), rfl, rfl, ?_⟩
    rintro v (rfl | rfl)
    · refine ⟨fun n hn => ⟨Table.entryAt_reset hn, Table.entryAt_reset hn⟩, rfl, rfl, rfl, rfl,
        fun p => ?_, rfl, rfl, rfl, rfl, rfl, rfl, rfl, rfl, rfl, rfl, fun p => ?_⟩
      · cases p <;> rfl
      · cases p <;> rfl
    · refine ⟨fun n hn => ⟨Table.entryAt_reset hn, Table.entryAt_reset hn⟩, rfl, rfl, rfl, rfl,
        fun p => ?_, rfl, rfl, rfl, rfl, rfl, rfl, rfl, rfl, rfl, rfl, fun p => ?_⟩
      · cases p <;> rfl
      · cases p <;> rfl

end Sys2Proof.Machine
end

section
/-! SUPPORT. The proofs of the statements about the beacon word, the ids, the notice queues, FETCH, the lapses and the
wait walk. -/

-- One proof after another: many at once take more memory than the check allows.
set_option Elab.async false

namespace Sys2Proof.Machine

open Sys2Proof

/-! ### The beacon word (R42 to R44, R169) -/

/-- A frame that begins with a rising edge or a frame end captures the beacon word. -/
theorem beacon_of_frame_begun {c : Instr} {s t : State} (hrun : s.framesRun = true)
    (hc : c = .bitTimeBegins ∨ c = .frameEnd) (hexec : exec c s = .next t) (ht : t.frame = .running (.bit 0)) :
    t.beacon = t.beaconWord := by
  have hend (u : State) (h : u.endFrame.frame = .running (.bit 0)) : u.endFrame.beacon = u.endFrame.beaconWord :=
    (congrArg State.beacon (State.loadGeometry_begun (congrArg FrameState.isRunning h))).symm
  obtain rfl | rfl := hc
  · obtain ⟨hr, pos, hf⟩ : s.resetAsserted = false ∧ ∃ pos, s.frame = .running pos := by
      cases hf : s.frame <;> simp_all [State.framesRun, FrameState.isRunning]
    rw [exec_bitTimeBegins hr hf] at hexec
    injection hexec with hexec
    subst hexec
    cases pos with
    | leadInWait => cases ht
    | leadIn => rfl
    | bit n =>
      unfold State.nextBit at ht ⊢
      dsimp only at ht ⊢
      split at ht
      · cases ht
      next hlast =>
        rw [if_neg hlast]
        exact hend _ ht
  · rw [exec_frameEnd hrun] at hexec
    injection hexec with hexec
    subst hexec
    exact hend _ ht

/-- The bits of the flags byte, from its fields (R169). -/
theorem flagsByte_bits (changed due a b c d : Bool) :
    let flags : Byte := bitAt 7 changed ||| bitAt 6 due ||| portSetByte ⟨a, b, c, d⟩
    flags.getLsbD 7 = changed ∧ flags.getLsbD 6 = due ∧ flags.extractLsb' 4 2 = 0 ∧ flags.getLsbD 3 = d
      ∧ flags.getLsbD 2 = c ∧ flags.getLsbD 1 = b ∧ flags.getLsbD 0 = a := by
  cases changed <;> cases due <;> revert a b c d <;> decide

theorem State.planDue_iff (s : State) : s.planDue = true ↔ ∃ pr, s.proposal = .agreed pr s.frameCounter := by
  unfold State.planDue
  split
  next pr f hpr =>
    simp only [hpr, beq_iff_eq, ProposalState.agreed.injEq]
    exact ⟨fun h => ⟨pr, rfl, h.symm⟩, fun ⟨_, _, h⟩ => h.symm⟩
  next hpr => simp [hpr]
  next hpr => simp [hpr]

/-- The word is the first W/8 bytes of its widest form. -/
theorem State.beaconWord_eq_take (s : State) : s.beaconWord =
    ([s.frameCounter.extractLsb' 0 8, s.generation, s.beaconFlags, s.frameCounter.extractLsb' 8 8] : List Byte).take
      (s.geometry.width.bits / 8) := by
  unfold State.beaconWord
  cases s.geometry.width <;> rfl

theorem wireBit_of_lt {l : List Byte} {k : Nat} (h : k < l.length * 8) :
    wireBit l k = some ((l.getD (k / 8) 0).getMsbD (k % 8)) := by
  have hk : k / 8 < l.length := by omega
  simp [wireBit, hk]

/-- Settles O53: a frame begins at one of two edges, and the word that it then captures is as long as slot 0. -/
theorem beaconWordIsCapturedAndShifted : Obligations.BeaconWordIsCapturedAndShifted := by
  refine ⟨fun c s t hrun hc hexec ht => ?_, fun s hok => ?_⟩
  · have hword := beacon_of_frame_begun hrun hc hexec ht
    obtain ⟨h7, h6, h4, h3, h2, h1, h0⟩ := flagsByte_bits t.changed t.planDue (t.attached .a) (t.attached .b)
      (t.attached .c) (t.attached .d)
    refine ⟨t.beaconFlags, h7, ?_, h4, h3, h2, h1, h0, hword.trans t.beaconWord_eq_take, fun k hk => ?_⟩
    · rw [← t.planDue_iff]
      exact iff_of_eq (congrArg (· = true) h6)
    · refine (if_pos hk).trans (wireBit_of_lt ?_)
      rw [hword, t.length_beaconWord]
      exact hk
  · unfold State.bdat
    unfold State.BeaconOk at hok
    split
    next k hf =>
      rw [hf] at hok ⊢
      dsimp only at hok
      by_cases hk : k < s.geometry.width.bits
      · rw [if_pos hk] at hok ⊢
        rw [wireBit_of_lt (hok ▸ hk)]
        exact ⟨fun _ => ⟨k, rfl, hk⟩, fun _ => rfl⟩
      · rw [if_neg hk]
        refine ⟨fun h => (nomatch h), ?_⟩
        rintro ⟨_, ⟨⟩, hlt⟩
        exact absurd hlt hk
    next hf => simp [hf]
    next hf => simp [hf]
    next hf => simp [hf]

/-! ### New ids (R88, R107) -/

/-- The search stops at the first value that is not in use, or where its fuel ends. -/
theorem freeId_iterate (used : Byte → Bool) (fuel : Nat) (i : Byte) :
    ∃ k ≤ fuel, freeId used fuel i = nextId^[k] i ∧ ∀ j < k, used (nextId^[j] i) = true := by
  induction fuel generalizing i with
  | zero => exact ⟨0, le_rfl, rfl, fun j hj => absurd hj (Nat.not_lt_zero j)⟩
  | succ n ih =>
    rw [freeId]
    split
    next hi =>
      obtain ⟨k, hk, hfree, hused⟩ := ih (nextId i)
      refine ⟨k + 1, Nat.succ_le_succ hk, hfree, fun j hj => ?_⟩
      cases j with
      | zero => exact hi
      | succ j => exact hused j (Nat.lt_of_succ_lt_succ hj)
    · exact ⟨0, Nat.zero_le _, rfl, fun j hj => absurd hj (Nat.not_lt_zero j)⟩

theorem mem_idChain {n : Nat} {i x : Byte} (h : x ∈ idChain n i) : ∃ j < n, x = nextId^[j] i := by
  induction n generalizing i with
  | zero => cases h
  | succ n ih =>
    rcases List.mem_cons.1 h with rfl | h
    · exact ⟨0, Nat.succ_pos n, rfl⟩
    · obtain ⟨j, hj, rfl⟩ := ih h
      exact ⟨j + 1, Nat.succ_lt_succ hj, rfl⟩

/-- Values in a row that are all in use are distinct, so there are no more of them than ids in use. -/
theorem passed_le {ids : List Byte} {b k : Nat} {i : Byte} (hb : b ≤ 24) (hlen : ids.length ≤ b) (h0 : i ≠ 0)
    (hused : ∀ j < k, nextId^[j] i ∈ ids) : k ≤ b := by
  by_contra hk
  have hnodup : (idChain (b + 1) i).Nodup := by
    rw [← idChain_take (b + 1) 25 i (by omega)]
    exact ((idChain_nodup i).resolve_right h0).sublist (List.take_sublist _ _)
  have hsub : idChain (b + 1) i ⊆ ids := fun x hx => by
    obtain ⟨j, hj, rfl⟩ := mem_idChain hx
    exact hused j (by omega)
  have hle := (hnodup.subperm hsub).length_le
  rw [length_idChain] at hle
  omega

/-- A search of 255 values among at most 24 ids in use. -/
theorem freeId_first {ids : List Byte} {used : Byte → Bool} {b : Nat} {i : Byte} (hu : ∀ x, used x = true ↔ x ∈ ids)
    (hb : b ≤ 24) (hlen : ids.length ≤ b) (h0 : i ≠ 0) :
    ∃ k ≤ b, freeId used 255 i = nextId^[k] i ∧ freeId used 255 i ≠ 0 ∧ freeId used 255 i ∉ ids
      ∧ ∀ j < k, nextId^[j] i ∈ ids := by
  obtain ⟨k, -, hfree, hused⟩ := freeId_iterate used 255 i
  have hpassed : ∀ j < k, nextId^[j] i ∈ ids := fun j hj => (hu _).1 (hused j hj)
  obtain ⟨x, hx, hnot⟩ := exists_free_id ids 25 (by omega) le_rfl i h0
  have hunused : used x = false :=
    Bool.eq_false_iff.2 fun h => by rw [List.contains_iff_mem.2 ((hu x).1 h)] at hnot; cases hnot
  obtain ⟨hout, hne⟩ := freeId_spec used 255 i ⟨x, hx, hunused⟩ h0
  exact ⟨k, passed_le hb hlen h0 hpassed, hfree, hne, fun h => (nomatch hout.symm.trans ((hu _).2 h)), hpassed⟩

/-- Settles O28: both ids are found by one search, among at most 8 and at most 24 ids in use. -/
theorem newIdsAreTheFirstFree : Obligations.NewIdsAreTheFirstFree := by
  intro s after
  refine ⟨?_, ?_⟩
  · rintro ⟨hlen, -, -, h0⟩
    obtain ⟨k, hk, hfree, hne, hout, hused⟩ := freeId_first (ids := s.offers.map Offer.id)
      (used := fun i => s.offers.any (fun o => o.id == i)) (b := 8) (by simp) (by decide) (by simpa using hlen) h0
    exact ⟨k, hk, hfree, hne, fun o ho hid => hout (List.mem_map.2 ⟨o, ho, hid⟩),
      fun j hj => List.mem_map.1 (hused j hj)⟩
  · rintro ⟨hlen, -, -, h0⟩
    obtain ⟨k, hk, hfree, hne, hout, hused⟩ := freeId_first (ids := s.edits.map Edit.id)
      (used := fun i => s.edits.any (fun e => e.id == i)) (b := 24) (by simp) (by decide) (by simpa using hlen) h0
    exact ⟨k, hk, hfree, hne, fun e he hid => hout (List.mem_map.2 ⟨e, he, hid⟩),
      fun j hj => List.mem_map.1 (hused j hj)⟩

/-! ### Notices join the queue (R140, R141) -/

theorem foldl_takeNotice {l : List Notice} {x : PortState} (h : x.notices.length ≤ 16) :
    l.foldl PortState.takeNotice x =
      { x with
        notices := (x.notices ++ l).take 16
        lost := x.lost || decide (16 < (x.notices ++ l).length) } := by
  induction l generalizing x with
  | nil => simp [List.take_of_length_le h, Nat.not_lt.2 h]
  | cons n l ih =>
    rw [List.foldl_cons, PortState.takeNotice]
    split
    next hroom =>
      have hroom : x.notices.length < 16 := hroom
      rw [ih (by simpa using hroom)]
      simp
    next hfull =>
      have hfull : x.notices.length = 16 := by
        have : ¬ x.notices.length < 16 := hfull
        omega
      rw [ih (x := { x with lost := true }) h]
      simp [hfull]

/-- Settles O40: one notice after another, with room and at a full queue. -/
theorem noticesJoinTheTailUntilFull : Obligations.NoticesJoinTheTailUntilFull := by
  intro s p n x l
  refine ⟨s.notify_eq_setPort p n, x.told_of_detached l, fun hx hlen => ?_⟩
  rw [PortState.told, if_pos (Option.isSome_iff_ne_none.2 hx)]
  exact foldl_takeNotice hlen

/-! ### FETCH (R142) -/

/-- What FETCH does with a maximum. -/
def takeNotices (p : Port) (u : State) (max : Nat) : Answer :=
  let x := u.port p
  let n := min (min max x.notices.length) maxFetched
  .ok (u.setPort p { x with notices := x.notices.drop n, lost := false })
    ([bitAt 7 x.lost ||| byteOf n, byteOf (x.notices.length - n)] ++ (x.notices.take n).flatMap noticeBytes)

theorem judgeFetch_eq (p : Port) (l : List Byte) :
    judgeFetch p l = fun u => u.whenAttached p (withFields (readRanged 1 8 l) (takeNotices p u)) := rfl

theorem exec_fetch_of_some {s : State} {p : Port} {l : List Byte} {max : Nat} (ht : s.takes p .fetch l = true)
    (hp : (s.port p).attachment ≠ none) (hread : readRanged 1 8 l = some max) :
    let n := min (min max (s.port p).notices.length) 7
    exec (.fetch p l) s = .next
      (s.setPort p ({ s.port p with notices := (s.port p).notices.drop n, lost := false }.answered .ok
        ([bitAt 7 (s.port p).lost ||| byteOf n, byteOf ((s.port p).notices.length - n)]
          ++ ((s.port p).notices.take n).flatMap noticeBytes))) := by
  intro n
  refine congrArg Host.Outcome.next ?_
  rw [judgeFetch_eq, ← State.reply_setPort_deselect]
  refine (State.takeRequest_of_read (fun _ => readRanged 1 8 l) (takeNotices p) ht hp hread).trans ?_
  simp [takeNotices, State.deselect, maxFetched, n]

/-- LOST and a number of notices in one byte (R167, log 20). -/
theorem lostByte_eq (lost : Bool) {n : Nat} (h : n ≤ 7) :
    bitAt 7 lost ||| byteOf n = byteOf ((if lost then 128 else 0) + n) := by
  revert lost
  interval_cases n <;> decide

/-- Settles O41: the maximum is read in its range, and the record of a notice is that of the model. -/
theorem fetchTakesFromTheHead : Obligations.FetchTakesFromTheHead := by
  intro s p payload ht
  refine ⟨fun hp => ?_, fun hp => ⟨?_, fun hbad => ?_⟩⟩
  · exact congrArg Host.Outcome.next
      (State.takeRequest_of_detached (fun _ => readRanged 1 8 payload) (takeNotices p) ht hp)
  · intro max hlo hhi hl hlen n record
    have hn : min (min max (s.port p).notices.length) 7 = n := by omega
    have hread : readRanged 1 8 payload = some max := hl ▸ readRanged_byteOf hlo hhi (by omega)
    rw [exec_fetch_of_some ht hp hread, hn, lostByte_eq _ (by omega : n ≤ 7)]
    rfl
  · exact congrArg Host.Outcome.next
      (State.takeRequest_of_unread (fun _ => readRanged 1 8 payload) (takeNotices p) ht hp (readRanged_eq_none hbad))

/-! ### Lapses (R97, R129) -/

/-- Notices to two ports, one each. -/
theorem State.deliver_pair (s : State) {p q : Port} (h : p ≠ q) (m n : Notice) :
    s.deliver [(p, m), (q, n)]
      = { s with ports := (s.ports.set p ((s.port p).told [m])).set q ((s.port q).told [n]) } := by
  change (s.notify p m).notify q n = _
  rw [State.notify_eq_setPort, State.notify_eq_setPort, State.port_setPort_ne s h.symm]
  rfl

/-- Settles O29: the id names the offer, and a failure tells each member once. -/
theorem lapsesTellTheirParties : Obligations.LapsesTellTheirParties := by
  refine ⟨?_, ?_⟩
  · intro s o hids hrun ho hleft hne told
    change execOfferLapse o.id s = _
    have hlapses : (s.framesRun && o.lapses) = true := by simp [hrun, Offer.lapses, hleft]
    rw [execOfferLapse, hids.offerWithId ho]
    refine congrArg Host.Outcome.next ((if_pos hlapses).trans ?_)
    exact State.deliver_pair (s.dropOffer o.id) hne _ _
  · intro s pr d hrun hpr hd told
    change execProposalLapse s = _
    have hlapses : s.lapsingProposal = some pr := by
      rw [State.lapsingProposal, hpr]
      exact if_pos hd
    rw [execProposalLapse, hlapses]
    refine congrArg Host.Outcome.next ((if_pos hrun).trans ?_)
    rw [State.failProposal_eq_toldAll]
    exact State.toldAll_eq_of_ports fun q => (PortState.told_ite ..).trans (by cases q <;> rfl)

/-! ### The wait walk (R79) -/

/-- The records that leave with REQUEST_LAPSED tell their ports in queue order. -/
theorem State.lapseRecords_eq_toldAll (s : State) (gone : Record → Bool) (why : Reason) :
    s.lapseRecords gone why = { s with requests := s.requests.filter (fun r => !gone r) }.toldAll
      (fun q => (s.requests.filter (fun r : Record => r.port == q && gone r)).map (fun r => (s.lapseNotice r why).2)) := by
  rw [State.lapseRecords, State.deliver_eq_toldAll]
  refine congrArg _ (funext fun q => ?_)
  rw [List.filter_map, List.map_map, List.filter_filter]
  rfl

/-- Settles O24: the walk lapses records and counts the rest; the visits before it leave the frame running. -/
theorem waitWalkLapsesAndCounts : Obligations.WaitWalkLapsesAndCounts := by
  intro s hrun lapsed told
  refine ⟨?_, ?_⟩
  · refine congrArg Host.Outcome.next ((if_pos hrun).trans ?_)
    rw [State.countWaits, State.lapseRecords_eq_toldAll]
    rfl
  · have hruns : (s.requests.foldl State.visit s).framesRun = true := by
      have hkeep := foldl_invariant State.visit
        (fun t => t.resetAsserted = s.resetAsserted ∧ t.frame = s.frame) s.requests s ⟨rfl, rfl⟩
        (fun t r _ h => by simpa using h)
      rw [State.framesRun, hkeep.1, hkeep.2]
      exact hrun
    exact congrArg Host.Outcome.next (if_pos hruns)

end Sys2Proof.Machine
end

section
/-! SUPPORT. The proofs of the statements about a leaving member, a visit of the allocator, LEASE_END and RELEASE: the
entry a leaver leaves behind, and what voiding an offer and giving slots up do to the offer table and to each port. -/

-- One proof after another: many at once take more memory than the check allows.
set_option Elab.async false

namespace Sys2Proof.Machine

open Sys2Proof

/-! ### A member leaves (R3, R54) -/

/-- The member after `p`, by what stands after it and before it. -/
theorem memberAfter_append {pre post : List Port} {p : Port} (h : p ∉ pre) :
    memberAfter (pre ++ p :: post) p = (post ++ pre).headD p := by
  have hdrop : (pre ++ p :: post).dropWhile (· != p) = p :: post := by
    rw [List.dropWhile_append_of_pos fun q hq => bne_iff_ne.2 (ne_of_mem_of_not_mem hq h)]
    exact List.dropWhile_cons_of_neg (by simp)
  rw [memberAfter, hdrop]
  cases post with
  | nil => cases pre <;> rfl
  | cons q post => rfl

theorem memberBefore_append {pre post : List Port} {p m : Port} (h : p ∉ post) (hm : (post ++ pre).getLast? = some m) :
    memberBefore (pre ++ p :: post) p = m := by
  have hrev : (pre ++ p :: post).reverse = post.reverse ++ p :: pre.reverse := by simp
  rw [memberBefore, hrev, memberAfter_append (by simpa using h), ← List.reverse_append, List.headD_eq_head?_getD,
    List.head?_reverse, hm]
  rfl

/-- The last of what stands after and before a leaver is followed by the first of it. -/
theorem memberAfter_last {pre post : List Port} {p m : Port} (h : (pre ++ post).Nodup)
    (hm : (post ++ pre).getLast? = some m) : memberAfter (pre ++ post) m = (post ++ pre).headD p := by
  rcases List.eq_nil_or_concat pre with rfl | ⟨pre, x, rfl⟩
  · rcases List.eq_nil_or_concat post with rfl | ⟨post, x, rfl⟩
    · cases hm
    · obtain rfl : x = m := by simpa using hm
      have hx : x ∉ post := by
        simp only [List.concat_eq_append, List.nil_append, List.nodup_append] at h
        exact fun hmem => h.2.2 x hmem x (by simp) rfl
      have hlast := memberAfter_append (post := []) hx
      cases post <;> simpa using hlast
  · obtain rfl : x = m := by simpa using hm
    have hx : x ∉ pre := by
      simp only [List.concat_eq_append, List.append_assoc, List.nodup_append] at h
      exact fun hmem => h.2.2 x hmem x (by simp) rfl
    have hnext := memberAfter_append (post := post) hx
    cases post <;> cases pre <;> simpa using hnext

/-- A SHARED entry without a member, by what is left of its list. -/
theorem Entry.without_shared_eq {pre post : List Port} {p mark : Port} {h : Holding}
    (hnd : (pre ++ p :: post).Nodup) :
    (Entry.shared (pre ++ p :: post) mark h).without p =
      match pre ++ post with
      | [q] => .held q { h with warned := h.warned.set p false }
      | _ => .shared (pre ++ post) (if mark = p then memberBefore (pre ++ p :: post) p else mark)
          { h with warned := h.warned.set p false } := by
  have hrest : (pre ++ p :: post).filter (· != p) = pre ++ post := by
    rw [← hnd.erase_eq_filter, List.erase_append_right _ (List.disjoint_of_nodup_append hnd · (by simp))]
    simp
  have hc : (pre ++ p :: post).contains p = true := by simp
  rw [Entry.without, if_pos hc, leaveShared, hrest]
  rfl

/-- Settles O18: what is left of the list decides between HELD and SHARED, and the mark passes on only from the leaver. -/
theorem leavingKeepsOrderAndMark : Obligations.LeavingKeepsOrderAndMark := by
  refine ⟨fun p h => if_pos rfl, ?_⟩
  intro pre post p mark h hnd hmark hlen e h'
  have he : e = match pre ++ post with
      | [q] => .held q h'
      | _ => .shared (pre ++ post) (if mark = p then memberBefore (pre ++ p :: post) p else mark) h' :=
    Entry.without_shared_eq hnd
  have hshared (htwo : 2 ≤ (pre ++ post).length) :
      e = .shared (pre ++ post) (if mark = p then memberBefore (pre ++ p :: post) p else mark) h' := by
    rw [he]
    split
    next q hq => simp [hq] at htwo
    · rfl
  have hpre : p ∉ pre := fun hp => (List.nodup_append.1 hnd).2.2 p hp p (by simp) rfl
  have hpost : p ∉ post := (List.nodup_cons.1 (List.nodup_append.1 hnd).2.1).1
  have hrest : (pre ++ post).Nodup := hnd.sublist ((List.sublist_cons_self p post).append_left pre)
  refine ⟨fun q hq => ?_, fun htwo hne => ?_, fun htwo heq => ?_, memberAfter_append hpre⟩
  · rw [he, hq]
  · rw [hshared htwo, if_neg hne]
  · have hne : post ++ pre ≠ [] := by
      rintro hnil
      simp [List.append_eq_nil_iff.1 hnil] at htwo
    obtain ⟨m, hm⟩ := Option.ne_none_iff_exists'.1 (mt List.getLast?_eq_none_iff.1 hne)
    refine ⟨m, ?_, hm, memberAfter_last hrest hm⟩
    rw [hshared htwo, if_pos heq, memberBefore_append hpost hm]

/-! ### A visit of the allocator (R73 to R78) -/

theorem foldl_min_eq {l : List Nat} {a m : Nat} (ha : m ≤ a) (hall : ∀ n ∈ l, m ≤ n) (hm : m = a ∨ m ∈ l) :
    l.foldl min a = m := by
  induction l generalizing a with
  | nil => exact (hm.resolve_right List.not_mem_nil).symm
  | cons n l ih =>
    have hn : m ≤ n := hall n (by simp)
    refine ih (le_min ha hn) (fun x hx => hall x (by simp [hx])) ?_
    rcases hm with rfl | hm
    · exact .inl (min_eq_left hn).symm
    · rcases List.mem_cons.1 hm with rfl | hm
      · exact .inl (min_eq_right ha).symm
      · exact .inr hm

/-- Edits of one kind in the Staged table touch it alone. -/
theorem State.foldl_setStaged_frame (s : State) (e : Entry) (l : List Nat) :
    ∃ t, l.foldl (fun s n => s.setStaged n e) s = { s with staged := t } := by
  induction l generalizing s with
  | nil => exact ⟨s.staged, rfl⟩
  | cons n l ih =>
    obtain ⟨t, h⟩ := ih (s.setStaged n e)
    exact ⟨t, h⟩

/-- A grant edits the Staged table and the queue and tells its port. -/
theorem State.grant_eq (s : State) (r : Record) (l : List Nat) :
    ∃ t, s.grant r l = ({ s with staged := t, requests := s.requests.erase r } : State).setPort r.port
      ((s.port r.port).told
        [⟨.granted, none, some r.res.tag, some (lowestSlot l), some l.length, none, none, s.nextFrame⟩]) := by
  obtain ⟨t, h⟩ := s.foldl_setStaged_frame (grantedEntry r.port r.res) l
  refine ⟨t, ?_⟩
  rw [State.grant, h]
  exact State.notify_eq_setPort _ _ _

/-- Settles O23: the two tests decide, and a grant edits the slots that the placement names. -/
theorem visitGrantsOrPassesOver : Obligations.VisitGrantsOrPassesOver := by
  intro s r hplan
  refine ⟨fun hnone => by rw [State.visit, hnone], fun l hl => ?_⟩
  have hvisit : s.visit r = if s.holdingCount r.port + r.res.count ≤ s.quota r.port then s.grant r l else s := by
    rw [State.visit, hl]
  rw [State.holdingCount_eq_length] at hvisit
  refine ⟨fun hover => hvisit.trans (if_neg (Nat.not_le.2 hover)), fun hfits => ?_⟩
  have hslot : ∀ n ∈ l, n ≤ 63 := fun n hn => by
    have hlt : n < s.plan.terms.geometry.slots := ((s.available_iff n).1 (State.findSlots_available hl n hn)).2.2.1
    have hmax := hplan.2.1
    omega
  rw [hvisit.trans (if_pos hfits)]
  obtain ⟨t, hgrant⟩ := s.grant_eq r l
  refine ⟨by rw [hgrant]; rfl, State.grant_requests s r l, fun n hn => ?_, fun lowest hlow hmin => ?_, fun q hq => ?_⟩
  · rw [State.entryAt_grant]
    simp only [hn, and_true]
    rfl
  · have hlowest : lowestSlot l = lowest := foldl_min_eq (hslot lowest hlow) hmin (.inr hlow)
    rw [hgrant, State.port_setPort_self, hlowest]
  · rw [hgrant, State.port_setPort_ne _ hq]
    rfl

/-! ### An offer voided (R100)

The table names no slot twice and no id twice, so that the offer with an id is the offer on its slot. -/

/-- The offer table names no slot twice and no id twice (R87, R88). -/
def State.OffersKeyed (s : State) : Prop :=
  s.offers.Pairwise (fun x y => x.slot < y.slot) ∧ (s.offers.map Offer.id).Nodup

theorem State.ScheduleOk.offersKeyed {s : State} (h : s.ScheduleOk) (k : s.OfferIdsOk) : s.OffersKeyed := by
  obtain ⟨-, -, -, -, ⟨hsorted, -⟩, -⟩ := h
  obtain ⟨-, hnodup, -⟩ := k
  exact ⟨hsorted, hnodup⟩

theorem State.OffersKeyed.of_sublist {s t : State} (h : s.OffersKeyed) (hsub : t.offers.Sublist s.offers) :
    t.OffersKeyed := by
  obtain ⟨hsorted, hnodup⟩ := h
  exact ⟨hsorted.sublist hsub, hnodup.sublist (hsub.map _)⟩

/-- Two offers with one id are one, and so are two on one slot. -/
theorem State.OffersKeyed.id_eq_iff {s : State} (h : s.OffersKeyed) {o x : Offer} (ho : o ∈ s.offers) (hx : x ∈ s.offers) :
    x.id = o.id ↔ x.slot = o.slot := by
  obtain ⟨hsorted, hnodup⟩ := h
  exact ⟨fun hid => by rw [List.inj_on_of_nodup_map hnodup hx ho hid],
    fun hslot => by rw [eq_of_slot_eq hsorted ho hx hslot]⟩

theorem State.OffersKeyed.filter_id {s : State} (h : s.OffersKeyed) {o : Offer} (ho : o ∈ s.offers) :
    s.offers.filter (fun x => x.id != o.id) = s.offers.filter (fun x => x.slot != o.slot) := by
  refine List.filter_congr fun x hx => ?_
  rw [Bool.eq_iff_iff, bne_iff_ne, bne_iff_ne]
  exact not_congr (h.id_eq_iff ho hx)

/-- What is picked among the offers on the slot of an offer is that offer or nothing. -/
theorem State.OffersKeyed.filter_slot {s : State} (h : s.OffersKeyed) {o : Offer} (ho : o ∈ s.offers)
    (pick : Offer → Bool) :
    s.offers.filter (fun x => x.slot == o.slot && pick x) = if pick o then [o] else [] := by
  obtain ⟨hsorted, hnodup⟩ := h
  have hone : s.offers.filter (fun x => x.slot == o.slot) = [o] := by
    have hself : s.offers.filter (fun x => x.slot == o.slot) = s.offers.filter (fun x => x == o) :=
      List.filter_congr fun x hx => by
        rw [Bool.eq_iff_iff, beq_iff_eq, beq_iff_eq]
        exact ⟨eq_of_slot_eq hsorted ho hx, fun e => by rw [e]⟩
    rw [hself, List.filter_beq, List.count_eq_one_of_mem (List.Nodup.of_map _ hnodup) ho]
    rfl
  have hboth : (fun x : Offer => x.slot == o.slot && pick x) = fun x => pick x && x.slot == o.slot :=
    funext fun x => Bool.and_comm _ _
  rw [hboth, ← List.filter_filter, hone, List.filter_singleton, cond_eq_ite]

theorem State.filter_slot_of_none {s : State} {n : Nat} (h : s.offerOn n = none) (pick : Offer → Bool) :
    s.offers.filter (fun x => x.slot == n && pick x) = [] := by
  refine List.filter_eq_nil_iff.2 fun x hx hpick => ?_
  obtain ⟨hslot, -⟩ := Bool.and_eq_true_iff.1 hpick
  exact State.offerOn_none h x hx (beq_iff_eq.1 hslot)

/-- OFFER_VOID to port `q` for the open offer on slot `n`. -/
def State.voidedOn (s : State) (n : Nat) (tag : Byte) (why : Reason) (q : Port) : List Notice :=
  (s.offers.filter (fun o => o.slot == n && o.target == q)).map (fun o =>
    ⟨.offerVoid, some why, some tag, some n, none, some o.giver, some o.id, s.nextFrame⟩)

/-- OFFER_VOID to port `q` for the open offer on slot `n` that port `p` made. -/
def State.voidedBy (s : State) (p : Port) (n : Nat) (tag : Byte) (why : Reason) (q : Port) : List Notice :=
  (s.offers.filter (fun o => o.slot == n && o.giver == p && o.target == q)).map (fun o =>
    ⟨.offerVoid, some why, some tag, some n, none, some p, some o.id, s.nextFrame⟩)

theorem State.OffersKeyed.voidOfferOn_offers {s : State} (h : s.OffersKeyed) (n : Nat) (tag : Byte) (why : Reason) :
    (s.voidOfferOn n tag why).offers = s.offers.filter (fun o => o.slot != n) := by
  rw [State.voidOfferOn_offers]
  cases hf : s.offerOn n with
  | none => exact (List.filter_eq_self.2 fun o ho => bne_iff_ne.2 (State.offerOn_none hf o ho)).symm
  | some o =>
    obtain ⟨ho, rfl⟩ := State.mem_of_offerOn hf
    exact h.filter_id ho

theorem State.OffersKeyed.port_voidOfferOn {s : State} (h : s.OffersKeyed) (n : Nat) (tag : Byte) (why : Reason)
    (q : Port) : (s.voidOfferOn n tag why).port q = (s.port q).told (s.voidedOn n tag why q) := by
  cases hf : s.offerOn n with
  | none =>
    rw [State.voidedOn, State.filter_slot_of_none hf, List.map_nil, PortState.told_nil, State.voidOfferOn, hf]
  | some o =>
    obtain ⟨ho, rfl⟩ := State.mem_of_offerOn hf
    rw [State.voidedOn, h.filter_slot ho, State.voidOfferOn, hf, State.port_voidOffer]
    by_cases hq : q = o.target
    · subst hq
      simp
      rfl
    · simp [hq, Ne.symm hq]

theorem State.OffersKeyed.voidOfferBy_offers {s : State} (h : s.OffersKeyed) (p : Port) (n : Nat) (tag : Byte)
    (why : Reason) :
    (s.voidOfferBy p n tag why).offers = s.offers.filter (fun o => !(o.giver == p && o.slot == n)) := by
  rw [State.voidOfferBy_offers]
  cases hf : s.offerOn n with
  | none =>
    refine (List.filter_eq_self.2 fun o ho => ?_).symm
    simp [State.offerOn_none hf o ho]
  | some o =>
    obtain ⟨ho, rfl⟩ := State.mem_of_offerOn hf
    obtain ⟨hsorted, -⟩ := id h
    by_cases hp : o.giver = p
    · simp only [hp, if_true]
      rw [h.filter_id ho]
      refine List.filter_congr fun x hx => ?_
      by_cases hx' : x.slot = o.slot
      · simp [eq_of_slot_eq hsorted ho hx hx', hp]
      · simp [hx', bne_iff_ne.2 hx']
    · simp only [hp, if_false]
      refine (List.filter_eq_self.2 fun x hx => ?_).symm
      by_cases hx' : x.slot = o.slot
      · simp [eq_of_slot_eq hsorted ho hx hx', hp]
      · simp [hx']

theorem State.OffersKeyed.port_voidOfferBy {s : State} (h : s.OffersKeyed) (p : Port) (n : Nat) (tag : Byte)
    (why : Reason) (q : Port) :
    (s.voidOfferBy p n tag why).port q = (s.port q).told (s.voidedBy p n tag why q) := by
  have hnews : s.voidedBy p n tag why q = (s.offers.filter (fun o => o.slot == n && (o.giver == p && o.target == q))).map
      (fun o => ⟨.offerVoid, some why, some tag, some n, none, some p, some o.id, s.nextFrame⟩) := by
    simp only [State.voidedBy, Bool.and_assoc]
  rw [hnews]
  cases hf : s.offerOn n with
  | none =>
    rw [State.filter_slot_of_none hf, List.map_nil, PortState.told_nil, State.voidOfferBy, hf]
  | some o =>
    obtain ⟨ho, rfl⟩ := State.mem_of_offerOn hf
    rw [h.filter_slot ho, State.voidOfferBy, hf]
    by_cases hp : o.giver = p
    · subst hp
      simp only [if_true, State.port_voidOffer]
      by_cases hq : q = o.target
      · subst hq
        simp
        rfl
      · simp [hq, Ne.symm hq]
    · simp [hp]

/-! ### A slot cleared (R48, R103) -/

/-- What clearing a slot tells port `q`: the notice `n` to its parties, then OFFER_VOID. -/
def State.clearedNews (s : State) (slot : Nat) (n : Notice) (why : Reason) (q : Port) : List Notice :=
  (if q ∈ (entryAt s.staged slot).parties then [n] else [])
    ++ s.voidedOn slot (entryAt s.staged slot).tag why q

theorem State.OffersKeyed.port_cleared {s : State} (h : s.OffersKeyed) {slot : Nat}
    (hnd : (entryAt s.staged slot).parties.Nodup) (e : Entry) (n : Notice) (why : Reason) (q : Port) :
    (((s.setStaged slot e).notifyAll (entryAt s.staged slot).parties n).voidOfferOn slot
      (entryAt s.staged slot).tag why).port q = (s.port q).told (s.clearedNews slot n why q) := by
  have hk : ((s.setStaged slot e).notifyAll (entryAt s.staged slot).parties n).OffersKeyed := h.of_sublist (by simp)
  rw [hk.port_voidOfferOn, State.port_notifyAll _ hnd, ← PortState.told_ite, PortState.told_told]
  simp [State.clearedNews, State.voidedOn, State.nextFrame]

theorem State.OffersKeyed.port_endLease {s : State} (h : s.OffersKeyed) {n : Nat}
    (hnd : (entryAt s.staged n).parties.Nodup) (q : Port) :
    (s.endLease n).port q = (s.port q).told (s.clearedNews n
      ⟨.leaseEnded, none, some (entryAt s.staged n).tag, some n, none, none, none, s.nextFrame⟩ .lease q) :=
  h.port_cleared hnd _ _ _ _

theorem State.OffersKeyed.port_revokeSlot {s : State} (h : s.OffersKeyed) {n : Nat}
    (hnd : (entryAt s.staged n).parties.Nodup) (q : Port) :
    (s.revokeSlot n).port q = (s.port q).told (s.clearedNews n
      ⟨.revoked, some .plan, some (entryAt s.staged n).tag, some n, none, none, none, s.nextFrame⟩ .plan q) :=
  h.port_cleared hnd _ _ _ _

theorem State.OffersKeyed.endLease_offers {s : State} (h : s.OffersKeyed) (n : Nat) :
    (s.endLease n).offers = s.offers.filter (fun o => o.slot != n) := by
  rw [State.endLease, State.OffersKeyed.voidOfferOn_offers (h.of_sublist (by simp))]
  simp

theorem State.OffersKeyed.revokeSlot_offers {s : State} (h : s.OffersKeyed) (n : Nat) :
    (s.revokeSlot n).offers = s.offers.filter (fun o => o.slot != n) := by
  rw [State.revokeSlot, State.OffersKeyed.voidOfferOn_offers (h.of_sublist (by simp))]
  simp

theorem State.endLease_frame (s : State) (n : Nat) :
    { s.endLease n with staged := s.staged, offers := s.offers, ports := s.ports } = s := by
  obtain ⟨ps, h, -⟩ := s.endLease_alike n
  rw [h]
  rfl

theorem State.ScheduleOk.parties_nodup {s : State} (h : s.ScheduleOk) (n : Nat) :
    (entryAt s.staged n).parties.Nodup := by
  obtain ⟨-, ⟨hbeacon, hentries⟩, -⟩ := h
  by_cases h64 : n < 64
  · by_cases h1 : 1 ≤ n
    · exact Entry.parties_nodup (hentries n h64 h1).2
    · rw [Nat.lt_one_iff.1 (Nat.not_le.1 h1), hbeacon]
      exact List.nodup_nil
  · rw [entryAt, dif_neg h64]
    exact List.nodup_nil

/-- Settles O45: the lease at 1 runs out, and the slot is cleared. -/
theorem leaseEndCoolsTheSlot : Obligations.LeaseEndCoolsTheSlot := by
  intro s n h hrun hsched hids hn hholding hlease hrenewal
  have hout : (s.framesRun && s.leaseRunsOut n) = true := by
    rw [hrun, State.leaseRunsOut, hholding]
    simp [hrenewal, Holding.counted, hlease]
  have hkeyed := hsched.offersKeyed hids
  have htag : (entryAt s.staged n).tag = h.tag := by rw [Entry.tag, hholding]; rfl
  refine ⟨s.endLease n, congrArg Host.Outcome.next (if_pos hout), s.endLease_frame n, fun m hm => ?_,
    hkeyed.endLease_offers n, fun q => ?_⟩
  · rw [State.endLease_staged, State.entryAt_setStaged]
    simp [hn]
  · rw [hkeyed.port_endLease (hsched.parties_nodup n), State.clearedNews, htag]
    rfl

end Sys2Proof.Machine
end

section
/-! SUPPORT. The proofs of the statements about RELEASE and the timed edits: what giving slots up tells each port, and
the three timed actions. -/

-- One proof after another: many at once take more memory than the check allows.
set_option Elab.async false

namespace Sys2Proof.Machine

open Sys2Proof

/-! ### The entry a leaver leaves behind (R53, R54) -/

theorem leaveShared_parties (p : Port) (ms : List Port) (mark : Port) (h : Holding) :
    (leaveShared p ms mark h).parties = ms.filter (· != p) := by
  unfold leaveShared
  dsimp only
  split
  next q hq => exact hq.symm
  next => rfl

theorem leaveShared_tag (p : Port) (ms : List Port) (mark : Port) (h : Holding) :
    (leaveShared p ms mark h).tag = h.tag := by
  unfold leaveShared
  dsimp only
  split <;> rfl

/-- The others stay. -/
theorem Entry.parties_without (e : Entry) (p : Port) : (e.without p).parties = e.parties.filter (· != p) := by
  cases e with
  | held q h =>
    by_cases hq : q = p
    · simp [Entry.without, hq, Entry.parties]
    · simp [Entry.without, hq, Entry.parties]
  | shared ms mark h =>
    by_cases hp : ms.contains p = true
    · rw [Entry.without, if_pos hp, leaveShared_parties]
      rfl
    · rw [Entry.without, if_neg hp]
      refine (List.filter_eq_self.2 fun q hq => bne_iff_ne.2 ?_).symm
      rintro rfl
      exact hp (List.contains_iff_mem.2 hq)
  | beacon => rfl
  | free => rfl
  | cooling => rfl

theorem Entry.not_mem_without (e : Entry) (p : Port) : p ∉ (e.without p).parties := by
  simp [Entry.parties_without]

/-- An entry that still names a port has the tag it had. -/
theorem Entry.tag_without {e : Entry} {p q : Port} (hq : q ∈ (e.without p).parties) : (e.without p).tag = e.tag := by
  cases e with
  | held r h =>
    by_cases hr : r = p
    · simp [Entry.without, hr, Entry.parties] at hq
    · rw [Entry.without, if_neg hr]
  | shared ms mark h =>
    rw [Entry.without]
    split
    · exact leaveShared_tag p ms mark h
    · rfl
  | beacon => rfl
  | free => rfl
  | cooling => rfl

/-- What a port gives up cools exactly when it held it alone. -/
theorem Entry.without_isCooling {e : Entry} {p : Port} (hok : e.Ok) (hp : p ∈ e.parties) :
    (e.without p).isCooling = !e.isShared := by
  cases e with
  | held q h =>
    obtain rfl : p = q := by simpa [Entry.parties] using hp
    simp [Entry.without, Entry.isCooling, Entry.isShared]
  | shared ms mark h =>
    have hms : ms.contains p = true := List.contains_iff_mem.2 hp
    rw [Entry.without, if_pos hms, leaveShared]
    split <;> rfl
  | beacon => cases hp
  | free => cases hp
  | cooling => cases hp

/-! ### Slots given up (R53, R54, R61, R100) -/

/-- What port `q` is told when port `p` gives slot `n` up. -/
def State.giveUpNews (s : State) (p : Port) (why : Reason) (n : Nat) (q : Port) : List Notice :=
  (if q ∈ ((entryAt s.staged n).without p).parties then
    [⟨.membersChanged, none, some (entryAt s.staged n).tag, some n,
      some (((entryAt s.staged n).without p).parties.length), some p, none, s.nextFrame⟩] else [])
  ++ s.voidedBy p n (entryAt s.staged n).tag why q

theorem State.OffersKeyed.port_giveUpSlot {s : State} (h : s.OffersKeyed) {n : Nat}
    (hnd : (entryAt s.staged n).parties.Nodup) (p : Port) (why : Reason) (q : Port) :
    (s.giveUpSlot p why n).port q = (s.port q).told (s.giveUpNews p why n q) := by
  have hleft : ((entryAt s.staged n).without p).parties.Nodup := by
    rw [Entry.parties_without]
    exact hnd.filter _
  rw [State.giveUpSlot, State.OffersKeyed.port_voidOfferBy (h.of_sublist (by simp)), State.tellMembers,
    State.port_notifyAll _ hleft, ← PortState.told_ite, PortState.told_told, State.giveUpNews]
  by_cases hq : q ∈ ((entryAt s.staged n).without p).parties
  · rw [if_pos hq, if_pos hq, Entry.tag_without hq]
    simp [State.voidedBy, State.nextFrame, State.notice]
  · rw [if_neg hq, if_neg hq]
    simp [State.voidedBy, State.nextFrame]

theorem State.OffersKeyed.giveUpSlot_offers {s : State} (h : s.OffersKeyed) (p : Port) (why : Reason) (n : Nat) :
    (s.giveUpSlot p why n).offers = s.offers.filter (fun o => !(o.giver == p && o.slot == n)) := by
  rw [State.giveUpSlot, State.OffersKeyed.voidOfferBy_offers (h.of_sublist (by simp))]
  simp

/-- Giving one slot up changes nothing of what another would tell. -/
theorem State.OffersKeyed.giveUpNews_giveUpSlot {s : State} (h : s.OffersKeyed) (p : Port) (why : Reason) {n m : Nat}
    (hm : m ≠ n) (q : Port) : (s.giveUpSlot p why n).giveUpNews p why m q = s.giveUpNews p why m q := by
  have hentry : entryAt (s.giveUpSlot p why n).staged m = entryAt s.staged m := by
    rw [State.entryAt_giveUpSlot, if_neg fun hand => hm hand.1]
  have hoffers : (s.giveUpSlot p why n).offers.filter (fun o => o.slot == m && o.giver == p && o.target == q)
      = s.offers.filter (fun o => o.slot == m && o.giver == p && o.target == q) := by
    rw [h.giveUpSlot_offers, List.filter_filter]
    refine List.filter_congr fun o _ => ?_
    by_cases ho : o.slot = m
    · simp [ho, hm]
    · simp [ho]
  rw [State.giveUpNews, State.giveUpNews, State.voidedBy, State.voidedBy, hentry, hoffers]
  simp [State.nextFrame]

theorem State.OffersKeyed.port_giveUpSlots {s : State} (h : s.OffersKeyed)
    (hnd : ∀ n, (entryAt s.staged n).parties.Nodup) (p : Port) (why : Reason) {ns : List Nat} (hns : ns.Nodup)
    (q : Port) :
    (s.giveUpSlots p why ns).port q = (s.port q).told (ns.flatMap (fun n => s.giveUpNews p why n q)) := by
  induction ns generalizing s with
  | nil => exact (PortState.told_nil _).symm
  | cons n ns ih =>
    obtain ⟨hn, hns⟩ := List.nodup_cons.1 hns
    have hnd' : ∀ m, (entryAt (s.giveUpSlot p why n).staged m).parties.Nodup := fun m => by
      rw [State.entryAt_giveUpSlot]
      split
      · rw [Entry.parties_without]
        exact (hnd n).filter _
      · exact hnd m
    have hrest : ns.flatMap (fun m => (s.giveUpSlot p why n).giveUpNews p why m q)
        = ns.flatMap (fun m => s.giveUpNews p why m q) :=
      List.flatMap_congr fun m hm => h.giveUpNews_giveUpSlot p why (ne_of_mem_of_not_mem hm hn) q
    calc (s.giveUpSlots p why (n :: ns)).port q = ((s.giveUpSlot p why n).giveUpSlots p why ns).port q := rfl
      _ = ((s.giveUpSlot p why n).port q).told (ns.flatMap (fun m => s.giveUpNews p why m q)) := by
        rw [ih (h.of_sublist (s.giveUpSlot_offers_sublist p why n)) hnd' hns, hrest]
      _ = (s.port q).told ((n :: ns).flatMap (fun m => s.giveUpNews p why m q)) := by
        rw [h.port_giveUpSlot (hnd n), PortState.told_told, List.flatMap_cons]

theorem State.OffersKeyed.giveUpSlots_offers {s : State} (h : s.OffersKeyed) (p : Port) (why : Reason) (ns : List Nat) :
    (s.giveUpSlots p why ns).offers = s.offers.filter (fun o => !(o.giver == p && ns.contains o.slot)) := by
  induction ns generalizing s with
  | nil => simp [State.giveUpSlots]
  | cons n ns ih =>
    calc (s.giveUpSlots p why (n :: ns)).offers = ((s.giveUpSlot p why n).giveUpSlots p why ns).offers := rfl
      _ = s.offers.filter (fun o => !(o.giver == p && (n :: ns).contains o.slot)) := by
        rw [ih (h.of_sublist (s.giveUpSlot_offers_sublist p why n)), h.giveUpSlot_offers, List.filter_filter]
        refine List.filter_congr fun o _ => ?_
        rw [List.contains_cons]
        cases o.giver == p <;> cases o.slot == n <;> simp

theorem State.giveUpSlot_frame (s : State) (p : Port) (why : Reason) (n : Nat) :
    { s.giveUpSlot p why n with staged := s.staged, offers := s.offers, ports := s.ports } = s := by
  obtain ⟨ps, h, -⟩ := s.giveUpSlot_alike p why n
  rw [h]
  rfl

theorem State.giveUpSlots_frame (s : State) (p : Port) (why : Reason) (ns : List Nat) :
    { s.giveUpSlots p why ns with staged := s.staged, offers := s.offers, ports := s.ports } = s := by
  induction ns generalizing s with
  | nil => rfl
  | cons n ns ih =>
    have hrest := congrArg (fun u : State => { u with staged := s.staged, offers := s.offers, ports := s.ports })
      (ih (s.giveUpSlot p why n))
    exact hrest.trans (s.giveUpSlot_frame p why n)

/-- No offer has one port as giver and as target. -/
theorem State.ScheduleOk.giver_ne_target {s : State} (h : s.ScheduleOk) {o : Offer} (ho : o ∈ s.offers) :
    o.giver ≠ o.target := by
  obtain ⟨-, -, -, -, hgiver, htarget, -⟩ := h.offer ho
  exact fun e => htarget (e ▸ hgiver)

/-- The port that gives a slot up is told nothing. -/
theorem State.ScheduleOk.giveUpNews_self {s : State} (h : s.ScheduleOk) (p : Port) (why : Reason) (n : Nat) :
    s.giveUpNews p why n p = [] := by
  have hnone : s.offers.filter (fun o => o.slot == n && o.giver == p && o.target == p) = [] := by
    refine List.filter_eq_nil_iff.2 fun o ho hpick => h.giver_ne_target ho ?_
    simp only [Bool.and_eq_true, beq_iff_eq] at hpick
    obtain ⟨⟨-, hgiver⟩, htarget⟩ := hpick
    rw [hgiver, htarget]
  rw [State.giveUpNews, State.voidedBy, hnone, if_neg (Entry.not_mem_without _ p)]
  rfl

theorem State.ScheduleOk.giveUpNews_flatMap_self {s : State} (h : s.ScheduleOk) (p : Port) (why : Reason)
    (ns : List Nat) : ns.flatMap (fun n => s.giveUpNews p why n p) = [] :=
  List.flatMap_eq_nil_iff.2 fun n _ => h.giveUpNews_self p why n

/-- The entries that cool among those a port gives up. -/
theorem State.ScheduleOk.heldAmong_eq {s : State} (h : s.ScheduleOk) {p : Port} {ns : List Nat}
    (hns : ∀ n ∈ ns, n < 64 ∧ p ∈ (entryAt s.staged n).parties) :
    s.heldAmong ns = (ns.filter (fun n => ((entryAt s.staged n).without p).isCooling)).length := by
  obtain ⟨-, ⟨hbeacon, hentries⟩, -⟩ := h
  rw [State.heldAmong, List.countP_eq_length_filter]
  refine congrArg List.length (List.filter_congr fun n hn => ?_)
  obtain ⟨h64, hp⟩ := hns n hn
  have h1 : 1 ≤ n := Nat.one_le_iff_ne_zero.2 fun h0 => by
    rw [h0, hbeacon] at hp
    cases hp
  exact (Entry.without_isCooling (hentries n h64 h1).2 hp).symm

/-! ### RELEASE (R53, R56) -/

theorem readRelease_eq_some_iff {slots : Nat} (hS : slots ≤ 64) {l : List Byte} {sel : Selector} :
    readRelease slots l = some sel ↔ sel.InRange slots ∧ l = sel.bytes := by
  constructor
  · intro h
    unfold readRelease at h
    split at h
    · obtain ⟨hrange, hbytes⟩ := (readSelector_eq_some_iff hS).1 h
      exact ⟨hrange, hbytes.symm⟩
    · cases h
  · rintro ⟨hrange, rfl⟩
    obtain ⟨b, v, hbytes⟩ : ∃ b v, sel.bytes = [b, v] := by cases sel <;> exact ⟨_, _, rfl⟩
    rw [hbytes]
    exact (readSelector_eq_some_iff hS).2 ⟨hrange, hbytes⟩

/-- What RELEASE does with the entries that qualify. -/
def releasePicked (p : Port) (u : State) (sel : Selector) : Answer :=
  match u.qualifying p sel with
  | [] => refuseWith .notHolder
  | n :: ns =>
    .ok (u.giveUpSlots p .released (n :: ns)) [byteOf (n :: ns).length, byteOf (u.heldAmong (n :: ns)), byteOf n]

theorem judgeRelease_eq (p : Port) (l : List Byte) :
    judgeRelease p l = fun u => u.whenAttached p (withFields (readRelease u.slots l) (releasePicked p u)) := rfl

theorem exec_release_of_some {s : State} {p : Port} {l : List Byte} {sel : Selector} (ht : s.takes p .release l = true)
    (hp : (s.port p).attachment ≠ none) (hread : readRelease s.slots l = some sel) :
    exec (.release p l) s = .next ((s.deselect p).settle p (releasePicked p (s.deselect p) sel)) := by
  refine congrArg Host.Outcome.next ?_
  rw [judgeRelease_eq]
  exact State.takeRequest_of_read (fun u => readRelease u.slots l) (releasePicked p) ht hp hread

/-- An entry that a selector picks names the port. -/
theorem Selector.party_of_picks {sel : Selector} {p : Port} {n : Nat} {e : Entry} (h : sel.picks p n e = true) :
    p ∈ e.parties := by
  cases sel with
  | slot m => exact Entry.names_iff.1 (Bool.and_eq_true_iff.1 h).2
  | tag t => exact Entry.names_iff.1 (Bool.and_eq_true_iff.1 h).1

/-- Settles O17: the selector picks the qualifying entries in ascending order, and they are given up one by one. -/
theorem releaseGivesTheSlotsUp : Obligations.ReleaseGivesTheSlotsUp := by
  intro s p payload hsched hids ⟨_, hS, _⟩ hp ht
  have hkeyed := hsched.offersKeyed hids
  refine ⟨?_, fun hbad => ?_⟩
  · intro sel hrange hpayload picked cooled told
    have hexec := exec_release_of_some ht hp ((readRelease_eq_some_iff hS).2 ⟨hrange, hpayload⟩)
    have hpicked : (s.deselect p).qualifying p sel = picked := s.qualifying_eq_filter p hrange
    have hnodup : picked.Nodup := List.nodup_range.filter _
    refine ⟨fun hempty => ?_, fun lowest rest hcons => ?_⟩
    · rw [hexec, releasePicked, hpicked, hempty, State.settle_refuseWith]
    · have hmem : ∀ n ∈ picked, n < 64 ∧ p ∈ (entryAt s.staged n).parties := fun n hn => by
        obtain ⟨hrange, hpick⟩ := List.mem_filter.1 hn
        exact ⟨List.mem_range.1 hrange, Selector.party_of_picks hpick⟩
      have hcooled : (s.deselect p).heldAmong picked = cooled.length := hsched.heldAmong_eq hmem
      have hrelease : releasePicked p (s.deselect p) sel = .ok ((s.deselect p).giveUpSlots p .released picked)
          [byteOf picked.length, byteOf cooled.length, byteOf lowest] := by
        rw [releasePicked, hpicked, ← hcooled, hcons]
      have hport (q : Port) : ((s.deselect p).giveUpSlots p .released picked).port q
          = ((s.deselect p).port q).told (told q) :=
        State.OffersKeyed.port_giveUpSlots (s := s.deselect p) hkeyed hsched.parties_nodup p .released hnodup q
      rw [hexec, hrelease, State.settle_ok]
      refine ⟨_, rfl, ?_, ?_, ?_, fun q hq => ?_, fun n hn => ?_⟩
      · exact congrArg (fun u : State => { u with ports := s.ports })
          ((s.deselect p).giveUpSlots_frame p .released picked)
      · exact State.OffersKeyed.giveUpSlots_offers (s := s.deselect p) hkeyed p .released picked
      · have hself : told p = [] := hsched.giveUpNews_flatMap_self p .released picked
        rw [State.port_reply, if_pos rfl, hport, hself, PortState.told_nil, State.port_deselect, if_pos rfl]
        rfl
      · rw [State.port_reply, if_neg hq, hport, State.port_deselect, if_neg hq]
      · have hentry := (s.deselect p).entryAt_giveUpSlots p .released hnodup n
        simpa [hn] using hentry
  · refine congrArg Host.Outcome.next ?_
    rw [judgeRelease_eq]
    refine State.takeRequest_of_unread (fun u => readRelease u.slots payload) (releasePicked p) ht hp ?_
    refine Option.eq_none_iff_forall_ne_some.2 fun sel hread => ?_
    obtain ⟨hrange, hpayload⟩ := (readRelease_eq_some_iff hS).1 hread
    exact hbad sel hrange hpayload

/-! ### Timed edits (R111 to R114) -/

/-- The head of the list when it is due. -/
theorem State.dueHead_eq_some {s : State} {e : Edit} {rest : List Edit} (hrun : s.framesRun = true)
    (hedits : s.edits = e :: rest) (hdue : e.activation = s.frameCounter + 1) : s.dueHead = some e := by
  have hpick : (s.framesRun && s.editDue e) = true := by simp [hrun, State.editDue, hdue]
  rw [State.dueHead, hedits]
  exact if_pos hpick

/-- The command that applies a due edit. -/
def Edit.command (e : Edit) : Instr :=
  match e.action with
  | .release _ => .timedRelease
  | .renew _ _ => .timedRenew
  | .enqueue _ => .timedEnqueue

/-- Each of the three commands applies a due head of its kind. -/
theorem exec_command_of_due {s : State} {e : Edit} (h : s.dueHead = some e) : exec e.command s = .next (s.applyHead e) := by
  obtain ⟨i, p, f, act⟩ := e
  cases act with
  | release n =>
    change execTimedRelease s = _
    rw [execTimedRelease, h]
    rfl
  | renew n l =>
    change execTimedRenew s = _
    rw [execTimedRenew, h]
    rfl
  | enqueue r =>
    change execTimedEnqueue s = _
    rw [execTimedEnqueue, h]
    rfl

/-- `s` without the head of its list. -/
def State.headless (s : State) : State := { s with edits := s.edits.tail }

theorem exec_timedRelease_of_due {s : State} {e : Edit} {n : Nat} (h : s.dueHead = some e)
    (hact : e.action = .release n) : exec .timedRelease s = .next (s.headless.applyRelease e n) := by
  have hexec := exec_command_of_due h
  rwa [Edit.command, State.applyHead, State.applyEdit, hact] at hexec

theorem exec_timedRenew_of_due {s : State} {e : Edit} {n : Nat} {l : Half} (h : s.dueHead = some e)
    (hact : e.action = .renew n l) : exec .timedRenew s = .next (s.headless.applyRenew e n l) := by
  have hexec := exec_command_of_due h
  rwa [Edit.command, State.applyHead, State.applyEdit, hact] at hexec

theorem exec_timedEnqueue_of_due {s : State} {e : Edit} {r : Reservation} (h : s.dueHead = some e)
    (hact : e.action = .enqueue r) : exec .timedEnqueue s = .next (s.headless.applyEnqueue e r) := by
  have hexec := exec_command_of_due h
  rwa [Edit.command, State.applyHead, State.applyEdit, hact] at hexec

/-- EDIT_FAILED for a RELEASE or a RENEW names the slot, for an ENQUEUE the reservation (R111). -/
theorem State.failEdit_eq (s : State) (e : Edit) (why : Reason) :
    s.failEdit e why = s.setPort e.issuer ((s.port e.issuer).told [s.editFailedNotice e why]) :=
  State.notify_eq_setPort _ _ _

theorem State.editFailedNotice_of_release {s : State} {e : Edit} {n : Nat} (h : e.action = .release n) (why : Reason) :
    s.editFailedNotice e why = ⟨.editFailed, some why, none, some n, none, none, some e.id, s.nextFrame⟩ := by
  rw [State.editFailedNotice, h]
  rfl

theorem State.editFailedNotice_of_renew {s : State} {e : Edit} {n : Nat} {l : Half} (h : e.action = .renew n l)
    (why : Reason) :
    s.editFailedNotice e why = ⟨.editFailed, some why, none, some n, none, none, some e.id, s.nextFrame⟩ := by
  rw [State.editFailedNotice, h]
  rfl

theorem State.editFailedNotice_of_enqueue {s : State} {e : Edit} {r : Reservation} (h : e.action = .enqueue r)
    (why : Reason) :
    s.editFailedNotice e why = ⟨.editFailed, some why, some r.tag, none, some r.count, none, some e.id, s.nextFrame⟩ := by
  rw [State.editFailedNotice, h]
  rfl

theorem State.applyRelease_of_not_party {s : State} {e : Edit} {n : Nat} (h : e.issuer ∉ (entryAt s.staged n).parties) :
    s.applyRelease e n = s.failEdit e .notHolder :=
  if_neg fun hn => h (Entry.names_iff.1 hn)

theorem State.applyRelease_of_party {s : State} {e : Edit} {n : Nat} (h : e.issuer ∈ (entryAt s.staged n).parties) :
    s.applyRelease e n = (s.giveUpSlot e.issuer .released n).notify e.issuer
      ((s.giveUpSlot e.issuer .released n).editDoneNotice e n (entryAt s.staged n).tag) :=
  (if_pos (Entry.names_iff.2 h)).trans (by simp [State.editDoneNotice, State.notice, State.nextFrame])

theorem State.applyRenew_of_not_party {s : State} {e : Edit} {n : Nat} {l : Half}
    (h : e.issuer ∉ (entryAt s.staged n).parties) : s.applyRenew e n l = s.failEdit e .notHolder := by
  have hn : ¬ (entryAt s.staged n).names e.issuer = true := fun hn => h (Entry.names_iff.1 hn)
  unfold State.applyRenew
  dsimp only
  split
  · exact if_neg hn
  · rfl

/-- A party's RENEW sets the lease of the holding and empties its warned set. -/
theorem State.applyRenew_of_party {s : State} {e : Edit} {n : Nat} {l : Half}
    (h : e.issuer ∈ (entryAt s.staged n).parties) :
    ∃ x, (entryAt s.staged n).holding? = some x ∧ s.applyRenew e n l =
      (s.setStaged n ((entryAt s.staged n).withHolding { x with lease := l, warned := PerPort.all false })).notify
        e.issuer (s.editDoneNotice e n (entryAt s.staged n).tag) := by
  have hn : (entryAt s.staged n).names e.issuer = true := Entry.names_iff.2 h
  cases hx : (entryAt s.staged n).holding? with
  | none => cases he : entryAt s.staged n <;> simp_all [Entry.holding?, Entry.parties]
  | some x =>
    refine ⟨x, rfl, ?_⟩
    rw [State.applyRenew, hx]
    exact if_pos hn

theorem State.headless_eq {s : State} {e : Edit} {rest : List Edit} (h : s.edits = e :: rest) :
    s.headless = { s with edits := rest } := by
  rw [State.headless, h]
  rfl

/-- A due RELEASE, by what its issuer has in the slot (R112). -/
theorem timedRelease_outcome {s : State} {e : Edit} {rest : List Edit} {n : Nat} (hsched : s.ScheduleOk)
    (hids : s.OfferIdsOk) (hedits : s.edits = e :: rest) (hact : e.action = .release n)
    (hparty : e.issuer ∈ (entryAt s.staged n).parties) :
    let x := entryAt s.staged n
    let t := s.headless.applyRelease e n
    { t with edits := s.edits, staged := s.staged, offers := s.offers, ports := s.ports } = s ∧ t.edits = rest
      ∧ t.offers = s.offers.filter (fun o => !(o.giver == e.issuer && o.slot == n))
      ∧ (∀ m, m < 64 → entryAt t.staged m = if m = n then x.without e.issuer else entryAt s.staged m)
      ∧ t.port e.issuer = (s.port e.issuer).told
          [⟨.editDone, some .releaseAction, some x.tag, some n, none, none, some e.id, s.nextFrame⟩]
      ∧ ∀ q, q ≠ e.issuer → t.port q = (s.port q).told (s.giveUpNews e.issuer .released n q) := by
  intro x t
  have hkeyed : s.headless.OffersKeyed := hsched.offersKeyed hids
  have hframe := s.headless.giveUpSlot_frame e.issuer .released n
  have hport (q : Port) : (s.headless.giveUpSlot e.issuer .released n).port q
      = (s.port q).told (s.giveUpNews e.issuer .released n q) :=
    hkeyed.port_giveUpSlot (hsched.parties_nodup n) e.issuer .released q
  have hcounter : (s.headless.giveUpSlot e.issuer .released n).frameCounter = s.headless.frameCounter := by simp
  have ht : t = (s.headless.giveUpSlot e.issuer .released n).setPort e.issuer ((s.port e.issuer).told
      [⟨.editDone, some .releaseAction, some x.tag, some n, none, none, some e.id, s.nextFrame⟩]) := by
    have happly := State.applyRelease_of_party (s := s.headless) hparty
    rw [State.notify_eq_setPort, hport, hsched.giveUpNews_self, PortState.told_nil, State.editDoneNotice, hact,
      State.notice, State.nextFrame, hcounter] at happly
    exact happly
  rw [ht]
  refine ⟨congrArg (fun u : State => { u with edits := s.edits }) hframe, ?_, hkeyed.giveUpSlot_offers e.issuer .released n,
    fun m hm => ?_, State.port_setPort_self .., fun q hq => (State.port_setPort_ne _ hq _).trans (hport q)⟩
  · refine (congrArg State.edits hframe).trans ?_
    rw [State.headless_eq hedits]
  · refine (State.entryAt_giveUpSlot s.headless e.issuer .released n m).trans ?_
    by_cases hmn : m = n
    · subst hmn
      simp [hm, x, State.headless]
    · simp [hmn, State.headless]

/-- A due RENEW, by what its issuer has in the slot (R113). -/
theorem timedRenew_outcome {s : State} {e : Edit} {rest : List Edit} {n : Nat} {l : Half}
    (hedits : s.edits = e :: rest) (hact : e.action = .renew n l) (hn : n < 64)
    (hparty : e.issuer ∈ (entryAt s.staged n).parties) :
    let x := entryAt s.staged n
    let t := s.headless.applyRenew e n l
    { t with edits := s.edits, staged := s.staged, ports := s.ports } = s ∧ t.edits = rest
      ∧ (∀ m, m < 64 → m ≠ n → entryAt t.staged m = entryAt s.staged m)
      ∧ (∃ h, x.holding? = some h
          ∧ entryAt t.staged n = x.withHolding { h with lease := l, warned := PerPort.all false })
      ∧ t.ports = s.ports.set e.issuer ((s.port e.issuer).told
          [⟨.editDone, some .renewAction, some x.tag, some n, none, none, some e.id, s.nextFrame⟩]) := by
  intro x t
  obtain ⟨h, hx, happly⟩ := State.applyRenew_of_party (s := s.headless) (l := l) hparty
  have hentry (m : Nat) : entryAt (s.headless.setStaged n
      (x.withHolding { h with lease := l, warned := PerPort.all false })).staged m
      = if m = n ∧ n < 64 then x.withHolding { h with lease := l, warned := PerPort.all false }
        else entryAt s.staged m := State.entryAt_setStaged s.headless n m _
  have ht : t = (s.headless.setStaged n (x.withHolding { h with lease := l, warned := PerPort.all false })).setPort
      e.issuer ((s.port e.issuer).told
        [⟨.editDone, some .renewAction, some x.tag, some n, none, none, some e.id, s.nextFrame⟩]) := by
    rw [State.notify_eq_setPort, State.editDoneNotice, hact] at happly
    exact happly
  rw [ht]
  refine ⟨rfl, congrArg State.edits (State.headless_eq hedits), fun m _ hmn => (hentry m).trans (if_neg fun h => hmn h.1),
    ⟨h, hx, (hentry n).trans (if_pos ⟨rfl, hn⟩)⟩, rfl⟩

/-- Settles O32: the due head is of its kind, and its issuer is a party to the slot or not. -/
theorem timedReleaseAndRenewActOnTheSlot : Obligations.TimedReleaseAndRenewActOnTheSlot := by
  refine ⟨?_, ?_⟩
  · intro s e rest n hsched hids hrun hedits hact hdue x
    have hexec := exec_timedRelease_of_due (State.dueHead_eq_some hrun hedits hdue) hact
    refine ⟨fun hno => ?_, fun hparty => ⟨_, hexec, timedRelease_outcome hsched hids hedits hact hparty⟩⟩
    rw [hexec, State.applyRelease_of_not_party (s := s.headless) hno, State.failEdit_eq,
      State.editFailedNotice_of_release hact, State.headless_eq hedits]
    rfl
  · intro s e rest n l hrun hedits hact hdue hn x
    have hexec := exec_timedRenew_of_due (State.dueHead_eq_some hrun hedits hdue) hact
    refine ⟨fun hno => ?_, fun hparty => ?_⟩
    · rw [hexec, State.applyRenew_of_not_party (s := s.headless) hno, State.failEdit_eq,
        State.editFailedNotice_of_renew hact, State.headless_eq hedits]
      rfl
    · obtain ⟨hframe, hrest, hother, ⟨h, hx, hentry⟩, hports⟩ := timedRenew_outcome hedits hact hn hparty
      refine ⟨_, hexec, hframe, hrest, hother, fun q h' hheld => ?_, fun ms mark h' hshared => ?_, hports⟩
      · have hsame : x.holding? = some h' := congrArg Entry.holding? hheld
        cases hx.symm.trans hsame
        exact hentry.trans (congrArg (Entry.withHolding · _) hheld)
      · have hsame : x.holding? = some h' := congrArg Entry.holding? hshared
        cases hx.symm.trans hsame
        exact hentry.trans (congrArg (Entry.withHolding · _) hshared)

/-- A due ENQUEUE by its three checks. -/
theorem State.applyEnqueue_eq {s : State} {e : Edit} {r : Reservation} (hact : e.action = .enqueue r) :
    let mine := s.requests.filter (fun x => x.port == e.issuer)
    let told (k : NoticeKind) (why : Reason) : PerPort PortState :=
      s.ports.set e.issuer ((s.port e.issuer).told
        [⟨k, some why, some r.tag, none, some r.count, none, some e.id, s.nextFrame⟩])
    s.applyEnqueue e r =
      if ∃ x ∈ mine, x.res.tag = r.tag then { s with ports := told .editFailed .tagInUse }
      else if 6 ≤ mine.length then { s with ports := told .editFailed .portLimit }
      else if 16 ≤ s.requests.length then { s with ports := told .editFailed .queueFull }
      else { s with requests := s.requests ++ [⟨e.issuer, r⟩], ports := told .editDone .enqueueAction } := by
  intro mine told
  have hlimit : s.pendingCount e.issuer = mine.length := s.pendingCount_eq_length_filter e.issuer
  have hfail (why : Reason) : s.failEdit e why = { s with ports := told .editFailed why } := by
    rw [State.failEdit_eq, State.editFailedNotice_of_enqueue hact]
    rfl
  rw [State.applyEnqueue, hlimit, hfail, hfail, hfail]
  refine ite_congr (propext (s.tagPending_iff e.issuer r.tag)) (fun _ => rfl) fun _ => ?_
  refine ite_congr rfl (fun _ => rfl) fun _ => ite_congr rfl (fun _ => rfl) fun _ => ?_
  exact State.notify_eq_setPort _ _ _

/-- Due edits at the head of the list are applied by one command each (R111). -/
theorem runs_due (l rest : List Edit) {s : State} (hrun : s.framesRun = true) (hedits : s.edits = l ++ rest)
    (hdue : ∀ e ∈ l, e.activation = s.frameCounter + 1) :
    runs (l.map Edit.command) s = .next (l.foldl State.applyHead s) := by
  induction l generalizing s with
  | nil => rfl
  | cons e l ih =>
    have hexec := exec_command_of_due (State.dueHead_eq_some hrun hedits (hdue e (by simp)))
    rw [List.map_cons, runs_cons hexec, List.foldl_cons]
    have hfields : (s.applyHead e).resetAsserted = s.resetAsserted ∧ (s.applyHead e).frame = s.frame
        ∧ (s.applyHead e).frameCounter = s.frameCounter ∧ (s.applyHead e).edits = s.edits.tail := by
      simp [State.applyHead]
    obtain ⟨hreset, hframe, hcounter, htail⟩ := hfields
    refine ih ?_ (htail.trans (by rw [hedits]; rfl)) fun x hx => ?_
    · rw [State.framesRun, hreset, hframe]
      exact hrun
    · rw [hcounter]
      exact hdue x (by simp [hx])

/-- Settles O33: the three checks, and one command for each due edit. -/
theorem timedEnqueueChecksThenJoinsTheTail : Obligations.TimedEnqueueChecksThenJoinsTheTail := by
  refine ⟨?_, ?_⟩
  · intro s e rest r hrun hedits hact hdue mine told
    rw [exec_timedEnqueue_of_due (State.dueHead_eq_some hrun hedits hdue) hact, State.applyEnqueue_eq hact,
      State.headless_eq hedits]
    rfl
  · intro s hrun command
    have hdue : ∀ e ∈ s.edits.takeWhile s.editDue, e.activation = s.frameCounter + 1 := fun e he => by
      have hpick : s.editDue e = true := List.mem_takeWhile_imp he
      exact beq_iff_eq.1 hpick
    exact runs_due _ (s.edits.dropWhile s.editDue) hrun List.takeWhile_append_dropWhile.symm hdue

end Sys2Proof.Machine
end

section
/-! SUPPORT. The proof of the statement about DETACH: what its five parts remove, and what each tells the other ports. -/

-- One proof after another: many at once take more memory than the check allows.
set_option Elab.async false

namespace Sys2Proof.Machine

open Sys2Proof

/-! ### Part 2: the offers to the port (R102) -/

/-- OFFER_REFUSED to port `q` for the offers it had made to port `p`. -/
def State.refusedNews (s : State) (p q : Port) : List Notice :=
  (s.offers.filter (fun o => o.target == p && o.giver == q)).map (fun o =>
    ⟨.offerRefused, some .detached, some (entryAt s.staged o.slot).tag, some o.slot, none, some p, some o.id,
      s.nextFrame⟩)

theorem State.port_foldl_refuseOffer (l : List Offer) (s : State) (why : Reason) (q : Port) :
    (l.foldl (fun s o => s.refuseOffer o why) s).port q = (s.port q).told ((l.filter (fun o => o.giver == q)).map
      (fun o => s.offerNotice .offerRefused o (s.slotTag o.slot) o.target why)) := by
  induction l generalizing s with
  | nil => exact (PortState.told_nil _).symm
  | cons o l ih =>
    have hone : (s.refuseOffer o why).port q = (s.port q).told
        (if q = o.giver then [s.offerNotice .offerRefused o (s.slotTag o.slot) o.target why] else []) := by
      rw [State.refuseOffer, State.port_notify, PortState.told_ite]
      rfl
    have hnotice : (fun o' => (s.refuseOffer o why).offerNotice .offerRefused o' ((s.refuseOffer o why).slotTag o'.slot)
        o'.target why) = fun o' => s.offerNotice .offerRefused o' (s.slotTag o'.slot) o'.target why := by
      funext o'
      simp [State.offerNotice, State.slotTag, State.notice, State.nextFrame]
    rw [List.foldl_cons, ih, hone, hnotice, PortState.told_told, List.filter_cons]
    by_cases hq : q = o.giver
    · simp [hq]
    · simp [hq, Ne.symm hq]

theorem State.port_dropTargetOffers (s : State) (p q : Port) :
    (s.dropTargetOffers p).port q = (s.port q).told (s.refusedNews p q) := by
  rw [State.dropTargetOffers, State.port_foldl_refuseOffer, List.filter_filter, State.refusedNews]
  have hboth : (fun o : Offer => o.giver == q && o.target == p) = fun o => o.target == p && o.giver == q :=
    funext fun o => Bool.and_comm _ _
  rw [hboth]
  refine congrArg _ (List.map_congr_left fun o ho => ?_)
  obtain ⟨-, hpick⟩ := List.mem_filter.1 ho
  obtain ⟨htarget, -⟩ := Bool.and_eq_true_iff.1 hpick
  rw [beq_iff_eq.1 htarget]
  rfl

theorem State.foldl_refuseOffer_offers (l : List Offer) (s : State) (why : Reason) :
    (l.foldl (fun s o => s.refuseOffer o why) s).offers
      = s.offers.filter (fun x => !(l.map Offer.id).contains x.id) := by
  induction l generalizing s with
  | nil => simp
  | cons o l ih =>
    rw [List.foldl_cons, ih, State.refuseOffer_offers, List.filter_filter]
    refine List.filter_congr fun x _ => ?_
    rw [List.map_cons, List.contains_cons, Bool.not_or, Bool.and_comm]
    rfl

theorem State.OffersKeyed.dropTargetOffers_offers {s : State} (h : s.OffersKeyed) (p : Port) :
    (s.dropTargetOffers p).offers = s.offers.filter (fun o => o.target != p) := by
  obtain ⟨-, hnodup⟩ := h
  rw [State.dropTargetOffers, State.foldl_refuseOffer_offers]
  refine List.filter_congr fun x hx => ?_
  have hid : x.id ∈ (s.offers.filter (fun o => o.target == p)).map Offer.id ↔ x.target = p := by
    constructor
    · intro hmem
      obtain ⟨o, ho, hid⟩ := List.mem_map.1 hmem
      obtain ⟨ho, htarget⟩ := List.mem_filter.1 ho
      rw [← List.inj_on_of_nodup_map hnodup ho hx hid]
      exact beq_iff_eq.1 htarget
    · exact fun htarget => List.mem_map_of_mem (List.mem_filter.2 ⟨hx, beq_iff_eq.2 htarget⟩)
  rw [Bool.eq_iff_iff, Bool.not_eq_true', ← Bool.not_eq_true, List.contains_iff_mem, hid, bne_iff_ne]

/-! ### Part 5: the proposal (R128) -/

/-- The proposal without port `p`. -/
def Proposal.without (pr : Proposal) (p : Port) : Proposal :=
  { pr with confirming := pr.confirming.set p false, confirmed := pr.confirmed.set p false }

/-- What becomes of a proposal when port `p` leaves at frame `f`, with the effect that DETACH answers. -/
def ProposalState.left (x : ProposalState) (p : Port) (f : Word) : ProposalState × Byte :=
  match x with
  | .none => (.none, 0)
  | .agreed pr k => (.agreed pr k, 0)
  | .opened pr d =>
    if pr.confirming.get p = false then (.opened pr d, 0)
    else if pr.proposer = p then (.none, 3)
    else if (pr.without p).confirmed == (pr.without p).confirming then (.agreed (pr.without p) (f + 1), 2)
    else (.opened (pr.without p) d, 1)

/-- What the proposal's fate tells port `q` when port `p` leaves. -/
def State.leaveNews (s : State) (p q : Port) : List Notice :=
  match s.proposal with
  | .none | .agreed _ _ => []
  | .opened pr _ =>
    if pr.confirming.get p = false then []
    else if pr.proposer = p then
      (if pr.confirming.get q = true then
        [⟨.planFailed, some .withdrawn, none, none, none, some p, none, s.nextFrame⟩] else [])
    else if (pr.without p).confirmed == (pr.without p).confirming then
      [⟨.planAgreed, none, none, none, none, some pr.proposer, none, s.nextFrame⟩]
    else []

theorem State.leaveProposal_of_not_member {s : State} {p : Port} {pr : Proposal} {d : Nat}
    (hpr : s.proposal = .opened pr d) (hin : pr.confirming.get p = false) : s.leaveProposal p = (s, .none) := by
  rw [State.leaveProposal, hpr]
  exact if_pos (by rw [hin]; rfl)

theorem State.leaveProposal_of_member {s : State} {p : Port} {pr : Proposal} {d : Nat}
    (hpr : s.proposal = .opened pr d) (hin : pr.confirming.get p = true) :
    s.leaveProposal p =
      if pr.proposer = p then (s.failProposal (pr.without p) .withdrawn p, .withdrawn)
      else (s.judgeProposal (pr.without p) d, if (pr.without p).complete then .confirmed else .leftSet) := by
  rw [State.leaveProposal, hpr]
  exact if_neg (by rw [hin]; exact Bool.false_ne_true)

/-- The four fates of an OPEN proposal, and the two other states, when port `p` leaves. -/
theorem State.leaveProposal_outcome (s : State) (p : Port) :
    (s.leaveProposal p).1.proposal = (s.proposal.left p s.frameCounter).1
      ∧ (s.leaveProposal p).2.code = (s.proposal.left p s.frameCounter).2
      ∧ ∀ q, q ≠ p → (s.leaveProposal p).1.port q = (s.port q).told (s.leaveNews p q) := by
  have stays {u : State} (q : Port) : u.port q = (u.port q).told [] := (PortState.told_nil _).symm
  unfold State.leaveNews
  cases hpr : s.proposal with
  | none =>
    rw [State.leaveProposal, hpr]
    exact ⟨hpr, rfl, fun q _ => stays q⟩
  | agreed pr f =>
    rw [State.leaveProposal, hpr]
    exact ⟨hpr, rfl, fun q _ => stays q⟩
  | opened pr d =>
    dsimp only [ProposalState.left]
    by_cases hout : pr.confirming.get p = false
    · simp only [State.leaveProposal_of_not_member hpr hout, if_pos hout]
      exact ⟨hpr, rfl, fun q _ => stays q⟩
    simp only [State.leaveProposal_of_member hpr (Bool.not_eq_false _ ▸ hout), if_neg hout]
    by_cases hown : pr.proposer = p
    · simp only [if_pos hown, State.failProposal_eq_toldAll]
      refine ⟨rfl, rfl, fun q hq => (State.port_toldAll _ _ q).trans ?_⟩
      have hget : (pr.without p).confirming.get q = pr.confirming.get q := PerPort.get_set_ne _ hq false
      rw [State.failNews, hget]
      rfl
    simp only [if_neg hown]
    by_cases hfinal : (pr.without p).confirmed = (pr.without p).confirming
    · simp only [if_pos (beq_iff_eq.2 hfinal), if_pos ((Proposal.complete_iff _).2 hfinal),
        State.judgeProposal_of_complete s hfinal]
      exact ⟨rfl, rfl, fun q _ => State.port_toldAll _ _ q⟩
    · simp only [if_neg (mt beq_iff_eq.1 hfinal), if_neg (mt (Proposal.complete_iff _).1 hfinal),
        State.judgeProposal_of_incomplete s hfinal]
      exact ⟨trivial, rfl, fun q _ => stays q⟩

/-! ### The five parts (R159, R160) -/

/-- The state after the five parts of a DETACH, with the effect on the proposal. -/
def State.detached (s : State) (p : Port) : State × DetachEffect :=
  ((((s.detachPort p).giveUpSlots p .detached (s.ownSlots p)).dropTargetOffers p).dropOwn p).leaveProposal p

/-- What DETACH answers. -/
def detachAnswer (p : Port) (u : State) : Answer :=
  .ok (u.detached p).1
    [byteOf (u.ownSlots p).length, byteOf (u.heldAmong (u.ownSlots p)), byteOf (u.pendingCount p), byteOf (u.editCount p),
     byteOf (u.offers.countP (fun o => o.giver == p)), byteOf (u.offers.countP (fun o => o.target == p)),
     (u.detached p).2.code]

theorem exec_detach_of_attached {s : State} {p : Port} (ht : s.takes p .detach [] = true)
    (hp : (s.port p).attachment ≠ none) :
    exec (.detach p []) s = .next ((s.deselect p).settle p (detachAnswer p (s.deselect p))) :=
  congrArg Host.Outcome.next
    (State.takeRequest_of_read (fun _ => readEmpty []) (fun u (_ : Unit) => detachAnswer p u) ht hp readEmpty_nil)

section

variable {s : State} {p : Port}

theorem State.ScheduleOk.deselect (h : s.ScheduleOk) (p : Port) : (s.deselect p).ScheduleOk :=
  h.same rfl rfl rfl rfl rfl rfl rfl fun q hq => by rwa [State.attached_deselect]

/-- An offer that the port has made is on one of its slots. -/
theorem State.ScheduleOk.giver_slot (h : s.ScheduleOk) {o : Offer} (ho : o ∈ s.offers) (hg : o.giver = p) :
    o.slot ∈ s.ownSlots p := by
  obtain ⟨-, -, hslot, -, hgiver, -⟩ := h.offer ho
  exact State.mem_ownSlots.2 ⟨hslot, hg ▸ hgiver⟩

/-- An offer to the port is on none of its slots. -/
theorem State.ScheduleOk.target_slot (h : s.ScheduleOk) {o : Offer} (ho : o ∈ s.offers) (hg : o.target = p) :
    o.slot ∉ s.ownSlots p := by
  obtain ⟨-, -, -, -, -, htarget, -⟩ := h.offer ho
  exact fun hmem => htarget (hg ▸ (State.mem_ownSlots.1 hmem).2)

theorem State.ownSlots_nodup (s : State) (p : Port) : (s.ownSlots p).Nodup := slotNumbers_nodup.filter _

theorem State.ScheduleOk.offers_detached (h : s.ScheduleOk) (k : s.OfferIdsOk) :
    (s.detached p).1.offers = s.offers.filter (fun o => o.giver != p && o.target != p) := by
  have hkeyed : (s.detachPort p).OffersKeyed := h.offersKeyed k
  have hgiven := hkeyed.giveUpSlots_offers p .detached (s.ownSlots p)
  have hleft : (s.detached p).1.offers
      = (((s.detachPort p).giveUpSlots p .detached (s.ownSlots p)).dropTargetOffers p).offers := by
    simp [State.detached]
  rw [hleft, State.OffersKeyed.dropTargetOffers_offers (hkeyed.of_sublist (hgiven ▸ List.filter_sublist)), hgiven,
    List.filter_filter]
  refine List.filter_congr fun o ho => ?_
  by_cases hg : o.giver = p
  · have hslot : o.slot ∈ s.ownSlots p := h.giver_slot ho hg
    simp [hg, hslot]
  · simp [bne, beq_false_of_ne hg]

theorem State.entryAt_detached (s : State) (p : Port) {n : Nat} (hn : n < 64) :
    entryAt (s.detached p).1.staged n =
      if p ∈ (entryAt s.staged n).parties then (entryAt s.staged n).without p else entryAt s.staged n := by
  have hstaged : (s.detached p).1.staged = ((s.detachPort p).giveUpSlots p .detached (s.ownSlots p)).staged := by
    simp [State.detached]
  rw [hstaged, State.entryAt_giveUpSlots _ _ _ (s.ownSlots_nodup p)]
  simp only [State.mem_ownSlots, hn, true_and, and_true]
  rfl

/-- A DETACHED port is told nothing, so the port's own state is that of part 0. -/
theorem State.port_detached_self (s : State) (p : Port) :
    (s.detached p).1.port p = { s.port p with attachment := none, notices := [], lost := false } := by
  have htold : (s.detachPort p).Told (s.detached p).1 :=
    ((State.giveUpSlots_told _ _ _ _).trans (State.dropTargetOffers_told _ _)).trans
      ((State.Told.of_ports rfl).trans (State.leaveProposal_told _ _))
  obtain ⟨l, hl⟩ := htold p
  have hport : (s.detachPort p).port p = { s.port p with attachment := none, notices := [], lost := false } := by
    rw [State.port_detachPort, if_pos rfl]
  rw [hl, hport, PortState.told_of_detached _ _ rfl]

/-- Nothing but the tables, the proposal, the drive-cut marks and the ports moves. -/
theorem State.detached_frame (s : State) (p : Port) :
    { (s.detached p).1 with
        staged := s.staged, requests := s.requests, edits := s.edits, offers := s.offers
        driveCut := s.driveCut, proposal := s.proposal, ports := s.ports } = s := by
  have hcore : s.SameCore (s.detached p).1 := .of_fields (by simp [State.detached])
  have hcounters : (s.detached p).1.offerCounter = s.offerCounter ∧ (s.detached p).1.editCounter = s.editCounter := by
    simp [State.detached]
  obtain ⟨hoffer, hedit⟩ := hcounters
  have hsame := congrArg (fun u : State => { u with
    offerCounter := (s.detached p).1.offerCounter, editCounter := (s.detached p).1.editCounter }) hcore
  exact hsame.trans (by rw [hoffer, hedit])

/-- What a DETACH of port `p` tells another port, in the order of the five parts (R160). -/
def State.detachNews (s : State) (p q : Port) : List Notice :=
  (s.ownSlots p).flatMap (fun n => s.giveUpNews p .detached n q) ++ s.refusedNews p q ++ s.leaveNews p q

/-- The slots given up are not those of the offers to the port. -/
theorem State.ScheduleOk.refusedNews_giveUpSlots (h : s.ScheduleOk) (k : s.OfferIdsOk) {q : Port} (hq : q ≠ p) :
    ((s.detachPort p).giveUpSlots p .detached (s.ownSlots p)).refusedNews p q = s.refusedNews p q := by
  have hkeyed : (s.detachPort p).OffersKeyed := h.offersKeyed k
  have hoffers : ((s.detachPort p).giveUpSlots p .detached (s.ownSlots p)).offers.filter
      (fun o => o.target == p && o.giver == q) = s.offers.filter (fun o => o.target == p && o.giver == q) := by
    rw [hkeyed.giveUpSlots_offers, List.filter_filter]
    refine List.filter_congr fun o _ => ?_
    by_cases hg : o.giver = q
    · simp [hg, hq]
    · simp [hg]
  rw [State.refusedNews, State.refusedNews, hoffers]
  refine List.map_congr_left fun o ho => ?_
  obtain ⟨ho, hpick⟩ := List.mem_filter.1 ho
  obtain ⟨htarget, -⟩ := Bool.and_eq_true_iff.1 hpick
  have hslot := h.target_slot ho (beq_iff_eq.1 htarget)
  have hentry : entryAt ((s.detachPort p).giveUpSlots p .detached (s.ownSlots p)).staged o.slot
      = entryAt s.staged o.slot := by
    rw [State.entryAt_giveUpSlots _ _ _ (s.ownSlots_nodup p), if_neg fun hand => hslot hand.1]
    rfl
  have hnext : ((s.detachPort p).giveUpSlots p .detached (s.ownSlots p)).nextFrame = s.nextFrame := by
    simp [State.nextFrame]
  rw [hentry, hnext]

theorem State.ScheduleOk.port_detached (h : s.ScheduleOk) (k : s.OfferIdsOk) {q : Port} (hq : q ≠ p) :
    (s.detached p).1.port q = (s.port q).told (s.detachNews p q) := by
  have hkeyed : (s.detachPort p).OffersKeyed := h.offersKeyed k
  have hgive := hkeyed.port_giveUpSlots h.parties_nodup p .detached (s.ownSlots_nodup p) q
  obtain ⟨-, -, hleave⟩ := State.leaveProposal_outcome
    ((((s.detachPort p).giveUpSlots p .detached (s.ownSlots p)).dropTargetOffers p).dropOwn p) p
  have hown (u : State) : (u.dropOwn p).port q = u.port q := rfl
  have hnews : ((((s.detachPort p).giveUpSlots p .detached (s.ownSlots p)).dropTargetOffers p).dropOwn p).leaveNews p q
      = s.leaveNews p q := by
    simp [State.leaveNews, State.nextFrame]
  have hport : (s.detachPort p).port q = s.port q := by rw [State.port_detachPort, if_neg hq]
  rw [State.detached, hleave q hq, hnews, hown, State.port_dropTargetOffers, h.refusedNews_giveUpSlots k hq, hgive,
    hport, PortState.told_told, PortState.told_told, ← List.append_assoc]
  rfl

theorem State.detached_proposal (s : State) (p : Port) :
    (s.detached p).1.proposal = (s.proposal.left p s.frameCounter).1
      ∧ (s.detached p).2.code = (s.proposal.left p s.frameCounter).2 := by
  obtain ⟨hproposal, hcode, -⟩ := State.leaveProposal_outcome
    ((((s.detachPort p).giveUpSlots p .detached (s.ownSlots p)).dropTargetOffers p).dropOwn p) p
  have hfields : ((((s.detachPort p).giveUpSlots p .detached (s.ownSlots p)).dropTargetOffers p).dropOwn p).proposal
        = s.proposal
      ∧ ((((s.detachPort p).giveUpSlots p .detached (s.ownSlots p)).dropTargetOffers p).dropOwn p).frameCounter
        = s.frameCounter := by simp
  obtain ⟨hp, hf⟩ := hfields
  rw [hp, hf] at hproposal hcode
  exact ⟨hproposal, hcode⟩

end

/-- Settles O39: each part by its own lemma; the port itself is DETACHED from the start and told nothing. -/
theorem detachLeavesEveryTable : Obligations.DetachLeavesEveryTable := by
  refine ⟨?_, ?_⟩
  · intro s p hsched hids hp ht cools
    have hcools : (s.deselect p).heldAmong ((s.deselect p).ownSlots p) = cools.length :=
      hsched.heldAmong_eq fun n hn => State.mem_ownSlots.1 hn
    have hfields : ((s.deselect p).detached p).1.requests = s.requests.filter (fun r => r.port != p)
        ∧ ((s.deselect p).detached p).1.edits = s.edits.filter (fun e => e.issuer != p)
        ∧ ((s.deselect p).detached p).1.driveCut = s.driveCut.set p true := by
      simp [State.detached, State.dropOwn, State.detachPort, PerPort.insert]
    obtain ⟨hrequests, hedits, hcut⟩ := hfields
    refine ⟨_, ((s.deselect p).detached p).2.code, exec_detach_of_attached ht hp, ?_, fun n hn => ?_, ?_, ?_, ?_, ?_, ?_⟩ <;>
      rw [detachAnswer, State.settle_ok]
    · rw [State.port_reply, if_pos rfl, State.port_detached_self, State.port_deselect, if_pos rfl, hcools,
        State.pendingCount_eq_length_filter, State.editCount]
      simp only [List.countP_eq_length_filter]
      rfl
    · exact State.entryAt_detached (s.deselect p) p hn
    · exact hrequests
    · exact hedits
    · exact State.ScheduleOk.offers_detached (hsched.deselect p) hids
    · exact hcut
    · exact congrArg (fun u : State => { u with ports := s.ports }) ((s.deselect p).detached_frame p)
  · intro s p hsched hids hp ht leave final outcome proposalNotices
    obtain ⟨hproposal, hcode⟩ := (s.deselect p).detached_proposal p
    refine ⟨_, exec_detach_of_attached ht hp, ?_, ?_, fun q hq => ?_⟩ <;> rw [detachAnswer, State.settle_ok]
    · exact hproposal
    · rw [State.port_reply, if_pos rfl, hcode]
      rfl
    · rw [State.port_reply, if_neg hq, State.ScheduleOk.port_detached (hsched.deselect p) hids hq, State.port_deselect,
        if_neg hq]
      rfl

end Sys2Proof.Machine
end

section
/-! SUPPORT. The proof of the statement about PLAN_APPLICATION: what the revoked slots, the requests and the timed edits
tell each port, and what the command publishes beside the commit step. -/

-- One proof after another: many at once take more memory than the check allows.
set_option Elab.async false

namespace Sys2Proof.Machine

open Sys2Proof

/-! ### Slots revoked (R103, R133) -/

/-- What port `q` is told when slot `n` is revoked. -/
def State.revokedNews (s : State) (n : Nat) (q : Port) : List Notice :=
  s.clearedNews n ⟨.revoked, some .plan, some (entryAt s.staged n).tag, some n, none, none, none, s.nextFrame⟩ .plan q

/-- Revoking one slot changes nothing of what another would tell. -/
theorem State.OffersKeyed.revokedNews_revokeSlot {s : State} (h : s.OffersKeyed) {n m : Nat} (hm : m ≠ n) (q : Port) :
    (s.revokeSlot n).revokedNews m q = s.revokedNews m q := by
  have hentry : entryAt (s.revokeSlot n).staged m = entryAt s.staged m := by
    rw [State.revokeSlot_staged, State.entryAt_setStaged_ne s hm]
  have hoffers : (s.revokeSlot n).offers.filter (fun o => o.slot == m && o.target == q)
      = s.offers.filter (fun o => o.slot == m && o.target == q) := by
    rw [h.revokeSlot_offers, List.filter_filter]
    refine List.filter_congr fun o _ => ?_
    by_cases ho : o.slot = m
    · simp [ho, hm]
    · simp [ho]
  have hnext : (s.revokeSlot n).nextFrame = s.nextFrame := by simp [State.nextFrame]
  rw [State.revokedNews, State.revokedNews, State.clearedNews, State.clearedNews, State.voidedOn, State.voidedOn,
    hentry, hoffers, hnext]

theorem State.OffersKeyed.port_revokeSlots {s : State} (h : s.OffersKeyed)
    (hnd : ∀ n, (entryAt s.staged n).parties.Nodup) {ns : List Nat} (hns : ns.Nodup) (q : Port) :
    (ns.foldl State.revokeSlot s).port q = (s.port q).told (ns.flatMap (fun n => s.revokedNews n q)) := by
  induction ns generalizing s with
  | nil => exact (PortState.told_nil _).symm
  | cons n ns ih =>
    obtain ⟨hn, hns⟩ := List.nodup_cons.1 hns
    have hnd' : ∀ m, (entryAt (s.revokeSlot n).staged m).parties.Nodup := fun m => by
      rw [State.revokeSlot_staged, State.entryAt_setStaged]
      split
      · exact List.nodup_nil
      · exact hnd m
    have hrest : ns.flatMap (fun m => (s.revokeSlot n).revokedNews m q) = ns.flatMap (fun m => s.revokedNews m q) :=
      List.flatMap_congr fun m hm => h.revokedNews_revokeSlot (ne_of_mem_of_not_mem hm hn) q
    rw [List.foldl_cons, ih (h.of_sublist (s.revokeSlot_offers_sublist n)) hnd' hns, hrest, h.port_revokeSlot (hnd n),
      PortState.told_told, List.flatMap_cons]
    rfl

theorem State.OffersKeyed.revokeSlots_offers {s : State} (h : s.OffersKeyed) (ns : List Nat) :
    (ns.foldl State.revokeSlot s).offers = s.offers.filter (fun o => !ns.contains o.slot) := by
  induction ns generalizing s with
  | nil => simp
  | cons n ns ih =>
    rw [List.foldl_cons, ih (h.of_sublist (s.revokeSlot_offers_sublist n)), h.revokeSlot_offers, List.filter_filter]
    refine List.filter_congr fun o _ => ?_
    rw [List.contains_cons, Bool.not_or, Bool.and_comm]
    rfl

/-! ### Timed edits and PLAN_IN_FORCE (R118, R131) -/

theorem State.dropEdits_eq_toldAll (s : State) (slots : Nat) :
    s.dropEdits slots = { s with edits := s.edits.filter (fun e => !e.beyond slots) }.toldAll
      (fun q => (s.edits.filter (fun e : Edit => e.issuer == q && e.beyond slots)).map
        (fun e => s.editFailedNotice e .plan)) := by
  rw [State.dropEdits, State.deliver_eq_toldAll]
  refine congrArg _ (funext fun q => ?_)
  rw [List.filter_map, List.map_map, List.filter_filter]
  rfl

theorem State.announcePlan_eq_toldAll (s : State) :
    s.announcePlan = s.toldAll (fun q => [⟨.planInForce, none, none, none, some (s.quota q), none, none, s.nextFrame⟩]) := by
  rw [State.announcePlan, State.deliver_eq_toldAll]
  refine congrArg _ (funext fun q => ?_)
  cases q <;> rfl

/-! ### The plan applied (R131) -/

/-- What the application of a plan with `new` slots per frame in place of `old` tells port `q` (R131, parts 2 to 5). -/
def State.planNews (s : State) (terms : PlanTerms) (q : Port) : List Notice :=
  (if terms.geometry.slots < s.slots then
    (revokedSlots s.slots terms.geometry.slots).flatMap (fun n => s.revokedNews n q)
    ++ (s.requests.filter (fun r : Record => r.port == q && r.res.beyond terms.geometry.slots)).map
      (fun r => (s.lapseNotice r .plan).2)
    ++ (s.edits.filter (fun e : Edit => e.issuer == q && e.beyond terms.geometry.slots)).map
      (fun e => s.editFailedNotice e .plan)
  else [])
  ++ [⟨.planInForce, none, none, none, some (terms.quotas.get q), none, none, s.nextFrame⟩]

/-- `s` with a new plan in use and no proposal (R131, part 1). -/
def State.replan (s : State) (terms : PlanTerms) : State :=
  { s with plan := { terms := terms, number := s.plan.number + 1 }, proposal := .none }

/-- The order of parts 2 to 4. -/
theorem State.OffersKeyed.port_shrink {s : State} (h : s.OffersKeyed) (hnd : ∀ n, (entryAt s.staged n).parties.Nodup)
    {old new : Nat} (hlt : new < old) (q : Port) :
    (s.shrink old new).port q = (s.port q).told ((revokedSlots old new).flatMap (fun n => s.revokedNews n q)
      ++ (s.requests.filter (fun r : Record => r.port == q && r.res.beyond new)).map (fun r => (s.lapseNotice r .plan).2)
      ++ (s.edits.filter (fun e : Edit => e.issuer == q && e.beyond new)).map (fun e => s.editFailedNotice e .plan)) := by
  have hns : (revokedSlots old new).Nodup := slotNumbers_nodup.filter _
  have hlapse (l : List Nat) (r : Record) :
      ((l.foldl State.revokeSlot s).lapseNotice r .plan).2 = (s.lapseNotice r .plan).2 := by
    simp [State.lapseNotice, State.notice, State.nextFrame]
  have hfailed (l : List Nat) (e : Edit) :
      ((l.foldl State.revokeSlot s).dropRequests new).editFailedNotice e .plan = s.editFailedNotice e .plan := by
    simp [State.editFailedNotice, State.notice, State.nextFrame]
  have hlists (l : List Nat) : (l.foldl State.revokeSlot s).requests = s.requests
      ∧ ((l.foldl State.revokeSlot s).dropRequests new).edits = s.edits := by simp
  obtain ⟨hrequests, hedits⟩ := hlists (revokedSlots old new)
  have hdrop : ((revokedSlots old new).foldl State.revokeSlot s).dropRequests new = _ :=
    State.lapseRecords_eq_toldAll _ _ _
  rw [State.shrink, if_pos hlt, State.dropEdits_eq_toldAll, State.port_toldAll, hedits, funext (hfailed _)]
  refine Eq.trans (congrArg (PortState.told · _) ?_) (PortState.told_told _ _ _)
  refine (congrArg (State.port · q) hdrop).trans ?_
  rw [State.port_toldAll, hrequests, funext (hlapse _)]
  refine Eq.trans (congrArg (PortState.told · _) ?_) (PortState.told_told _ _ _)
  exact h.port_revokeSlots hnd hns q

theorem State.OffersKeyed.port_applyPlan {s : State} (h : s.OffersKeyed) (hnd : ∀ n, (entryAt s.staged n).parties.Nodup)
    (terms : PlanTerms) (q : Port) : (s.applyPlan terms).port q = (s.port q).told (s.planNews terms q) := by
  have hfields : ((s.replan terms).shrink s.slots terms.geometry.slots).plan.terms = terms
      ∧ ((s.replan terms).shrink s.slots terms.geometry.slots).nextFrame = s.nextFrame := by
    simp [State.nextFrame, State.replan]
  obtain ⟨hterms, hnext⟩ := hfields
  have hannounce : (s.applyPlan terms).port q = (((s.replan terms).shrink s.slots terms.geometry.slots).port q).told
      [⟨.planInForce, none, none, none, some (terms.quotas.get q), none, none, s.nextFrame⟩] := by
    have happly : s.applyPlan terms = ((s.replan terms).shrink s.slots terms.geometry.slots).announcePlan := rfl
    rw [happly, State.announcePlan_eq_toldAll, State.port_toldAll, hnext, State.quota, hterms]
  rw [hannounce, State.planNews, ← PortState.told_told]
  refine congrArg (PortState.told · _) ?_
  split
  next hlt => exact State.OffersKeyed.port_shrink (s := s.replan terms) h hnd hlt q
  next hge => rw [State.shrink, if_neg hge, PortState.told_nil]; rfl

theorem State.ScheduleOk.applyPlan_offers {s : State} (h : s.ScheduleOk) (k : s.OfferIdsOk) (terms : PlanTerms) :
    (s.applyPlan terms).offers
      = s.offers.filter (fun o => !(decide (terms.geometry.slots ≤ o.slot) && decide (o.slot < s.slots))) := by
  have hkeyed : (s.replan terms).OffersKeyed := h.offersKeyed k
  have hshrink : (s.applyPlan terms).offers = ((s.replan terms).shrink s.slots terms.geometry.slots).offers := by
    rw [State.applyPlan, State.announcePlan_eq_toldAll]
    rfl
  rw [hshrink, State.shrink]
  split
  next hlt =>
    have hrevoked : ((((revokedSlots s.slots terms.geometry.slots).foldl State.revokeSlot (s.replan terms)).dropRequests
        terms.geometry.slots).dropEdits terms.geometry.slots).offers
        = ((revokedSlots s.slots terms.geometry.slots).foldl State.revokeSlot (s.replan terms)).offers := by simp
    rw [hrevoked, hkeyed.revokeSlots_offers]
    refine List.filter_congr fun o ho => ?_
    obtain ⟨-, -, hslot, -⟩ := h.offer ho
    simp [revokedSlots, mem_slotNumbers, hslot]
  next hge =>
    refine (List.filter_eq_self.2 fun o _ => ?_).symm
    simp only [Bool.not_eq_true', Bool.and_eq_false_iff, decide_eq_false_iff_not]
    omega

/-! ### The positions that the command publishes (R6, R22; log 4) -/

theorem Entry.schedule_eq_free {e : Entry} (h : e.schedule = Entry.free.schedule) : e = .free := by
  cases e with
  | free => rfl
  | _ => cases congrArg Prod.fst h

theorem State.publishRevoked_frame (s : State) :
    { s.publishRevoked with active := s.active, generation := s.generation, changed := s.changed } = s := rfl

theorem State.loadGeometry_frame (s : State) :
    { s.loadGeometry with
        geometry := s.geometry, frame := s.frame, recoveryCount := s.recoveryCount, edgeTimer := s.edgeTimer
        clockPhase := s.clockPhase, beacon := s.beacon } = s := by
  unfold State.loadGeometry
  dsimp only
  split <;> rfl

/-- An entry that is not FREE at or beyond S counts as a change of the schedule. -/
theorem State.publishRevoked_of_entry {s : State} (h : ∃ n, n < 64 ∧ s.slots ≤ n ∧ entryAt s.active n ≠ .free) :
    s.publishRevoked.generation = s.generation + 1 ∧ s.publishRevoked.changed = true := by
  obtain ⟨n, hn, hle, hne⟩ := h
  have hdiffer : schedulesDiffer s.active s.activeWithin = true := by
    refine (schedulesDiffer_iff _ _).2 ⟨n, hn, fun heq => hne (Entry.schedule_eq_free ?_)⟩
    rwa [State.entryAt_activeWithin, if_pos hle] at heq
  have hgeneration : s.publishRevoked.generation = s.generation + 1 := if_pos hdiffer
  refine ⟨hgeneration, ?_⟩
  have hchanged : s.publishRevoked.changed = (s.changed || s.publishRevoked.generation != s.generation) := rfl
  rw [hchanged, hgeneration]
  simp

theorem State.publishRevoked_of_free {s : State} (h : ∀ n, n < 64 → s.slots ≤ n → entryAt s.active n = .free) :
    s.publishRevoked.generation = s.generation ∧ s.publishRevoked.changed = s.changed := by
  have hsame : ¬ schedulesDiffer s.active s.activeWithin = true := by
    rw [schedulesDiffer_iff]
    rintro ⟨n, hn, hne⟩
    rw [State.entryAt_activeWithin] at hne
    split at hne
    next hle => exact hne (by rw [h n hn hle])
    next => exact hne rfl
  have hgeneration : s.publishRevoked.generation = s.generation := if_neg hsame
  refine ⟨hgeneration, ?_⟩
  have hchanged : s.publishRevoked.changed = (s.changed || s.publishRevoked.generation != s.generation) := rfl
  rw [hchanged, hgeneration]
  simp

/-! ### The statement (R130, R131) -/

theorem State.dueTerms_of_agreed {s : State} {pr : Proposal} (h : s.proposal = .agreed pr s.frameCounter) :
    s.dueTerms = some pr.terms := by
  rw [State.dueTerms, h]
  exact if_pos rfl

theorem State.dueTerms_of_not_agreed {s : State} (h : ∀ pr, s.proposal ≠ .agreed pr s.frameCounter) :
    s.dueTerms = none := by
  unfold State.dueTerms
  split
  next pr f hpr => exact if_neg fun hf => h pr (by rw [hpr, hf])
  · rfl
  · rfl

theorem exec_planApplication_of_due {s : State} {terms : PlanTerms} (hrun : s.framesRun = true)
    (h : s.dueTerms = some terms) :
    exec .planApplication s = .next (s.applyPlan terms).publishRevoked.loadGeometry := by
  change execPlanApplication s = _
  rw [execPlanApplication, h]
  exact congrArg _ (if_pos hrun)

/-- The command beside commit step 5: the same but for the Active side and the Frame Generator (log 4). -/
theorem State.planApplied_eq (s : State) (terms : PlanTerms) :
    { (s.applyPlan terms).publishRevoked.loadGeometry with
        active := s.active, generation := s.generation, changed := s.changed
        geometry := s.geometry, frame := s.frame, recoveryCount := s.recoveryCount, edgeTimer := s.edgeTimer
        clockPhase := s.clockPhase, beacon := s.beacon } = s.applyPlan terms := by
  have hfields : (s.applyPlan terms).active = s.active ∧ (s.applyPlan terms).generation = s.generation
      ∧ (s.applyPlan terms).changed = s.changed ∧ (s.applyPlan terms).geometry = s.geometry
      ∧ (s.applyPlan terms).frame = s.frame ∧ (s.applyPlan terms).recoveryCount = s.recoveryCount
      ∧ (s.applyPlan terms).edgeTimer = s.edgeTimer ∧ (s.applyPlan terms).clockPhase = s.clockPhase
      ∧ (s.applyPlan terms).beacon = s.beacon := by simp
  obtain ⟨h1, h2, h3, h4, h5, h6, h7, h8, h9⟩ := hfields
  rw [← h1, ← h2, ← h3, ← h4, ← h5, ← h6, ← h7, ← h8, ← h9]
  exact congrArg (fun u : State => { u with
    active := (s.applyPlan terms).active, generation := (s.applyPlan terms).generation
    changed := (s.applyPlan terms).changed }) (s.applyPlan terms).publishRevoked.loadGeometry_frame

theorem State.applyPlan_frame (s : State) (terms : PlanTerms) :
    { s.applyPlan terms with
        plan := s.plan, proposal := s.proposal, staged := s.staged, requests := s.requests, edits := s.edits
        offers := s.offers, ports := s.ports } = s := by
  have hfields : (s.applyPlan terms).pending = s.pending ∧ (s.applyPlan terms).resetAsserted = s.resetAsserted
      ∧ (s.applyPlan terms).active = s.active ∧ (s.applyPlan terms).generation = s.generation
      ∧ (s.applyPlan terms).geometry = s.geometry ∧ (s.applyPlan terms).frame = s.frame
      ∧ (s.applyPlan terms).frameCounter = s.frameCounter ∧ (s.applyPlan terms).changed = s.changed
      ∧ (s.applyPlan terms).driveCut = s.driveCut ∧ (s.applyPlan terms).edgeTimer = s.edgeTimer
      ∧ (s.applyPlan terms).recoveryCount = s.recoveryCount ∧ (s.applyPlan terms).clockPhase = s.clockPhase
      ∧ (s.applyPlan terms).beacon = s.beacon ∧ (s.applyPlan terms).offerCounter = s.offerCounter
      ∧ (s.applyPlan terms).editCounter = s.editCounter ∧ (s.applyPlan terms).choiceIndex = s.choiceIndex := by simp
  obtain ⟨h1, h2, h3, h4, h5, h6, h7, h8, h9, h10, h11, h12, h13, h14, h15, h16⟩ := hfields
  dsimp only
  rw [h1, h2, h3, h4, h5, h6, h7, h8, h9, h10, h11, h12, h13, h14, h15, h16]

/-- Settles O37: the five parts by their own lemmas, and what the command alone publishes. -/
theorem planApplicationRevokesAndTells : Obligations.PlanApplicationRevokesAndTells := by
  intro s pr hsched hids hrun hpr old new gone lost missing failed told
  have hdue := State.dueTerms_of_agreed hpr
  have hmin : 4 ≤ new := by
    obtain ⟨-, -, -, -, -, -, -, -, -, hproposal⟩ := hsched
    rw [hpr] at hproposal
    obtain ⟨⟨hmin, -⟩, -⟩ := hproposal
    exact hmin
  have hlost (r : Reservation) : lost r = r.beyond new := by
    unfold lost Reservation.beyond
    cases r.placement with
    | list l => rfl
    | any => exact decide_eq_decide.2 (by omega)
    | run => exact decide_eq_decide.2 (by omega)
  have hmissing (e : Edit) : missing e.action = e.beyond new := by
    obtain ⟨i, p, f, action⟩ := e
    cases action with
    | release n => rfl
    | renew n lease => rfl
    | enqueue r => exact hlost r
  have hfailed (e : Edit) : failed e = s.editFailedNotice e .plan := by
    obtain ⟨i, p, f, action⟩ := e
    cases action with
    | release n => rfl
    | renew n lease => rfl
    | enqueue r => rfl
  have htold (q : Port) : told q = s.planNews pr.terms q := by
    unfold told State.planNews
    simp only [hlost, hmissing, funext hfailed]
    rfl
  have hkeyed := hsched.offersKeyed hids
  have hcommit := s.planApplied_eq pr.terms
  have hslots : (s.applyPlan pr.terms).slots = new := by simp [State.slots, new]
  have hactive : (s.applyPlan pr.terms).active = s.active ∧ (s.applyPlan pr.terms).generation = s.generation
      ∧ (s.applyPlan pr.terms).changed = s.changed := by simp
  obtain ⟨hact, hgen, hchanged⟩ := hactive
  have hload := (s.applyPlan pr.terms).publishRevoked.loadGeometry_cases
  simp only [State.publishRevoked_fields, State.applyPlan_fields, State.applyPlan_plan] at hload
  refine ⟨_, exec_planApplication_of_due hrun hdue, ?_, ?_, ?_, ?_, ?_, ?_, ?_, ?_, fun n hn => ?_, fun n hn => ?_,
    fun hentry => ?_, fun hfree => ?_, ?_, ?_, ?_, fun q => ?_, ?_, ?_, fun u hu => ?_⟩
  · simp
  · simp
  · simp
  · rcases hload with ⟨hint, hext, hframe, -⟩ | ⟨hno, hframe, -⟩
    · rw [hframe, if_pos ⟨hint, hext⟩]
    · rw [hframe, if_neg hno]
  · rcases hload with ⟨-, -, hframe, -, hbeacon⟩ | ⟨-, hframe, -, hbeacon⟩
    · rw [hframe, hbeacon]
      rfl
    · rw [hframe]
      exact hbeacon
  · rcases hload with ⟨-, -, hframe, hrec, -⟩ | ⟨-, hframe, hrec, -⟩
    · rw [hframe, hrec]
      rfl
    · rw [hframe, hrec]
      rfl
  · simp
  · simp
  · have hentry := s.entryAt_applyPlan pr.terms n
    simp only [State.loadGeometry_fields, State.publishRevoked_fields, hentry, hn, and_true]
    refine ite_congr (propext ?_) (fun _ => rfl) fun _ => rfl
    simp [gone, new, old, State.slots]
  · simp only [State.loadGeometry_fields, State.publishRevoked_fields, State.entryAt_activeWithin, hslots, hact]
  · have hpublished := State.publishRevoked_of_entry (s := s.applyPlan pr.terms) (by rw [hslots, hact]; exact hentry)
    rw [hgen] at hpublished
    simpa only [State.loadGeometry_fields] using hpublished
  · have hpublished := State.publishRevoked_of_free (s := s.applyPlan pr.terms) (by rw [hslots, hact]; exact hfree)
    rw [hgen, hchanged] at hpublished
    simpa only [State.loadGeometry_fields] using hpublished
  · simp only [State.loadGeometry_fields, State.publishRevoked_fields, State.applyPlan_requests, hlost]
    rfl
  · simp only [State.loadGeometry_fields, State.publishRevoked_fields, State.applyPlan_edits, hmissing]
    rfl
  · simp only [State.loadGeometry_fields, State.publishRevoked_fields]
    exact hsched.applyPlan_offers hids pr.terms
  · rw [htold, State.loadGeometry_port]
    exact hkeyed.port_applyPlan hsched.parties_nodup pr.terms q
  · refine Eq.trans ?_ (s.applyPlan_frame pr.terms)
    exact congrArg (fun u : State => { u with
      plan := s.plan, proposal := s.proposal, staged := s.staged, requests := s.requests, edits := s.edits
      offers := s.offers, ports := s.ports }) hcommit
  · rw [hcommit, State.commitPlan, hdue]
  · rw [State.commitPlan, State.dueTerms_of_not_agreed hu]

end Sys2Proof.Machine
end

section
/-! SUPPORT. The shape of a commit: what the countdowns leave, the seven steps from there, and the offers that stand after
it. An offer that the countdown leaves is lost only with its giver's place in the slot, and the commit gives no such place
back. -/

-- One proof after another: many at once take more memory than the check allows.
set_option Elab.async false

namespace Sys2Proof.Machine

open Sys2Proof

/-! ### The seven steps (R17) -/

/-- The state that the last commit step publishes, with the notices of the countdowns left out. -/
def State.staging (s : State) : State :=
  s.countOffers.countDeadline.commitCooling.commitLeases.commitRotation.commitEdits.commitPlan.commitAllocator

/-- A commit is its seven steps, but for the places of the countdowns' notices (log 7). -/
theorem State.commit_eq_publish (s : State) : ∃ ps, s.commit = { s.staging.publish with ports := ps } := by
  obtain ⟨ps, h, -⟩ := s.commit_alike
  exact ⟨ps, h⟩

/-- Where nothing lapses there are no such notices. -/
theorem State.commit_of_no_lapse {s : State} (ho : s.offerLapses = []) (hp : s.proposalLapses = []) :
    s.commit = s.staging.publish := by
  have hwork : s.frameEndWork = (fun t => t.deliver []) :: (fun t => t.deliver []) :: commitSteps := by
    rw [State.frameEndWork, ho, hp]
    rfl
  rw [State.commit, hwork]
  rfl

theorem State.staging_fields (s : State) :
    s.staging.active = s.active ∧ s.staging.generation = s.generation ∧ s.staging.frameCounter = s.frameCounter := by
  simp [State.staging]

/-- The publish step counts a change of the schedule (R22). -/
theorem State.publish_generation (s : State) :
    ((∃ n, n < 64 ∧ (entryAt s.publish.active n).schedule ≠ (entryAt s.active n).schedule) →
        s.publish.generation = s.generation + 1)
      ∧ ((∀ n, n < 64 → (entryAt s.publish.active n).schedule = (entryAt s.active n).schedule) →
        s.publish.generation = s.generation) := by
  constructor
  · rintro ⟨n, hn, hne⟩
    exact if_pos ((schedulesDiffer_iff _ _).2 ⟨n, hn, hne.symm⟩)
  · intro hsame
    refine if_neg fun hdiffer => ?_
    obtain ⟨n, hn, hne⟩ := (schedulesDiffer_iff _ _).1 hdiffer
    exact hne (hsame n hn).symm

/-! ### The countdowns (R97, R129) -/

/-- What the deadline countdown makes of the proposal. -/
def ProposalState.countedDown : ProposalState → ProposalState
  | .none => .none
  | .opened pr d => if d ≤ 1 then .none else .opened pr (d - 1)
  | .agreed pr f => .agreed pr f

theorem State.countDeadline_eq (s : State) : s.countDeadline = { s with proposal := s.proposal.countedDown } := by
  unfold State.countDeadline
  split
  next pr d hpr => rw [hpr]; rfl
  next hpr => rw [hpr, ProposalState.countedDown, ← hpr]
  next pr f hpr => rw [hpr, ProposalState.countedDown, ← hpr]

theorem Offer.not_lapses (o : Offer) : (!o.lapses) = decide (2 ≤ o.left) := by
  rw [Bool.eq_iff_iff]
  simp [Offer.lapses]
  omega

theorem State.countOffers_offers (s : State) : s.countOffers.offers
    = (s.offers.filter (fun o => 2 ≤ o.left)).map (fun o => { o with left := o.left - 1 }) := by
  rw [State.countOffers, funext Offer.not_lapses]

theorem State.mem_countOffers {s : State} {x : Offer} :
    x ∈ s.countOffers.offers ↔ ∃ o ∈ s.offers, 2 ≤ o.left ∧ x = { o with left := o.left - 1 } := by
  rw [State.countOffers_offers, List.mem_map]
  simp only [List.mem_filter, decide_eq_true_eq, and_assoc, eq_comm (a := x)]

theorem State.OffersKeyed.countOffers {s : State} (h : s.OffersKeyed) : s.countOffers.OffersKeyed := by
  obtain ⟨hsorted, hnodup⟩ := h
  exact ⟨List.pairwise_map.2 (hsorted.filter _), hnodup.sublist s.countOffers_ids⟩

/-! ### The plan and the proposal (R129, R130) -/

/-- Steps 1 to 4 leave the proposal of the countdown and the plan, and step 6 those of step 5. -/
theorem State.staging_plan_proposal (s : State) :
    ((∀ pr, s.proposal ≠ .agreed pr s.frameCounter) →
        s.staging.plan = s.plan ∧ s.staging.proposal = s.proposal.countedDown)
      ∧ ∀ pr, s.proposal = .agreed pr s.frameCounter →
        s.staging.plan = ⟨pr.terms, s.plan.number + 1⟩ ∧ s.staging.proposal = .none := by
  generalize hu : s.countOffers.countDeadline.commitCooling.commitLeases.commitRotation.commitEdits = u
  have hproposal : u.proposal = s.proposal.countedDown := by
    have hcount : s.countOffers.countDeadline.proposal = s.proposal.countedDown := by
      rw [State.countDeadline_eq]
      simp
    subst hu
    simpa using hcount
  obtain ⟨hplan, hcounter⟩ : u.plan = s.plan ∧ u.frameCounter = s.frameCounter := by subst hu; simp
  have hstaging : s.staging = u.commitPlan.commitAllocator := by subst hu; rfl
  rw [hstaging]
  constructor
  · intro hnone
    have hdue : u.dueTerms = none := by
      refine State.dueTerms_of_not_agreed fun pr hpr => hnone pr ?_
      rw [hproposal, hcounter] at hpr
      cases hs : s.proposal with
      | none => rw [hs] at hpr; cases hpr
      | opened pr' d =>
        rw [hs, ProposalState.countedDown] at hpr
        split at hpr <;> cases hpr
      | agreed pr' f => rw [hs] at hpr; exact hpr
    have hsame : u.commitPlan = u := by rw [State.commitPlan, hdue]
    rw [hsame]
    simp [hplan, hproposal]
  · intro pr hpr
    have hdue : u.dueTerms = some pr.terms := by
      refine State.dueTerms_of_agreed ?_
      rw [hproposal, hcounter, hpr]
      rfl
    have happlied : u.commitPlan = u.applyPlan pr.terms := by rw [State.commitPlan, hdue]
    rw [happlied]
    simp [hplan]

/-! ### Offers kept (R101)

What each step leaves of an offer: it stays, or its giver leaves the slot and the entry is not FREE for it. -/

/-- The offer is open, or its giver is no party to the slot and the slot cannot be granted. -/
def State.Honours (o : Offer) (s : State) : Prop :=
  o ∈ s.offers ∨ (o.giver ∉ (entryAt s.staged o.slot).parties ∧ (entryAt s.staged o.slot = .free → s.slots ≤ o.slot))

/-- The same where the entry has not become FREE. -/
def State.Upholds (o : Offer) (s : State) : Prop :=
  s.OffersKeyed ∧ (o ∈ s.offers ∨ (o.giver ∉ (entryAt s.staged o.slot).parties ∧ entryAt s.staged o.slot ≠ .free))

section

variable {s t : State} {o : Offer}

theorem State.Upholds.honours (h : s.Upholds o) : s.Honours o :=
  h.2.imp id fun ⟨hgone, hfree⟩ => ⟨hgone, fun hf => absurd hf hfree⟩

/-- An operation that lets nobody join and frees no slot keeps this when what it removes of the offers is gone so. -/
theorem State.Upholds.ages (h : s.Upholds o) (k : s.Ages t) (hsub : t.offers.Sublist s.offers)
    (ho : o ∈ s.offers → o ∈ t.offers
      ∨ (o.giver ∉ (entryAt t.staged o.slot).parties ∧ entryAt t.staged o.slot ≠ .free)) : t.Upholds o := by
  obtain ⟨hkeyed, hopen | ⟨hgone, hfree⟩⟩ := h
  · exact ⟨hkeyed.of_sublist hsub, ho hopen⟩
  · obtain ⟨hwanes, hback⟩ := k o.slot
    exact ⟨hkeyed.of_sublist hsub, .inr ⟨fun hp => hgone (hwanes.parties _ hp), fun hf => hfree (hback hf)⟩⟩

theorem State.Upholds.same_offers (h : s.Upholds o) (k : s.Ages t) (he : t.offers = s.offers) : t.Upholds o :=
  h.ages k (he ▸ .refl _) fun ho => .inl (he ▸ ho)

theorem State.Upholds.endLease (h : s.Upholds o) {n : Nat} (hn : n < 64) : (s.endLease n).Upholds o := by
  refine h.ages (.endLease s n) (s.endLease_offers_sublist n) fun ho => ?_
  obtain ⟨hkeyed, -⟩ := h
  by_cases hslot : o.slot = n
  · have hcooling : entryAt (s.endLease n).staged o.slot = .cooling := by
      rw [State.endLease_staged, State.entryAt_setStaged, if_pos ⟨hslot, hn⟩]
    rw [hcooling]
    exact .inr ⟨List.not_mem_nil, by simp⟩
  · rw [hkeyed.endLease_offers]
    exact .inl (List.mem_filter.2 ⟨ho, bne_iff_ne.2 hslot⟩)

theorem State.Upholds.countLease (h : s.Upholds o) {n : Nat} (hn : n < 64) : (s.countLease n).Upholds o := by
  rcases s.countLease_cases hn with ⟨-, e⟩ | ⟨x, -, ⟨-, e⟩ | ⟨-, e⟩⟩
  · rwa [e]
  · rw [e]
    exact h.endLease hn
  · exact h.same_offers (.countLease s hn) (by rw [e]; simp)

theorem State.Upholds.rotateSlot (h : s.Upholds o) (n : Nat) : (s.rotateSlot n).Upholds o :=
  h.same_offers (.rotateSlot s n) (by simp)

/-- A slot given up by the giver of the offer on it. -/
theorem State.Upholds.giveUpSlot (h : s.Upholds o) {p : Port} (why : Reason) {n : Nat}
    (hp : p ∈ (entryAt s.staged n).parties) : (s.giveUpSlot p why n).Upholds o := by
  refine h.ages (.giveUpSlot s p why n) (s.giveUpSlot_offers_sublist p why n) fun ho => ?_
  obtain ⟨hkeyed, -⟩ := h
  by_cases hmine : o.giver = p ∧ o.slot = n
  · obtain ⟨rfl, rfl⟩ := hmine
    have h64 : o.slot < 64 := by
      by_contra hge
      rw [entryAt_of_le _ (Nat.not_lt.1 hge)] at hp
      cases hp
    have hentry : entryAt (s.giveUpSlot o.giver why o.slot).staged o.slot = (entryAt s.staged o.slot).without o.giver := by
      rw [State.entryAt_giveUpSlot, if_pos ⟨rfl, h64⟩]
    have hages := Entry.Ages.without (entryAt s.staged o.slot) o.giver
    rw [hentry, Entry.parties_without]
    refine .inr ⟨fun hm => by simp at hm, fun hf => ?_⟩
    rw [hages.free hf] at hp
    cases hp
  · rw [hkeyed.giveUpSlot_offers]
    refine .inl (List.mem_filter.2 ⟨ho, ?_⟩)
    simpa [← not_and_or] using hmine

theorem State.Upholds.notify (h : s.Upholds o) (p : Port) (n : Notice) : (s.notify p n).Upholds o :=
  h.same_offers (.of_staged (by simp)) (by simp)

theorem State.Upholds.applyHead (h : s.Upholds o) (e : Edit) : (s.applyHead e).Upholds o := by
  have htail : ({ s with edits := s.edits.tail } : State).Upholds o := h
  unfold State.applyHead State.applyEdit
  split
  next =>
    unfold State.applyRelease
    dsimp only
    split
    next hnames => exact (htail.giveUpSlot _ (List.contains_iff_mem.1 hnames)).notify _ _
    next => exact htail.notify _ _
  next => exact htail.same_offers (.applyRenew _ e _ _) (by simp)
  next => exact htail.same_offers (.of_staged (by simp)) (by simp)

/-- The plan's application revokes an offer with its slot, which is then beyond the new S (R103, R131). -/
theorem State.Upholds.applyPlan (h : s.Upholds o) (terms : PlanTerms) : (s.applyPlan terms).Honours o := by
  obtain ⟨hkeyed, hstands⟩ := h
  have hslots : (s.applyPlan terms).slots = terms.geometry.slots := by simp [State.slots]
  have hentry := s.entryAt_applyPlan terms o.slot
  by_cases hrevoked : terms.geometry.slots ≤ o.slot ∧ o.slot < s.slots ∧ o.slot < 64
  · rw [if_pos hrevoked] at hentry
    right
    rw [hentry, hslots]
    exact ⟨List.not_mem_nil, fun _ => hrevoked.1⟩
  · rw [if_neg hrevoked] at hentry
    refine hstands.imp (fun ho => ?_) fun ⟨hgone, hfree⟩ => ?_
    · have hplan : (s.applyPlan terms).offers = ((s.replan terms).shrink s.slots terms.geometry.slots).offers := by
        rw [State.applyPlan, State.announcePlan_eq_toldAll]
        rfl
      rw [hplan, State.shrink]
      split
      next hlt =>
        have hfields : ((((revokedSlots s.slots terms.geometry.slots).foldl State.revokeSlot
            (s.replan terms)).dropRequests terms.geometry.slots).dropEdits terms.geometry.slots).offers
            = ((revokedSlots s.slots terms.geometry.slots).foldl State.revokeSlot (s.replan terms)).offers := by simp
        rw [hfields, State.OffersKeyed.revokeSlots_offers (s := s.replan terms) hkeyed]
        refine List.mem_filter.2 ⟨ho, ?_⟩
        simp [revokedSlots, mem_slotNumbers]
        omega
      next => exact ho
    · rw [hentry]
      exact ⟨hgone, fun hf => absurd hf hfree⟩

theorem State.Upholds.commitPlan (h : s.Upholds o) : s.commitPlan.Honours o := by
  unfold State.commitPlan
  split
  · exact h.applyPlan _
  · exact h.honours

/-- A grant goes to FREE slots of the frame alone (R74). -/
theorem State.Honours.visit (h : s.Honours o) (r : Record) : (s.visit r).Honours o := by
  rcases s.visit_cases r with e | ⟨l, hfind, -, e⟩
  · rwa [e]
  · have hslots : (s.visit r).slots = s.slots := by simp [State.slots]
    refine h.imp (fun ho => by simpa using ho) fun ⟨hgone, hfree⟩ => ?_
    have hkept : o.slot ∉ l := fun hm => by
      obtain ⟨hf, -, hlt⟩ := State.available_spec (State.findSlots_available hfind o.slot hm)
      exact absurd (hfree hf) (Nat.not_le.2 hlt)
    have hentry : entryAt (s.visit r).staged o.slot = entryAt s.staged o.slot := by
      rw [e, State.entryAt_grant, if_neg fun hm => hkept hm.1]
    rw [hentry, hslots]
    exact ⟨hgone, hfree⟩

theorem State.Honours.same (h : s.Honours o) (h1 : t.staged = s.staged) (h2 : t.offers = s.offers)
    (h3 : t.plan = s.plan) : t.Honours o := by
  have hslots : t.slots = s.slots := by rw [State.slots, State.slots, h3]
  rwa [State.Honours, h1, h2, hslots]

theorem State.Honours.publish (h : s.Honours o) : s.publish.Honours o := h.same rfl rfl rfl

theorem State.Honours.commitAllocator (h : s.Honours o) : s.commitAllocator.Honours o := by
  have hvisits : s.visitAll.Honours o := foldl_invariant _ (State.Honours o) _ _ h fun _ r _ hu => hu.visit r
  exact hvisits.same (by simp [State.commitAllocator]) (by simp [State.commitAllocator]) (by simp [State.commitAllocator])

end

/-- An offer that the countdown leaves stands after the commit, unless its giver is no party to its slot any more. -/
theorem State.OffersKeyed.commit_honours {s : State} (h : s.OffersKeyed) {o : Offer} (ho : o ∈ s.countOffers.offers) :
    s.staging.publish.Honours o := by
  have hcooled : s.countOffers.countDeadline.commitCooling.Upholds o :=
    ⟨h.countOffers.of_sublist (by simp), .inl (by simpa using ho)⟩
  have hleases := foldl_invariant _ (State.Upholds o) slotNumbers _ hcooled fun u n hn (hu : u.Upholds o) =>
    hu.countLease (mem_slotNumbers.1 hn)
  have hrotation := foldl_invariant _ (State.Upholds o) slotNumbers _ hleases fun u n _ (hu : u.Upholds o) =>
    hu.rotateSlot n
  have hedits : (s.countOffers.countDeadline.commitCooling.commitLeases.commitRotation.commitEdits).Upholds o :=
    foldl_invariant _ (State.Upholds o) _ _ hrotation fun u e _ (hu : u.Upholds o) => hu.applyHead e
  have hstaging : s.staging.Honours o := hedits.commitPlan.commitAllocator
  exact hstaging.publish

end Sys2Proof.Machine
end

section
/-! SUPPORT. The proof of the statement about the frame end: what it publishes and loads, what stands of the offers and of
the proposal, and what the countdowns tell each port. -/

-- One proof after another: many at once take more memory than the check allows.
set_option Elab.async false

namespace Sys2Proof.Machine

open Sys2Proof

/-! ### The state after a frame end -/

theorem State.publish_published (s : State) : s.publish.active = s.publish.staged := rfl

theorem State.publish_plan_proposal (s : State) : s.publish.plan = s.plan ∧ s.publish.proposal = s.proposal :=
  ⟨rfl, rfl⟩

/-- A frame end leaves the tables, the lists, the plan and the proposal as the commit steps do. -/
theorem State.endFrame_published (s : State) :
    s.endFrame.active = s.staging.publish.active ∧ s.endFrame.staged = s.staging.publish.staged
      ∧ s.endFrame.generation = s.staging.publish.generation ∧ s.endFrame.requests = s.staging.publish.requests
      ∧ s.endFrame.offers = s.staging.publish.offers ∧ s.endFrame.edits = s.staging.publish.edits
      ∧ s.endFrame.plan = s.staging.publish.plan ∧ s.endFrame.proposal = s.staging.publish.proposal := by
  obtain ⟨ps, h⟩ := s.commit_eq_publish
  rw [State.endFrame, h]
  generalize s.staging.publish = u
  simp

/-- The CHANGED mark tells whether the generation number moved (R43). -/
theorem State.endFrame_changed (s : State) : s.endFrame.changed = (s.endFrame.generation != s.generation) := by
  simp [State.endFrame, State.finishFrame]

theorem State.endFrame_counts (s : State) :
    s.endFrame.frameCounter = s.frameCounter + 1 ∧ s.endFrame.driveCut = PerPort.all false
      ∧ s.endFrame.geometry = s.endFrame.plan.terms.geometry ∧ s.endFrame.edgeTimer = 0 ∧ s.endFrame.clockPhase = 0
      ∧ s.endFrame.pending = s.pending ∧ s.endFrame.resetAsserted = s.resetAsserted
      ∧ s.endFrame.offerCounter = s.offerCounter ∧ s.endFrame.editCounter = s.editCounter := by
  simp [State.endFrame, State.finishFrame]

/-- The load of the geometry at a frame end (R28, R29, R39). -/
theorem State.endFrame_frame (s : State) :
    (s.geometry.source = .internal ∧ s.endFrame.plan.terms.geometry.source = .external
        ∧ s.endFrame.frame = .stalled .switch 0 ∧ s.endFrame.recoveryCount = 0 ∧ s.endFrame.beacon = [])
      ∨ (¬ (s.geometry.source = .internal ∧ s.endFrame.plan.terms.geometry.source = .external)
        ∧ s.endFrame.frame = .running (.bit 0) ∧ s.endFrame.recoveryCount = s.recoveryCount
        ∧ s.endFrame.beacon = s.endFrame.beaconWord) := by
  have h := State.loadGeometry_cases
    { s.commit with
      frameCounter := s.commit.frameCounter + 1
      driveCut := PerPort.all false
      changed := s.commit.generation != s.generation
      choiceIndex := s.commit.choiceIndex + 1 }
  simpa [State.endFrame, State.finishFrame] using h

theorem State.endFrame_ports (s : State) : s.endFrame.ports = s.commit.ports := by simp [State.endFrame]

theorem PortState.told_rest (x : PortState) (l : List Notice) :
    { x.told l with notices := x.notices, lost := x.lost } = x := by
  obtain ⟨h1, h2, h3, h4, h5, h6⟩ := x.told_fields l
  dsimp only
  rw [h1, h2, h3, h4, h5, h6]

/-- The generation number and the CHANGED mark tell whether some entry's schedule changed (R22, R43). -/
theorem State.endFrame_generation (s : State) :
    ((∃ n, n < 64 ∧ (entryAt s.endFrame.active n).schedule ≠ (entryAt s.active n).schedule) →
        s.endFrame.generation = s.generation + 1 ∧ s.endFrame.changed = true)
      ∧ ((∀ n, n < 64 → (entryAt s.endFrame.active n).schedule = (entryAt s.active n).schedule) →
        s.endFrame.generation = s.generation ∧ s.endFrame.changed = false) := by
  obtain ⟨hactive, -, hgeneration, -⟩ := s.endFrame_published
  obtain ⟨hbefore, hnumber, -⟩ := s.staging_fields
  obtain ⟨hmoved, hkept⟩ := s.staging.publish_generation
  rw [hbefore, hnumber] at hmoved hkept
  rw [s.endFrame_changed, hgeneration, hactive]
  constructor
  · intro h
    rw [hmoved h]
    exact ⟨rfl, by simp⟩
  · intro h
    rw [hkept h]
    exact ⟨rfl, by simp⟩

theorem Entry.schedule_ne_iff (e f : Entry) :
    e.schedule ≠ f.schedule ↔ e.stateCode ≠ f.stateCode ∨ e.parties ≠ f.parties := by
  rw [Entry.schedule, Entry.schedule, Ne, Prod.mk.injEq, not_and_or]

/-! ### The offers (R97, R101) -/

theorem State.endFrame_offers_sublist (s : State) : s.endFrame.offers.Sublist s.countOffers.offers := by
  simpa [State.endFrame] using s.commit_offers_sublist

/-- Which offers a frame end leaves (R97, R101). -/
theorem State.ScheduleOk.endFrame_offer_iff {s : State} (h : s.ScheduleOk) (k : s.OfferIdsOk) {o : Offer}
    (ho : o ∈ s.offers) :
    { o with left := o.left - 1 } ∈ s.endFrame.offers
      ↔ 2 ≤ o.left ∧ o.giver ∈ (entryAt s.endFrame.staged o.slot).parties := by
  have hkeyed := h.offersKeyed k
  constructor
  · intro hmem
    obtain ⟨x, hx, h2, heq⟩ := State.mem_countOffers.1 (s.endFrame_offers_sublist.subset hmem)
    obtain rfl : x = o := List.inj_on_of_nodup_map hkeyed.2 hx ho (congrArg Offer.id heq).symm
    obtain ⟨-, -, -, -, hparty, -⟩ := h.endFrame.offer hmem
    exact ⟨h2, hparty⟩
  · rintro ⟨h2, hparty⟩
    obtain ⟨-, hstaged, -, -, hoffers, -⟩ := s.endFrame_published
    rw [hoffers]
    refine (hkeyed.commit_honours (State.mem_countOffers.2 ⟨o, ho, h2, rfl⟩)).resolve_right fun ⟨hgone, _⟩ => hgone ?_
    rwa [← hstaged]

/-! ### What the countdowns tell (R97, R129; log 17) -/

/-- What the offers that lapse tell port `q`. -/
theorem State.offerLapses_to (s : State) (q : Port) :
    (s.offerLapses.filter (fun x => x.1 == q)).map Prod.snd = (s.offers.filter (fun o => o.left ≤ 1)).flatMap (fun o =>
      (if q = o.giver then [s.offerNotice .offerLapsed o (s.slotTag o.slot) o.target o.kind.reason] else [])
      ++ (if q = o.target then [s.offerNotice .offerLapsed o (s.slotTag o.slot) o.giver o.kind.reason] else [])) := by
  have hone (p : Port) (n : Notice) :
      ([(p, n)].filter (fun x => x.1 == q)).map Prod.snd = if q = p then [n] else [] := by
    rw [List.filter_singleton, cond_eq_ite]
    simp only [beq_iff_eq, eq_comm (a := p)]
    split <;> rfl
  rw [State.offerLapses, List.filter_flatMap, List.map_flatMap]
  refine List.flatMap_congr fun o _ => ?_
  rw [State.offerLapseNotices, ← List.singleton_append, List.filter_append, List.map_append, hone, hone]

/-- What a proposal that lapses tells port `q`. -/
theorem State.proposalLapses_to {s : State} {pr : Proposal} (h : s.lapsingProposal = some pr) (q : Port) :
    (s.proposalLapses.filter (fun x => x.1 == q)).map Prod.snd = s.failNews pr .lapsed pr.proposer q := by
  have hone : pr.confirming.elems.filter (fun r => r == q) = if pr.confirming.get q = true then [q] else [] := by
    rw [List.filter_beq, (PerPort.elems_nodup _).count]
    simp only [PerPort.mem_elems]
    split <;> rfl
  have hlapses : s.proposalLapses = s.failNotices pr .lapsed pr.proposer := by rw [State.proposalLapses, h]
  rw [hlapses, State.failNews, State.failNotices, List.filter_map, List.map_map]
  refine (congrArg (List.map _) hone).trans ?_
  split <;> rfl

theorem State.offerLapses_of_left {s : State} (h : ∀ o ∈ s.offers, 2 ≤ o.left) : s.offerLapses = [] := by
  have hnone : s.offers.filter Offer.lapses = [] := by
    refine List.filter_eq_nil_iff.2 fun o ho hl => ?_
    have := h o ho
    have hle : o.left ≤ 1 := of_decide_eq_true hl
    omega
  rw [State.offerLapses, hnone]
  rfl

theorem State.proposalLapses_of_deadline {s : State} (h : ∀ pr d, s.proposal = .opened pr d → 2 ≤ d) :
    s.proposalLapses = [] := by
  have hnone : s.lapsingProposal = none := by
    unfold State.lapsingProposal
    split
    next pr d hpr => exact if_neg (Nat.not_le.2 (h pr d hpr))
    next => rfl
    next => rfl
  rw [State.proposalLapses, hnone]

/-! ### The frame end -/

/-- Settles O43: the frame end is its commit steps from the counted state, and then the Frame Generator's own work. -/
theorem frameEndPublishesTheStagedTable : Obligations.FrameEndPublishesTheStagedTable := by
  refine ⟨fun s hrun => ⟨s.endFrame, exec_frameEnd hrun, ?_⟩, fun s hrun => ⟨s.endFrame, exec_frameEnd hrun, ?_⟩, ?_⟩
  · obtain ⟨hactive, hstaged, -⟩ := s.endFrame_published
    obtain ⟨hcounter, hcut, hgeometry, htimer, hphase, hpending, hreset, hoffer, hedit⟩ := s.endFrame_counts
    obtain ⟨hmoved, hkept⟩ := s.endFrame_generation
    have hsettled : s.resetAsserted = false := by
      by_contra hr
      rw [State.framesRun_eq_false (.inl (by simpa using hr))] at hrun
      cases hrun
    refine ⟨hactive.trans ((State.publish_published _).trans hstaged.symm), ?_, ?_, hcounter,
      fun p => by rw [hcut, PerPort.get_all], hgeometry, ?_, ?_, htimer, hphase, fun q => ?_, hpending, hreset.trans hsettled, hoffer, hedit⟩
    · rintro ⟨n, hn, hne⟩
      exact hmoved ⟨n, hn, (Entry.schedule_ne_iff _ _).2 hne⟩
    · intro hsame
      exact hkept fun n hn => Prod.ext (hsame n hn).1 (hsame n hn).2
    · intro hfrom hto
      rcases s.endFrame_frame with ⟨-, -, h⟩ | ⟨hno, -⟩
      · exact h
      · exact absurd ⟨hfrom, hto⟩ hno
    · intro hno
      rcases s.endFrame_frame with ⟨hfrom, hto, -⟩ | ⟨-, h⟩
      · exact absurd ⟨hfrom, hto⟩ hno
      · exact h
    · obtain ⟨l, hl⟩ := s.endFrame_told q
      rw [hl]
      exact PortState.told_rest _ l
  · obtain ⟨hquiet, hdue⟩ := s.staging_plan_proposal
    obtain ⟨-, -, -, -, -, -, hplan, hproposal⟩ := s.endFrame_published
    obtain ⟨hplan', hproposal'⟩ := s.staging.publish_plan_proposal
    rw [hplan'] at hplan
    rw [hproposal'] at hproposal
    refine ⟨fun o ho => ?_, fun h k o ho => h.endFrame_offer_iff k ho, ?_, fun hnone => hplan.trans (hquiet hnone).1,
      fun pr hpr => hplan.trans (hdue pr hpr).1⟩
    · exact State.mem_countOffers.1 (s.endFrame_offers_sublist.subset ho)
    · rw [hproposal]
      by_cases hnone : ∀ pr, s.proposal ≠ .agreed pr s.frameCounter
      · refine (hquiet hnone).2.trans ?_
        cases hpr : s.proposal with
        | none => rfl
        | opened pr d => rfl
        | agreed pr f => exact (if_neg fun hf => hnone pr (by rw [hpr, hf])).symm
      · push Not at hnone
        obtain ⟨pr, hpr⟩ := hnone
        refine (hdue pr hpr).2.trans ?_
        rw [hpr]
        exact (if_pos rfl).symm
  · intro s hrun counted u lapsed failed
    have hcounted : s.countOffers.countDeadline = counted := by
      rw [State.countDeadline_eq, State.countOffers, funext Offer.not_lapses]
      rfl
    have hu : s.staging.publish = u := by rw [State.staging, hcounted]
    obtain ⟨hactive, hstaged, hgeneration, hrequests, hoffers, hedits, hplan, hproposal⟩ := s.endFrame_published
    rw [hu] at hactive hstaged hgeneration hrequests hoffers hedits hplan hproposal
    refine ⟨s.endFrame, exec_frameEnd hrun, hactive, hstaged, hgeneration, hrequests, hoffers, hedits, hplan, hproposal,
      fun q => ?_, fun hleft hopen => ?_⟩
    · have hport : s.endFrame.port q = s.commit.port q := congrArg (PerPort.get · q) s.endFrame_ports
      obtain ⟨l, hl, hlapsed, hfailed⟩ := s.commit_tells q
      rw [s.offerLapses_to q] at hlapsed
      refine ⟨l, hport.trans hl, hlapsed, ?_⟩
      unfold failed
      cases hpr : s.proposal with
      | none => exact List.nil_sublist l
      | agreed pr f => exact List.nil_sublist l
      | opened pr d =>
        dsimp only
        split
        next hlapse =>
          obtain ⟨hd, hq⟩ := hlapse
          have hlapsing : s.lapsingProposal = some pr := by
            rw [State.lapsingProposal, hpr]
            exact if_pos hd
          rwa [State.proposalLapses_to hlapsing, State.failNews, if_pos hq] at hfailed
        next => exact List.nil_sublist l
    · have hcommit : s.commit = s.staging.publish := by
        refine State.commit_of_no_lapse (State.offerLapses_of_left hleft) ?_
        exact State.proposalLapses_of_deadline hopen
      rw [s.endFrame_ports, hcommit, hu]

end Sys2Proof.Machine
end

section
/-! SUPPORT. The proof of the statement about a quiet frame end: steps 1 to 3 slot by slot, and the steps that then find
nothing to do. -/

-- One proof after another: many at once take more memory than the check allows.
set_option Elab.async false

namespace Sys2Proof.Machine

open Sys2Proof

/-! ### Steps that find nothing to do -/

theorem State.countOffers_of_nil {s : State} (h : s.offers = []) : s.countOffers = s := by
  have hsame : s.countOffers.offers = s.offers := by rw [State.countOffers_offers, h]; rfl
  exact congrArg (fun l => ({ s with offers := l } : State)) hsame

theorem State.countDeadline_of_not_open {s : State} (h : ∀ pr d, s.proposal ≠ .opened pr d) : s.countDeadline = s := by
  unfold State.countDeadline
  split
  next pr d hpr => exact absurd hpr (h pr d)
  next => rfl
  next => rfl

theorem State.commitEdits_of_none_due {s : State} (h : ∀ e ∈ s.edits, s.editDue e = false) : s.commitEdits = s := by
  have hnone : s.edits.takeWhile s.editDue = [] := by
    cases he : s.edits with
    | nil => rfl
    | cons e l => exact List.takeWhile_cons_of_neg (by simp [h e (he ▸ List.mem_cons_self ..)])
  rw [State.commitEdits, hnone]
  rfl

theorem State.commitAllocator_of_nil {s : State} (h : s.requests = []) : s.commitAllocator = s := by
  have hvisits : s.visitAll = s := by rw [State.visitAll, h]; rfl
  rw [State.commitAllocator, hvisits, State.countWaits, State.lapseRecords, h]
  exact congrArg (fun l => ({ s with requests := l } : State)) h.symm

/-! ### One slot counted down (R48, R49) -/

theorem Holding.counted_fields (h : Holding) :
    h.counted.lease = h.nextLease ∧ h.counted.renewal = none ∧ h.counted.tag = h.tag
      ∧ ∀ q, h.counted.warned.get q = (h.renewal == none && h.warned.get q) := by
  unfold Holding.counted Holding.nextLease
  split
  next hr => simp [hr]
  next l hr => simp [hr]

theorem State.dueWarning_eq (s : State) (h : Holding) (q : Port) :
    s.dueWarning h q = (s.warns q h.lease && !h.warned.get q) := by
  unfold State.dueWarning State.warns
  split
  next hx => rw [hx]; rfl
  next x hx => rw [hx]

/-- The holding that the countdown leaves (R48, R49). -/
theorem State.counted_holding (s : State) (ps : List Port) (h : Holding) :
    { h.counted with warned := s.warnedAfter ps h.counted } = s.countedHolding ps h := by
  obtain ⟨hlease, hrenewal, htag, hwarned⟩ := h.counted_fields
  have hset : s.warnedAfter ps h.counted = (s.countedHolding ps h).warned := by
    refine PerPort.eq_of_get fun q => ?_
    have hget : (s.countedHolding ps h).warned.get q
        = ((h.renewal == none && h.warned.get q) || (ps.contains q && s.warns q h.nextLease)) := by
      cases q <;> rfl
    rw [hget, State.warnedAfter_get, State.dueWarning_eq, hwarned, hlease]
    generalize (h.renewal == none && h.warned.get q) = warned
    cases warned <;> simp
  rw [hset]
  dsimp only
  rw [hlease, hrenewal, htag]
  rfl

/-- The entry that commit step 2 leaves at slot `n`. -/
def State.countedSlot (s : State) (n : Nat) : Entry :=
  match (entryAt s.staged n).holding? with
  | none => entryAt s.staged n
  | some h => if h.counted.lease = 0 then .cooling else s.countedEntry (entryAt s.staged n) h

theorem State.entryAt_countLease (s : State) {n : Nat} (hn : n < 64) (m : Nat) :
    entryAt (s.countLease n).staged m = if m = n then s.countedSlot n else entryAt s.staged m := by
  have hset (e : Entry) : entryAt (s.setStaged n e).staged m = if m = n then e else entryAt s.staged m := by
    rw [State.entryAt_setStaged]
    simp only [hn, and_true]
  unfold State.countedSlot
  rcases s.countLease_cases hn with ⟨hh, e⟩ | ⟨h, hh, ⟨h0, e⟩ | ⟨h0, e⟩⟩
  · rw [e, hh]
    split
    next hm => rw [hm]
    next => rfl
  · simp only [hh, if_pos h0, e]
    rw [State.endLease_staged]
    exact hset _
  · simp only [hh, if_neg h0, e, State.notifyAll_fields]
    exact hset _

theorem State.countedSlot_parties (s : State) (n : Nat) :
    (s.countedSlot n).parties = (entryAt s.staged n).parties ∨ (s.countedSlot n).parties = [] := by
  unfold State.countedSlot
  split
  · exact .inl rfl
  · split
    · exact .inr rfl
    · exact .inl (Entry.withHolding_parties _ _)

/-- What the countdown of slot `n` tells a port, with no offer on it (R48, R49). -/
theorem State.port_countLease {s : State} (ho : s.offers = []) {n : Nat} (hn : n < 64)
    (hnd : (entryAt s.staged n).parties.Nodup) (q : Port) :
    (s.countLease n).port q = (s.port q).told (s.leaseNotices q n) := by
  have hkeyed : s.OffersKeyed := by simp [State.OffersKeyed, ho]
  have hnames : (entryAt s.staged n).names q = true ↔ q ∈ (entryAt s.staged n).parties := List.contains_iff_mem
  unfold State.leaseNotices
  rcases s.countLease_cases hn with ⟨hh, e⟩ | ⟨h, hh, hcases⟩
  · rw [e, hh]
    exact (PortState.told_nil _).symm
  · obtain ⟨hlease, -, htag, hwarned⟩ := h.counted_fields
    have htag' : (entryAt s.staged n).tag = h.tag := by rw [Entry.tag, hh]; rfl
    simp only [hh]
    rcases hcases with ⟨h0, e⟩ | ⟨h0, e⟩
    · rw [e, hkeyed.port_endLease hnd, State.clearedNews, State.voidedOn, ho, htag', if_pos (hlease.symm.trans h0)]
      by_cases hq : q ∈ (entryAt s.staged n).parties
      · simp [hnames.2 hq, hq]
      · simp [mt hnames.1 hq, hq]
    · have hdue : q ∈ (entryAt s.staged n).parties.filter (s.dueWarning h.counted)
          ↔ (entryAt s.staged n).names q = true ∧ s.warnsFor q h = true := by
        rw [List.mem_filter, hnames, State.dueWarning_eq, hlease, hwarned]
        rfl
      rw [e, State.port_notifyAll _ (hnd.filter _), if_neg fun hz => h0 (hlease.trans hz), htag, hlease]
      by_cases hq : (entryAt s.staged n).names q = true
      · by_cases hw : s.warnsFor q h = true
        · rw [if_pos (hdue.2 ⟨hq, hw⟩), hq, if_pos hw]
          rfl
        · rw [if_neg fun hd => hw (hdue.1 hd).2, hq, if_neg hw]
          exact (PortState.told_nil _).symm
      · rw [if_neg fun hd => hq (hdue.1 hd).1, if_pos (by simpa using hq)]
        exact (PortState.told_nil _).symm

/-! ### The walk over the slots

What a slot becomes, and what it tells, depends on that slot and the ports' warn thresholds alone. -/

theorem State.Told.warns {s t : State} (h : s.Told t) : t.warns = s.warns := by
  funext q l
  obtain ⟨ns, hns⟩ := h q
  simp [State.warns, hns]

theorem State.leaseNotices_congr {s t : State} (hw : t.warns = s.warns) (hf : t.frameCounter = s.frameCounter) {n : Nat}
    (he : entryAt t.staged n = entryAt s.staged n) (q : Port) : t.leaseNotices q n = s.leaseNotices q n := by
  unfold State.leaseNotices State.warnsFor State.nextFrame
  rw [he, hw, hf]

theorem State.countedSlot_congr {s t : State} (hw : t.warns = s.warns) {n : Nat}
    (he : entryAt t.staged n = entryAt s.staged n) : t.countedSlot n = s.countedSlot n := by
  have hdue (h : Holding) : t.dueWarning h = s.dueWarning h := funext fun q => by
    rw [State.dueWarning_eq, State.dueWarning_eq, hw]
  unfold State.countedSlot State.countedEntry State.warnedAfter
  rw [he]
  simp only [hdue]

/-- A walk that edits each slot by itself. -/
theorem entryAt_foldl_slots {f : State → Nat → State} {g : State → Nat → Entry}
    (hf : ∀ (s : State) n, n < 64 → ∀ m, entryAt (f s n).staged m = if m = n then g s n else entryAt s.staged m)
    (hg : ∀ (s : State) n, n < 64 → ∀ m, m ≠ n → g (f s n) m = g s m) {ns : List Nat} (hns : ns.Nodup)
    (h64 : ∀ n ∈ ns, n < 64) (s : State) (m : Nat) :
    entryAt (ns.foldl f s).staged m = if m ∈ ns then g s m else entryAt s.staged m := by
  induction ns generalizing s with
  | nil => simp
  | cons n ns ih =>
    obtain ⟨hn, hns⟩ := List.nodup_cons.1 hns
    have hlt := h64 n (List.mem_cons_self ..)
    rw [List.foldl_cons, ih hns (fun k hk => h64 k (List.mem_cons_of_mem n hk)), hf s n hlt]
    by_cases hm : m = n
    · subst hm
      rw [if_neg hn, if_pos rfl, if_pos (List.mem_cons_self ..)]
    · rw [hg s n hlt m hm, if_neg hm]
      simp only [List.mem_cons, hm, false_or]

theorem State.entryAt_commitLeases (s : State) {n : Nat} (hn : n < 64) :
    entryAt s.commitLeases.staged n = s.countedSlot n := by
  have hwalk := entryAt_foldl_slots (f := State.countLease) (g := State.countedSlot)
    (fun s n hn m => s.entryAt_countLease hn m)
    (fun s n hn m hm => State.countedSlot_congr (s.countLease_told n).warns (by
      rw [State.entryAt_countLease s hn, if_neg hm]))
    slotNumbers_nodup (fun k hk => mem_slotNumbers.1 hk) s n
  exact hwalk.trans (if_pos (mem_slotNumbers.2 hn))

/-- What commit step 2 tells a port, with no offer open (R48, R49). -/
theorem State.port_countLeases {s : State} (ho : s.offers = []) (hnd : ∀ n, (entryAt s.staged n).parties.Nodup)
    {ns : List Nat} (hns : ns.Nodup) (h64 : ∀ n ∈ ns, n < 64) (q : Port) :
    (ns.foldl State.countLease s).port q = (s.port q).told (ns.flatMap (s.leaseNotices q)) := by
  induction ns generalizing s with
  | nil => exact (PortState.told_nil _).symm
  | cons n ns ih =>
    obtain ⟨hn, hns⟩ := List.nodup_cons.1 hns
    have hlt := h64 n (List.mem_cons_self ..)
    have ho' : (s.countLease n).offers = [] := List.sublist_nil.1 (ho ▸ s.countLease_offers_sublist hlt)
    have hnd' : ∀ m, (entryAt (s.countLease n).staged m).parties.Nodup := fun m => by
      rw [State.entryAt_countLease s hlt]
      split
      · rcases s.countedSlot_parties n with e | e
        · exact e ▸ hnd n
        · exact e ▸ List.nodup_nil
      · exact hnd m
    have hrest : ns.flatMap ((s.countLease n).leaseNotices q) = ns.flatMap (s.leaseNotices q) :=
      List.flatMap_congr fun m hm => State.leaseNotices_congr (s.countLease_told n).warns (by simp) (by
        rw [State.entryAt_countLease s hlt, if_neg (ne_of_mem_of_not_mem hm hn)]) q
    rw [List.foldl_cons, ih ho' hnd' hns (fun k hk => h64 k (List.mem_cons_of_mem n hk)), hrest,
      State.port_countLease ho hlt (hnd n), PortState.told_told, List.flatMap_cons]

/-! ### The rotation (R58) -/

/-- An entry after commit step 3. -/
def Entry.rotated : Entry → Entry
  | .shared ms dr h => .shared ms (memberAfter ms dr) h
  | .beacon => .beacon
  | .free => .free
  | .held p h => .held p h
  | .cooling => .cooling

theorem State.entryAt_rotateSlot (s : State) {n : Nat} (hn : n < 64) (m : Nat) :
    entryAt (s.rotateSlot n).staged m = if m = n then (entryAt s.staged n).rotated else entryAt s.staged m := by
  have hset (e : Entry) : entryAt (s.setStaged n e).staged m = if m = n then e else entryAt s.staged m := by
    rw [State.entryAt_setStaged]
    simp only [hn, and_true]
  have hsame (h : (entryAt s.staged n).rotated = entryAt s.staged n) :
      entryAt s.staged m = if m = n then (entryAt s.staged n).rotated else entryAt s.staged m := by
    split
    next hm => rw [h, hm]
    next => rfl
  unfold State.rotateSlot
  split
  next ms dr h he => rw [hset, he]; rfl
  next he => exact hsame (by rw [he]; rfl)
  next he => exact hsame (by rw [he]; rfl)
  next he => exact hsame (by rw [he]; rfl)
  next he => exact hsame (by rw [he]; rfl)

theorem State.entryAt_commitRotation (s : State) {n : Nat} (hn : n < 64) :
    entryAt s.commitRotation.staged n = (entryAt s.staged n).rotated := by
  have hwalk := entryAt_foldl_slots (f := State.rotateSlot) (g := fun s n => (entryAt s.staged n).rotated)
    (fun s n hn m => s.entryAt_rotateSlot hn m)
    (fun s n hn m hm => by rw [State.entryAt_rotateSlot s hn, if_neg hm])
    slotNumbers_nodup (fun k hk => mem_slotNumbers.1 hk) s n
  exact hwalk.trans (if_pos (mem_slotNumbers.2 hn))

/-! ### Steps 1 to 3 -/

/-- The Staged entry of a slot after the three steps (R19, R48, R58). -/
theorem State.entryAt_quietSteps (s : State) {n : Nat} (hn : n < 64) :
    entryAt s.commitCooling.commitLeases.commitRotation.staged n = s.entryAfterFrame n := by
  have hcool := s.entryAt_commitCooling hn
  have hwarns : s.commitCooling.warns = s.warns := (State.Told.of_ports (by simp) : s.Told s.commitCooling).warns
  rw [State.entryAt_commitRotation _ hn, State.entryAt_commitLeases _ hn, State.entryAfterFrame]
  split
  next hc =>
    rw [if_pos hc] at hcool
    rw [State.countedSlot, hcool]
    rfl
  next hc =>
    rw [if_neg hc] at hcool
    rw [State.countedSlot_congr hwarns hcool, State.countedSlot]
    cases entryAt s.staged n with
    | held p h =>
      obtain ⟨hlease, -⟩ := h.counted_fields
      simp only [Entry.holding?, hlease]
      split
      · rfl
      · exact congrArg (Entry.held p) (s.counted_holding [p] h)
    | shared ms dr h =>
      obtain ⟨hlease, -⟩ := h.counted_fields
      simp only [Entry.holding?, hlease]
      split
      · rfl
      · exact congrArg (Entry.shared ms (memberAfter ms dr)) (s.counted_holding ms h)
    | beacon => rfl
    | free => rfl
    | cooling => rfl

/-- The notices of the three steps (R48, R49). -/
theorem State.ScheduleOk.port_quietSteps {s : State} (h : s.ScheduleOk) (ho : s.offers = []) (q : Port) :
    s.commitCooling.commitLeases.commitRotation.port q
      = (s.port q).told ((List.range 64).flatMap (s.leaseNotices q)) := by
  obtain ⟨-, -, hcooling, -⟩ := id h
  have hwarns : s.commitCooling.warns = s.warns := (State.Told.of_ports (by simp) : s.Told s.commitCooling).warns
  have hports : s.commitCooling.commitLeases.commitRotation.ports = s.commitCooling.commitLeases.ports
      ∧ s.commitCooling.ports = s.ports ∧ s.commitCooling.offers = s.offers := by simp
  obtain ⟨hrotated, hcooled, hoffers⟩ := hports
  have hnd : ∀ n, (entryAt s.commitCooling.staged n).parties.Nodup := fun n => by
    by_cases hn : n < 64
    · rw [State.entryAt_commitCooling s hn]
      split
      · exact List.nodup_nil
      · exact h.parties_nodup n
    · rw [entryAt_of_le _ (Nat.not_lt.1 hn)]
      exact List.nodup_nil
  have hnews : slotNumbers.flatMap (s.commitCooling.leaseNotices q) = (List.range 64).flatMap (s.leaseNotices q) := by
    refine List.flatMap_congr fun n hn => ?_
    have hlt := mem_slotNumbers.1 hn
    have hcool := s.entryAt_commitCooling hlt
    by_cases hc : entryAt s.active n = .cooling
    · rw [if_pos hc] at hcool
      have hnobody : (entryAt s.staged n).names q = false := by
        rw [Entry.names, hcooling n hlt hc]
        rfl
      unfold State.leaseNotices
      rw [hcool, hnobody]
      cases (entryAt s.staged n).holding? <;> rfl
    · rw [if_neg hc] at hcool
      exact State.leaseNotices_congr hwarns (by simp) hcool q
  calc s.commitCooling.commitLeases.commitRotation.port q = s.commitCooling.commitLeases.port q :=
        congrArg (PerPort.get · q) hrotated
    _ = (s.commitCooling.port q).told (slotNumbers.flatMap (s.commitCooling.leaseNotices q)) :=
        State.port_countLeases (hoffers.trans ho) hnd slotNumbers_nodup (fun n hn => mem_slotNumbers.1 hn) q
    _ = (s.port q).told ((List.range 64).flatMap (s.leaseNotices q)) := by
        rw [hnews, State.port, hcooled]
        rfl

/-! ### The quiet frame end -/

/-- Settles O44: steps 4 to 6 find nothing to do, so the frame end is steps 1 to 3 and the publish step. -/
theorem quietFrameEndCountsAndRotates : Obligations.QuietFrameEndCountsAndRotates := by
  intro s hrun hsched hedits hplan hrequests hoffers hopen
  have hcount : s.countOffers.countDeadline = s := by
    rw [State.countOffers_of_nil hoffers, State.countDeadline_of_not_open hopen]
  generalize hu : s.commitCooling.commitLeases.commitRotation = u
  have hfields : u.edits = s.edits ∧ u.frameCounter = s.frameCounter ∧ u.proposal = s.proposal ∧ u.plan = s.plan
      ∧ u.requests = s.requests := by
    subst hu
    simp
  obtain ⟨hued, hucounter, huprop, huplan, hureq⟩ := hfields
  have hnooffer : s.endFrame.offers = [] := by
    have hsub := s.endFrame_offers_sublist
    rwa [State.countOffers_of_nil hoffers, hoffers, List.sublist_nil] at hsub
  have hstaging : s.staging = u := by
    have hnoedit : u.commitEdits = u := by
      refine State.commitEdits_of_none_due fun e he => ?_
      rw [State.editDue, hucounter]
      exact beq_eq_false_iff_ne.2 (hedits e (hued ▸ he))
    have hnoplan : u.commitPlan = u := by
      rw [State.commitPlan, State.dueTerms_of_not_agreed]
      rwa [huprop, hucounter]
    rw [State.staging, hcount, hu, hnoedit, hnoplan, State.commitAllocator_of_nil (hureq.trans hrequests)]
  obtain ⟨hactive, hstaged, -, hreq, -, hed, hpl, hprop⟩ := s.endFrame_published
  rw [hstaging] at hactive hstaged hreq hed hpl hprop
  have hentry : ∀ n, n < 64 → entryAt u.staged n = s.entryAfterFrame n := fun n hn => by
    rw [← hu]
    exact s.entryAt_quietSteps hn
  refine ⟨s.endFrame, exec_frameEnd hrun, fun n hn => ⟨?_, ?_⟩, fun q => ?_, hreq.trans (hureq.trans hrequests),
    hnooffer, hed.trans hued, hpl.trans huplan, hprop.trans huprop⟩
  · rw [hactive]
    exact hentry n hn
  · rw [hstaged]
    exact hentry n hn
  · have hcommit : s.commit = u.publish := by
      rw [State.commit_of_no_lapse, hstaging]
      · exact State.offerLapses_of_left fun o ho => absurd ho (hoffers ▸ List.not_mem_nil)
      · exact State.proposalLapses_of_deadline fun pr d hpr => absurd hpr (hopen pr d)
    have hports : s.endFrame.ports = u.ports := by
      rw [s.endFrame_ports, hcommit]
      rfl
    rw [← hsched.port_quietSteps hoffers q, hu]
    exact congrArg (PerPort.get · q) hports

end Sys2Proof.Machine
end
